-- ==== Sys2Proof/Word.lean ====
section
/-! DEFINITION. The word types of LZ4CB (spec/00_scope.md R9, R10). -/

namespace Sys2Proof

/-- A byte: an unsigned 8-bit value (R9). -/
abbrev Byte := BitVec 8

/-- A register value: 32 bits (spec/10_state.md R23). -/
abbrev Word := BitVec 32

/-- A finite sequence of bytes (R9). -/
abbrev Bytes := List Byte

end Sys2Proof
end

