-- ==== Sys2Proof/Machine/Params.lean ====
section
/-! DEFINITION. The fixed values of spec/00_scope.md R7. -/

namespace Sys2Proof.Machine

/-- `WIN_SIZE`: how many bytes a dictionary window retains. -/
def winSize : Nat := 65536

/-- `MAX_OFFSET`: the largest back-reference offset. -/
def maxOffset : Nat := 65535

/-- `MINMATCH`: the shortest match. -/
def minMatch : Nat := 4

/-- `MFLIMIT`: how far from the end of the block a match must start. -/
def mfLimit : Nat := 12

/-- `LASTLITERALS`: how many bytes at the end of a block are literals. -/
def lastLiterals : Nat := 5

/-- `MAX_INPUT`: the largest encoder input. -/
def maxInput : Nat := 0x7E000000

/-- The size of the host address space, `2^ADDR_W`. -/
def addrSpace : Nat := 2 ^ 32

/-- The size of the register window in bytes: `CSR_WORDS` words of four bytes. -/
def csrWindow : Nat := 256

end Sys2Proof.Machine
end

