-- ==== Sys2Proof/Syntax.lean ====
section
/-! DEFINITION. The instructions of LZ4CB, one constructor per row of spec/opcode_table.json: the fifteen legal command
words (spec/30_encoding.md R81) and the twelve elements of the wire formats (R84 to R97), which spec/00_scope.md R2 calls the
two levels of the instruction set. Beside them the token streams of R103, which the block encoder chooses. -/

namespace Sys2Proof

inductive Instr where
  /-- `BLK_BOUND`, 0x00000001 (R140). -/
  | blkBound
  /-- `BLK_ENCODE`, 0x00000002 (R141). -/
  | blkEncode
  /-- `BLK_DECODE`, 0x00000003 (R142). -/
  | blkDecode
  /-- `SES_ENC_RESET`, 0x00000004, unlinked (R173). -/
  | sesEncReset
  /-- `SES_ENC_RESET.LINKED`, 0x00000104 (R173). -/
  | sesEncResetLinked
  /-- `SES_ENC`, 0x00000005 (R174). -/
  | sesEnc
  /-- `SES_DEC_RESET`, 0x00000006, unlinked (R175). -/
  | sesDecReset
  /-- `SES_DEC_RESET.LINKED`, 0x00000106 (R175). -/
  | sesDecResetLinked
  /-- `SES_DEC`, 0x00000007 (R176). -/
  | sesDec
  /-- `FENC_OPEN`, 0x00000008 (R197). -/
  | fencOpen
  /-- `FENC_WRITE`, 0x00000009 (R198). -/
  | fencWrite
  /-- `FENC_CLOSE`, 0x0000000A (R199). -/
  | fencClose
  /-- `FDEC_OPEN`, 0x0000000B (R226). -/
  | fdecOpen
  /-- `FDEC_READ`, 0x0000000C (R227). -/
  | fdecRead
  /-- `FDEC_READ.TO_END`, 0x0000020C (R227). -/
  | fdecReadToEnd
  /-- `TOKEN`: the literal-length and match-length nibbles (R85). -/
  | token (ll ml : BitVec 4)
  /-- `LENEXT`: `ffs` bytes of 255, then one byte below 255 (R84). -/
  | lenext (ffs : Nat) (final : Byte)
  /-- `OFFSET`: the 16-bit little-endian offset (R86). -/
  | offset (off : BitVec 16)
  /-- `SEQ(lit, off, len)`: a whole sequence with a match (R87, R103). -/
  | seq (lit : Bytes) (off : BitVec 16) (len : Nat)
  /-- `LAST(lit)`: the last sequence of a block (R87, R103). -/
  | last (lit : Bytes)
  /-- `MAGIC`: 0x184D2204 (R91). -/
  | magic
  /-- `FLG`: the five flags of a legal FLG byte (R92). -/
  | flg (bIndep bCsum cSize cCsum dictId : Bool)
  /-- `BD`: the block maximum size code (R93). -/
  | bd (id : BitVec 3)
  /-- `HC`: the header checksum byte (R94). -/
  | hc (sum : Byte)
  /-- `BLOCKWORD_LZ4`: a record word with bit 31 clear (R95). -/
  | blockwordLz4 (size : BitVec 31)
  /-- `BLOCKWORD_RAW`: a record word with bit 31 set (R95). -/
  | blockwordRaw (size : BitVec 31)
  /-- `END_MARK`: the zero record word (R97). -/
  | endMark
  deriving DecidableEq, Repr

/-- `SEQ(lit, off, len)` of a token stream (R103), as the block encoder chooses it. -/
structure MatchSeq where
  lit : Bytes
  off : Nat
  len : Nat
  deriving DecidableEq, Repr, Inhabited

/-- A sequence list `[s1, ..., sm]`: every element but the last is a `SEQ`, the last is `LAST(last)`, so condition (a) of
spec/40_block_codec.md R131 holds of every value of this type. -/
structure TokenStream where
  seqs : List MatchSeq
  last : Bytes
  deriving DecidableEq, Repr, Inhabited

end Sys2Proof
end

