-- ==== Sys2Proof/WellFormed.lean ====
section
/-! DEFINITION. Which terms of `Instr` are instructions: the constraints spec/30_encoding.md puts on fields beyond their
widths. -/

namespace Sys2Proof

/-- The instruction can be written down in the encodings of spec/30_encoding.md. -/
def Instr.wf : Instr → Bool
  | .blkBound | .blkEncode | .blkDecode | .sesEncReset | .sesEncResetLinked | .sesEnc | .sesDecReset
  | .sesDecResetLinked | .sesDec | .fencOpen | .fencWrite | .fencClose | .fdecOpen | .fdecRead | .fdecReadToEnd => true
  | .token _ _ => true
  | .lenext _ final => final != 255          -- R84: the last extension byte is below 255
  | .offset _ => true
  | .seq _ _ len => decide (4 ≤ len)         -- R85: MINMATCH is the shortest match
  | .last _ => true
  | .magic => true
  | .flg _ _ _ _ _ => true
  | .bd id => decide (4 ≤ id.toNat)          -- R93: codes 0 to 3 are reserved
  | .hc _ => true
  | .blockwordLz4 size => size != 0          -- R95: W = 0 is the End Mark
  | .blockwordRaw _ => true
  | .endMark => true

end Sys2Proof
end

