-- ==== Sys2Proof/Decode.lean ====
section
/-! DEFINITION. The encodings of spec/30_encoding.md: the decoder, total on any bytes and rejecting by name, and the encoder,
each written from the same tables. Which element stands next in a byte stream is not in the bytes (every byte value is a
legal token, R85): it is the parser's state. So the decoder is told the slot it reads. -/

namespace Sys2Proof

/-! ## Bits and byte order (spec/00_scope.md R10, spec/20_memory.md R63) -/

/-- `le16(v)`: two bytes, least significant first. -/
def le16 (v : BitVec 16) : Bytes := [v.extractLsb' 0 8, v.extractLsb' 8 8]

/-- `le32(v)`: four bytes, least significant first. -/
def le32 (v : Word) : Bytes := [v.extractLsb' 0 8, v.extractLsb' 8 8, v.extractLsb' 16 8, v.extractLsb' 24 8]

/-- `le64(v)`: eight bytes, least significant first. -/
def le64 (v : BitVec 64) : Bytes := le32 (v.extractLsb' 0 32) ++ le32 (v.extractLsb' 32 32)

/-- The number whose little-endian bytes are given. -/
def leNat : Bytes → Nat
  | [] => 0
  | b :: rest => b.toNat + 256 * leNat rest

/-- `LE16(s, i)`. -/
def le16At (s : Bytes) (i : Nat) : BitVec 16 := BitVec.ofNat 16 (leNat ((s.drop i).take 2))

/-- `LE32(s, i)`. -/
def le32At (s : Bytes) (i : Nat) : Word := BitVec.ofNat 32 (leNat ((s.drop i).take 4))

/-- `LE64(s, i)`. -/
def le64At (s : Bytes) (i : Nat) : BitVec 64 := BitVec.ofNat 64 (leNat ((s.drop i).take 8))

/-- The high nibble `b[7:4]`. -/
def hiNibble (b : Byte) : BitVec 4 := b.extractLsb' 4 4

/-- The low nibble `b[3:0]`. -/
def loNibble (b : Byte) : BitVec 4 := b.extractLsb' 0 4

/-! ## The decoder -/

/-- What the reader of a byte stream expects next. -/
inductive Slot where
  | command | token | lenext | offset | sequence | magic | flg | bd | hc | record
  deriving DecidableEq, Repr

/-- Why bytes are no instruction of the slot. -/
inductive Reject where
  /-- The bytes end inside the element. -/
  | truncated
  /-- The command word is not legal (R81, R98). -/
  | badOpcode
  /-- The four bytes are not the magic (R91, R99). -/
  | badMagic
  /-- A reserved field or value of a header byte (R92, R93, R99). -/
  | reservedField
  deriving DecidableEq, Repr

/-- R81: the command a word names: its reserved bits are 0, its OP is one of the twelve, and every flag bit it sets is one its
opcode allows. -/
def decodeCommand (w : Word) : Option Instr :=
  if w.extractLsb' 5 3 = 0 ∧ w.extractLsb' 10 22 = 0 then
    match (w.extractLsb' 0 5).toNat, w.getLsbD 8, w.getLsbD 9 with
    | 0x01, false, false => some .blkBound
    | 0x02, false, false => some .blkEncode
    | 0x03, false, false => some .blkDecode
    | 0x04, false, false => some .sesEncReset
    | 0x04, true, false => some .sesEncResetLinked
    | 0x05, false, false => some .sesEnc
    | 0x06, false, false => some .sesDecReset
    | 0x06, true, false => some .sesDecResetLinked
    | 0x07, false, false => some .sesDec
    | 0x08, false, false => some .fencOpen
    | 0x09, false, false => some .fencWrite
    | 0x0A, false, false => some .fencClose
    | 0x0B, false, false => some .fdecOpen
    | 0x0C, false, false => some .fdecRead
    | 0x0C, false, true => some .fdecReadToEnd
    | _, _, _ => none
  else none

/-- R84, R100: the extension bytes up to and including the first that is not 255: how many are 255, the last one, and what
follows. None where the bytes end first. -/
def scanExt : Bytes → Option (Nat × Byte × Bytes)
  | [] => none
  | b :: rest => if b = 255 then (scanExt rest).map fun (n, f, r) => (n + 1, f, r) else some (0, b, rest)

/-- The value a LENEXT element adds to its nibble's 15. -/
def extValue (ffs : Nat) (final : Byte) : Nat := 255 * ffs + final.toNat

/-- R84: the length a nibble and the bytes after it give, and what follows. -/
def nibbleLength (v : BitVec 4) (rest : Bytes) : Option (Nat × Bytes) :=
  if v = 15 then (scanExt rest).map fun (n, f, r) => (15 + extValue n f, r) else some (v.toNat, rest)

/-- R87, R100: the sequence at the head of what is left of a block. The block's end is the end of the bytes: a literal run
that reaches it belongs to the last sequence, whose ML nibble is ignored (spec/40_block_codec.md R125). -/
def decodeSequence : Bytes → Except Reject (Instr × Bytes)
  | [] => .error .truncated
  | t :: r1 =>
    match nibbleLength (hiNibble t) r1 with
    | none => .error .truncated
    | some (litLen, r2) =>
      if r2.length < litLen then .error .truncated
      else
        match r2.drop litLen with
        | [] => .ok (.last (r2.take litLen), [])
        | [_] => .error .truncated
        | b0 :: b1 :: r4 =>
          match nibbleLength (loNibble t) r4 with
          | none => .error .truncated
          | some (m, r5) => .ok (.seq (r2.take litLen) (le16At [b0, b1] 0) (m + Machine.minMatch), r5)

/-- R92: a legal FLG byte. -/
def decodeFlg (b : Byte) : Except Reject Instr :=
  if b &&& 0xC2 = 0x40 then .ok (.flg (b.getLsbD 5) (b.getLsbD 4) (b.getLsbD 3) (b.getLsbD 2) (b.getLsbD 0))
  else .error .reservedField

/-- R93: a BD byte with its reserved bits 0 and a size code that is not reserved. -/
def decodeBd (b : Byte) : Except Reject Instr :=
  if b &&& 0x8F = 0 ∧ 4 ≤ (b.extractLsb' 4 3).toNat then .ok (.bd (b.extractLsb' 4 3)) else .error .reservedField

/-- R95, R97: a record word. -/
def decodeRecord (w : Word) : Instr :=
  if w = 0 then .endMark
  else if w.getLsbD 31 then .blockwordRaw (w.extractLsb' 0 31) else .blockwordLz4 (w.extractLsb' 0 31)

/-- The instruction at the head of the bytes in a slot, and the bytes after it. -/
def decode : Slot → Bytes → Except Reject (Instr × Bytes)
  | .command, b0 :: b1 :: b2 :: b3 :: rest =>
    match decodeCommand (le32At [b0, b1, b2, b3] 0) with
    | some i => .ok (i, rest)
    | none => .error .badOpcode
  | .token, b :: rest => .ok (.token (hiNibble b) (loNibble b), rest)
  | .lenext, bs =>
    match scanExt bs with
    | some (n, f, rest) => .ok (.lenext n f, rest)
    | none => .error .truncated
  | .offset, b0 :: b1 :: rest => .ok (.offset (le16At [b0, b1] 0), rest)
  | .sequence, bs => decodeSequence bs
  | .magic, b0 :: b1 :: b2 :: b3 :: rest =>
    if le32At [b0, b1, b2, b3] 0 = 0x184D2204 then .ok (.magic, rest) else .error .badMagic
  | .flg, b :: rest => (decodeFlg b).map fun i => (i, rest)
  | .bd, b :: rest => (decodeBd b).map fun i => (i, rest)
  | .hc, b :: rest => .ok (.hc b, rest)
  | .record, b0 :: b1 :: b2 :: b3 :: rest => .ok (decodeRecord (le32At [b0, b1, b2, b3] 0), rest)
  | _, _ => .error .truncated

/-! ## The encoder -/

/-- The slot an instruction stands in. -/
def Instr.slot : Instr → Slot
  | .blkBound | .blkEncode | .blkDecode | .sesEncReset | .sesEncResetLinked | .sesEnc | .sesDecReset
  | .sesDecResetLinked | .sesDec | .fencOpen | .fencWrite | .fencClose | .fdecOpen | .fdecRead | .fdecReadToEnd => .command
  | .token _ _ => .token
  | .lenext _ _ => .lenext
  | .offset _ => .offset
  | .seq _ _ _ | .last _ => .sequence
  | .magic => .magic
  | .flg _ _ _ _ _ => .flg
  | .bd _ => .bd
  | .hc _ => .hc
  | .blockwordLz4 _ | .blockwordRaw _ | .endMark => .record

/-- R81: a command word from its OP and its two flags. -/
def commandWord (op : BitVec 5) (linked toEnd : Bool) : Word :=
  op.setWidth 32 ||| (if linked then 0x100 else 0) ||| (if toEnd then 0x200 else 0)

/-- R84: the nibble of a length. -/
def lengthNibble (n : Nat) : BitVec 4 := BitVec.ofNat 4 (min n 15)

/-- R84: the bytes of a LENEXT element. -/
def extBytes (ffs : Nat) (final : Byte) : Bytes := List.replicate ffs 255 ++ [final]

/-- R84: the extension bytes of a length: none below 15. -/
def lengthExt (n : Nat) : Bytes :=
  if n < 15 then [] else extBytes ((n - 15) / 255) (BitVec.ofNat 8 ((n - 15) % 255))

/-- R85: a token byte from its nibbles. -/
def tokenByte (ll ml : BitVec 4) : Byte := ll ++ ml

/-- R92: a FLG byte with VERSION 01. -/
def flgByte (bIndep bCsum cSize cCsum dictId : Bool) : Byte :=
  0x40 ||| (if bIndep then 0x20 else 0) ||| (if bCsum then 0x10 else 0) ||| (if cSize then 0x08 else 0) |||
    (if cCsum then 0x04 else 0) ||| (if dictId then 0x01 else 0)

/-- The bytes of an instruction, the first at the lowest address. -/
def encode : Instr → Bytes
  | .blkBound => le32 (commandWord 0x01 false false)
  | .blkEncode => le32 (commandWord 0x02 false false)
  | .blkDecode => le32 (commandWord 0x03 false false)
  | .sesEncReset => le32 (commandWord 0x04 false false)
  | .sesEncResetLinked => le32 (commandWord 0x04 true false)
  | .sesEnc => le32 (commandWord 0x05 false false)
  | .sesDecReset => le32 (commandWord 0x06 false false)
  | .sesDecResetLinked => le32 (commandWord 0x06 true false)
  | .sesDec => le32 (commandWord 0x07 false false)
  | .fencOpen => le32 (commandWord 0x08 false false)
  | .fencWrite => le32 (commandWord 0x09 false false)
  | .fencClose => le32 (commandWord 0x0A false false)
  | .fdecOpen => le32 (commandWord 0x0B false false)
  | .fdecRead => le32 (commandWord 0x0C false false)
  | .fdecReadToEnd => le32 (commandWord 0x0C false true)
  | .token ll ml => [tokenByte ll ml]
  | .lenext ffs final => extBytes ffs final
  | .offset off => le16 off
  | .seq lit off len =>
    tokenByte (lengthNibble lit.length) (lengthNibble (len - Machine.minMatch)) ::
      (lengthExt lit.length ++ lit ++ le16 off ++ lengthExt (len - Machine.minMatch))
  | .last lit => tokenByte (lengthNibble lit.length) 0 :: (lengthExt lit.length ++ lit)
  | .magic => le32 0x184D2204
  | .flg i b s c d => [flgByte i b s c d]
  | .bd id => [id.setWidth 8 <<< 4]
  | .hc sum => [sum]
  | .blockwordLz4 size => le32 (size.setWidth 32)
  | .blockwordRaw size => le32 (0x80000000 ||| size.setWidth 32)
  | .endMark => le32 0

/-! ## The opcode table's words -/

/-- The bytes of an instruction whose bits are `w`, numbered as spec/opcode_table.json numbers them: byte `k` is bits
`8*k+7 .. 8*k`. The table gives SEQ and LAST no bits: their first byte is 0 then. -/
def tableBytes (nbits w : Nat) : Bytes := (List.range (max 1 (nbits / 8))).map fun k => BitVec.ofNat 8 (w >>> (8 * k))

/-- The slots a table word of so many bits is read in, first choice first. Bits alone do not tell a command word from a record
word, nor one header byte from a token: the order is the model's (log entry 16). -/
def tableSlots (nbits : Nat) : List Slot :=
  if nbits = 32 then [.command, .magic, .record]
  else if nbits = 16 then [.offset]
  else if nbits = 8 then [.flg, .token]
  else [.sequence]

/-- The first slot in which the bytes are an instruction, with that instruction. -/
def decodeInSlots (bs : Bytes) : List Slot → Option (Slot × Instr)
  | [] => none
  | sl :: rest =>
    match decode sl bs with
    | .ok (i, _) => some (sl, i)
    | .error _ => decodeInSlots bs rest

/-- The slot and the instruction of a table word. -/
def tableWord (nbits w : Nat) : Option (Slot × Instr) :=
  decodeInSlots (tableBytes nbits w) (tableSlots nbits)

/-- The instruction the decoder reads from an instruction whose bits are `w`. -/
def decodeTableWord (nbits w : Nat) : Option Instr := (tableWord nbits w).map (·.2)

end Sys2Proof
end

