-- ==== Sys2Proof/Config.lean ====
section
/-! DEFINITION. What the platform and the implementer of LZ4CB fix (spec/00_scope.md R8, spec/92_eei_decisions.md part 4),
as plain data that the state carries and no step changes, and the free values, which the spec leaves open. -/

namespace Sys2Proof

/-- `MATCH_FINDER` (R8): the reference matcher, or the implementer's matcher number `n`, of which nothing is known but
spec/40_block_codec.md R131. -/
inductive Matcher where
  | refGreedy
  | other (n : Nat)
  deriving DecidableEq, Repr

/-- The parameters of one LZ4CB in one platform. -/
structure Config where
  /-- `CSR_BASE`, where the register window lies. -/
  csrBase : Nat
  /-- `IRQ_LINE`, the interrupt-controller input the line reaches (spec/60_exceptions.md R266). -/
  irqLine : Nat
  /-- `BSIZE_ID_MAX`, the largest block size code accepted. -/
  bsizeIdMax : Nat
  /-- `LEVEL_MIN`. -/
  levelMin : Int
  /-- `LEVEL_MAX`. -/
  levelMax : Int
  /-- `MATCH_FINDER`. -/
  matcher : Matcher
  /-- Regions `(address, length)` of the address space that map to no memory (spec/20_memory.md R68). -/
  holes : List (Nat × Nat)
  /-- Regions of memory with read side effects (spec/20_memory.md R66). -/
  volatile : List (Nat × Nat)
  deriving DecidableEq, Repr

/-- The constraints of R8 on the parameters. -/
def Config.legal (c : Config) : Bool :=
  decide (c.csrBase % 256 = 0 ∧ c.csrBase + 256 ≤ 2 ^ 32 ∧ 4 ≤ c.bsizeIdMax ∧ c.bsizeIdMax ≤ 7 ∧
    -(2 ^ 31) ≤ c.levelMin ∧ c.levelMin ≤ 0 ∧ 0 ≤ c.levelMax ∧ c.levelMax < 2 ^ 31)

/-- The reference configuration of R8, in a platform whose register window lies at 0xFF000000 and whose every other address
is plain memory. DESIGN CHOICE for the place and the memory map (log entries 1 and 2). -/
def Config.reference : Config where
  csrBase := 0xFF000000
  irqLine := 0
  bsizeIdMax := 7
  levelMin := 0
  levelMax := 0
  matcher := .refGreedy
  holes := []
  volatile := []

/-- The implementer's matcher number `n`, as a function of clamped level, history and input: FREE, no value of it is known.
The machine uses its answer where that meets R131 and the all-literal list otherwise, so that every matcher R8 allows is one
of these (log entry 3). -/
opaque Config.otherMatcher : Nat → Int → Bytes → Bytes → TokenStream

/-- A byte of any value: draw number `nonce`, for the purpose or the read numbered `use`, at an address (log entries 2, 6 and 7). -/
opaque Config.freeByte : (nonce use address : Nat) → Byte

/-- A number of any value: draw number `nonce`, for the purpose or the read numbered `use`, at an address or a place of its own. It
picks which of the bytes that stood at an address during a command a read returns (log entry 7), and what the outcome is of a command
that the spec gives no meaning to (log entry 2). -/
opaque Config.freePick : (nonce use address : Nat) → Nat

end Sys2Proof
end

