-- ==== Sys2Proof/Machine/State.lean ====
section
/-! DEFINITION. The state of LZ4CB and what surrounds it, as plain data: the register file and the contexts of
spec/10_state.md, the running command, host memory, the accesses the host will make, and the platform's parameters. -/

namespace Sys2Proof.Machine

/-- The error codes of spec/60_exceptions.md R262. -/
inductive ErrCode where
  | badOpcode | badRange | overlap | badState | badConfig
  | dstFull | srcTooLarge | truncated | offsetZero | offsetRange
  | badMagic | headerReserved | headerCsum | blockTooLarge | blockCsum | contentCsum | truncatedFrame | contentSize
  deriving DecidableEq, Repr

/-- Why the model stops. A command's own errors are next states, never faults. -/
inductive Fault where
  /-- Raised by `step` when the running command has touched memory that does not exist or LZ4CB's own register window and
  the host has no access left to make: the command never completes (spec/20_memory.md R68, spec/70_reset_and_hazards.md
  R302). Safe: the model stops where the spec calls the command stuck (log entry 4). -/
  | engineStuck
  /-- Raised by a host access to host memory at an address no memory answers, a platform bus error for which LZ4CB defines
  no behaviour (spec/20_memory.md R68). Safe (log entry 14). -/
  | hostBusError
  deriving DecidableEq, Repr

/-- Why the model gives no meaning. -/
inductive Refusal where
  /-- Raised by `exec`'s arm of an instruction that has no meaning yet. Safe: nothing follows. -/
  | notModelled (mnemonic : String)
  /-- Raised by the meaning of a wire element in a state whose engine does not expect that element next. `step` never fetches
  one there. Safe: nothing follows (log entry 13). -/
  | elementOutOfPlace
  deriving DecidableEq, Repr

/-- Host memory: the bytes that differ from what an unlisted address reads as, addresses strictly rising. -/
abbrev Memory := List Host.Cell

/-- The argument registers (spec/10_state.md R26 to R34), which are also the snapshot of spec/30_encoding.md R82. -/
structure Args where
  srcAddr : Word
  srcLen : Word
  dstAddr : Word
  dstCap : Word
  dstLen : Word
  dictAddr : Word
  dictLen : Word
  level : Word
  fcfg : Word
  csizeLo : Word
  csizeHi : Word
  dictId : Word
  readLen : Word
  deriving DecidableEq, Repr

/-- The read-only registers that report the parsed frame header and the source cursor (spec/10_state.md R36 to R39). -/
structure FdecRegs where
  hdr : Word
  csizeLo : Word
  csizeHi : Word
  dictId : Word
  srcPos : Word
  deriving DecidableEq, Repr

/-- Session states (spec/10_state.md R45). -/
inductive SessionState where
  | fresh | primed | poisoned
  deriving DecidableEq, Repr

/-- A session context, `ESES` or `DSES` (spec/10_state.md R43, R44). -/
structure Session where
  st : SessionState
  linked : Bool
  dict : Bytes
  win : Bytes
  total : BitVec 64
  deriving DecidableEq, Repr

/-- Frame encoder states (spec/10_state.md R47). -/
inductive FencState where
  | idle | opened | writing | closed | error
  deriving DecidableEq, Repr

/-- The frame encoder context (spec/10_state.md R46); `plain` is its `P`. -/
structure Fenc where
  st : FencState
  flg : Byte
  bd : Byte
  bs : Nat
  level : Int
  csize : BitVec 64
  dict : Bytes
  win : Bytes
  stage : Bytes
  plain : Bytes
  total : BitVec 64
  deriving DecidableEq, Repr

/-- Frame decoder states (spec/10_state.md R49). -/
inductive FdecState where
  | idle | awaitingHeader | readingBlocks | finished | error
  deriving DecidableEq, Repr

/-- The frame decoder context (spec/10_state.md R48); `plain` is its `P`. -/
structure Fdec where
  st : FdecState
  base : Nat
  len : Nat
  pos : Nat
  flg : Byte
  bd : Byte
  bs : Nat
  csize : BitVec 64
  dictid : Word
  dict : Bytes
  win : Bytes
  pend : Bytes
  plain : Bytes
  total : BitVec 64
  deriving DecidableEq, Repr

/-! ## The running command

The datapath of spec/10_state.md R21 and R22, which exists only while a command runs. -/

/-- What the token parser reads next (spec/40_block_codec.md R122). -/
inductive ParserPhase where
  | token | litExt | offset | matchExt
  deriving DecidableEq, Repr

/-- The token parser: the history, the output capacity, the block's unread bytes (the cursor `ip` is how many of the block's
`size` bytes are read), the output so far, and the fields of the sequence under way. -/
structure Parser where
  hist : Bytes
  cap : Nat
  size : Nat
  rest : Bytes
  out : Bytes
  phase : ParserPhase
  ml : BitVec 4
  off : Nat
  deriving DecidableEq, Repr

/-- The cursor `ip` of spec/10_state.md R22(a). -/
def Parser.ip (p : Parser) : Nat := p.size - p.rest.length

/-- What the header parser reads next (spec/43_frame_decoder.md R220). -/
inductive HeaderPhase where
  | magic | flg | bd | hc
  deriving DecidableEq, Repr

/-- The header parser: its working copy of `FDEC`, in state AWAITING_HEADER, takes the fields as they are read. -/
structure HeaderRun where
  phase : HeaderPhase
  t : Fdec
  deriving DecidableEq, Repr

/-- The record reader of `FDEC_READ` (spec/43_frame_decoder.md R227): its working copy of `FDEC`, the output so far, the
number of bytes asked for (none: to the end) and the capacity. -/
structure Reader where
  t : Fdec
  out : Bytes
  want : Option Nat
  cap : Nat
  deriving DecidableEq, Repr

/-- What a block under decode is decoded for: `BLK_DECODE`, `SES_DEC`, or a frame's record that ends at the cursor `next`. -/
inductive BlockUse where
  | block
  | session
  | frame (reader : Reader) (next : Nat)
  deriving DecidableEq, Repr

/-- How far a command that is run one wire element at a time has come. -/
inductive Progress where
  | start
  | header (h : HeaderRun)
  | block (use : BlockUse) (p : Parser)
  | record (reader : Reader)
  deriving DecidableEq, Repr

/-- A command between its start and its completion: the word written to `CMD`, the snapshot `A`, the bytes the host has
replaced in memory since the start with the value that stood there before (spec/20_memory.md R71), and the progress. -/
structure Run where
  word : Word
  args : Args
  raced : List Host.Cell
  progress : Progress
  deriving DecidableEq, Repr

/-- The engine: `STATUS.BUSY = 0` is `idle`; a stuck command never completes (spec/20_memory.md R68). -/
inductive Engine where
  | idle
  | running (r : Run)
  | stuck (r : Run)
  deriving DecidableEq, Repr

/-! ## Inputs -/

/-- What the outside does: register accesses of `width` bytes at a host address, the host's own accesses to host memory, the
WAIT loop of spec/30_encoding.md R101, and the platform's reset. -/
inductive HostOp where
  | write (addr width : Nat) (value : Word)
  | read (addr width : Nat)
  | memWrite (addr : Nat) (bytes : Bytes)
  | memRead (addr : Nat)
  | wait
  | reset
  deriving DecidableEq, Repr

/-- How much the engine does in one step: a whole command, or one wire element, whole sequences at a time where they stand in
the block complete. Spec/70_reset_and_hazards.md R306 leaves it open (log entry 12). -/
inductive Grain where
  | command | sequence | element
  deriving DecidableEq, Repr

/-- Who moves at a step: the host, the engine, or both at the same instant. -/
inductive Turn where
  | host
  | engine (g : Grain)
  | both (g : Grain)
  deriving DecidableEq, Repr

structure State where
  /-- The platform's parameters; no step changes them. -/
  cfg : Config
  /-- The argument registers. -/
  args : Args
  /-- `RESULT` (spec/10_state.md R35). -/
  result : Word
  /-- The `FDEC_*` registers. -/
  fregs : FdecRegs
  /-- `STATUS.DONE` (spec/10_state.md R25). -/
  done : Bool
  /-- `STATUS.ERR` and `STATUS.ERRCODE`: none is ERR = 0 and ERRCODE = 0. -/
  lastError : Option ErrCode
  /-- `IRQ_EN.DONE_IE` (spec/10_state.md R40). -/
  irqEn : Bool
  /-- `IRQ_STATUS.DONE_IP` (spec/10_state.md R41). -/
  irqPending : Bool
  /-- `ESES`. -/
  eses : Session
  /-- `DSES`. -/
  dses : Session
  /-- `FENC`. -/
  fenc : Fenc
  /-- `FDEC`. -/
  fdec : Fdec
  /-- The engine and the running command; `STATUS.BUSY` is that it is not idle. -/
  engine : Engine
  /-- Host memory. -/
  mem : Memory
  /-- The accesses the host will make, oldest first. The model's own field. -/
  host : List HostOp
  /-- Who moves at the coming steps. The model's own field. -/
  turns : List Turn
  /-- The value the last host read returned. The model's own field. -/
  rdata : Word
  /-- How many times free values have been drawn. The model's own field. -/
  nonce : Nat
  deriving DecidableEq, Repr

/-- Every argument register 0 (spec/10_state.md R53). -/
def Args.reset : Args where
  srcAddr := 0
  srcLen := 0
  dstAddr := 0
  dstCap := 0
  dstLen := 0
  dictAddr := 0
  dictLen := 0
  level := 0
  fcfg := 0
  csizeLo := 0
  csizeHi := 0
  dictId := 0
  readLen := 0

/-- Every `FDEC_*` register 0 (spec/10_state.md R53). -/
def FdecRegs.reset : FdecRegs where
  hdr := 0
  csizeLo := 0
  csizeHi := 0
  dictId := 0
  srcPos := 0

/-- FRESH, linked, empty (spec/10_state.md R53). -/
def Session.reset : Session where
  st := .fresh
  linked := true
  dict := []
  win := []
  total := 0

/-- IDLE, every other field 0 or empty (spec/10_state.md R53). -/
def Fenc.reset : Fenc where
  st := .idle
  flg := 0
  bd := 0
  bs := 0
  level := 0
  csize := 0
  dict := []
  win := []
  stage := []
  plain := []
  total := 0

/-- IDLE, every other field 0 or empty (spec/10_state.md R53). -/
def Fdec.reset : Fdec where
  st := .idle
  base := 0
  len := 0
  pos := 0
  flg := 0
  bd := 0
  bs := 0
  csize := 0
  dictid := 0
  dict := []
  win := []
  pend := []
  plain := []
  total := 0

/-- The machine right after reset (spec/10_state.md R53, spec/70_reset_and_hazards.md R290), with memory nothing has written,
in the reference configuration, and with no access of the host pending (log entries 1, 5, 6, 9, 10 and 11). -/
def State.reset : State where
  cfg := .reference
  args := .reset
  result := 0
  fregs := .reset
  done := false
  lastError := none
  irqEn := false
  irqPending := false
  eses := .reset
  dses := .reset
  fenc := .reset
  fdec := .reset
  engine := .idle
  mem := []
  host := []
  turns := []
  rdata := 0
  nonce := 0

end Sys2Proof.Machine
end

