-- ==== Sys2Proof/Machine/Flags.lean ====
section
/-! DEFINITION. The flags and status fields: error codes and classes (spec/60_exceptions.md R261, R262), the STATUS word and
its fields (spec/10_state.md R25, R45, R47, R49, R52), the interrupt output (spec/60_exceptions.md R266), and what the start
and the completion of a command do to them (spec/30_encoding.md R82, R83, spec/60_exceptions.md R264). -/

namespace Sys2Proof.Machine

/-- `STATUS.ERRCODE` of an error (R262). -/
def ErrCode.code : ErrCode → Byte
  | .badOpcode => 0x01
  | .badRange => 0x02
  | .overlap => 0x03
  | .badState => 0x04
  | .badConfig => 0x05
  | .dstFull => 0x20
  | .srcTooLarge => 0x21
  | .truncated => 0x22
  | .offsetZero => 0x23
  | .offsetRange => 0x24
  | .badMagic => 0x30
  | .headerReserved => 0x31
  | .headerCsum => 0x32
  | .blockTooLarge => 0x33
  | .blockCsum => 0x34
  | .contentCsum => 0x35
  | .truncatedFrame => 0x36
  | .contentSize => 0x37

/-- Usage errors are the codes 0x01 to 0x05 (R261). -/
def ErrCode.isUsage (c : ErrCode) : Bool := decide (c.code.toNat ≤ 0x05)

/-- `STATUS.ESES_ST` and `STATUS.DSES_ST` (R45). -/
def SessionState.code : SessionState → BitVec 2
  | .fresh => 0
  | .primed => 1
  | .poisoned => 2

/-- `STATUS.FENC_ST` (R47). -/
def FencState.code : FencState → BitVec 3
  | .idle => 0
  | .opened => 1
  | .writing => 2
  | .closed => 3
  | .error => 4

/-- `STATUS.FDEC_ST` (R49). -/
def FdecState.code : FdecState → BitVec 3
  | .idle => 0
  | .awaitingHeader => 1
  | .readingBlocks => 2
  | .finished => 3
  | .error => 4

/-- `STATUS.BUSY`: 1 from a command's start to its completion (R25); a stuck command never completes. -/
def State.busy (s : State) : Bool :=
  match s.engine with
  | .idle => false
  | .running _ | .stuck _ => true

/-- `STATUS.ERR` (R25). -/
def State.err (s : State) : Bool := s.lastError.isSome

/-- `STATUS.ERRCODE` (R25): 0 without an error. -/
def State.errcode (s : State) : Byte :=
  match s.lastError with
  | none => 0
  | some c => c.code

/-- The STATUS word, its fields from bit 31 down to bit 0 (R25). -/
def State.statusWord (s : State) : Word :=
  (0 : BitVec 5) ++ s.fdec.st.code ++ (0 : BitVec 1) ++ s.fenc.st.code ++ s.dses.st.code ++ s.eses.st.code ++ s.errcode ++
    (0 : BitVec 5) ++ BitVec.ofBool s.err ++ BitVec.ofBool s.done ++ BitVec.ofBool s.busy

/-- The interrupt output `IRQ = DONE_IP and DONE_IE` (R266). -/
def State.irq (s : State) : Bool := s.irqPending && s.irqEn

/-- The level of the platform's interrupt-controller input `n`, as far as LZ4CB drives it (R266). -/
def State.irqLine (s : State) (n : Nat) : Bool := n == s.cfg.irqLine && s.irq

/-- The flags at a command's start (R82). -/
def State.setStarted (s : State) : State := { s with done := false, lastError := none }

/-- The flags at a completion, with no error or with one (R83, R264): the engine is idle, DONE and DONE_IP are set. Free values
the command has drawn are used up. -/
def State.setCompleted (e : Option ErrCode) (s : State) : State :=
  { s with engine := .idle, done := true, lastError := e, irqPending := true, nonce := s.nonce + 1 }

end Sys2Proof.Machine
end

