-- ==== Sys2Proof/Machine/Memory.lean ====
section
/-! DEFINITION. Host memory (spec/20_memory.md R60, R62) and byte windows (spec/41_stream_session.md R170). -/

namespace Sys2Proof.Machine

/-- What a byte of host memory that nothing has written reads as. DESIGN CHOICE (log entry 5). -/
def Memory.unlisted : Byte := 0

/-- The canonical form: addresses strictly rising, no entry equal to what an unlisted address reads as. -/
def Memory.wf : Memory → Bool
  | [] => true
  | [(_, b)] => b != Memory.unlisted
  | (a, b) :: (a', b') :: rest => b != Memory.unlisted && decide (a < a') && Memory.wf ((a', b') :: rest)

/-- The byte at an address. -/
def Memory.read (m : Memory) (a : Nat) : Byte :=
  match m with
  | [] => Memory.unlisted
  | (k, b) :: rest => if k = a then b else Memory.read rest a

/-- The entries of bytes that stand from an address on. -/
def Memory.cells (a : Nat) : Bytes → Memory
  | [] => []
  | b :: rest => if b = Memory.unlisted then Memory.cells (a + 1) rest else (a, b) :: Memory.cells (a + 1) rest

/-- `MemWrite(A, n, v)` (R62): byte `v[i]` at `A + i`, every other byte as before. -/
def Memory.write (m : Memory) (a : Nat) (v : Bytes) : Memory :=
  if v = [] then m
  else m.filter (fun c => decide (c.1 < a)) ++ Memory.cells a v ++ m.filter (fun c => decide (a + v.length ≤ c.1))

/-- `last_k(s)` (spec/00_scope.md R9): the last `min(k, |s|)` bytes. -/
def lastBytes (k : Nat) (s : Bytes) : Bytes := s.drop (s.length - k)

/-- `WinAppend(w, D)` (spec/41_stream_session.md R170). -/
def winAppend (w d : Bytes) : Bytes := lastBytes winSize (w ++ d)

end Sys2Proof.Machine
end

