-- ==== Sys2Proof/Machine/Operands.lean ====
section
/-! DEFINITION. The operands of the commands: the argument snapshot (spec/30_encoding.md R82), the regions each command reads
and writes (spec/20_memory.md R61, spec/40_block_codec.md R148), the frame configuration bytes (spec/30_encoding.md R92, R93),
and the usage checks made on them (spec/60_exceptions.md R263). -/

namespace Sys2Proof.Machine

/-! ## Regions -/

/-- A region `[A, A+N)` as `(A, N)` (R61). -/
abbrev Region := Nat × Nat

/-- Both regions are non-empty and they intersect (R263). -/
def Region.meets (r w : Region) : Bool :=
  decide (0 < r.2 ∧ 0 < w.2 ∧ r.1 < w.1 + w.2 ∧ w.1 < r.1 + r.2)

/-- R61: well-formed, computed without wrap. -/
def Region.fits (r : Region) : Bool := decide (r.1 + r.2 ≤ addrSpace)

/-- An address lies in a region. -/
def Region.holds (r : Region) (a : Nat) : Bool := decide (r.1 ≤ a ∧ a < r.1 + r.2)

/-- Memory answers at every address of `[a, a+n)`: it lies in the address space, and no byte of it is unmapped (R68) or in
LZ4CB's own register window (spec/70_reset_and_hazards.md R302). -/
def backs (c : Config) (a n : Nat) : Bool :=
  Region.fits (a, n) && !((c.csrBase, csrWindow) :: c.holes).any (Region.meets (a, n))

/-- A region covers part of LZ4CB's own register window: engine accesses to such a region have no meaning
(spec/70_reset_and_hazards.md R302). -/
def coversCsr (c : Config) (r : Region) : Bool := Region.meets r (c.csrBase, csrWindow)

/-- A region lies over memory with read side effects, in part or as a whole (spec/20_memory.md R66). -/
def overVolatile (c : Config) (r : Region) : Bool := c.volatile.any (Region.meets r)

/-- An engine access to `n` bytes at `a`, in a region `r` of the command, goes to memory: the bytes are there and the region
does not cover the register window (log entry 17). -/
def accessible (c : Config) (r : Region) (a n : Nat) : Bool := backs c a n && !coversCsr c r

/-! ## The snapshot -/

/-- The command under way. -/
def State.run? (s : State) : Option Run :=
  match s.engine with
  | .idle => none
  | .running r | .stuck r => some r

/-- The snapshot `A` of the running command; with no command running, the registers a command started now would take. -/
def State.snapshot (s : State) : Args :=
  match s.run? with
  | some r => r.args
  | none => s.args

/-- What the host has replaced in memory since the command's start (R71). -/
def State.raced (s : State) : List Host.Cell :=
  match s.run? with
  | some r => r.raced
  | none => []

/-- The source region. -/
def Args.src (A : Args) : Region := (A.srcAddr.toNat, A.srcLen.toNat)

/-- The dictionary region. -/
def Args.dict (A : Args) : Region := (A.dictAddr.toNat, A.dictLen.toNat)

/-- The append point `DST_ADDR + DST_LEN`. -/
def Args.dstPoint (A : Args) : Nat := A.dstAddr.toNat + A.dstLen.toNat

/-- The free part of the destination, `DST_CAP - DST_LEN`. -/
def Args.room (A : Args) : Nat := A.dstCap.toNat - A.dstLen.toNat

/-- The destination window `[DST_ADDR + DST_LEN, DST_ADDR + DST_CAP)` (R61). -/
def Args.window (A : Args) : Region := (A.dstPoint, A.room)

/-- `sext_32(LEVEL)` (spec/10_state.md R30). -/
def Args.levelInt (A : Args) : Int := A.level.toInt

/-- `CSIZE_HI * 2^32 + CSIZE_LO` (spec/10_state.md R32). -/
def Args.csize (A : Args) : BitVec 64 := A.csizeHi ++ A.csizeLo

/-- `FCFG[7:0]` (spec/10_state.md R31). -/
def Args.flg (A : Args) : Byte := A.fcfg.extractLsb' 0 8

/-- `FCFG[15:8]` (spec/10_state.md R31). -/
def Args.bd (A : Args) : Byte := A.fcfg.extractLsb' 8 8

/-! ## Header bytes -/

/-- `BlockMax(id)` (R93). -/
def blockMax (id : Nat) : Nat :=
  match id with
  | 4 => 65536
  | 5 => 262144
  | 6 => 1048576
  | 7 => 4194304
  | _ => 0

/-- The size code `BD[6:4]`. -/
def bdCode (bd : Byte) : Nat := (bd.extractLsb' 4 3).toNat

/-- FLG and BD have no reserved value: version 01, reserved bits 0, size code 4 to `BSIZE_ID_MAX` (R92, R93, R99). -/
def headerLegal (c : Config) (flg bd : Byte) : Bool :=
  decide (flg &&& 0xC2 = 0x40 ∧ bd &&& 0x8F = 0 ∧ 4 ≤ bdCode bd ∧ bdCode bd ≤ c.bsizeIdMax)

/-- `FCFG` is a legal configuration (spec/42_frame_encoder.md R197). -/
def fcfgLegal (c : Config) (A : Args) : Bool :=
  decide (A.fcfg.extractLsb' 16 16 = 0) && headerLegal c A.flg A.bd

/-- B_INDEP (R92). -/
def bIndep (flg : Byte) : Bool := flg.getLsbD 5

/-- B_CSUM (R92). -/
def bCsum (flg : Byte) : Bool := flg.getLsbD 4

/-- C_SIZE (R92). -/
def cSize (flg : Byte) : Bool := flg.getLsbD 3

/-- C_CSUM (R92). -/
def cCsum (flg : Byte) : Bool := flg.getLsbD 2

/-- DICTID (R92). -/
def hasDictId (flg : Byte) : Bool := flg.getLsbD 0

/-- `hlen = 7 + 8*FLG[3] + 4*FLG[0]` (R90). -/
def headerLength (flg : Byte) : Nat := 7 + (if cSize flg then 8 else 0) + (if hasDictId flg then 4 else 0)

/-- The `FDEC_*` registers of an opened frame (spec/43_frame_decoder.md R226). -/
def Fdec.regs (t : Fdec) : FdecRegs where
  hdr := t.bd.setWidth 32 <<< 8 ||| t.flg.setWidth 32
  csizeLo := t.csize.extractLsb' 0 32
  csizeHi := t.csize.extractLsb' 32 32
  dictId := t.dictid
  srcPos := BitVec.ofNat 32 t.pos

/-! ## Usage checks -/

/-- The regions a command reads (R61). A wire element uses none of its own: its command has checked them. -/
def regionsRead (i : Instr) (s : State) (A : Args) : List Region :=
  match i with
  | .blkBound => []
  | .blkEncode | .blkDecode => [A.src, A.dict]
  | .sesEncReset | .sesEncResetLinked | .sesDecReset | .sesDecResetLinked => [A.dict]
  | .sesEnc | .sesDec => [A.src]
  | .fencOpen => [A.dict]
  | .fencWrite => [A.src]
  | .fencClose => []
  | .fdecOpen => [A.src, A.dict]
  | .fdecRead | .fdecReadToEnd => [(s.fdec.base + s.fdec.pos, s.fdec.len - s.fdec.pos)]
  | .token _ _ | .lenext _ _ | .offset _ | .seq _ _ _ | .last _ | .magic | .flg _ _ _ _ _ | .bd _ | .hc _
  | .blockwordLz4 _ | .blockwordRaw _ | .endMark => []

/-- The bytes of a frame source that `FDEC_OPEN` and `FDEC_READ` read (R61), given the working copy they read it with: all of it
while the header is parsed, else what the context's cursor has not passed. -/
def State.frameRegion (s : State) (t : Fdec) : Region :=
  if t.st = .awaitingHeader then (t.base, t.len) else (s.fdec.base + s.fdec.pos, s.fdec.len - s.fdec.pos)

/-- The command writes the destination window (R61). -/
def writesDst : Instr → Bool
  | .blkBound => false
  | .blkEncode | .blkDecode => true
  | .sesEncReset | .sesEncResetLinked | .sesDecReset | .sesDecResetLinked => false
  | .sesEnc | .sesDec => true
  | .fencOpen | .fencWrite | .fencClose => true
  | .fdecOpen => false
  | .fdecRead | .fdecReadToEnd => true
  | .token _ _ | .lenext _ _ | .offset _ | .seq _ _ _ | .last _ | .magic | .flg _ _ _ _ _ | .bd _ | .hc _
  | .blockwordLz4 _ | .blockwordRaw _ | .endMark => false

/-- A region the command uses (R61) lies over memory with read side effects: a host error, to which the spec gives no meaning. The
command's outcome is any value (spec/20_memory.md R66, log entry 2). -/
def overDevice (i : Instr) (s : State) (A : Args) : Bool :=
  (regionsRead i s A).any (overVolatile s.cfg) || (writesDst i && overVolatile s.cfg A.window)

/-- The command's destination window holds any value after an error that is no usage error (spec/60_exceptions.md R264): the
commands that write it, and `FDEC_OPEN`, whose format errors R264 names with the others (log entry 15). -/
def opensDst (i : Instr) : Bool := writesDst i || i == .fdecOpen

/-- The state of the command's context forbids it (R262, row 0x04). -/
def stateForbids (i : Instr) (s : State) : Bool :=
  match i with
  | .sesEnc => s.eses.st == .poisoned
  | .sesDec => s.dses.st == .poisoned
  | .fencWrite => !(s.fenc.st == .opened || s.fenc.st == .writing)
  | .fencClose => s.fenc.st == .idle || s.fenc.st == .error
  | .fdecRead | .fdecReadToEnd => !(s.fdec.st == .readingBlocks || s.fdec.st == .finished)
  | .blkBound | .blkEncode | .blkDecode | .sesEncReset | .sesEncResetLinked | .sesDecReset | .sesDecResetLinked
  | .fencOpen | .fdecOpen => false
  | .token _ _ | .lenext _ _ | .offset _ | .seq _ _ _ | .last _ | .magic | .flg _ _ _ _ _ | .bd _ | .hc _
  | .blockwordLz4 _ | .blockwordRaw _ | .endMark => false

/-- The command is `FENC_OPEN` and its configuration is not legal (R263). -/
def configForbids (i : Instr) (s : State) (A : Args) : Bool := i == .fencOpen && !fcfgLegal s.cfg A

/-- A region the command uses is not well-formed, or `DST_LEN > DST_CAP` (R263). -/
def rangeBad (i : Instr) (s : State) (A : Args) : Bool :=
  (regionsRead i s A).any (fun r => !Region.fits r) ||
    (writesDst i && (decide (A.dstCap.toNat < A.dstLen.toNat) || !Region.fits (A.dstAddr.toNat, A.dstCap.toNat)))

/-- The destination window overlaps a region the command reads (R263). -/
def overlapBad (i : Instr) (s : State) (A : Args) : Bool :=
  writesDst i && (regionsRead i s A).any (fun r => Region.meets r A.window)

/-- `UsageChecks` of a legal command word (R263): the first check that fails, in the order of the rule. -/
def usageError (i : Instr) (s : State) (A : Args) : Option ErrCode :=
  if stateForbids i s then some .badState
  else if configForbids i s A then some .badConfig
  else if rangeBad i s A then some .badRange
  else if overlapBad i s A then some .overlap
  else none

end Sys2Proof.Machine
end

