-- ==== Sys2Proof/Machine/BlockDecoder.lean ====
section
/-! DEFINITION. The block decoder: the token parser and the copyback (spec/40_block_codec.md R122 to R130), as the effects of
the wire elements on the parser. `DecodeBlock` is the parser run from a block's first byte to its end. -/

namespace Sys2Proof.Machine

/-- What one element does to the parser: it goes on, the block ends, or it raises. -/
inductive Parse where
  | more (p : Parser)
  | done (out : Bytes)
  | fail (c : ErrCode)
  deriving DecidableEq, Repr

/-- The parser at the first byte of a block. -/
def Parser.start (src hist : Bytes) (cap : Nat) : Parser where
  hist := hist
  cap := cap
  size := src.length
  rest := src
  out := []
  phase := .token
  ml := 0
  off := 0

/-- `M` bytes, each the one `off` positions before the end of `H ++ out` (R129, step (k)). -/
def copyMatch (y : Bytes) (off : Nat) : Nat → Bytes
  | 0 => []
  | m + 1 =>
    let b := y.getD (y.length - off) 0
    b :: copyMatch (y ++ [b]) off m

/-- The literal run of length `L` and the end of the block: steps (c), (d) and (e) (R124, R125). -/
def Parser.literals (p : Parser) (litLen : Nat) : Parse :=
  if p.rest.length < litLen then .fail .truncated
  else if p.cap < p.out.length + litLen then .fail .dstFull
  else
    let out := p.out ++ p.rest.take litLen
    if p.rest.length = litLen then .done out
    else .more { p with out := out, rest := p.rest.drop litLen, phase := .offset }

/-- The match of length `M`: steps (h), (i), (j) and (k) (R128, R129). -/
def Parser.copy (p : Parser) (m : Nat) : Parse :=
  if p.off = 0 then .fail .offsetZero
  else if p.hist.length + p.out.length < p.off then .fail .offsetRange
  else if p.cap < p.out.length + m then .fail .dstFull
  else .more { p with out := p.out ++ copyMatch (p.hist ++ p.out) p.off m, phase := .token }

/-- A token: its nibbles are latched; a literal length below 15 is whole (R122, R123). -/
def Parser.token (p : Parser) (ll ml : BitVec 4) : Parse :=
  let p := { p with rest := p.rest.drop 1, ml := ml }
  if ll = 15 then .more { p with phase := .litExt } else p.literals ll.toNat

/-- An offset: a match length below 15 is whole (R126, R127). -/
def Parser.offset (p : Parser) (off : BitVec 16) : Parse :=
  let p := { p with rest := p.rest.drop 2, off := off.toNat }
  if p.ml = 15 then .more { p with phase := .matchExt } else p.copy (p.ml.toNat + minMatch)

/-- The extension of a literal length (R123). -/
def Parser.litExt (p : Parser) (ffs : Nat) (final : Byte) : Parse :=
  { p with rest := p.rest.drop (ffs + 1) }.literals (15 + extValue ffs final)

/-- The extension of a match length (R127). -/
def Parser.matchExt (p : Parser) (ffs : Nat) (final : Byte) : Parse :=
  { p with rest := p.rest.drop (ffs + 1) }.copy (15 + extValue ffs final + minMatch)

/-- A whole sequence with a match: steps (c) to (k) in one (R87, R122). -/
def Parser.seq (p : Parser) (lit : Bytes) (off : BitVec 16) (len : Nat) : Parse :=
  if p.cap < p.out.length + lit.length then .fail .dstFull
  else
    { p with rest := p.rest.drop (encode (.seq lit off len)).length, out := p.out ++ lit, off := off.toNat,
             ml := lengthNibble (len - minMatch) }.copy len

/-- The last sequence: steps (c) to (e) in one (R87, R125). -/
def Parser.last (p : Parser) (lit : Bytes) : Parse :=
  if p.cap < p.out.length + lit.length then .fail .dstFull else .done (p.out ++ lit)

/-- The next element of the block and its effect; where the bytes end inside it, `ERR_TRUNCATED`: steps (a), (b), (f) and (g). -/
def Parser.next (p : Parser) : Parse :=
  match p.phase with
  | .token =>
    match p.rest with
    | b :: _ => p.token (hiNibble b) (loNibble b)
    | [] => .fail .truncated
  | .litExt =>
    match scanExt p.rest with
    | some (n, f, _) => p.litExt n f
    | none => .fail .truncated
  | .offset =>
    match p.rest with
    | b0 :: b1 :: _ => p.offset (le16At [b0, b1] 0)
    | _ => .fail .truncated
  | .matchExt =>
    match scanExt p.rest with
    | some (n, f, _) => p.matchExt n f
    | none => .fail .truncated

/-- The parser run to the end of the block. The first argument bounds the number of elements; each takes at least one byte, so
the block's length and one more is enough (log entry 18). -/
def Parser.run : Nat → Parser → Except ErrCode Bytes
  | 0, _ => .error .truncated
  | fuel + 1, p =>
    match p.next with
    | .more p' => Parser.run fuel p'
    | .done out => .ok out
    | .fail c => .error c

/-- `DecodeBlock(src, H, cap)` (R122). -/
def decodeBlock (src hist : Bytes) (cap : Nat) : Except ErrCode Bytes :=
  (Parser.start src hist cap).run (src.length + 1)

end Sys2Proof.Machine
end

