-- ==== Sys2Proof/Machine/BlockEncoder.lean ====
section
/-! DEFINITION. The block encoder: the output bound, the encoder contract, the token generator and the pattern matchers
(spec/40_block_codec.md R121, R131 to R135). -/

namespace Sys2Proof.Machine

/-- `Bound(n)` (R121). -/
def bound (n : Nat) : Nat := if n ≤ maxInput then n + n / 255 + 16 else 0

/-- `TokenGen(S)` (R132): the encodings of the stream's sequences, in order. -/
def tokenGen (s : TokenStream) : Bytes :=
  s.seqs.flatMap (fun m => encode (.seq m.lit (BitVec.ofNat 16 m.off) m.len)) ++ encode (.last s.last)

/-! ## The encoder contract (R131) -/

/-- Conditions (c), (d) and (e) of R131 for one sequence whose literals start at input position `p`. -/
def matchValid (h x : Bytes) (p : Nat) (m : MatchSeq) : Bool :=
  let q := p + m.lit.length
  let y := h ++ x
  decide (m.lit = (x.drop p).take m.lit.length ∧ minMatch ≤ m.len ∧ 1 ≤ m.off ∧ m.off ≤ maxOffset ∧
      m.off ≤ h.length + q ∧ q + mfLimit ≤ x.length ∧ q + m.len + lastLiterals ≤ x.length) &&
    (List.range m.len).all fun j => y[h.length + q + j]? == y[h.length + q + j - m.off]?

/-- Conditions (b) to (e) of R131 for a list of sequences from input position `p`, ending in the last literal run. -/
def seqsValid (h x : Bytes) (last : Bytes) : Nat → List MatchSeq → Bool
  | p, [] => decide (x.drop p = last)
  | p, m :: rest => matchValid h x p m && seqsValid h x last (p + m.lit.length + m.len) rest

/-- A valid sequence list for a history and an input (R131). Condition (a) is the type's. -/
def streamValid (h x : Bytes) (s : TokenStream) : Bool :=
  seqsValid h x s.last 0 s.seqs && decide ((tokenGen s).length ≤ bound x.length)

/-! ## Pattern matchers -/

/-- How far two byte sequences agree, at most `k` bytes. -/
def agreement : Bytes → Bytes → Nat → Nat
  | a :: as, b :: bs, k + 1 => if a = b then agreement as bs k + 1 else 0
  | _, _, _ => 0

/-- `LongestMatch(Y, q, lim)` (R133): the longest match and the smallest distance that gives it. -/
def longestMatch (y : Bytes) (q lim : Nat) : Nat × Nat :=
  (List.range (min maxOffset q)).foldl
    (fun best k =>
      let c := agreement (y.drop (q - (k + 1))) (y.drop q) (lim - q)
      if best.2 = 0 ∨ best.1 < c then (c, k + 1) else best)
    (0, 0)

/-- The loop of `REF_GREEDY` (R133) from an anchor and a cursor: the sequences found, and the anchor at its end. The first
argument bounds the number of turns; each turn moves the cursor on. -/
def greedyFrom (h x : Bytes) : Nat → (anchor p : Nat) → List MatchSeq × Nat
  | 0, anchor, _ => ([], anchor)
  | fuel + 1, anchor, p =>
    if p + mfLimit ≤ x.length then
      let best := longestMatch (h ++ x) (h.length + p) (h.length + x.length - lastLiterals)
      if minMatch ≤ best.1 then
        let (rest, a) := greedyFrom h x fuel (p + best.1) (p + best.1)
        (⟨(x.drop anchor).take (p - anchor), best.2, best.1⟩ :: rest, a)
      else greedyFrom h x fuel anchor (p + 1)
    else ([], anchor)

/-- `REF_GREEDY(H, X)` (R133). -/
def refGreedy (h x : Bytes) : TokenStream :=
  if mfLimit + 1 ≤ x.length then
    let (seqs, anchor) := greedyFrom h x (x.length + 1) 0 0
    ⟨seqs, x.drop anchor⟩
  else ⟨[], x⟩

/-- The all-literal stream. -/
def allLiterals (x : Bytes) : TokenStream := ⟨[], x⟩

/-- `MATCH_FINDER` (spec/00_scope.md R8): the reference matcher, or the implementer's, of which R131 is all that is known. -/
def matchFinder (c : Config) (level : Int) (h x : Bytes) : TokenStream :=
  match c.matcher with
  | .refGreedy => refGreedy h x
  | .other n =>
    let s := Config.otherMatcher n level h x
    if streamValid h x s then s else allLiterals x

/-- `Clamp(v)` of a signed level (R135). -/
def clampLevel (c : Config) (level : Int) : Int := min (max level c.levelMin) c.levelMax

/-- `EncodeBlock(X, H, level)` (R134). -/
def encodeBlock (c : Config) (x h : Bytes) (level : Int) : Bytes := tokenGen (matchFinder c (clampLevel c level) h x)

end Sys2Proof.Machine
end

