-- ==== Sys2Proof/Machine/Free.lean ====
section
/-! DEFINITION. The free values, drawn from the opaque constants of Config with the counter `nonce` of the state: bytes of any value,
and what the outcome of a command is made of that the spec gives no meaning to (spec/20_memory.md R66). Nothing can be proved of a
draw but that it is a value of its kind. -/

namespace Sys2Proof.Machine

/-- What a free value is drawn for. A number names one read of an address by a command, so that reads of one address draw
independently (R71): the source, the dictionary, the frame source, the descriptor read again for its checksum and the header
fields read again for their values (spec/43_frame_decoder.md R220, R221). The others: the destination window after an error or
a reset and under a race, a host read, and, from `useOutcome` on, the parts of a free outcome. -/
def useSrc : Nat := 0
def useDict : Nat := 1
def useFrame : Nat := 2
def useWindow : Nat := 3
def useRace : Nat := 4
def useHost : Nat := 5
def useDescriptor : Nat := 6
def useFields : Nat := 7
def useOutcome : Nat := 8

/-- Free bytes for the addresses of `[a, a+n)`. -/
def freeBytes (nonce use a n : Nat) : Bytes := (List.range n).map fun k => Config.freeByte nonce use (a + k)

/-! ## The parts of a free outcome, by number -/

def drawNat (nonce k : Nat) : Nat := Config.freePick nonce useOutcome k

def drawBool (nonce k : Nat) : Bool := drawNat nonce k % 2 == 1

def drawWord (nonce k : Nat) : Word := BitVec.ofNat 32 (drawNat nonce k)

/-- Any bytes of any length. -/
def drawBytes (nonce k : Nat) : Bytes := freeBytes nonce (useOutcome + k) 0 (drawNat nonce k)

/-- What a byte store of a capacity can hold (spec/10_state.md R50). -/
def drawStore (nonce k cap : Nat) : Bytes := freeBytes nonce (useOutcome + k) 0 (drawNat nonce k % (cap + 1))

/-- Any error, or none (spec/60_exceptions.md R262). -/
def anyError (nonce : Nat) : Option ErrCode :=
  [ErrCode.badOpcode, .badRange, .overlap, .badState, .badConfig, .dstFull, .srcTooLarge, .truncated, .offsetZero, .offsetRange,
    .badMagic, .headerReserved, .headerCsum, .blockTooLarge, .blockCsum, .contentCsum, .truncatedFrame, .contentSize][
    drawNat nonce 3]?

/-! ## Any value a context can hold

Each within the capacities, encodings and relations that spec/10_state.md R43 to R50 and the rules of its unit give it in every
state between commands (log entry 2). -/

/-- A session (spec/10_state.md R43 to R45; an unlinked one's and a FRESH one's window is its dictionary,
spec/41_stream_session.md R172 to R174). -/
def anySession (nonce : Nat) : Session :=
  let st := [SessionState.fresh, .primed, .poisoned].getD (drawNat nonce 4) .primed
  let linked := drawBool nonce 5
  let dict := drawStore nonce 6 winSize
  { st := st, linked := linked, dict := dict,
    win := if linked = true ∧ st ≠ .fresh then drawStore nonce 7 winSize else dict,
    total := if st = .fresh then 0 else BitVec.ofNat 64 (drawNat nonce 8) }

/-- A legal FLG (spec/30_encoding.md R92). -/
def anyFlg (nonce : Nat) : Byte :=
  flgByte (drawBool nonce 4) (drawBool nonce 5) (drawBool nonce 6) (drawBool nonce 7) (drawBool nonce 8)

/-- A legal BD (spec/30_encoding.md R93). -/
def anyBd (c : Config) (nonce : Nat) : Byte := BitVec.ofNat 8 (4 + drawNat nonce 9 % (c.bsizeIdMax - 3)) <<< 4

/-- A frame encoder (spec/10_state.md R46, R47; a closed frame has nothing staged and its declared size,
spec/42_frame_encoder.md R199). -/
def anyFenc (c : Config) (nonce : Nat) : Fenc :=
  let st := [FencState.idle, .opened, .writing, .closed].getD (drawNat nonce 10) .error
  let flg := anyFlg nonce
  let bs := blockMax (bdCode (anyBd c nonce))
  let plain := drawBytes nonce 11
  let total := BitVec.ofNat 64 plain.length
  { st := st, flg := flg, bd := anyBd c nonce, bs := bs, level := (drawWord nonce 12).toInt,
    csize := if st = .closed ∧ cSize flg = true then total else BitVec.ofNat 64 (drawNat nonce 13),
    dict := drawStore nonce 14 winSize, win := drawStore nonce 15 winSize,
    stage := if st = .closed then [] else drawStore nonce 16 (bs - 1), plain := plain, total := total }

/-- A frame decoder (spec/10_state.md R48, R49; a finished frame has nothing pending and its declared size,
spec/43_frame_decoder.md R223). -/
def anyFdec (c : Config) (nonce : Nat) : Fdec :=
  let st := [FdecState.idle, .readingBlocks, .finished].getD (drawNat nonce 10) .error
  let base := drawNat nonce 17 % addrSpace
  let len := min (drawNat nonce 18 % addrSpace) (addrSpace - base)
  let flg := anyFlg nonce
  let bs := blockMax (bdCode (anyBd c nonce))
  let plain := drawBytes nonce 11
  let total := BitVec.ofNat 64 plain.length
  { st := st, base := base, len := len, pos := min (drawNat nonce 19 % addrSpace) len, flg := flg, bd := anyBd c nonce, bs := bs,
    csize := if st = .finished ∧ cSize flg = true then total else BitVec.ofNat 64 (drawNat nonce 13),
    dictid := drawWord nonce 20, dict := drawStore nonce 14 winSize, win := drawStore nonce 15 winSize,
    pend := if st = .finished then [] else drawStore nonce 16 bs, plain := plain, total := total }

/-- The `FDEC_*` registers beside a frame decoder: those of an open frame mirror it (spec/10_state.md R36 to R39). -/
def anyFdecRegs (t : Fdec) (nonce : Nat) : FdecRegs :=
  if t.st = .readingBlocks ∨ t.st = .finished then t.regs
  else ⟨drawWord nonce 21, drawWord nonce 22, drawWord nonce 23, drawWord nonce 24, drawWord nonce 25⟩

end Sys2Proof.Machine
end

