-- ==== Sys2Proof/Machine/Ops.lean ====
section
/-! DEFINITION. The operations every command shares: reading memory as the engine sees it (spec/20_memory.md R62, R66, R71),
the two completions (spec/30_encoding.md R83, spec/60_exceptions.md R264), which are this hardware's way of taking an
exception, and the frame of a command's execution (spec/30_encoding.md R82). There is no return from an error
(spec/60_exceptions.md R268): after any completion the engine is idle. -/

namespace Sys2Proof.Machine

/-- How a command's body can end other than by `ok`. -/
inductive Stop where
  /-- `raise Err(code)`. -/
  | err (c : ErrCode)
  /-- It touched memory that does not exist: it never completes (R68). -/
  | stuck
  deriving DecidableEq, Repr

/-- `ok(out, result)` with the context updates listed under "commit" (R83). -/
structure Done where
  out : Bytes
  result : Nat
  commit : State → State

/-! ## Reads -/

/-- The byte the engine's read number `use` of an address returns: one of the values that stood there since the command's start
where the host has written it (R71); else the byte in memory. -/
def State.engineByte (s : State) (use a : Nat) : Byte :=
  match s.raced.filter (fun c => c.1 == a) with
  | [] => Memory.read s.mem a
  | olds => ((Memory.read s.mem a) :: olds.map (·.2)).getD (Config.freePick s.nonce use a % (olds.length + 1)) 0

/-- `MemRead(A, n)` in a region of the command (R62): any bytes where the region lies over memory with read side effects (R66). -/
def State.memRead (s : State) (use : Nat) (r : Region) (a n : Nat) : Except Stop Bytes :=
  if accessible s.cfg r a n then
    .ok (if overVolatile s.cfg r then freeBytes s.nonce use a n else (List.range n).map fun k => s.engineByte use (a + k))
  else .error .stuck

/-- The source bytes. -/
def State.readSrc (s : State) (A : Args) : Except Stop Bytes := s.memRead useSrc A.src A.srcAddr.toNat A.srcLen.toNat

/-- The dictionary's last `min(DICT_LEN, WIN_SIZE)` bytes (spec/40_block_codec.md R136), read where R148 says they lie. -/
def State.readDict (s : State) (A : Args) : Except Stop Bytes :=
  s.memRead useDict A.dict (A.dictAddr.toNat + (A.dictLen.toNat - winSize)) (min A.dictLen.toNat winSize)

/-! ## Completions -/

/-- Every byte of a region holds any value (R264, spec/70_reset_and_hazards.md R291). Addresses end at `2^32`. -/
def State.scramble (s : State) (w : Region) : State :=
  { s with mem := Memory.write s.mem w.1 (freeBytes s.nonce useWindow w.1 (min w.2 (addrSpace - w.1))) }

/-- Where the host has written the destination window during the command, any value stands there at its completion (R71). -/
def State.blur (i : Instr) (s : State) : State :=
  if writesDst i then
    let hit := s.raced.filter fun c => Region.holds s.snapshot.window c.1
    { s with mem := hit.foldl (fun m c => Memory.write m c.1 [Config.freeByte s.nonce useRace c.1]) s.mem }
  else s

/-- `ok(out, result)` without its commit (R83): `out` at the append point, `DST_LEN` moved past it, `RESULT`, the flags. -/
def State.complete (i : Instr) (out : Bytes) (result : Nat) (s : State) : State :=
  let A := s.snapshot
  let s := { s with mem := Memory.write s.mem A.dstPoint out }.blur i
  { s with args := { s.args with dstLen := BitVec.ofNat 32 (A.dstLen.toNat + out.length) },
           result := BitVec.ofNat 32 result }.setCompleted none

/-- What a codec or a format error does to the command's own context (R264). -/
def failContext (i : Instr) (s : State) : State :=
  match i with
  | .sesEnc => { s with eses := { s.eses with st := .poisoned } }
  | .sesDec => { s with dses := { s.dses with st := .poisoned } }
  | .fencOpen | .fencWrite | .fencClose => { s with fenc := { s.fenc with st := .error } }
  | .fdecOpen => { s with fdec := { s.fdec with st := .error }, fregs := .reset }
  | .fdecRead | .fdecReadToEnd => { s with fdec := { s.fdec with st := .error } }
  | .blkBound | .blkEncode | .blkDecode | .sesEncReset | .sesEncResetLinked | .sesDecReset | .sesDecResetLinked => s
  | .token _ _ | .lenext _ _ | .offset _ | .seq _ _ _ | .last _ | .magic | .flg _ _ _ _ _ | .bd _ | .hc _
  | .blockwordLz4 _ | .blockwordRaw _ | .endMark => s

/-- What a codec or a format error does beyond RESULT and the flags: the destination window
`[A.DST_ADDR + A.DST_LEN, A.DST_ADDR + A.DST_CAP)` holds any value, for `FDEC_OPEN` too (log entry 15), and the command's own
context changes (R264). Usage errors do nothing here. -/
def State.spoil (i : Instr) (c : ErrCode) (s : State) : State :=
  if c.isUsage then s else failContext i (s.scramble s.snapshot.window)

/-- `raise Err(code)` (R264). -/
def State.raise (i : Instr) (c : ErrCode) (s : State) : State :=
  { ((s.spoil i c).blur i) with result := 0 }.setCompleted (some c)

/-- `ERR_BAD_OPCODE`: the word is no command, so nothing but RESULT and the flags changes (R263, R264). -/
def State.raiseOpcode (s : State) : State := { s with result := 0 }.setCompleted (some .badOpcode)

/-- The command `i` never completes (R68). -/
def State.stick (i : Instr) (s : State) : State :=
  match s.run? with
  | some r => { s with engine := .stuck { r with progress := .start } }
  | none => { s with engine := .stuck ⟨le32At (encode i) 0, s.args, [], .start⟩ }

/-- The command's own context and, for the frame decoder, its registers hold any value (R66, log entry 2). -/
def anyContext (i : Instr) (s : State) : State :=
  match i with
  | .sesEncReset | .sesEncResetLinked | .sesEnc => { s with eses := anySession s.nonce }
  | .sesDecReset | .sesDecResetLinked | .sesDec => { s with dses := anySession s.nonce }
  | .fencOpen | .fencWrite | .fencClose => { s with fenc := anyFenc s.cfg s.nonce }
  | .fdecOpen | .fdecRead | .fdecReadToEnd =>
    { s with fdec := anyFdec s.cfg s.nonce, fregs := anyFdecRegs (anyFdec s.cfg s.nonce) s.nonce }
  | .blkBound | .blkEncode | .blkDecode => s
  | .token _ _ | .lenext _ _ | .offset _ | .seq _ _ _ | .last _ | .magic | .flg _ _ _ _ _ | .bd _ | .hc _
  | .blockwordLz4 _ | .blockwordRaw _ | .endMark => s

/-- The outcome of a command with a region over memory with read side effects (R66, log entry 2): it completes, as every command does
(spec/70_reset_and_hazards.md R306), with success or with any error, and everything a command can write holds any value: RESULT,
DST_LEN, ERR and ERRCODE, the destination window, its own context. -/
def State.anyOutcome (i : Instr) (s : State) : State :=
  let s' := if opensDst i then s.scramble s.snapshot.window else s
  { anyContext i s' with
    args := { s.args with dstLen := drawWord s.nonce 1 }, result := drawWord s.nonce 2 }.setCompleted (anyError s.nonce)

/-- How a command completes that no access has made stuck: as its rule says, or with any outcome where one of its regions lies over memory with
read side effects (R66). -/
def State.settle (i : Instr) (s t : State) : State := if overDevice i s s.snapshot then s.anyOutcome i else t

/-! ## Execution -/

/-- The end of a command's body. Its output is written only where memory answers (R68). -/
def State.finish (i : Instr) (r : Except Stop Done) (s : State) : Host.Outcome State Fault Refusal :=
  match r with
  | .error .stuck => .next (s.stick i)
  | .error (.err c) => .next (s.settle i (s.raise i c))
  | .ok d =>
    if d.out = [] ∨ accessible s.cfg s.snapshot.window s.snapshot.dstPoint d.out.length then
      .next (s.settle i ((d.commit s).complete i d.out d.result))
    else .next (s.stick i)

/-- `Execute(w, A)` of a legal word (R82): the usage checks, then the command's body. -/
def State.command (i : Instr) (body : Args → Except Stop Done) (s : State) : Host.Outcome State Fault Refusal :=
  match usageError i s s.snapshot with
  | some c => .next (s.raise i c)
  | none => s.finish i (body s.snapshot)

end Sys2Proof.Machine
end

