-- ==== Sys2Proof/Machine/Block.lean ====
section
/-! DEFINITION. The stateless block commands (spec/40_block_codec.md R140 to R142). -/

namespace Sys2Proof.Machine

/-- A codec or format error as the way a body ends. -/
def raised {α : Type} (r : Except ErrCode α) : Except Stop α := r.mapError Stop.err

/-- The encoder's check that its whole output fits (R141, spec/60_exceptions.md R265). -/
def fitOut (A : Args) (d : Done) : Except Stop Done :=
  if A.room < d.out.length then .error (.err .dstFull) else .ok d

/-- The body of `BLK_BOUND` (R140). -/
def blkBoundBody (A : Args) : Except Stop Done := .ok ⟨[], bound A.srcLen.toNat, id⟩

/-- `BLK_BOUND` (R140). -/
def execBlkBound (s : State) : Host.Outcome State Fault Refusal := s.command .blkBound blkBoundBody

/-- The body of `BLK_ENCODE` (R141). -/
def blkEncodeBody (s : State) (A : Args) : Except Stop Done :=
  if maxInput < A.srcLen.toNat then .error (.err .srcTooLarge)
  else do
    let x ← s.readSrc A
    let h ← s.readDict A
    let c := encodeBlock s.cfg x h A.levelInt
    fitOut A ⟨c, c.length, id⟩

/-- `BLK_ENCODE` (R141). -/
def execBlkEncode (s : State) : Host.Outcome State Fault Refusal := s.command .blkEncode (blkEncodeBody s)

/-- What a decoded block completes `BLK_DECODE` with (R142). -/
def blkDecodeDone (out : Bytes) : Done := ⟨out, out.length, id⟩

/-- The parser `BLK_DECODE` starts with (R142): the source is the block, the dictionary the history. -/
def blkDecodeStart (s : State) (A : Args) : Except Stop Parser := do
  let src ← s.readSrc A
  let h ← s.readDict A
  .ok (Parser.start src h A.room)

/-- The body of `BLK_DECODE` (R142). -/
def blkDecodeBody (s : State) (A : Args) : Except Stop Done := do
  let p ← blkDecodeStart s A
  let out ← raised (p.run (p.size + 1))
  .ok (blkDecodeDone out)

/-- `BLK_DECODE` (R142). -/
def execBlkDecode (s : State) : Host.Outcome State Fault Refusal := s.command .blkDecode (blkDecodeBody s)

end Sys2Proof.Machine
end

