-- ==== Sys2Proof/Machine/Checksum.lean ====
section
/-! DEFINITION. The checksum engine: XXH32 and the header checksum (spec/42_frame_encoder.md R191 to R193). -/

namespace Sys2Proof.Machine

/-! ## Constants (R191) -/

def prime1 : Word := 0x9E3779B1
def prime2 : Word := 0x85EBCA77
def prime3 : Word := 0xC2B2AE3D
def prime4 : Word := 0x27D4EB2F
def prime5 : Word := 0x165667B1

/-- The four lanes of the loop over 16-byte stripes. -/
structure Lanes where
  v1 : Word
  v2 : Word
  v3 : Word
  v4 : Word
  deriving DecidableEq, Repr

/-- One lane's step: `rotl(v + word * PRIME2, 13) * PRIME1`. -/
def laneStep (v word : Word) : Word := (v + word * prime2).rotateLeft 13 * prime1

/-- `n` stripes of 16 bytes, and what is left of the bytes. -/
def stripes : Nat → Bytes → Lanes → Lanes × Bytes
  | 0, d, v => (v, d)
  | n + 1, d, v =>
    stripes n (d.drop 16)
      ⟨laneStep v.v1 (le32At d 0), laneStep v.v2 (le32At d 4), laneStep v.v3 (le32At d 8), laneStep v.v4 (le32At d 12)⟩

/-- `n` words of 4 bytes after the stripes, and what is left of the bytes. -/
def tailWords : Nat → Bytes → Word → Word × Bytes
  | 0, d, h => (h, d)
  | n + 1, d, h => tailWords n (d.drop 4) ((h + le32At d 0 * prime3).rotateLeft 17 * prime4)

/-- The bytes after the words. -/
def tailBytes : Bytes → Word → Word
  | [], h => h
  | b :: rest, h => tailBytes rest ((h + b.setWidth 32 * prime5).rotateLeft 11 * prime1)

/-- The final mixing. -/
def avalanche (h : Word) : Word :=
  let h := (h ^^^ (h >>> 15)) * prime2
  let h := (h ^^^ (h >>> 13)) * prime3
  h ^^^ (h >>> 16)

/-- `XXH32(D, seed)` (R192). -/
def xxh32 (d : Bytes) (seed : Word) : Word :=
  let n := d.length
  let start : Word × Bytes :=
    if 16 ≤ n then
      let (v, rest) := stripes (n / 16) d ⟨seed + prime1 + prime2, seed + prime2, seed, seed - prime1⟩
      (v.v1.rotateLeft 1 + v.v2.rotateLeft 7 + v.v3.rotateLeft 12 + v.v4.rotateLeft 18, rest)
    else (seed + prime5, d)
  let (h, rest) := tailWords (start.2.length / 4) start.2 (start.1 + BitVec.ofNat 32 n)
  avalanche (tailBytes rest h)

/-- `HC(desc)` (R193): bits 15:8 of the descriptor's checksum. -/
def headerChecksum (desc : Bytes) : Byte := (xxh32 desc 0).extractLsb' 8 8

end Sys2Proof.Machine
end

