-- ==== Sys2Proof/Machine/FrameDecoder.lean ====
section
/-! DEFINITION. The frame decoder: the header parser, the record reader and the two commands over them
(spec/43_frame_decoder.md R220 to R228). -/

namespace Sys2Proof.Machine

/-- `F[i .. i+n)`: bytes of the frame source, read now (R222, spec/20_memory.md R76), in the read numbered `use`. -/
def State.readFrame (s : State) (use : Nat) (t : Fdec) (i n : Nat) : Except Stop Bytes :=
  s.memRead use (s.frameRegion t) (t.base + i) n

/-! ## Header -/

/-- The working copy of `FDEC` at the start of a header parse (R226). -/
def Fdec.awaiting (A : Args) (d : Bytes) : Fdec :=
  { Fdec.reset with st := .awaitingHeader, base := A.srcAddr.toNat, len := A.srcLen.toNat, dict := d, win := d }

/-- `FDEC` and its registers after a header of which FLG and BD are known to be good (R221, R226): `opt` are the bytes between
BD and HC. -/
def Fdec.openedWith (t : Fdec) (opt : Bytes) : Fdec :=
  { t with st := .readingBlocks, pos := headerLength t.flg, bs := blockMax (bdCode t.bd),
           csize := if cSize t.flg then le64At opt 0 else 0,
           dictid := if hasDictId t.flg then le32At opt (if cSize t.flg then 8 else 0) else 0 }

/-- What an opened frame completes `FDEC_OPEN` with (R226). -/
def fdecOpenDone (t : Fdec) : Done := ⟨[], t.pos, fun s => { s with fdec := t, fregs := t.regs }⟩

/-- The magic of `ParseHeader` (R220). -/
def headerMagic (s : State) (t : Fdec) : Except Stop Unit :=
  if t.len < 4 then .error (.err .truncatedFrame)
  else do
    let m ← s.readFrame useFrame t 0 4
    if m = encode .magic then .ok () else .error (.err .badMagic)

/-- FLG and BD of `ParseHeader` (R220). -/
def headerBytes (s : State) (t : Fdec) : Except Stop Fdec :=
  if t.len < 6 then .error (.err .truncatedFrame)
  else do
    let fb ← s.readFrame useFrame t 4 2
    let flg := fb.getD 0 0
    let bd := fb.getD 1 0
    if headerLegal s.cfg flg bd then .ok { t with flg := flg, bd := bd } else .error (.err .headerReserved)

/-- The header checksum byte of `ParseHeader` against the descriptor `F[4 .. hlen-1)`, FLG and BD read again with it (R220), and
then the header's fields, read again (R221). -/
def headerSum (s : State) (t : Fdec) (sum : Byte) : Except Stop Fdec := do
  let desc ← s.readFrame useDescriptor t 4 (headerLength t.flg - 5)
  if sum = headerChecksum desc then do
    let opt ← s.readFrame useFields t 6 (headerLength t.flg - 7)
    .ok (t.openedWith opt)
  else .error (.err .headerCsum)

/-- The last byte of the header is there, and what it is (R220). -/
def headerSumByte (s : State) (t : Fdec) : Except Stop Bytes :=
  if t.len < headerLength t.flg then .error (.err .truncatedFrame)
  else s.readFrame useFrame t (headerLength t.flg - 1) 1

/-- `ParseHeader(base, len)` on the working copy (R220, R221). -/
def parseHeader (s : State) (t : Fdec) : Except Stop Fdec := do
  headerMagic s t
  let t ← headerBytes s t
  let sum ← headerSumByte s t
  headerSum s t (sum.getD 0 0)

/-- The body of `FDEC_OPEN` (R226). -/
def fdecOpenBody (s : State) (A : Args) : Except Stop Done := do
  let d ← s.readDict A
  let t ← parseHeader s (Fdec.awaiting A d)
  .ok (fdecOpenDone t)

/-- `FDEC_OPEN` (R226). -/
def execFdecOpen (s : State) : Host.Outcome State Fault Refusal := s.command .fdecOpen (fdecOpenBody s)

/-! ## Records -/

/-- The history of a compressed block (R225). -/
def Fdec.history (t : Fdec) : Bytes := if bIndep t.flg then t.dict else t.win

/-- A record's payload and where the record ends: the size, the availability and the block checksum are checked in this order
(R222). -/
def recordPayload (s : State) (t : Fdec) (size : Nat) : Except Stop (Bytes × Nat) :=
  let q := t.pos + 4
  if t.bs < size then .error (.err .blockTooLarge)
  else if t.len < q + size + (if bCsum t.flg then 4 else 0) then .error (.err .truncatedFrame)
  else do
    let payload ← s.readFrame useFrame t q size
    if bCsum t.flg then
      let sum ← s.readFrame useFrame t (q + size) 4
      if sum = le32 (xxh32 payload 0) then .ok (payload, q + size + 4) else .error (.err .blockCsum)
    else .ok (payload, q + size)

/-- A block's plaintext joins the frame (R222): window, `P`, total, pending bytes, cursor. -/
def Fdec.accept (t : Fdec) (blk : Bytes) (next : Nat) : Fdec :=
  { t with win := if bIndep t.flg then t.win else winAppend t.win blk, plain := t.plain ++ blk,
           total := t.total + BitVec.ofNat 64 blk.length, pend := blk, pos := next }

/-- The block decoder's errors as a frame reports them (R222). -/
def frameError (c : ErrCode) : ErrCode := if c = .dstFull then .blockTooLarge else c

/-- The content checksum after an End Mark, and where the trailer ends (R223). -/
def trailer (s : State) (t : Fdec) : Except Stop Nat :=
  let q := t.pos + 4
  if cCsum t.flg then
    if t.len < q + 4 then .error (.err .truncatedFrame)
    else do
      let sum ← s.readFrame useFrame t q 4
      if sum = le32 (xxh32 t.plain 0) then .ok (q + 4) else .error (.err .contentCsum)
  else .ok q

/-- `EndOfFrame()` (R223). -/
def endOfFrame (s : State) (t : Fdec) : Except Stop Fdec := do
  let q ← trailer s t
  if cSize t.flg = true ∧ t.total ≠ t.csize then .error (.err .contentSize)
  else .ok { t with pos := q, st := .finished }

/-- The parser of a compressed record's payload (R222, R225). -/
def Fdec.blockParser (t : Fdec) (payload : Bytes) : Parser := Parser.start payload t.history t.bs

/-- The record word at the cursor (R222). -/
def recordWord (s : State) (t : Fdec) : Except Stop Word :=
  if t.len < t.pos + 4 then .error (.err .truncatedFrame)
  else do
    let w ← s.readFrame useFrame t t.pos 4
    .ok (le32At w 0)

/-- A stored record (R222). -/
def rawRecord (s : State) (t : Fdec) (size : Nat) : Except Stop Fdec := do
  let (payload, next) ← recordPayload s t size
  .ok (t.accept payload next)

/-- A compressed record (R222). -/
def lz4Record (s : State) (t : Fdec) (size : Nat) : Except Stop Fdec := do
  let (payload, next) ← recordPayload s t size
  let p := t.blockParser payload
  let blk ← raised ((p.run (p.size + 1)).mapError frameError)
  .ok (t.accept blk next)

/-- `NextRecord()` (R222). -/
def nextRecord (s : State) (t : Fdec) : Except Stop Fdec := do
  let w ← recordWord s t
  if w = 0 then endOfFrame s t
  else if w.getLsbD 31 then rawRecord s t (w.extractLsb' 0 31).toNat
  else lz4Record s t (w.extractLsb' 0 31).toNat

/-! ## Reads -/

/-- The record reader at the start of `FDEC_READ` (R227). -/
def Reader.start (s : State) (A : Args) (toEnd : Bool) : Reader where
  t := s.fdec
  out := []
  want := if toEnd then none else some A.readLen.toNat
  cap := A.room

/-- How many pending bytes are delivered now: `min(n - |out|, |pend|)` (R227). -/
def Reader.due (rd : Reader) : Nat :=
  match rd.want with
  | none => rd.t.pend.length
  | some n => min (n - rd.out.length) rd.t.pend.length

/-- Pending plaintext is delivered (R227). -/
def Reader.deliver (rd : Reader) : Except Stop Reader :=
  if rd.due = 0 then .ok rd
  else if rd.cap < rd.out.length + rd.due then .error (.err .dstFull)
  else .ok { rd with out := rd.out ++ rd.t.pend.take rd.due, t := { rd.t with pend := rd.t.pend.drop rd.due } }

/-- The loop of `FDEC_READ` exits: `|out| = n` or FINISHED (R227). -/
def Reader.enough (rd : Reader) : Bool := rd.want == some rd.out.length || rd.t.st == .finished

/-- The loop of `FDEC_READ` (R227). The first argument bounds the number of records; each takes at least four bytes of the
frame source (log entry 18). -/
def readLoop (s : State) : Nat → Reader → Except Stop Reader
  | 0, _ => .error (.err .truncatedFrame)
  | fuel + 1, rd => do
    let rd ← rd.deliver
    if rd.enough then .ok rd
    else
      let t ← nextRecord s rd.t
      readLoop s fuel { rd with t := t }

/-- What a read completes `FDEC_READ` with (R227). -/
def fdecReadDone (rd : Reader) : Done :=
  ⟨rd.out, rd.out.length, fun s => { s with fdec := rd.t, fregs := { s.fregs with srcPos := BitVec.ofNat 32 rd.t.pos } }⟩

/-- The body of `FDEC_READ` after its state check (R227). -/
def fdecReadBody (toEnd : Bool) (s : State) (A : Args) : Except Stop Done := do
  let rd ← readLoop s (s.fdec.len - s.fdec.pos + 2) (Reader.start s A toEnd)
  .ok (fdecReadDone rd)

/-- `FDEC_READ` (R227). -/
def execFdecRead (s : State) : Host.Outcome State Fault Refusal := s.command .fdecRead (fdecReadBody false s)

/-- `FDEC_READ.TO_END` (R227). -/
def execFdecReadToEnd (s : State) : Host.Outcome State Fault Refusal := s.command .fdecReadToEnd (fdecReadBody true s)

end Sys2Proof.Machine
end

