-- ==== Sys2Proof/Machine/Sessions.lean ====
section
/-! DEFINITION. The streaming sessions (spec/41_stream_session.md R172 to R176). -/

namespace Sys2Proof.Machine

/-- The history a session's block sees (R172). -/
def Session.history (c : Session) : Bytes := if c.linked then c.win else c.dict

/-- A session after a reset command (R173, R175). -/
def Session.opened (linked : Bool) (d : Bytes) : Session where
  st := .fresh
  linked := linked
  dict := d
  win := d
  total := 0

/-- A session after a block of plaintext (R174, R176). -/
def Session.advance (c : Session) (plain : Bytes) : Session :=
  { c with st := .primed, win := if c.linked then winAppend c.win plain else c.win,
           total := c.total + BitVec.ofNat 64 plain.length }

/-- The body of `SES_ENC_RESET` (R173). -/
def sesEncResetBody (linked : Bool) (s : State) (A : Args) : Except Stop Done := do
  let d ← s.readDict A
  .ok ⟨[], 0, fun s => { s with eses := Session.opened linked d }⟩

/-- `SES_ENC_RESET` (R173). -/
def execSesEncReset (s : State) : Host.Outcome State Fault Refusal := s.command .sesEncReset (sesEncResetBody false s)

/-- `SES_ENC_RESET.LINKED` (R173). -/
def execSesEncResetLinked (s : State) : Host.Outcome State Fault Refusal :=
  s.command .sesEncResetLinked (sesEncResetBody true s)

/-- The body of `SES_ENC` after its state check (R174). -/
def sesEncBody (s : State) (A : Args) : Except Stop Done :=
  if maxInput < A.srcLen.toNat then .error (.err .srcTooLarge)
  else do
    let x ← s.readSrc A
    let c := encodeBlock s.cfg x s.eses.history A.levelInt
    fitOut A ⟨c, c.length, fun s => { s with eses := s.eses.advance x }⟩

/-- `SES_ENC` (R174). -/
def execSesEnc (s : State) : Host.Outcome State Fault Refusal := s.command .sesEnc (sesEncBody s)

/-- The body of `SES_DEC_RESET` (R175). -/
def sesDecResetBody (linked : Bool) (s : State) (A : Args) : Except Stop Done := do
  let d ← s.readDict A
  .ok ⟨[], 0, fun s => { s with dses := Session.opened linked d }⟩

/-- `SES_DEC_RESET` (R175). -/
def execSesDecReset (s : State) : Host.Outcome State Fault Refusal := s.command .sesDecReset (sesDecResetBody false s)

/-- `SES_DEC_RESET.LINKED` (R175). -/
def execSesDecResetLinked (s : State) : Host.Outcome State Fault Refusal :=
  s.command .sesDecResetLinked (sesDecResetBody true s)

/-- What a decoded block completes `SES_DEC` with (R176). -/
def sesDecDone (out : Bytes) : Done :=
  ⟨out, out.length, fun s => { s with dses := s.dses.advance out }⟩

/-- The parser `SES_DEC` starts with (R176). -/
def sesDecStart (s : State) (A : Args) : Except Stop Parser := do
  let src ← s.readSrc A
  .ok (Parser.start src s.dses.history A.room)

/-- The body of `SES_DEC` after its state check (R176). -/
def sesDecBody (s : State) (A : Args) : Except Stop Done := do
  let p ← sesDecStart s A
  let out ← raised (p.run (p.size + 1))
  .ok (sesDecDone out)

/-- `SES_DEC` (R176). -/
def execSesDec (s : State) : Host.Outcome State Fault Refusal := s.command .sesDec (sesDecBody s)

end Sys2Proof.Machine
end

