-- ==== Sys2Proof/Machine/Elements.lean ====
section
/-! DEFINITION. The wire elements as instructions of the engine: what each does to the command under way when that command is
run one element at a time (spec/00_scope.md R2, spec/10_state.md R21, R22, spec/40_block_codec.md R122,
spec/43_frame_decoder.md R220, R222, R223). The effects are the operations the whole commands are made of, so both ways of
running a command give the same state (log entry 12). A wire element has an effect only where the command expects it
(log entry 13). -/

namespace Sys2Proof.Machine

/-- The running command has come this far. -/
def State.setProgress (r : Run) (p : Progress) (s : State) : State := { s with engine := .running { r with progress := p } }

/-- After a record, or at the start of a read: pending plaintext is delivered, and the read completes or goes on to the next
record (spec/43_frame_decoder.md R227). -/
def State.afterRecord (r : Run) (rd : Reader) (s : State) : Host.Outcome State Fault Refusal :=
  match rd.deliver with
  | .error e => s.finish .fdecRead (.error e)
  | .ok rd =>
    if rd.enough then s.finish .fdecRead (.ok (fdecReadDone rd)) else .next (s.setProgress r (.record rd))

/-- After an element of a block: the block goes on, or it ends and its command with it, or its record. -/
def State.afterParse (r : Run) (use : BlockUse) (x : Parse) (s : State) : Host.Outcome State Fault Refusal :=
  match x, use with
  | .more p, use => .next (s.setProgress r (.block use p))
  | .fail c, .block => s.finish .blkDecode (.error (.err c))
  | .fail c, .session => s.finish .sesDec (.error (.err c))
  | .fail c, .frame _ _ => s.finish .fdecRead (.error (.err (frameError c)))
  | .done out, .block => s.finish .blkDecode (.ok (blkDecodeDone out))
  | .done out, .session => s.finish .sesDec (.ok (sesDecDone out))
  | .done out, .frame rd next => s.afterRecord r { rd with t := rd.t.accept out next }

/-- An element of a block, where the token parser is in one of the phases that expect it. -/
def State.inBlock (phases : List ParserPhase) (f : Parser → Parse) (s : State) : Host.Outcome State Fault Refusal :=
  match s.engine with
  | .running r =>
    match r.progress with
    | .block use p => if phases.contains p.phase then s.afterParse r use (f p) else .refused .elementOutOfPlace
    | .start | .header _ | .record _ => .refused .elementOutOfPlace
  | .idle | .stuck _ => .refused .elementOutOfPlace

/-- An element of a header, where the header parser is in the phase that expects it. -/
def State.inHeader (phase : HeaderPhase) (f : Run → Fdec → Host.Outcome State Fault Refusal) (s : State) :
    Host.Outcome State Fault Refusal :=
  match s.engine with
  | .running r =>
    match r.progress with
    | .header h => if h.phase = phase then f r h.t else .refused .elementOutOfPlace
    | .start | .block _ _ | .record _ => .refused .elementOutOfPlace
  | .idle | .stuck _ => .refused .elementOutOfPlace

/-- A record word, where the record reader expects one. -/
def State.inRecord (f : Run → Reader → Host.Outcome State Fault Refusal) (s : State) : Host.Outcome State Fault Refusal :=
  match s.engine with
  | .running r =>
    match r.progress with
    | .record rd => f r rd
    | .start | .header _ | .block _ _ => .refused .elementOutOfPlace
  | .idle | .stuck _ => .refused .elementOutOfPlace

/-- `TOKEN` (R85, R122). -/
def execToken (ll ml : BitVec 4) (s : State) : Host.Outcome State Fault Refusal :=
  s.inBlock [.token] fun p => p.token ll ml

/-- `LENEXT` (R84, R123, R127): of a literal length before the literals, of a match length after the offset. -/
def execLenext (ffs : Nat) (final : Byte) (s : State) : Host.Outcome State Fault Refusal :=
  s.inBlock [.litExt, .matchExt] fun p => if p.phase = .litExt then p.litExt ffs final else p.matchExt ffs final

/-- `OFFSET` (R86, R126). -/
def execOffset (off : BitVec 16) (s : State) : Host.Outcome State Fault Refusal :=
  s.inBlock [.offset] fun p => p.offset off

/-- `SEQ` (R87, R122). -/
def execSeq (lit : Bytes) (off : BitVec 16) (len : Nat) (s : State) : Host.Outcome State Fault Refusal :=
  s.inBlock [.token] fun p => p.seq lit off len

/-- `LAST` (R87, R125). -/
def execLast (lit : Bytes) (s : State) : Host.Outcome State Fault Refusal :=
  s.inBlock [.token] fun p => p.last lit

/-- `MAGIC` (R91, R220). -/
def execMagic (s : State) : Host.Outcome State Fault Refusal :=
  s.inHeader .magic fun r t => .next (s.setProgress r (.header ⟨.flg, t⟩))

/-- `FLG` (R92, R220). -/
def execFlg (bIndep bCsum cSize cCsum dictId : Bool) (s : State) : Host.Outcome State Fault Refusal :=
  s.inHeader .flg fun r t =>
    .next (s.setProgress r (.header ⟨.bd, { t with flg := flgByte bIndep bCsum cSize cCsum dictId }⟩))

/-- `BD` (R93, R220): a code above `BSIZE_ID_MAX` is a reserved value. -/
def execBd (id : BitVec 3) (s : State) : Host.Outcome State Fault Refusal :=
  s.inHeader .bd fun r t =>
    if s.cfg.bsizeIdMax < id.toNat then s.finish .fdecOpen (.error (.err .headerReserved))
    else .next (s.setProgress r (.header ⟨.hc, { t with bd := id.setWidth 8 <<< 4 }⟩))

/-- `HC` (R94, R220): the frame is opened where the byte is the descriptor's checksum. -/
def execHc (sum : Byte) (s : State) : Host.Outcome State Fault Refusal :=
  s.inHeader .hc fun _ t => s.finish .fdecOpen ((headerSum s t sum).map fdecOpenDone)

/-- `BLOCKWORD_LZ4` (R95, R222): the payload is there and its checksum is right, and its block is decoded next. -/
def execBlockwordLz4 (size : BitVec 31) (s : State) : Host.Outcome State Fault Refusal :=
  s.inRecord fun r rd =>
    match recordPayload s rd.t size.toNat with
    | .error e => s.finish .fdecRead (.error e)
    | .ok (payload, next) => .next (s.setProgress r (.block (.frame rd next) (rd.t.blockParser payload)))

/-- `BLOCKWORD_RAW` (R95, R222): the payload is the block. -/
def execBlockwordRaw (size : BitVec 31) (s : State) : Host.Outcome State Fault Refusal :=
  s.inRecord fun r rd =>
    match rawRecord s rd.t size.toNat with
    | .error e => s.finish .fdecRead (.error e)
    | .ok t => s.afterRecord r { rd with t := t }

/-- `END_MARK` (R97, R223). -/
def execEndMark (s : State) : Host.Outcome State Fault Refusal :=
  s.inRecord fun r rd =>
    match endOfFrame s rd.t with
    | .error e => s.finish .fdecRead (.error e)
    | .ok t => s.afterRecord r { rd with t := t }

/-! ## Starting to run a command by its elements -/

/-- The commands that consume wire elements. -/
def hasElements : Instr → Bool
  | .blkDecode | .sesDec | .fdecOpen | .fdecRead | .fdecReadToEnd => true
  | .blkBound | .blkEncode | .sesEncReset | .sesEncResetLinked | .sesEnc | .sesDecReset | .sesDecResetLinked
  | .fencOpen | .fencWrite | .fencClose => false
  | .token _ _ | .lenext _ _ | .offset _ | .seq _ _ _ | .last _ | .magic | .flg _ _ _ _ _ | .bd _ | .hc _
  | .blockwordLz4 _ | .blockwordRaw _ | .endMark => false

/-- A progress reached, or the command's end. -/
def State.reach (i : Instr) (r : Run) (p : Except Stop Progress) (s : State) : Host.Outcome State Fault Refusal :=
  match p with
  | .error e => s.finish i (.error e)
  | .ok p => .next (s.setProgress r p)

/-- The first step of a command that is run by its elements: the usage checks (R263), and what the command does before its
first element. -/
def State.begin (i : Instr) (r : Run) (s : State) : Host.Outcome State Fault Refusal :=
  match usageError i s s.snapshot with
  | some c => .next (s.raise i c)
  | none =>
    match i with
    | .blkDecode => s.reach i r ((blkDecodeStart s s.snapshot).map (Progress.block .block))
    | .sesDec => s.reach i r ((sesDecStart s s.snapshot).map (Progress.block .session))
    | .fdecOpen => s.reach i r ((s.readDict s.snapshot).map fun d => .header ⟨.magic, Fdec.awaiting s.snapshot d⟩)
    | .fdecRead => s.afterRecord r (Reader.start s s.snapshot false)
    | .fdecReadToEnd => s.afterRecord r (Reader.start s s.snapshot true)
    | .blkBound | .blkEncode | .sesEncReset | .sesEncResetLinked | .sesEnc | .sesDecReset | .sesDecResetLinked
    | .fencOpen | .fencWrite | .fencClose => .refused .elementOutOfPlace
    | .token _ _ | .lenext _ _ | .offset _ | .seq _ _ _ | .last _ | .magic | .flg _ _ _ _ _ | .bd _ | .hc _
    | .blockwordLz4 _ | .blockwordRaw _ | .endMark => .refused .elementOutOfPlace

end Sys2Proof.Machine
end

