-- ==== Sys2Proof/Machine/FrameEncoder.lean ====
section
/-! DEFINITION. The frame encoder (spec/42_frame_encoder.md R190, R194 to R199). -/

namespace Sys2Proof.Machine

/-- The descriptor: FLG, BD and the optional fields (R194). -/
def descriptor (flg bd : Byte) (csize : BitVec 64) (dictid : Word) : Bytes :=
  [flg, bd] ++ (if cSize flg then le64 csize else []) ++ (if hasDictId flg then le32 dictid else [])

/-- `FrameHeader(flg, bd, csize, dictid)` (R194). -/
def frameHeader (flg bd : Byte) (csize : BitVec 64) (dictid : Word) : Bytes :=
  encode .magic ++ descriptor flg bd csize dictid ++ [headerChecksum (descriptor flg bd csize dictid)]

/-- `EmitBlock(blk, H)` (R195): a record word, the payload, and its checksum where B_CSUM asks for one. -/
def emitBlock (c : Config) (f : Fenc) (blk h : Bytes) : Bytes :=
  let z := encodeBlock c blk h f.level
  let raw := decide (blk.length ≤ z.length)
  let payload := if raw then blk else z
  let word := if raw then Instr.blockwordRaw (BitVec.ofNat 31 blk.length) else Instr.blockwordLz4 (BitVec.ofNat 31 z.length)
  encode word ++ payload ++ (if bCsum f.flg then le32 (xxh32 payload 0) else [])

/-- The history of the next block, given the window so far (R196). -/
def Fenc.history (f : Fenc) (w : Bytes) : Bytes := if bIndep f.flg then f.dict else w

/-- The window after a block (R196). -/
def Fenc.slide (f : Fenc) (w blk : Bytes) : Bytes := if bIndep f.flg then w else winAppend w blk

/-- `k` full blocks cut from the front of the buffer (R198): the records emitted, the bytes left, the window. -/
def emitBlocks (c : Config) (f : Fenc) : Nat → (buf w : Bytes) → Bytes × Bytes × Bytes
  | 0, buf, w => ([], buf, w)
  | k + 1, buf, w =>
    let blk := buf.take f.bs
    let (out, buf', w') := emitBlocks c f k (buf.drop f.bs) (f.slide w blk)
    (emitBlock c f blk (f.history w) ++ out, buf', w')

/-- The frame encoder right after `FENC_OPEN` (R197). -/
def Fenc.opened (A : Args) (d : Bytes) : Fenc where
  st := .opened
  flg := A.flg
  bd := A.bd
  bs := blockMax (bdCode A.bd)
  level := A.levelInt
  csize := A.csize
  dict := d
  win := d
  stage := []
  plain := []
  total := 0

/-- The body of `FENC_OPEN` after its configuration check (R197). -/
def fencOpenBody (s : State) (A : Args) : Except Stop Done := do
  let hdr := frameHeader A.flg A.bd A.csize A.dictId
  let d ← s.readDict A
  fitOut A ⟨hdr, hdr.length, fun s => { s with fenc := Fenc.opened A d }⟩

/-- `FENC_OPEN` (R197). -/
def execFencOpen (s : State) : Host.Outcome State Fault Refusal := s.command .fencOpen (fencOpenBody s)

/-- The body of `FENC_WRITE` after its state check (R198): `(|stage| + |X|) div bs` blocks are complete. -/
def fencWriteBody (s : State) (A : Args) : Except Stop Done := do
  let x ← s.readSrc A
  let f := s.fenc
  let buf := f.stage ++ x
  let (out, stage, w) := emitBlocks s.cfg f (buf.length / f.bs) buf f.win
  fitOut A ⟨out, out.length, fun s =>
    { s with fenc := { s.fenc with st := .writing, stage := stage, win := w, plain := s.fenc.plain ++ x,
                                   total := s.fenc.total + BitVec.ofNat 64 x.length } }⟩

/-- `FENC_WRITE` (R198). -/
def execFencWrite (s : State) : Host.Outcome State Fault Refusal := s.command .fencWrite (fencWriteBody s)

/-- The last, partial block, the End Mark and the content checksum (R199). -/
def closing (c : Config) (f : Fenc) : Bytes :=
  (if f.stage = [] then [] else emitBlock c f f.stage (f.history f.win)) ++ encode .endMark ++
    (if cCsum f.flg then le32 (xxh32 f.plain 0) else [])

/-- The frame encoder after `FENC_CLOSE` (R199). -/
def Fenc.close (f : Fenc) : Fenc :=
  { f with st := .closed, win := if f.stage = [] then f.win else f.slide f.win f.stage, stage := [] }

/-- The body of `FENC_CLOSE` after its state check (R199). A closed frame is left as it is. -/
def fencCloseBody (s : State) (A : Args) : Except Stop Done :=
  let f := s.fenc
  if f.st = .closed then .ok ⟨[], 0, id⟩
  else if cSize f.flg = true ∧ f.total ≠ f.csize then .error (.err .contentSize)
  else
    let out := closing s.cfg f
    fitOut A ⟨out, out.length, fun s => { s with fenc := s.fenc.close }⟩

/-- `FENC_CLOSE` (R199). -/
def execFencClose (s : State) : Host.Outcome State Fault Refusal := s.command .fencClose (fencCloseBody s)

end Sys2Proof.Machine
end

