-- ==== Sys2Proof/Machine/Dispatch.lean ====
section
/-! DEFINITION. The meaning of every instruction, one arm per constructor of Instr. -/

namespace Sys2Proof.Machine

def exec (i : Instr) (s : State) : Host.Outcome State Fault Refusal :=
  match i with
  -- commands (spec/30_encoding.md R81)
  | .blkBound => Sys2Proof.Machine.execBlkBound s
  | .blkEncode => Sys2Proof.Machine.execBlkEncode s
  | .blkDecode => Sys2Proof.Machine.execBlkDecode s
  | .sesEncReset => Sys2Proof.Machine.execSesEncReset s
  | .sesEncResetLinked => Sys2Proof.Machine.execSesEncResetLinked s
  | .sesEnc => Sys2Proof.Machine.execSesEnc s
  | .sesDecReset => Sys2Proof.Machine.execSesDecReset s
  | .sesDecResetLinked => Sys2Proof.Machine.execSesDecResetLinked s
  | .sesDec => Sys2Proof.Machine.execSesDec s
  | .fencOpen => Sys2Proof.Machine.execFencOpen s
  | .fencWrite => Sys2Proof.Machine.execFencWrite s
  | .fencClose => Sys2Proof.Machine.execFencClose s
  | .fdecOpen => Sys2Proof.Machine.execFdecOpen s
  | .fdecRead => Sys2Proof.Machine.execFdecRead s
  | .fdecReadToEnd => Sys2Proof.Machine.execFdecReadToEnd s
  -- wire elements (spec/30_encoding.md R84 to R97)
  | .token ll ml => Sys2Proof.Machine.execToken ll ml s
  | .lenext ffs final => Sys2Proof.Machine.execLenext ffs final s
  | .offset off => Sys2Proof.Machine.execOffset off s
  | .seq lit off len => Sys2Proof.Machine.execSeq lit off len s
  | .last lit => Sys2Proof.Machine.execLast lit s
  | .magic => Sys2Proof.Machine.execMagic s
  | .flg bi bc cs cc di => Sys2Proof.Machine.execFlg bi bc cs cc di s
  | .bd id => Sys2Proof.Machine.execBd id s
  | .hc sum => Sys2Proof.Machine.execHc sum s
  | .blockwordLz4 size => Sys2Proof.Machine.execBlockwordLz4 size s
  | .blockwordRaw size => Sys2Proof.Machine.execBlockwordRaw size s
  | .endMark => Sys2Proof.Machine.execEndMark s

end Sys2Proof.Machine
end

