-- ==== Sys2Proof/Machine/Fetch.lean ====
section
/-! DEFINITION. What the engine runs next: the command word latched at the `CMD` write (spec/30_encoding.md R81, R82), or the
wire element at the cursor of the command under way (spec/10_state.md R22, spec/30_encoding.md R100). -/

namespace Sys2Proof.Machine

/-- What stands where the engine reads next. -/
inductive Fetched where
  /-- An instruction, to be run by `exec`. -/
  | instr (i : Instr)
  /-- A command that is to be run by its elements. -/
  | begin (i : Instr)
  /-- No element: the command ends. -/
  | stop (i : Instr) (e : Stop)
  /-- A word that is no legal command (R98). -/
  | badOpcode
  deriving DecidableEq, Repr

/-- The element in a slot, or the error the bytes' rejection is. -/
def elementIn (slot : Slot) (bs : Bytes) (c : ErrCode) : Except Stop Instr :=
  match decode slot bs with
  | .ok (i, _) => .ok i
  | .error _ => .error (.err c)

/-- The element at the header parser's cursor (spec/43_frame_decoder.md R220). FLG and BD are both read before either is
judged. -/
def fetchHeader (s : State) (h : HeaderRun) : Except Stop Instr :=
  match h.phase with
  | .magic =>
    if h.t.len < 4 then .error (.err .truncatedFrame)
    else do
      let bs ← s.readFrame useFrame h.t 0 4
      elementIn .magic bs .badMagic
  | .flg =>
    if h.t.len < 6 then .error (.err .truncatedFrame)
    else do
      let bs ← s.readFrame useFrame h.t 4 2
      elementIn .flg bs .headerReserved
  | .bd => do
    let bs ← s.readFrame useFrame h.t 5 1
    elementIn .bd bs .headerReserved
  | .hc => do
    let bs ← headerSumByte s h.t
    elementIn .hc bs .headerCsum

/-- The slot the token parser reads. -/
def ParserPhase.slot : ParserPhase → Slot
  | .token => .token
  | .litExt | .matchExt => .lenext
  | .offset => .offset

/-- The element at the token parser's cursor; by whole sequences where one stands there complete. A block that ends inside the
element is truncated (spec/40_block_codec.md R122). -/
def fetchBlock (g : Grain) (p : Parser) : Except Stop Instr :=
  if g = .sequence ∧ p.phase = .token then
    match decode .sequence p.rest with
    | .ok (i, _) => .ok i
    | .error _ => elementIn .token p.rest .truncated
  else elementIn p.phase.slot p.rest .truncated

/-- The command's instruction in whose name an element of a block is parsed. -/
def BlockUse.command : BlockUse → Instr
  | .block => .blkDecode
  | .session => .sesDec
  | .frame _ _ => .fdecRead

/-- What the engine runs next in the command under way. -/
def State.fetch (g : Grain) (s : State) (r : Run) : Fetched :=
  match r.progress with
  | .start =>
    match decodeCommand r.word with
    | none => .badOpcode
    | some i => if g = .command ∨ hasElements i = false then .instr i else .begin i
  | .header h =>
    match fetchHeader s h with
    | .ok i => .instr i
    | .error e => .stop .fdecOpen e
  | .block use p =>
    match fetchBlock g p with
    | .ok i => .instr i
    | .error e => .stop use.command e
  | .record rd =>
    match recordWord s rd.t with
    | .ok w => .instr (decodeRecord w)
    | .error e => .stop .fdecRead e

/-! ## Placing one instruction where the engine reads next (log entry 16) -/

/-- A command under way with its `CMD` word and a progress, the engine to move next. -/
def State.underWay (s : State) (word : Word) (p : Progress) (g : Grain) : State :=
  { s.setStarted with engine := .running ⟨word, s.args, [], p⟩, turns := [.engine g] }

/-- Bytes as the rest of a block of `BLK_DECODE`, in the phase that reads them. -/
def State.placeBlock (s : State) (bs : Bytes) (ph : ParserPhase) (g : Grain) : State :=
  s.underWay 0x3 (.block .block { Parser.start bs [] s.args.room with phase := ph }) g

/-- A frame source at `SRC_ADDR` that holds the bytes at an offset. -/
def State.placeSource (s : State) (i : Nat) (bs : Bytes) : State :=
  { s with mem := Memory.write s.mem (s.args.srcAddr.toNat + i) bs }

/-- A frame header of 7 bytes under `FDEC_OPEN` with FLG and BD 40, whose bytes from offset `i` on are given, in the phase that
reads them. -/
def State.placeHeader (s : State) (i : Nat) (bs : Bytes) (ph : HeaderPhase) : State :=
  (s.placeSource i bs).underWay 0xB
    (.header ⟨ph, { Fdec.awaiting s.args [] with len := 7, flg := 0x40, bd := 0x40 }⟩) .element

/-- A frame source under `FDEC_READ.TO_END` whose next record word is given. -/
def State.placeRecord (s : State) (bs : Bytes) : State :=
  (s.placeSource 0 bs).underWay 0x20C
    (.record ⟨{ s.fdec with st := .readingBlocks, base := s.args.srcAddr.toNat, pos := 0, len := bs.length }, [], none,
      s.args.room⟩) .element

/-- The bytes of an element of a slot, where the engine reads next. -/
def State.place (s : State) (slot : Slot) (bs : Bytes) : State :=
  match slot with
  | .command => s.underWay (le32At bs 0) .start .command
  | .token => s.placeBlock bs .token .element
  | .lenext => s.placeBlock bs .litExt .element
  | .offset => s.placeBlock bs .offset .element
  | .sequence => s.placeBlock bs .token .sequence
  | .magic => s.placeHeader 0 bs .magic
  | .flg => s.placeHeader 4 (bs ++ [0x40]) .flg
  | .bd => s.placeHeader 5 bs .bd
  | .hc => s.placeHeader 4 ([0x40, 0x40] ++ bs) .hc
  | .record => s.placeRecord bs

/-- The instruction whose bits are `w`, where the engine reads next; a word that is no instruction is written to `CMD`. -/
def State.placeWord (s : State) (nbits w : Nat) : State :=
  match tableWord nbits w with
  | some (slot, _) => s.place slot (tableBytes nbits w)
  | none => s.place .command (tableBytes 32 w)

end Sys2Proof.Machine
end

