-- ==== Sys2Proof/Machine/HostPort.lean ====
section
/-! DEFINITION. The host's side: register accesses (spec/10_state.md R23 to R42, spec/20_memory.md R65,
spec/70_reset_and_hazards.md R294 to R296), the host's own accesses to host memory (spec/20_memory.md R71), WAIT
(spec/30_encoding.md R101) and reset (spec/70_reset_and_hazards.md R290, R291). -/

namespace Sys2Proof.Machine

/-! ## Registers -/

/-- What a register read at an offset returns (R23); reserved offsets read 0 (R42). -/
def State.csrRead (s : State) (off : Nat) : Word :=
  match off with
  | 0x00 => 0
  | 0x04 => s.statusWord
  | 0x08 => s.args.srcAddr
  | 0x0C => s.args.srcLen
  | 0x10 => s.args.dstAddr
  | 0x14 => s.args.dstCap
  | 0x18 => s.args.dstLen
  | 0x1C => s.args.dictAddr
  | 0x20 => s.args.dictLen
  | 0x24 => s.args.level
  | 0x28 => s.args.fcfg
  | 0x2C => s.args.csizeLo
  | 0x30 => s.args.csizeHi
  | 0x34 => s.args.dictId
  | 0x38 => s.args.readLen
  | 0x3C => s.result
  | 0x40 => s.fregs.hdr
  | 0x44 => s.fregs.csizeLo
  | 0x48 => s.fregs.csizeHi
  | 0x4C => s.fregs.dictId
  | 0x50 => s.fregs.srcPos
  | 0x54 => if s.irqEn then 1 else 0
  | 0x58 => if s.irqPending then 1 else 0
  | _ => 0

/-- The argument registers after a write at an offset; an offset that is no argument register changes none. -/
def Args.write (A : Args) (off : Nat) (v : Word) : Args :=
  match off with
  | 0x08 => { A with srcAddr := v }
  | 0x0C => { A with srcLen := v }
  | 0x10 => { A with dstAddr := v }
  | 0x14 => { A with dstCap := v }
  | 0x18 => { A with dstLen := v }
  | 0x1C => { A with dictAddr := v }
  | 0x20 => { A with dictLen := v }
  | 0x24 => { A with level := v }
  | 0x28 => { A with fcfg := v }
  | 0x2C => { A with csizeLo := v }
  | 0x30 => { A with csizeHi := v }
  | 0x34 => { A with dictId := v }
  | 0x38 => { A with readLen := v }
  | _ => A

/-- A write to `CMD`: the command starts with a snapshot of the registers, or, while BUSY, the write is ignored
(spec/30_encoding.md R82, R294). -/
def State.startCommand (s : State) (w : Word) : State :=
  if s.busy then s else { s.setStarted with engine := .running ⟨w, s.args, [], .start⟩ }

/-- A register write at an offset: CMD starts a command, IRQ_EN and IRQ_STATUS take the write at any time, the argument
registers only while idle, and every other offset ignores it. -/
def State.csrWrite (s : State) (off : Nat) (v : Word) : State :=
  match off with
  | 0x00 => s.startCommand v
  | 0x54 => { s with irqEn := v.getLsbD 0 }
  | 0x58 => { s with irqPending := s.irqPending && !v.getLsbD 0 }
  | off => if s.busy then s else { s with args := s.args.write off v }

/-- The offset of a host address in the register window, if it lies there. -/
def csrOffset? (c : Config) (addr : Nat) : Option Nat :=
  if Region.holds (c.csrBase, csrWindow) addr then some (addr - c.csrBase) else none

/-- A register access is supported: 32 bits, aligned to 4 bytes (R65). -/
def csrAccessOk (off width : Nat) : Bool := decide (width = 4 ∧ off % 4 = 0)

/-! ## Host memory -/

/-- The host has replaced the bytes at an address while a command runs: the values that stood there are kept (R71). -/
def State.noteRace (s : State) (a : Nat) (bs : Bytes) : State :=
  let olds := (List.range bs.length).map fun k => ((a + k, Memory.read s.mem (a + k)) : Host.Cell)
  match s.engine with
  | .idle => s
  | .running r => { s with engine := .running { r with raced := olds ++ r.raced } }
  | .stuck r => { s with engine := .stuck { r with raced := olds ++ r.raced } }

/-- The destination window of the command under way, where it has one. Log entry 23, DEDUCED: `BLK_BOUND` and the session resets,
to which R61 gives no destination window, and a word that is no command have none, though R291 writes the window's formula
without naming the command. -/
def State.openWindow? (s : State) : Option Region :=
  match s.run? with
  | none => none
  | some r =>
    match decodeCommand r.word with
    | some i => if opensDst i then some r.args.window else none
    | none => none

/-- What a host read of a byte of memory returns: any value in the destination window of a running command (R71) and where reading
has side effects (R66). -/
def State.hostByte (s : State) (a : Nat) : Byte :=
  if s.openWindow?.any (Region.holds · a) || s.cfg.volatile.any (Region.holds · a) then Config.freeByte s.nonce useHost a
  else Memory.read s.mem a

/-! ## Reset -/

/-- Reset (R290, R291): every LZ4CB state takes its reset value, and the destination window of a command under way holds any
value. The platform's parameters, memory and what the host does stay. -/
def State.hardReset (s : State) : State :=
  let s' := match s.openWindow? with
    | some w => s.scramble w
    | none => s
  { State.reset with cfg := s.cfg, mem := s'.mem, host := s.host, turns := s.turns, rdata := s.rdata, nonce := s.nonce + 1 }

/-! ## One event -/

/-- One event of the host's side. -/
def State.hostOp (op : HostOp) (s : State) : Host.Outcome State Fault Refusal :=
  match op with
  | .write addr width v =>
    match csrOffset? s.cfg addr with
    | some off => .next (if csrAccessOk off width then s.csrWrite off v else s)
    | none => .next s
  | .read addr width =>
    match csrOffset? s.cfg addr with
    | some off => .next { s with rdata := if csrAccessOk off width then s.csrRead off else 0 }
    | none => .next s
  | .memWrite addr bs =>
    if backs s.cfg addr bs.length then
      .next { s.noteRace addr bs with mem := Memory.write s.mem addr bs }
    else .fault .hostBusError
  | .memRead addr =>
    if backs s.cfg addr 1 then .next { s with rdata := (s.hostByte addr).setWidth 32, nonce := s.nonce + 1 }
    else .fault .hostBusError
  | .wait =>
    .next (if s.busy then { s with rdata := s.statusWord, host := .wait :: s.host } else { s with rdata := s.statusWord })
  | .reset => .next s.hardReset

/-- The host's move: its next event, if it has one. -/
def State.hostTurn (s : State) : Host.Outcome State Fault Refusal :=
  match s.host with
  | [] => .next s
  | op :: rest => { s with host := rest }.hostOp op

end Sys2Proof.Machine
end

