-- ==== Sys2Proof/Machine/Engine.lean ====
section
/-! DEFINITION. The two agents' moves and whose turn it is (spec/10_state.md R20, spec/30_encoding.md R82,
spec/70_reset_and_hazards.md R306). -/

namespace Sys2Proof.Machine

/-- The engine's move: nothing while no command runs (R20); else what it fetches next. A stuck command never completes
(spec/20_memory.md R68). -/
def engineTurn (g : Grain) (s : State) : Host.Outcome State Fault Refusal :=
  match s.engine with
  | .idle => .next s
  | .stuck _ => .fault .engineStuck
  | .running r =>
    match s.fetch g r with
    | .instr i => exec i s
    | .begin i => s.begin i r
    | .stop i e => s.finish i (.error e)
    | .badOpcode => .next s.raiseOpcode

/-- Who moves at this step: the first of the turns; with none given, a running command goes on first, and the host moves when
the engine is idle or stuck (log entry 10). -/
def State.turn (s : State) : Turn :=
  match s.turns with
  | t :: _ => t
  | [] =>
    match s.engine with
    | .idle => .host
    | .running _ => .engine .command
    | .stuck _ => if s.host = [] then .engine .command else .host

/-- A turn that both agents take: the host's event, then the engine's, so that a completion's DONE_IP outlasts a clearing write
(spec/10_state.md R41). -/
def bothTurn (g : Grain) (s : State) : Host.Outcome State Fault Refusal :=
  match s.hostTurn with
  | .next s' => engineTurn g s'
  | .fault f => .fault f
  | .refused r => .refused r

/-- One step. -/
def advance (s : State) : Host.Outcome State Fault Refusal :=
  let s' := { s with turns := s.turns.tail }
  match s.turn with
  | .host => s'.hostTurn
  | .engine g => engineTurn g s'
  | .both g => bothTurn g s'

end Sys2Proof.Machine
end

