-- ==== Sys2Proof/Safety.lean ====
section
/-! DEFINITION. What claims about the machine speak of: its invariant, the situations in which the spec fixes every value (no
race, plain memory), the states the spec's completions give, and a command run to its end. -/

namespace Sys2Proof.Machine

/-! ## The invariant -/

/-- Every listed byte lies in the address space (spec/20_memory.md R60). -/
def Memory.inSpace (m : Memory) : Prop := ∀ c ∈ m, c.1 < addrSpace

/-- A session context: the bounds of spec/10_state.md R43, an unlinked session's window is its dictionary
(spec/41_stream_session.md R172, R174), and so is a FRESH session's (R173, spec/10_state.md R45). -/
structure Session.Ok (c : Session) : Prop where
  dict : c.dict.length ≤ winSize
  win : c.win.length ≤ winSize
  unlinked : c.linked = false → c.win = c.dict
  fresh : c.st = .fresh → c.win = c.dict ∧ c.total = 0

/-- A frame was opened and has not failed. -/
def Fenc.isOpen (f : Fenc) : Prop := f.st = .opened ∨ f.st = .writing ∨ f.st = .closed

/-- The frame encoder context (spec/10_state.md R46): its bounds, its count, a legal header while a frame is open, `|stage| < bs`
between commands, and the declared content size kept (spec/42_frame_encoder.md R199). -/
structure Fenc.Ok (cfg : Config) (f : Fenc) : Prop where
  dict : f.dict.length ≤ winSize
  win : f.win.length ≤ winSize
  total : f.total = BitVec.ofNat 64 f.plain.length
  header : f.isOpen → headerLegal cfg f.flg f.bd = true ∧ f.bs = blockMax (bdCode f.bd)
  stage : f.isOpen → f.stage.length < f.bs
  closed : f.st = .closed → f.stage = [] ∧ (cSize f.flg = true → f.total = f.csize)

/-- A frame was opened and has not failed. -/
def Fdec.isOpen (t : Fdec) : Prop := t.st = .readingBlocks ∨ t.st = .finished

/-- The frame decoder context (spec/10_state.md R48) in any state: its bounds and its count. -/
structure Fdec.Ok (t : Fdec) : Prop where
  dict : t.dict.length ≤ winSize
  win : t.win.length ≤ winSize
  total : t.total = BitVec.ofNat 64 t.plain.length

/-- The frame decoder context of an open frame (spec/10_state.md R48): its region, cursor, header, block size and pending bytes;
a finished frame has none pending and the declared content size (spec/43_frame_decoder.md R223). -/
structure Fdec.Open (cfg : Config) (t : Fdec) : Prop where
  region : t.base + t.len ≤ addrSpace
  pos : t.pos ≤ t.len
  header : headerLegal cfg t.flg t.bd = true
  bs : t.bs = blockMax (bdCode t.bd)
  pend : t.pend.length ≤ t.bs
  finished : t.st = .finished → t.pend = [] ∧ (cSize t.flg = true → t.total = t.csize)

/-- The token parser under way: history and output within their bounds. -/
structure Parser.Ok (p : Parser) : Prop where
  hist : p.hist.length ≤ winSize
  out : p.out.length ≤ p.cap
  rest : p.rest.length ≤ p.size

/-- The header parser under way: nothing of the frame but its region and dictionary is set, and the header bytes read so far have
no reserved value. -/
structure HeaderRun.Ok (cfg : Config) (h : HeaderRun) : Prop where
  region : h.t.base + h.t.len ≤ addrSpace
  dict : h.t.dict.length ≤ winSize
  win : h.t.win = h.t.dict
  empty : h.t.pend = [] ∧ h.t.plain = [] ∧ h.t.total = 0
  flg : h.phase = .bd ∨ h.phase = .hc → h.t.flg &&& 0xC2 = 0x40
  bd : h.phase = .hc → headerLegal cfg h.t.flg h.t.bd = true

/-- The record reader under way: a frame being read, the same frame as the context's, with the output within its bound. -/
structure Reader.Ok (s : State) (rd : Reader) : Prop where
  ok : rd.t.Ok
  opened : rd.t.Open s.cfg
  reading : rd.t.st = .readingBlocks
  context : s.fdec.st = .readingBlocks
  same : rd.t.flg = s.fdec.flg ∧ rd.t.bd = s.fdec.bd ∧ rd.t.csize = s.fdec.csize ∧ rd.t.dictid = s.fdec.dictid
  pend : rd.t.pend = []
  out : rd.out.length ≤ rd.cap
  want : ∀ n, rd.want = some n → rd.out.length ≤ n

/-- What a block under decode is decoded for is consistent with its parser. -/
def BlockUse.Ok (s : State) (p : Parser) : BlockUse → Prop
  | .block | .session => True
  | .frame rd next => rd.Ok s ∧ next ≤ rd.t.len ∧ p.cap = rd.t.bs

/-- The running command's progress is consistent. -/
def Progress.Ok (s : State) : Progress → Prop
  | .start => True
  | .header h => h.Ok s.cfg
  | .block use p => p.Ok ∧ use.Ok s p
  | .record rd => rd.Ok s

/-- The output under way is bounded by the room of the destination window (spec/40_block_codec.md R142,
spec/41_stream_session.md R176, spec/43_frame_decoder.md R227). -/
def Progress.Bounded (A : Args) : Progress → Prop
  | .start | .header _ => True
  | .block .block p | .block .session p => p.cap = A.room
  | .block (.frame rd _) _ | .record rd => rd.cap = A.room

/-- The running command: its snapshot is what the argument registers still hold (spec/70_reset_and_hazards.md R295). -/
structure Run.Ok (s : State) (r : Run) : Prop where
  snapshot : r.args = s.args
  raced : Memory.inSpace r.raced
  progress : r.progress.Ok s
  bounded : r.progress.Bounded r.args

/-- The invariant of the machine. -/
structure State.Inv (s : State) : Prop where
  cfg : s.cfg.legal = true
  memory : Memory.wf s.mem = true
  space : Memory.inSpace s.mem
  eses : s.eses.Ok
  dses : s.dses.Ok
  fenc : s.fenc.Ok s.cfg
  fdec : s.fdec.Ok
  frame : s.fdec.isOpen → s.fdec.Open s.cfg
  /-- AWAITING_HEADER is never seen between commands (spec/10_state.md R49). -/
  awaiting : s.fdec.st ≠ .awaitingHeader
  /-- The `FDEC_*` registers mirror the context of an open frame (spec/10_state.md R36 to R39). -/
  mirror : s.fdec.isOpen → s.fregs = s.fdec.regs
  /-- While BUSY, DONE and ERR are 0 (spec/70_reset_and_hazards.md R296). -/
  flags : s.busy = true → s.done = false ∧ s.lastError = none
  /-- ERR stands only beside DONE (spec/10_state.md R25). -/
  err : s.err = true → s.done = true
  run : ∀ r, s.engine = .running r ∨ s.engine = .stuck r → r.Ok s

/-! ## Situations in which every value is fixed -/

/-- The bytes memory holds at `[a, a+n)`. -/
def Memory.bytes (m : Memory) (a n : Nat) : Bytes := (List.range n).map fun k => Memory.read m (a + k)

/-- No race (spec/20_memory.md R71): the host has written nothing to memory since the command started. -/
abbrev State.Calm (s : State) : Prop := s.raced = []

/-- No byte of a region has read side effects (spec/20_memory.md R66). Other regions of the platform may have them. -/
abbrev State.Plain (s : State) (r : Region) : Prop := ∀ v ∈ s.cfg.volatile, Region.meets r v = false

/-- No region the command uses (spec/20_memory.md R61) has a byte with read side effects; where one has, its outcome is any value
(R66). -/
abbrev State.OnPlain (i : Instr) (s : State) : Prop :=
  (∀ r ∈ regionsRead i s s.snapshot, s.Plain r) ∧ (writesDst i = true → s.Plain s.snapshot.window)

/-- No region the command uses (spec/20_memory.md R61) has a byte that is unmapped (R68) or in LZ4CB's own register window
(spec/70_reset_and_hazards.md R302). -/
abbrev State.Mapped (i : Instr) (s : State) : Prop :=
  ∀ w ∈ (s.cfg.csrBase, csrWindow) :: s.cfg.holes, (∀ r ∈ regionsRead i s s.snapshot, Region.meets r w = false) ∧
    (writesDst i = true → Region.meets s.snapshot.window w = false)

/-- The source region is plain memory that holds these bytes. -/
abbrev State.Source (s : State) (A : Args) (x : Bytes) : Prop :=
  accessible s.cfg A.src A.srcAddr.toNat A.srcLen.toNat = true ∧ s.Plain A.src ∧
    x = Memory.bytes s.mem A.srcAddr.toNat A.srcLen.toNat

/-- The dictionary region is plain, its used part is memory, and its last `min(DICT_LEN, WIN_SIZE)` bytes are these
(spec/40_block_codec.md R136). -/
abbrev State.Dictionary (s : State) (A : Args) (h : Bytes) : Prop :=
  accessible s.cfg A.dict (A.dictAddr.toNat + (A.dictLen.toNat - winSize)) (min A.dictLen.toNat winSize) = true ∧
    s.Plain A.dict ∧ h = lastBytes winSize (Memory.bytes s.mem A.dictAddr.toNat A.dictLen.toNat)

/-- The destination window is plain, `n` bytes of output fit it, and memory is there to take them. -/
abbrev State.Sink (s : State) (A : Args) (n : Nat) : Prop :=
  n ≤ A.room ∧ s.Plain A.window ∧ (n = 0 ∨ accessible s.cfg A.window A.dstPoint n = true)

/-- Bytes `[i, i+n)` of a frame source are there, and plain memory holds these. -/
abbrev State.FrameBytes (s : State) (t : Fdec) (i n : Nat) (x : Bytes) : Prop :=
  i + n ≤ t.len ∧ accessible s.cfg (s.frameRegion t) (t.base + i) n = true ∧ s.Plain (s.frameRegion t) ∧
    x = Memory.bytes s.mem (t.base + i) n

/-! ## What the usage checks ask (spec/60_exceptions.md R263), in the spec's own terms -/

/-- The source region is well-formed. -/
abbrev Args.SrcOk (A : Args) : Prop := A.srcAddr.toNat + A.srcLen.toNat ≤ 2 ^ 32

/-- The dictionary region is well-formed. -/
abbrev Args.DictOk (A : Args) : Prop := A.dictAddr.toNat + A.dictLen.toNat ≤ 2 ^ 32

/-- The destination is well-formed. -/
abbrev Args.DstOk (A : Args) : Prop :=
  A.dstLen.toNat ≤ A.dstCap.toNat ∧ A.dstAddr.toNat + A.dstCap.toNat ≤ 2 ^ 32

/-- A region `[a, a+n)` and the destination window `[DST_ADDR + DST_LEN, DST_ADDR + DST_CAP)` do not overlap: one of them is
empty, or one ends before the other begins. -/
abbrev Args.Apart (A : Args) (a n : Nat) : Prop :=
  n = 0 ∨ A.dstCap.toNat ≤ A.dstLen.toNat ∨ a + n ≤ A.dstAddr.toNat + A.dstLen.toNat ∨
    A.dstAddr.toNat + A.dstCap.toNat ≤ a

/-- A FLG byte and a BD byte without a reserved value (spec/42_frame_encoder.md R197, spec/43_frame_decoder.md R220). -/
abbrev HeaderBytesOk (c : Config) (flg bd : Byte) : Prop :=
  flg.extractLsb' 6 2 = 1 ∧ flg.getLsbD 1 = false ∧ bd.getLsbD 7 = false ∧ bd.extractLsb' 0 4 = 0 ∧
    4 ≤ (bd.extractLsb' 4 3).toNat ∧ (bd.extractLsb' 4 3).toNat ≤ c.bsizeIdMax

/-- The fifteen legal command words and the commands they name (spec/30_encoding.md R81). -/
def commandTable : List (Word × Instr) :=
  [(0x00000001, .blkBound), (0x00000002, .blkEncode), (0x00000003, .blkDecode), (0x00000004, .sesEncReset),
    (0x00000104, .sesEncResetLinked), (0x00000005, .sesEnc), (0x00000006, .sesDecReset), (0x00000106, .sesDecResetLinked),
    (0x00000007, .sesDec), (0x00000008, .fencOpen), (0x00000009, .fencWrite), (0x0000000A, .fencClose),
    (0x0000000B, .fdecOpen), (0x0000000C, .fdecRead), (0x0000020C, .fdecReadToEnd)]

/-- The commands. -/
def commands : List Instr := commandTable.map (·.2)

/-! ## The completions of the spec -/

/-- `ok([], result)` of spec/30_encoding.md R83, without the context updates a command lists: no output, so no byte of memory
changes, and DST_LEN is the snapshot's, which it still is in every state of a run (spec/70_reset_and_hazards.md R295). The
counter of free values advances with every completion (log entry 6). -/
def State.okPlain (s : State) (A : Args) (result : Nat) : State :=
  { s with args := { s.args with dstLen := A.dstLen }, result := BitVec.ofNat 32 result, engine := .idle, done := true,
           lastError := none, irqPending := true, nonce := s.nonce + 1 }

/-- `ok(out, result)` of spec/30_encoding.md R83, without the context updates a command lists: `out` at
`DST_ADDR + DST_LEN`, and `DST_LEN` past it. -/
def State.okState (s : State) (A : Args) (out : Bytes) (result : Nat) : State :=
  { s.okPlain A result with
    mem := Memory.write s.mem (A.dstAddr.toNat + A.dstLen.toNat) out,
    args := { s.args with dstLen := BitVec.ofNat 32 (A.dstLen.toNat + out.length) } }

/-- `raise Err(code)` of spec/60_exceptions.md R264, without what a codec or a format error does to the destination window and
the command's context. -/
def State.errState (s : State) (c : ErrCode) : State :=
  { s with result := 0, engine := .idle, done := true, lastError := some c, irqPending := true, nonce := s.nonce + 1 }

/-- The running command has come to a progress, and nothing else has changed. -/
def State.goesOn (s : State) (r : Run) (p : Progress) : State := { s with engine := .running { r with progress := p } }

/-- The command completed with success. -/
abbrev State.Succeeded (t : State) : Prop := t.engine = .idle ∧ t.lastError = none

/-- The command completed with an error. -/
abbrev State.Failed (t : State) (c : ErrCode) : Prop := t.engine = .idle ∧ t.lastError = some c

/-- The command is stuck, and nothing but the engine has changed (spec/20_memory.md R68, log entry 4). -/
abbrev State.Sticks (s : State) (o : Host.Outcome State Fault Refusal) : Prop :=
  ∃ r, o = .next { s with engine := .stuck r }

/-- The command completes with an error. -/
abbrev Fails (o : Host.Outcome State Fault Refusal) (c : ErrCode) : Prop := ∃ t, o = .next t ∧ t.Failed c

/-! ### What the frame encoder emits, in the words of spec/42_frame_encoder.md -/

/-- `EmitBlock(blk, H)` (R195): the length word, with bit 31 set where the block is stored raw, which is exactly where its encoding is
not shorter than it; the payload; and the payload's checksum where `FLG[4]` asks for one. -/
def recordOf (c : Config) (f : Fenc) (blk h : Bytes) : Bytes :=
  let z := encodeBlock c blk h f.level
  if blk.length ≤ z.length then
    le32 (BitVec.ofNat 32 blk.length ||| 0x80000000) ++ blk ++ (if f.flg.getLsbD 4 then le32 (xxh32 blk 0) else [])
  else le32 (BitVec.ofNat 32 z.length) ++ z ++ (if f.flg.getLsbD 4 then le32 (xxh32 z 0) else [])

/-- The window before the block that starts `n` bytes into a buffer (R196): for linked blocks the last 65536 bytes of what the frame
has seen so far. -/
def windowAt (f : Fenc) (buf : Bytes) (n : Nat) : Bytes :=
  if f.flg.getLsbD 5 then f.win else lastBytes 65536 (f.win ++ buf.take n)

/-- The records of the first `k` blocks of a buffer (R196, R198): each block's history is the dictionary where blocks are independent,
else the window before it. -/
def recordsOf (c : Config) (f : Fenc) (buf : Bytes) (k : Nat) : Bytes :=
  (List.range k).flatMap fun j =>
    recordOf c f ((buf.drop (j * f.bs)).take f.bs) (if f.flg.getLsbD 5 then f.dict else windowAt f buf (j * f.bs))

/-- What `FENC_CLOSE` emits (R199): the record of the staged bytes where there are any, the End Mark, and the content checksum where
`FLG[2]` asks for one. -/
def closingOf (c : Config) (f : Fenc) : Bytes :=
  (if f.stage = [] then [] else recordOf c f f.stage (if f.flg.getLsbD 5 then f.dict else f.win)) ++
    [0x00, 0x00, 0x00, 0x00] ++ (if f.flg.getLsbD 2 then le32 (xxh32 f.plain 0) else [])

/-! ### What follows a decoded block -/

/-- The frame decoder after a block of plaintext whose record ends at `next`, but for the pending bytes
(spec/43_frame_decoder.md R222): window, `P`, total and cursor. -/
def Fdec.joined (t : Fdec) (blk : Bytes) (next : Nat) : Fdec :=
  { t with pos := next, plain := t.plain ++ blk, total := t.total + BitVec.ofNat 64 blk.length,
           win := if t.flg.getLsbD 5 then t.win else lastBytes 65536 (t.win ++ blk) }

/-- What a read does with a block of plaintext (R222, R227): it delivers as much of it as it still lacks. A read to the end, and one
that lacks bytes after that, goes on to the next record; one that has its bytes completes with them, and the rest stays pending;
where the bytes do not fit the destination it ends with `ERR_DST_FULL`. -/
def State.AfterBlock (s : State) (r : Run) (rd : Reader) (blk : Bytes) (next : Nat)
    (o : Host.Outcome State Fault Refusal) : Prop :=
  ((∀ n, rd.want = some n → rd.out.length + blk.length < n) → rd.t.st = .readingBlocks →
    rd.out.length + blk.length ≤ rd.cap →
    o = .next (s.goesOn r (.record
      { rd with t := { rd.t.joined blk next with pend := [] }, out := rd.out ++ blk }))) ∧
  (∀ n, rd.want = some n → rd.out.length < n → n ≤ rd.out.length + blk.length → n ≤ rd.cap → s.OnPlain .fdecRead → s.Sink r.args n →
    o = .next { s.okState r.args (rd.out ++ blk.take (n - rd.out.length)) n with
      fdec := { rd.t.joined blk next with pend := blk.drop (n - rd.out.length) },
      fregs := { s.fregs with srcPos := BitVec.ofNat 32 next } }) ∧
  (∀ k, k = (match rd.want with | none => blk.length | some n => min (n - rd.out.length) blk.length) → k ≠ 0 →
    s.OnPlain .fdecRead → rd.cap < rd.out.length + k → Fails o .dstFull)

/-- What follows a block that has decoded to `out` (spec/40_block_codec.md R142, spec/41_stream_session.md R176, R222): `BLK_DECODE` and
`SES_DEC` complete with it, and the session takes it; a frame's read does with it what R227 says. -/
def State.AfterDecode (s : State) (r : Run) (out : Bytes) (o : Host.Outcome State Fault Refusal) : BlockUse → Prop
  | .block => s.OnPlain .blkDecode → s.Sink r.args out.length → o = .next (s.okState r.args out out.length)
  | .session => s.OnPlain .sesDec → s.Sink r.args out.length → o = .next { s.okState r.args out out.length with
      dses := { s.dses with
        st := .primed, win := (if s.dses.linked then lastBytes 65536 (s.dses.win ++ out) else s.dses.win),
        total := s.dses.total + BitVec.ofNat 64 out.length } }
  | .frame rd next => s.AfterBlock r rd out next o

/-- The error codes each command can report: the last column of spec/60_exceptions.md R262. -/
def raisedBy : Instr → List ErrCode
  | .blkBound => []
  | .blkEncode => [.badRange, .overlap, .dstFull, .srcTooLarge]
  | .blkDecode => [.badRange, .overlap, .dstFull, .truncated, .offsetZero, .offsetRange]
  | .sesEncReset | .sesEncResetLinked | .sesDecReset | .sesDecResetLinked => [.badRange]
  | .sesEnc => [.badRange, .overlap, .badState, .dstFull, .srcTooLarge]
  | .sesDec => [.badRange, .overlap, .badState, .dstFull, .truncated, .offsetZero, .offsetRange]
  | .fencOpen => [.badRange, .overlap, .badConfig, .dstFull]
  | .fencWrite => [.badRange, .overlap, .badState, .dstFull]
  | .fencClose => [.badRange, .badState, .dstFull, .contentSize]
  | .fdecOpen => [.badRange, .badMagic, .headerReserved, .headerCsum, .truncatedFrame]
  | .fdecRead | .fdecReadToEnd =>
    [.badRange, .overlap, .badState, .dstFull, .truncated, .offsetZero, .offsetRange, .blockTooLarge, .blockCsum,
      .contentCsum, .truncatedFrame, .contentSize]
  | .token _ _ | .lenext _ _ | .offset _ | .seq _ _ _ | .last _ | .magic | .flg _ _ _ _ _ | .bd _ | .hc _
  | .blockwordLz4 _ | .blockwordRaw _ | .endMark => []

/-- The running command expects an element of this kind next (log entry 13). -/
def State.Expects (s : State) (i : Instr) : Prop :=
  ∃ r, s.engine = .running r ∧
    ((∃ h, r.progress = .header h ∧
        (i.slot, h.phase) ∈ [(Slot.magic, HeaderPhase.magic), (.flg, .flg), (.bd, .bd), (.hc, .hc)]) ∨
      (∃ use p, r.progress = .block use p ∧ (i.slot = p.phase.slot ∨ i.slot = .sequence ∧ p.phase = .token)) ∨
      (∃ rd, r.progress = .record rd ∧ i.slot = .record))

/-! ## Frames -/

/-- Nothing that only the host's side or the platform changes has changed. -/
def State.SameHost (s t : State) : Prop :=
  t.cfg = s.cfg ∧ t.irqEn = s.irqEn ∧ t.host = s.host ∧ t.turns = s.turns ∧ t.rdata = s.rdata

/-- No argument register but `DST_LEN` has changed. -/
def State.SameArgs (s t : State) : Prop := ∃ v, t.args = { s.args with dstLen := v }

/-- Every byte of memory outside a region reads as before. -/
def State.SameMemoryOutside (s t : State) (w : Region) : Prop :=
  ∀ a, Region.holds w a = false → Memory.read t.mem a = Memory.read s.mem a

/-- Every byte of memory reads as before. -/
def State.SameMemory (s t : State) : Prop := ∀ a, Memory.read t.mem a = Memory.read s.mem a

/-! ## Runs -/

/-- The engine's moves until no command runs, at most so many. -/
def engineRun (g : Grain) : Nat → State → Host.Outcome State Fault Refusal
  | 0, s => .next s
  | n + 1, s =>
    match s.engine with
    | .running _ =>
      match engineTurn g s with
      | .next t => engineRun g n t
      | .fault f => .fault f
      | .refused r => .refused r
    | .idle | .stuck _ => .next s

end Sys2Proof.Machine
end

