-- ==== Sys2Proof/Certificates/Slice0/Obligations.lean ====
section
/-! DEFINITION. The statements for the provers. Each docstring names the rules of spec/ it formalises; where a clause rests on a
choice of the model it names the log entry. `A` is the running command's argument snapshot throughout. -/

open Sys2Proof Sys2Proof.Machine

/-! ## Encodings -/

/-- R81, R84 to R87, R91 to R95, R97: decoding the bytes of a well-formed instruction gives it back, with every operand, and what
follows it. A last sequence is the last thing of its block (R87), so nothing follows it. -/
def Obligations.DecodeOfEncodeIsTheInstruction : Prop :=
  ∀ (i : Instr) (rest : Bytes), i.wf = true → (∀ lit, i = .last lit → rest = []) →
    decode i.slot (encode i ++ rest) = .ok (i, rest)

/-- R81, R98: a word is a command exactly where the table of legal words says so, and every other word completes with
`ERR_BAD_OPCODE`, at every grain, and changes nothing but RESULT and the flags. -/
def Obligations.CommandWords : Prop :=
  (∀ (w : Word) (i : Instr), decodeCommand w = some i ↔ (w, i) ∈ commandTable) ∧
  (∀ (s : State) (r : Run) (g : Grain), s.engine = .running r → r.progress = .start →
    (∀ i, (r.word, i) ∉ commandTable) → engineTurn g s = .next (s.errState .badOpcode))

/-- R84: the length of a nibble below 15, the length of a nibble 15 with its extension bytes, the nibble and the extension of a
length, and that no other encoding gives that length. -/
def Obligations.LengthEncodingIsUnique : Prop :=
  (∀ (v : BitVec 4) (rest : Bytes), v.toNat < 15 → nibbleLength v rest = some (v.toNat, rest)) ∧
  (∀ (ffs : Nat) (final : Byte) (rest : Bytes), final.toNat < 255 →
    nibbleLength 15 (List.replicate ffs 255 ++ final :: rest) = some (15 + 255 * ffs + final.toNat, rest)) ∧
  (∀ n : Nat, n < 15 → lengthNibble n = BitVec.ofNat 4 n ∧ lengthExt n = []) ∧
  (∀ n : Nat, 15 ≤ n → lengthNibble n = 15 ∧
    lengthExt n = List.replicate ((n - 15) / 255) 255 ++ [BitVec.ofNat 8 ((n - 15) % 255)]) ∧
  (∀ (v : BitVec 4) (bs rest : Bytes) (n : Nat), nibbleLength v bs = some (n, rest) →
    v = lengthNibble n ∧ bs = lengthExt n ++ rest)

/-- Words of the spec, one per family of the opcode table, decode to the instructions they stand for: the examples of R81, R84,
R103, R91, R94 and the layouts of R92, R93, R95, R97. -/
def Obligations.WordsOfTheSpecDecode : Prop :=
  decode .command [0x04, 0x01, 0x00, 0x00] = .ok (.sesEncResetLinked, []) ∧
  decode .command [0x0C, 0x02, 0x00, 0x00] = .ok (.fdecReadToEnd, []) ∧
  decode .token [0x35] = .ok (.token 3 5, []) ∧
  decode .lenext [0xFF, 0xFF, 0x00] = .ok (.lenext 2 0, []) ∧
  decode .offset [0x03, 0x00] = .ok (.offset 3, []) ∧
  decode .sequence [0x35, 0x61, 0x62, 0x63, 0x03, 0x00, 0x50] = .ok (.seq [0x61, 0x62, 0x63] 3 9, [0x50]) ∧
  decode .sequence [0x50, 0x62, 0x63, 0x61, 0x62, 0x63] = .ok (.last [0x62, 0x63, 0x61, 0x62, 0x63], []) ∧
  decode .magic [0x04, 0x22, 0x4D, 0x18] = .ok (.magic, []) ∧
  decode .flg [0x64] = .ok (.flg true false false true false, []) ∧
  decode .bd [0x40] = .ok (.bd 4, []) ∧
  decode .hc [0xA7] = .ok (.hc 0xA7, []) ∧
  decode .record [0x05, 0x00, 0x00, 0x80] = .ok (.blockwordRaw 5, []) ∧
  decode .record [0x0C, 0x00, 0x00, 0x00] = .ok (.blockwordLz4 12, []) ∧
  decode .record [0x00, 0x00, 0x00, 0x00] = .ok (.endMark, [])

/-! ## A step -/

/-- R82: a running command whose word is legal is run by `exec`, whole at the grain of commands or where it has no elements,
else begun; with no turn given, a running command goes on as a whole (log entries 10 and 12). -/
def Obligations.StepRunsTheDecodedCommand : Prop :=
  ∀ (s : State) (r : Run) (i : Instr), s.engine = .running r → r.progress = .start → decodeCommand r.word = some i →
    (∀ g ts, s.turns = .engine g :: ts → g = .command ∨ hasElements i = false → step s = exec i { s with turns := ts }) ∧
    (∀ g ts, s.turns = .engine g :: ts → g ≠ .command → hasElements i = true → step s = { s with turns := ts }.begin i r) ∧
    (s.turns = [] → step s = exec i s)

/-- R22, R100, R220, R222: in a block under decode, the element at the cursor is run by `exec`: the element the parser's phase
expects, or a whole sequence where the grain asks for one and one stands there complete. In a frame header and at a record, the
element that stands in memory at the cursor is run by `exec`, where nothing races and the bytes are memory (log entry 12). -/
def Obligations.StepRunsTheDecodedElement : Prop :=
  ∀ (s : State) (r : Run) (g : Grain) (ts : List Turn) (i : Instr) (bs rest : Bytes),
    s.engine = .running r → s.turns = .engine g :: ts →
    (∀ (use : BlockUse) (p : Parser), r.progress = .block use p →
      (g ≠ .sequence ∨ p.phase ≠ .token → decode p.phase.slot p.rest = .ok (i, rest) →
        step s = exec i { s with turns := ts }) ∧
      (g = .sequence → p.phase = .token → decode .sequence p.rest = .ok (i, rest) →
        step s = exec i { s with turns := ts })) ∧
    (∀ h : HeaderRun, r.progress = .header h → s.Calm →
      (h.phase = .magic → s.FrameBytes h.t 0 4 bs → decode .magic bs = .ok (i, rest) →
        step s = exec i { s with turns := ts }) ∧
      (h.phase = .flg → s.FrameBytes h.t 4 2 bs → decode .flg bs = .ok (i, rest) →
        step s = exec i { s with turns := ts }) ∧
      (h.phase = .bd → s.FrameBytes h.t 5 1 bs → decode .bd bs = .ok (i, rest) →
        step s = exec i { s with turns := ts }) ∧
      (h.phase = .hc → s.FrameBytes h.t (headerLength h.t.flg - 1) 1 bs → decode .hc bs = .ok (i, rest) →
        step s = exec i { s with turns := ts })) ∧
    (∀ rd : Reader, r.progress = .record rd → s.Calm → s.FrameBytes rd.t rd.t.pos 4 bs →
      decode .record bs = .ok (i, rest) → step s = exec i { s with turns := ts })

/-- R20: a turn of the host is its next access; the engine has no step while no command runs (log entry 10). -/
def Obligations.StepTakesTheHostsAccess : Prop :=
  (∀ (s : State) (ts : List Turn) (op : HostOp) (ops : List HostOp), s.turns = .host :: ts → s.host = op :: ops →
    step s = { s with turns := ts, host := ops }.hostOp op) ∧
  (∀ (s : State) (op : HostOp) (ops : List HostOp), s.turns = [] → s.engine = .idle → s.host = op :: ops →
    step s = { s with host := ops }.hostOp op) ∧
  (∀ (s : State) (g : Grain) (ts : List Turn), s.turns = .engine g :: ts → s.engine = .idle →
    step s = .next { s with turns := ts })

/-! ## The machine's invariant -/

/-- Every step keeps the invariant: memory's canonical form inside the address space, the bounds of every window, dictionary,
staging buffer and pending buffer (R43, R46, R48, R50), the counts `total = |P| mod 2^64`, a legal header and `bs` while a frame
is open, `pos <= len` inside a well-formed region, the mirror registers (R36 to R39), AWAITING_HEADER never seen (R49), the
flags while BUSY (R296), the snapshot (R295) and the output under way, bounded by the destination window. -/
def Obligations.EveryStepKeepsTheInvariant : Prop :=
  ∀ s t : State, s.Inv → step s = .next t → t.Inv

/-- The invariant holds after reset. -/
def Obligations.ResetMeetsTheInvariant : Prop := State.reset.Inv

/-! ## Reset -/

/-- R53: after reset every register reads 0, the sessions are FRESH, linked and empty, and the frame units are IDLE and empty. -/
def Obligations.ResetLeavesEveryRegisterZero : Prop :=
  (∀ off : Nat, State.reset.csrRead off = 0) ∧
  State.reset.eses = ⟨.fresh, true, [], [], 0⟩ ∧ State.reset.dses = ⟨.fresh, true, [], [], 0⟩ ∧
  State.reset.fenc = ⟨.idle, 0, 0, 0, 0, 0, [], [], [], [], 0⟩ ∧
  State.reset.fdec = ⟨.idle, 0, 0, 0, 0, 0, 0, 0, 0, [], [], [], [], 0⟩ ∧
  State.reset.engine = .idle ∧ State.reset.irq = false

/-- R290, R291: reset gives every LZ4CB state its reset value; with no command running host memory does not change, and reset
during a command, stuck or not, changes no byte outside that command's destination window, and none at all where the command has
none (log entry 23: `BLK_BOUND`, the session resets and a word that is no command). Nothing but reset ends a stuck command
(log entry 4). The platform and the host keep what is theirs (log entries 1 and 9). -/
def Obligations.ResetInput : Prop :=
  (∀ s : State, ∃ t, s.hostOp .reset = .next t ∧
    (t = { State.reset with cfg := s.cfg, mem := t.mem, host := s.host, turns := s.turns, rdata := s.rdata, nonce := t.nonce }) ∧
    (s.engine = .idle → t.mem = s.mem) ∧
    (∀ r, s.engine = .running r ∨ s.engine = .stuck r → s.SameMemoryOutside t r.args.window ∧
      (decodeCommand r.word = none → t.mem = s.mem) ∧
      (∀ i, decodeCommand r.word = some i →
        i ∈ [Instr.blkBound, .sesEncReset, .sesEncResetLinked, .sesDecReset, .sesDecResetLinked] → t.mem = s.mem))) ∧
  (∀ (s t : State) (r : Run) (op : HostOp), s.engine = .stuck r → op ≠ .reset → s.hostOp op = .next t →
    ∃ r', t.engine = .stuck r')

/-! ## The register file -/

/-- R25: the fields of STATUS, with the codes of R45, R47 and R49; the reserved bits read 0. -/
def Obligations.StatusFields : Prop :=
  ∀ s : State, ∃ w, s.csrRead 0x04 = w ∧
    w.getLsbD 0 = s.busy ∧ w.getLsbD 1 = s.done ∧ w.getLsbD 2 = s.lastError.isSome ∧ w.extractLsb' 3 5 = 0 ∧
    (s.lastError = none → w.extractLsb' 8 8 = 0) ∧ (∀ c, s.lastError = some c → w.extractLsb' 8 8 = c.code) ∧
    w.extractLsb' 16 2 = (match s.eses.st with | .fresh => 0 | .primed => 1 | .poisoned => 2) ∧
    w.extractLsb' 18 2 = (match s.dses.st with | .fresh => 0 | .primed => 1 | .poisoned => 2) ∧
    w.extractLsb' 20 3 = (match s.fenc.st with | .idle => 0 | .opened => 1 | .writing => 2 | .closed => 3 | .error => 4) ∧
    w.getLsbD 23 = false ∧
    w.extractLsb' 24 3 =
      (match s.fdec.st with | .idle => 0 | .awaitingHeader => 1 | .readingBlocks => 2 | .finished => 3 | .error => 4) ∧
    w.extractLsb' 27 5 = 0

/-- R26 to R34: while idle, every bit of an argument register is writable and reads back as written, and the write changes
nothing else. -/
def Obligations.ArgumentRegistersReadBack : Prop :=
  ∀ (s : State) (off : Nat) (v : Word), s.engine = .idle → off % 4 = 0 → 0x08 ≤ off → off ≤ 0x38 →
    ∃ t, s.hostOp (.write (s.cfg.csrBase + off) 4 v) = .next t ∧ t.csrRead off = v ∧
      (∀ off', off' ≠ off → t.csrRead off' = s.csrRead off') ∧ t = { s with args := t.args }

/-- R65: an access of another width or not aligned has no effect, a read of one returns 0; a supported read has no side effect;
a supported write to CMD while idle starts a command with a snapshot of the argument registers (R82), and one to IRQ_STATUS
clears the bit written with 1. -/
def Obligations.RegisterAccesses : Prop :=
  ∀ (s : State) (off width : Nat) (v : Word), off < 256 →
    (¬(width = 4 ∧ off % 4 = 0) → s.hostOp (.write (s.cfg.csrBase + off) width v) = .next s ∧
      s.hostOp (.read (s.cfg.csrBase + off) width) = .next { s with rdata := 0 }) ∧
    (off % 4 = 0 → s.hostOp (.read (s.cfg.csrBase + off) 4) = .next { s with rdata := s.csrRead off }) ∧
    (s.engine = .idle → s.hostOp (.write s.cfg.csrBase 4 v) =
      .next { s with engine := .running ⟨v, s.args, [], .start⟩, done := false, lastError := none }) ∧
    (s.hostOp (.write (s.cfg.csrBase + 0x58) 4 v) =
      .next { s with irqPending := if v.getLsbD 0 then false else s.irqPending })

/-- R42, R294, R295 and the read-only registers of R25, R35 to R39: reserved offsets and CMD read 0; writes to a reserved offset,
to STATUS, RESULT or the `FDEC_*` registers are ignored; while BUSY a write to CMD or to any other register but IRQ_EN and
IRQ_STATUS changes nothing, and those two take it. -/
def Obligations.IgnoredWrites : Prop :=
  ∀ (s : State) (off width : Nat) (v : Word), off < 256 →
    (0x5C ≤ off → s.csrRead off = 0) ∧ s.csrRead 0x00 = 0 ∧
    (off = 0x04 ∨ 0x3C ≤ off ∧ off ≤ 0x50 ∨ 0x5C ≤ off →
      s.hostOp (.write (s.cfg.csrBase + off) width v) = .next s) ∧
    (s.busy = true → off ≠ 0x54 → off ≠ 0x58 → s.hostOp (.write (s.cfg.csrBase + off) width v) = .next s) ∧
    (s.busy = true → s.hostOp (.write (s.cfg.csrBase + 0x54) 4 v) = .next { s with irqEn := v.getLsbD 0 } ∧
      s.hostOp (.write (s.cfg.csrBase + 0x58) 4 v) =
        .next { s with irqPending := if v.getLsbD 0 then false else s.irqPending })

/-- R40, R41, R266: the interrupt output, the two bits' reset values, reads and writes, that every completion sets DONE_IP, and
that a completion in the same instant as a clearing write wins. -/
def Obligations.InterruptBits : Prop :=
  (∀ s : State, s.irq = (s.irqPending && s.irqEn)) ∧
  State.reset.irqEn = false ∧ State.reset.irqPending = false ∧
  (∀ s : State, s.csrRead 0x54 = (if s.irqEn then 1 else 0) ∧ s.csrRead 0x58 = (if s.irqPending then 1 else 0)) ∧
  (∀ (s : State) (v : Word), s.csrWrite 0x54 v = { s with irqEn := v.getLsbD 0 } ∧
    s.csrWrite 0x58 v = { s with irqPending := if v.getLsbD 0 then false else s.irqPending }) ∧
  (∀ (s t : State) (g : Grain) (r : Run), s.engine = .running r → engineTurn g s = .next t → t.engine = .idle →
    t.irqPending = true) ∧
  (∀ (s t : State) (g : Grain) (ts : List Turn) (ops : List HostOp) (r : Run), s.turns = .both g :: ts →
    s.host = .write (s.cfg.csrBase + 0x58) 4 1 :: ops → s.engine = .running r → step s = .next t → t.engine = .idle →
    t.irqPending = true)

/-- R70, R296: while a command is under way the engine changes nothing but the command's own progress: RESULT, DST_LEN, every
register, every context and all of memory read as before the command until it completes. -/
def Obligations.NothingIsSeenBeforeCompletion : Prop :=
  ∀ (s t : State) (g : Grain), engineTurn g s = .next t → t.engine ≠ .idle → t = { s with engine := t.engine }

/-! ## Memory and races -/

/-- R62, R71: where nothing races and the region is plain memory, the engine reads what memory holds; a read of a byte the host
has written during the command returns the byte there now or one that stood there since the command's start. Which one is free, for
each of the command's reads of it on its own (log entry 7). -/
def Obligations.EngineReads : Prop :=
  (∀ (s : State) (use : Nat) (r : Region) (a n : Nat), s.Calm → s.Plain r → accessible s.cfg r a n = true →
    ∃ x, s.memRead use r a n = .ok x ∧ x.length = n ∧ ∀ k, k < n → x[k]? = some (Memory.read s.mem (a + k))) ∧
  (∀ (s : State) (use : Nat) (r : Region) (a n : Nat), s.Plain r → accessible s.cfg r a n = true →
    ∃ x, s.memRead use r a n = .ok x ∧ x.length = n ∧ ∀ k, k < n →
      (x[k]? = some (Memory.read s.mem (a + k)) ∨ ∃ c ∈ s.raced, c.1 = a + k ∧ x[k]? = some c.2) ∧
      ((∀ c ∈ s.raced, c.1 ≠ a + k) → x[k]? = some (Memory.read s.mem (a + k))))

/-- R68, R302: a command that touches what is no memory, or a region over the register window, is stuck: it changes nothing, does not
complete, and the engine has no further step (log entries 4 and 17). In this order: a source, the used part of a dictionary, the bytes
of a frame header, a record word, a record's payload and its checksum, a trailer, and, for every command with output, a destination
that another map of the platform takes. -/
def Obligations.TouchingNoMemoryIsStuck : Prop :=
  (∀ (t : State) (r : Run) (g : Grain), t.engine = .stuck r → engineTurn g t = .fault .engineStuck) ∧
  (∀ (s : State) (A : Args) (i : Instr), A = s.snapshot → usageError i s A = none →
    (accessible s.cfg A.src A.srcAddr.toNat A.srcLen.toNat = false →
      i ∈ [Instr.blkDecode, .sesDec, .fencWrite] ∨ i ∈ [Instr.blkEncode, .sesEnc] ∧ A.srcLen.toNat ≤ 0x7E000000 →
      s.Sticks (exec i s)) ∧
    (accessible s.cfg A.dict (A.dictAddr.toNat + (A.dictLen.toNat - 65536)) (min A.dictLen.toNat 65536) = false →
      i ∈ [Instr.blkDecode, .sesEncReset, .sesEncResetLinked, .sesDecReset, .sesDecResetLinked, .fencOpen, .fdecOpen] ∨
        i = .blkEncode ∧ A.srcLen.toNat ≤ 0x7E000000 →
      s.Sticks (exec i s)) ∧
    (i = .fdecOpen → 4 ≤ A.srcLen.toNat → accessible s.cfg A.src A.srcAddr.toNat 4 = false → s.Sticks (exec i s)) ∧
    (i = .fdecOpen → s.Calm → s.Plain A.src → Memory.bytes s.mem A.srcAddr.toNat 4 = [0x04, 0x22, 0x4D, 0x18] →
      (6 ≤ A.srcLen.toNat → accessible s.cfg A.src A.srcAddr.toNat 6 = false → s.Sticks (exec i s)) ∧
      (∀ (flg bd : Byte) (hlen : Nat), Memory.bytes s.mem (A.srcAddr.toNat + 4) 2 = [flg, bd] → HeaderBytesOk s.cfg flg bd →
        hlen = 7 + (if flg.getLsbD 3 then 8 else 0) + (if flg.getLsbD 0 then 4 else 0) → hlen ≤ A.srcLen.toNat →
        accessible s.cfg A.src A.srcAddr.toNat hlen = false → s.Sticks (exec i s))) ∧
    (i = .fdecReadToEnd ∨ i = .fdecRead ∧ s.fdec.pend.length < A.readLen.toNat → s.fdec.st = .readingBlocks →
      s.fdec.pend.length ≤ A.dstCap.toNat - A.dstLen.toNat → s.fdec.pos + 4 ≤ s.fdec.len →
      accessible s.cfg (s.frameRegion s.fdec) (s.fdec.base + s.fdec.pos) 4 = false → s.Sticks (exec i s))) ∧
  (∀ (s : State) (r : Run) (rd : Reader) (size : BitVec 31) (i : Instr) (q : Nat), s.engine = .running r →
    r.progress = .record rd → i = .blockwordLz4 size ∨ i = .blockwordRaw size → q = rd.t.pos + 4 + size.toNat →
    size.toNat ≤ rd.t.bs → q + (if rd.t.flg.getLsbD 4 then 4 else 0) ≤ rd.t.len →
    (accessible s.cfg (s.frameRegion rd.t) (rd.t.base + (rd.t.pos + 4)) size.toNat = false → s.Sticks (exec i s)) ∧
    (rd.t.flg.getLsbD 4 = true → accessible s.cfg (s.frameRegion rd.t) (rd.t.base + q) 4 = false → s.Sticks (exec i s))) ∧
  (∀ (s : State) (r : Run) (rd : Reader), s.engine = .running r → r.progress = .record rd → rd.t.flg.getLsbD 2 = true →
    rd.t.pos + 8 ≤ rd.t.len → accessible s.cfg (s.frameRegion rd.t) (rd.t.base + (rd.t.pos + 4)) 4 = false →
    s.Sticks (exec .endMark s)) ∧
  (∀ (i : Instr) (s t : State) (holes : List (Nat × Nat)) (base : Nat),
    i ∈ [Instr.blkEncode, .blkDecode, .sesEnc, .sesDec, .fencOpen, .fencWrite, .fencClose, .fdecRead, .fdecReadToEnd] →
    exec i { s with cfg := { s.cfg with holes := holes, csrBase := base } } = .next t → s.OnPlain i → t.Succeeded → t.result ≠ 0 →
    accessible s.cfg s.snapshot.window s.snapshot.dstPoint t.result.toNat = false → s.Sticks (exec i s))

/-! ## Usage errors -/

/-- R197, R262, R263: a command whose context's state forbids it completes with `ERR_BAD_STATE`, and `FENC_OPEN` with a reserved
value in FCFG with `ERR_BAD_CONFIG`, whatever their regions. -/
def Obligations.StateAndConfigErrors : Prop :=
  ∀ s : State, s.raced = [] →
    (s.eses.st = .poisoned → exec .sesEnc s = .next (s.errState .badState)) ∧
    (s.dses.st = .poisoned → exec .sesDec s = .next (s.errState .badState)) ∧
    (s.fenc.st ≠ .opened → s.fenc.st ≠ .writing → exec .fencWrite s = .next (s.errState .badState)) ∧
    (s.fenc.st = .idle ∨ s.fenc.st = .error → exec .fencClose s = .next (s.errState .badState)) ∧
    (s.fdec.st ≠ .readingBlocks → s.fdec.st ≠ .finished → exec .fdecRead s = .next (s.errState .badState) ∧
      exec .fdecReadToEnd s = .next (s.errState .badState)) ∧
    (¬(s.snapshot.fcfg.extractLsb' 16 16 = 0 ∧
        HeaderBytesOk s.cfg (s.snapshot.fcfg.extractLsb' 0 8) (s.snapshot.fcfg.extractLsb' 8 8)) →
      exec .fencOpen s = .next (s.errState .badConfig))

/-- R61, R263: a region that is not well-formed, or `DST_LEN > DST_CAP`, is `ERR_BAD_RANGE`, for every command that uses it and
is not stopped by its state or its configuration; and with well-formed regions, a destination window that overlaps a region the
command reads is `ERR_OVERLAP`. -/
def Obligations.RegionErrors : Prop :=
  (∀ s : State, s.raced = [] →
    (¬(s.snapshot.SrcOk ∧ s.snapshot.DictOk ∧ s.snapshot.DstOk) →
      exec .blkEncode s = .next (s.errState .badRange) ∧ exec .blkDecode s = .next (s.errState .badRange)) ∧
    (¬s.snapshot.DictOk →
      exec .sesEncReset s = .next (s.errState .badRange) ∧ exec .sesEncResetLinked s = .next (s.errState .badRange) ∧
      exec .sesDecReset s = .next (s.errState .badRange) ∧ exec .sesDecResetLinked s = .next (s.errState .badRange)) ∧
    (s.eses.st ≠ .poisoned → ¬(s.snapshot.SrcOk ∧ s.snapshot.DstOk) → exec .sesEnc s = .next (s.errState .badRange)) ∧
    (s.dses.st ≠ .poisoned → ¬(s.snapshot.SrcOk ∧ s.snapshot.DstOk) → exec .sesDec s = .next (s.errState .badRange)) ∧
    (s.snapshot.fcfg.extractLsb' 16 16 = 0 →
      HeaderBytesOk s.cfg (s.snapshot.fcfg.extractLsb' 0 8) (s.snapshot.fcfg.extractLsb' 8 8) →
      ¬(s.snapshot.DictOk ∧ s.snapshot.DstOk) → exec .fencOpen s = .next (s.errState .badRange)) ∧
    (s.fenc.st = .opened ∨ s.fenc.st = .writing → ¬(s.snapshot.SrcOk ∧ s.snapshot.DstOk) →
      exec .fencWrite s = .next (s.errState .badRange)) ∧
    (s.fenc.st = .opened ∨ s.fenc.st = .writing ∨ s.fenc.st = .closed → ¬s.snapshot.DstOk →
      exec .fencClose s = .next (s.errState .badRange)) ∧
    (¬(s.snapshot.SrcOk ∧ s.snapshot.DictOk) → exec .fdecOpen s = .next (s.errState .badRange)) ∧
    (s.fdec.st = .readingBlocks ∨ s.fdec.st = .finished → ¬s.snapshot.DstOk →
      exec .fdecRead s = .next (s.errState .badRange) ∧ exec .fdecReadToEnd s = .next (s.errState .badRange))) ∧
  (∀ s : State, s.raced = [] → s.snapshot.SrcOk → s.snapshot.DictOk → s.snapshot.DstOk →
    (¬(s.snapshot.Apart s.snapshot.srcAddr.toNat s.snapshot.srcLen.toNat ∧
        s.snapshot.Apart s.snapshot.dictAddr.toNat s.snapshot.dictLen.toNat) →
      exec .blkEncode s = .next (s.errState .overlap) ∧ exec .blkDecode s = .next (s.errState .overlap)) ∧
    (¬s.snapshot.Apart s.snapshot.srcAddr.toNat s.snapshot.srcLen.toNat →
      (s.eses.st ≠ .poisoned → exec .sesEnc s = .next (s.errState .overlap)) ∧
      (s.dses.st ≠ .poisoned → exec .sesDec s = .next (s.errState .overlap)) ∧
      (s.fenc.st = .opened ∨ s.fenc.st = .writing → exec .fencWrite s = .next (s.errState .overlap))) ∧
    (¬s.snapshot.Apart s.snapshot.dictAddr.toNat s.snapshot.dictLen.toNat →
      s.snapshot.fcfg.extractLsb' 16 16 = 0 →
      HeaderBytesOk s.cfg (s.snapshot.fcfg.extractLsb' 0 8) (s.snapshot.fcfg.extractLsb' 8 8) →
      exec .fencOpen s = .next (s.errState .overlap)) ∧
    (¬s.snapshot.Apart (s.fdec.base + s.fdec.pos) (s.fdec.len - s.fdec.pos) →
      s.fdec.st = .readingBlocks ∨ s.fdec.st = .finished →
      s.fdec.base + s.fdec.pos + (s.fdec.len - s.fdec.pos) ≤ 2 ^ 32 →
      exec .fdecRead s = .next (s.errState .overlap) ∧ exec .fdecReadToEnd s = .next (s.errState .overlap)))

/-! ## Errors as such -/

/-- R262: the codes' numbers, and that a command reports no code but those of its rows, unless a region of it lies over memory with
read side effects, where the outcome is any value (R66, log entry 2). -/
def Obligations.ErrorCodes : Prop :=
  ([ErrCode.badOpcode, .badRange, .overlap, .badState, .badConfig, .dstFull, .srcTooLarge, .truncated, .offsetZero,
      .offsetRange, .badMagic, .headerReserved, .headerCsum, .blockTooLarge, .blockCsum, .contentCsum, .truncatedFrame,
      .contentSize].map ErrCode.code =
    [0x01, 0x02, 0x03, 0x04, 0x05, 0x20, 0x21, 0x22, 0x23, 0x24, 0x30, 0x31, 0x32, 0x33, 0x34, 0x35, 0x36, 0x37]) ∧
  ∀ (i : Instr) (s t : State) (c : ErrCode), i ∈ commands → s.OnPlain i → exec i s = .next t → t.Failed c → c ∈ raisedBy i

/-- R264, R267: what an error completion of a command leaves. A usage error (codes 0x01 to 0x05) changes nothing but RESULT and
the flags; any other changes memory only inside the destination window `[DST_ADDR + DST_LEN, DST_ADDR + DST_CAP)`, `FDEC_OPEN`'s
too, and, of the contexts, only the command's own. Over memory with read side effects, where the outcome is any value (R66, log entry 2),
FrameOfCommands says what is left alone. -/
def Obligations.ErrorCompletion : Prop :=
  ∀ (i : Instr) (s t : State) (c : ErrCode), i ∈ commands → s.raced = [] → s.OnPlain i → exec i s = .next t → t.Failed c →
    t.result = 0 ∧ t.args = s.args ∧ t.done = true ∧ t.irqPending = true ∧ s.SameHost t ∧
    (c.code.toNat ≤ 0x05 → t = s.errState c) ∧
    (0x05 < c.code.toNat →
      s.SameMemoryOutside t s.snapshot.window ∧
      t.eses = (if i = .sesEnc then { s.eses with st := .poisoned } else s.eses) ∧
      t.dses = (if i = .sesDec then { s.dses with st := .poisoned } else s.dses) ∧
      t.fenc.st = (if i = .fencOpen ∨ i = .fencWrite ∨ i = .fencClose then .error else s.fenc.st) ∧
      t.fdec.st = (if i = .fdecOpen ∨ i = .fdecRead ∨ i = .fdecReadToEnd then .error else s.fdec.st) ∧
      (i ≠ .fencOpen → i ≠ .fencWrite → i ≠ .fencClose → t.fenc = s.fenc) ∧
      (i ≠ .fdecOpen → i ≠ .fdecRead → i ≠ .fdecReadToEnd → t.fdec = s.fdec) ∧
      t.fregs = (if i = .fdecOpen then ⟨0, 0, 0, 0, 0⟩ else s.fregs))

/-- R86, R122, R128, R141, R174, R197 to R199, R222, R265: a block that ends at any other place than after its last literals, steps
(a) to (c), (f) and (g); literals that do not fit, an offset of 0, an offset that reaches before the history and a match that does
not fit, in this order and once the whole sequence is read, whatever command decodes the block (output too long for a frame's block
is `ERR_BLOCK_TOO_LARGE`); an encoder input above `MAX_INPUT`, before any read of the source; and an encoder's output that does not
fit the destination window, after a content size that is not the frame's. The command's regions are plain memory, since R66 leaves any
other outcome open. -/
def Obligations.CodecErrors : Prop :=
  (∀ (s : State) (r : Run) (use : BlockUse) (p : Parser) (lit : Bytes) (off : BitVec 16) (len : Nat) (full : ErrCode),
    s.engine = .running r → r.progress = .block use p → p.phase = .token → s.OnPlain use.command →
    full = (match use with | .block | .session => ErrCode.dstFull | .frame _ _ => .blockTooLarge) →
    (p.cap < p.out.length + lit.length → (∃ t, exec (.last lit) s = .next t ∧ t.Failed full) ∧
      ∃ t, exec (.seq lit off len) s = .next t ∧ t.Failed full) ∧
    (p.out.length + lit.length ≤ p.cap → off = 0 → ∃ t, exec (.seq lit off len) s = .next t ∧ t.Failed .offsetZero) ∧
    (p.out.length + lit.length ≤ p.cap → off ≠ 0 → p.hist.length + p.out.length + lit.length < off.toNat →
      ∃ t, exec (.seq lit off len) s = .next t ∧ t.Failed .offsetRange) ∧
    (p.out.length + lit.length ≤ p.cap → off ≠ 0 → off.toNat ≤ p.hist.length + p.out.length + lit.length →
      p.cap < p.out.length + lit.length + len → ∃ t, exec (.seq lit off len) s = .next t ∧ t.Failed full)) ∧
  (∀ (s : State) (r : Run) (use : BlockUse) (p : Parser) (g : Grain), s.engine = .running r → r.progress = .block use p →
    s.OnPlain use.command →
    (p.phase = .token → p.rest = [] → Fails (engineTurn g s) .truncated) ∧
    (p.phase = .litExt ∨ p.phase = .matchExt → (∀ b ∈ p.rest, b = 255) → Fails (engineTurn g s) .truncated) ∧
    (p.phase = .token → ∀ ll ml : BitVec 4, ll ≠ 15 → 1 ≤ p.rest.length → p.rest.length < 1 + ll.toNat →
      Fails (exec (.token ll ml) s) .truncated) ∧
    (p.phase = .litExt → ∀ (ffs : Nat) (final : Byte), p.rest.length < ffs + 1 + (15 + 255 * ffs + final.toNat) →
      Fails (exec (.lenext ffs final) s) .truncated) ∧
    (p.phase = .offset → p.rest.length < 2 → Fails (engineTurn g s) .truncated)) ∧
  (∀ s : State, 0x7E000000 < s.snapshot.srcLen.toNat →
    (usageError .blkEncode s s.snapshot = none → s.OnPlain .blkEncode → ∃ t, exec .blkEncode s = .next t ∧ t.Failed .srcTooLarge) ∧
    (usageError .sesEnc s s.snapshot = none → s.OnPlain .sesEnc → ∃ t, exec .sesEnc s = .next t ∧ t.Failed .srcTooLarge)) ∧
  (∀ (s : State) (A : Args) (x h : Bytes), A = s.snapshot → s.Calm → s.Plain A.window →
    (usageError .blkEncode s A = none → A.srcLen.toNat ≤ 0x7E000000 → s.Source A x → s.Dictionary A h →
      A.dstCap.toNat - A.dstLen.toNat < (encodeBlock s.cfg x h A.level.toInt).length → Fails (exec .blkEncode s) .dstFull) ∧
    (usageError .sesEnc s A = none → A.srcLen.toNat ≤ 0x7E000000 → s.Source A x →
      h = (if s.eses.linked then s.eses.win else s.eses.dict) →
      A.dstCap.toNat - A.dstLen.toNat < (encodeBlock s.cfg x h A.level.toInt).length → Fails (exec .sesEnc s) .dstFull) ∧
    (usageError .fencOpen s A = none → s.Dictionary A h →
      A.dstCap.toNat - A.dstLen.toNat < 7 + (if A.fcfg.getLsbD 3 then 8 else 0) + (if A.fcfg.getLsbD 0 then 4 else 0) →
      Fails (exec .fencOpen s) .dstFull) ∧
    (s.fenc.Ok s.cfg → usageError .fencWrite s A = none → s.Source A x →
      A.dstCap.toNat - A.dstLen.toNat <
        (recordsOf s.cfg s.fenc (s.fenc.stage ++ x) ((s.fenc.stage.length + x.length) / s.fenc.bs)).length →
      Fails (exec .fencWrite s) .dstFull) ∧
    (s.fenc.Ok s.cfg → usageError .fencClose s A = none → s.fenc.st ≠ .closed →
      (s.fenc.flg.getLsbD 3 = true → s.fenc.total ≠ s.fenc.csize → Fails (exec .fencClose s) .contentSize) ∧
      ((s.fenc.flg.getLsbD 3 = true → s.fenc.total = s.fenc.csize) →
        A.dstCap.toNat - A.dstLen.toNat < (closingOf s.cfg s.fenc).length → Fails (exec .fencClose s) .dstFull)))

/-- R220: the format errors of a frame header, in the order of the rule. The first `n` bytes of the source are memory, and hold `x`; a
clause that speaks of bytes asks for that many. -/
def Obligations.HeaderErrors : Prop :=
  ∀ (s : State) (A : Args) (d x : Bytes) (n : Nat), A = s.snapshot → s.Calm → A.SrcOk → A.DictOk → s.Dictionary A d →
    s.Plain A.src → n ≤ A.srcLen.toNat → accessible s.cfg A.src A.srcAddr.toNat n = true →
    x = Memory.bytes s.mem A.srcAddr.toNat n →
    (A.srcLen.toNat < 4 → Fails (exec .fdecOpen s) .truncatedFrame) ∧
    (4 ≤ n → x.take 4 ≠ [0x04, 0x22, 0x4D, 0x18] → Fails (exec .fdecOpen s) .badMagic) ∧
    (4 ≤ n → x.take 4 = [0x04, 0x22, 0x4D, 0x18] → A.srcLen.toNat < 6 → Fails (exec .fdecOpen s) .truncatedFrame) ∧
    (6 ≤ n → x.take 4 = [0x04, 0x22, 0x4D, 0x18] → ∀ (flg bd : Byte) (hlen : Nat), (x.drop 4).take 2 = [flg, bd] →
      hlen = 7 + (if flg.getLsbD 3 then 8 else 0) + (if flg.getLsbD 0 then 4 else 0) →
      (¬HeaderBytesOk s.cfg flg bd → Fails (exec .fdecOpen s) .headerReserved) ∧
      (HeaderBytesOk s.cfg flg bd → A.srcLen.toNat < hlen → Fails (exec .fdecOpen s) .truncatedFrame) ∧
      (HeaderBytesOk s.cfg flg bd → hlen ≤ n →
        x[hlen - 1]? ≠ some ((xxh32 ((x.drop 4).take (hlen - 5)) 0).extractLsb' 8 8) →
        Fails (exec .fdecOpen s) .headerCsum))

/-- R222, R223, R227: the errors of a record and of the end of a frame, in the order of the rules: a word, a payload, a checksum or a
trailer that the frame source does not hold whole, a record larger than `bs`, a checksum that is not the payload's, a content
checksum that is not that of the plaintext, a content size that is not the plaintext's; and pending bytes that do not fit the
destination. The command's regions are plain memory, since R66 leaves any other outcome open. The step at one element is the model's
(log entry 12). -/
def Obligations.RecordErrors : Prop :=
  (∀ (s : State) (r : Run) (rd : Reader), s.engine = .running r → r.progress = .record rd → s.OnPlain .fdecRead →
    (∀ g : Grain, rd.t.len < rd.t.pos + 4 → Fails (engineTurn g s) .truncatedFrame) ∧
    (∀ (i : Instr) (size : BitVec 31), i = .blockwordLz4 size ∨ i = .blockwordRaw size →
      (rd.t.bs < size.toNat → Fails (exec i s) .blockTooLarge) ∧
      (size.toNat ≤ rd.t.bs → rd.t.len < rd.t.pos + 4 + size.toNat + (if rd.t.flg.getLsbD 4 then 4 else 0) →
        Fails (exec i s) .truncatedFrame) ∧
      (∀ payload sum : Bytes, s.Calm → size.toNat ≤ rd.t.bs → rd.t.flg.getLsbD 4 = true →
        s.FrameBytes rd.t (rd.t.pos + 4) size.toNat payload → s.FrameBytes rd.t (rd.t.pos + 4 + size.toNat) 4 sum →
        sum ≠ le32 (xxh32 payload 0) → Fails (exec i s) .blockCsum)) ∧
    (rd.t.flg.getLsbD 2 = true → rd.t.len < rd.t.pos + 8 → Fails (exec .endMark s) .truncatedFrame) ∧
    (∀ sum : Bytes, s.Calm → rd.t.flg.getLsbD 2 = true → s.FrameBytes rd.t (rd.t.pos + 4) 4 sum →
      sum ≠ le32 (xxh32 rd.t.plain 0) → Fails (exec .endMark s) .contentCsum) ∧
    (s.Calm → (rd.t.flg.getLsbD 2 = true → s.FrameBytes rd.t (rd.t.pos + 4) 4 (le32 (xxh32 rd.t.plain 0))) →
      rd.t.flg.getLsbD 3 = true → rd.t.total ≠ rd.t.csize → Fails (exec .endMark s) .contentSize)) ∧
  (∀ (s : State) (A : Args), A = s.snapshot → s.OnPlain .fdecRead →
    (usageError .fdecRead s A = none → A.dstCap.toNat - A.dstLen.toNat < min A.readLen.toNat s.fdec.pend.length →
      Fails (exec .fdecRead s) .dstFull) ∧
    (usageError .fdecReadToEnd s A = none → A.dstCap.toNat - A.dstLen.toNat < s.fdec.pend.length →
      Fails (exec .fdecReadToEnd s) .dstFull))

/-! ## Context state machines -/

/-- R178: every transition of the two sessions, on plain memory where a transition depends on the outcome (R66, log entry 2). -/
def Obligations.SessionStateMachine : Prop :=
  (∀ (i : Instr) (s t : State), i ∈ commands → exec i s = .next t → t.engine = .idle →
    (i = .sesEncReset ∨ i = .sesEncResetLinked → s.OnPlain i → (t.lastError = none → t.eses.st = .fresh) ∧
      (∀ c, t.lastError = some c → c.isUsage = true ∧ t.eses = s.eses)) ∧
    (i = .sesDecReset ∨ i = .sesDecResetLinked → s.OnPlain i → (t.lastError = none → t.dses.st = .fresh) ∧
      (∀ c, t.lastError = some c → c.isUsage = true ∧ t.dses = s.dses)) ∧
    (i = .sesEnc → s.eses.st ≠ .poisoned → s.OnPlain i → (t.lastError = none → t.eses.st = .primed) ∧
      (∀ c, t.lastError = some c →
        c ≠ .badState ∧ (if c.isUsage then t.eses = s.eses else t.eses = { s.eses with st := .poisoned }))) ∧
    (i = .sesDec → s.dses.st ≠ .poisoned → s.OnPlain i → (t.lastError = none → t.dses.st = .primed) ∧
      (∀ c, t.lastError = some c →
        c ≠ .badState ∧ (if c.isUsage then t.dses = s.dses else t.dses = { s.dses with st := .poisoned }))) ∧
    (i = .sesEnc → s.eses.st = .poisoned → t.lastError = some .badState ∧ t.eses = s.eses) ∧
    (i = .sesDec → s.dses.st = .poisoned → t.lastError = some .badState ∧ t.dses = s.dses) ∧
    (i ∉ [Instr.sesEncReset, .sesEncResetLinked, .sesEnc] → t.eses = s.eses) ∧
    (i ∉ [Instr.sesDecReset, .sesDecResetLinked, .sesDec] → t.dses = s.dses)) ∧
  (∀ (s t : State), s.hostOp .reset = .next t → t.eses.st = .fresh ∧ t.dses.st = .fresh)

/-- R202: every transition of the frame encoder, on plain memory where a transition depends on the outcome (R66, log entry 2). -/
def Obligations.FrameEncoderStateMachine : Prop :=
  (∀ (i : Instr) (s t : State), i ∈ commands → exec i s = .next t → t.engine = .idle →
    (i = .fencOpen → s.OnPlain i → (t.lastError = none → t.fenc.st = .opened) ∧
      (∀ c, t.lastError = some c → if c.isUsage then t.fenc = s.fenc else c = .dstFull ∧ t.fenc.st = .error)) ∧
    (i = .fencWrite → s.fenc.st = .opened ∨ s.fenc.st = .writing → s.OnPlain i → (t.lastError = none → t.fenc.st = .writing) ∧
      (∀ c, t.lastError = some c → if c.isUsage then t.fenc = s.fenc else c = .dstFull ∧ t.fenc.st = .error)) ∧
    (i = .fencWrite → s.fenc.st = .idle ∨ s.fenc.st = .closed ∨ s.fenc.st = .error →
      t.lastError = some .badState ∧ t.fenc = s.fenc) ∧
    (i = .fencClose → s.fenc.st = .opened ∨ s.fenc.st = .writing → s.OnPlain i → (t.lastError = none → t.fenc.st = .closed) ∧
      (∀ c, t.lastError = some c →
        if c.isUsage then t.fenc = s.fenc else (c = .contentSize ∨ c = .dstFull) ∧ t.fenc.st = .error)) ∧
    (i = .fencClose → s.fenc.st = .closed → s.OnPlain i → t.fenc = s.fenc ∧ (t.lastError = none → t.result = 0 ∧ t.args.dstLen =
      s.snapshot.dstLen) ∧ (∀ c, t.lastError = some c → c.isUsage = true)) ∧
    (i = .fencClose → s.fenc.st = .idle ∨ s.fenc.st = .error → t.lastError = some .badState ∧ t.fenc = s.fenc) ∧
    (i ∉ [Instr.fencOpen, .fencWrite, .fencClose] → t.fenc = s.fenc)) ∧
  (∀ (s t : State), s.hostOp .reset = .next t → t.fenc.st = .idle)

/-- R230: every transition of the frame decoder, on plain memory where a transition depends on the outcome (R66, log entry 2). A finished
frame has nothing pending in a state the invariant holds of. -/
def Obligations.FrameDecoderStateMachine : Prop :=
  (∀ (i : Instr) (s t : State), i ∈ commands → s.Inv → exec i s = .next t → t.engine = .idle →
    (i = .fdecOpen → s.OnPlain i → (t.lastError = none → t.fdec.st = .readingBlocks) ∧
      (∀ c, t.lastError = some c → if c.isUsage then t.fdec = s.fdec else
        c ∈ [ErrCode.badMagic, .headerReserved, .headerCsum, .truncatedFrame] ∧ t.fdec.st = .error)) ∧
    (i = .fdecRead ∨ i = .fdecReadToEnd → s.fdec.st = .readingBlocks → s.OnPlain i →
      (t.lastError = none → t.fdec.st = .readingBlocks ∨ t.fdec.st = .finished) ∧
      (∀ c, t.lastError = some c → if c.isUsage then t.fdec = s.fdec else t.fdec.st = .error)) ∧
    (i = .fdecRead ∨ i = .fdecReadToEnd → s.fdec.st = .finished → s.OnPlain i → t.fdec = s.fdec ∧
      (t.lastError = none → t.result = 0) ∧ (∀ c, t.lastError = some c → c.isUsage = true)) ∧
    (i = .fdecRead ∨ i = .fdecReadToEnd → s.fdec.st = .idle ∨ s.fdec.st = .error →
      t.lastError = some .badState ∧ t.fdec = s.fdec) ∧
    (i ∉ [Instr.fdecOpen, .fdecRead, .fdecReadToEnd] → t.fdec = s.fdec)) ∧
  (∀ (s t : State), s.hostOp .reset = .next t → t.fdec.st = .idle)

/-! ## Commands that complete -/

/-- R121, R140: `BLK_BOUND` completes in every state with `Bound(SRC_LEN)` in RESULT, and changes nothing else but the flags. -/
def Obligations.BlkBoundCompletes : Prop :=
  ∀ s : State, exec .blkBound s = .next (s.okPlain s.snapshot
    (if s.snapshot.srcLen.toNat ≤ 0x7E000000 then s.snapshot.srcLen.toNat + s.snapshot.srcLen.toNat / 255 + 16 else 0))

/-- R136, R141, R142: `BLK_ENCODE` completes with the encoding and `BLK_DECODE` with the decoding of the source against the
dictionary's last 65536 bytes. -/
def Obligations.BlockCommandsComplete : Prop :=
  ∀ (s : State) (A : Args) (x h c : Bytes), A = s.snapshot → s.Calm → A.SrcOk → A.DictOk → A.DstOk →
    A.Apart A.srcAddr.toNat A.srcLen.toNat → A.Apart A.dictAddr.toNat A.dictLen.toNat →
    s.Source A x → s.Dictionary A h → s.Sink A c.length →
    (A.srcLen.toNat ≤ 0x7E000000 → c = encodeBlock s.cfg x h A.level.toInt →
      exec .blkEncode s = .next (s.okState A c c.length)) ∧
    (decodeBlock x h (A.dstCap.toNat - A.dstLen.toNat) = .ok c → exec .blkDecode s = .next (s.okState A c c.length))

/-- R173, R175: the session resets complete in every session state, with the dictionary's last 65536 bytes as dictionary and
window, the LINKED flag, total 0 and FRESH. -/
def Obligations.SessionResetsComplete : Prop :=
  ∀ (s : State) (A : Args) (d : Bytes), A = s.snapshot → s.Calm → A.DictOk → s.Dictionary A d →
    exec .sesEncReset s = .next { s.okPlain A 0 with eses := ⟨.fresh, false, d, d, 0⟩ } ∧
    exec .sesEncResetLinked s = .next { s.okPlain A 0 with eses := ⟨.fresh, true, d, d, 0⟩ } ∧
    exec .sesDecReset s = .next { s.okPlain A 0 with dses := ⟨.fresh, false, d, d, 0⟩ } ∧
    exec .sesDecResetLinked s = .next { s.okPlain A 0 with dses := ⟨.fresh, true, d, d, 0⟩ }

/-- R172, R174, R176: `SES_ENC` completes with the encoding and `SES_DEC` with the decoding of the source against the session's
history, and the session takes the plaintext: window, total, PRIMED. -/
def Obligations.SessionBlocksComplete : Prop :=
  ∀ (s : State) (A : Args) (x c : Bytes), A = s.snapshot → s.Calm → A.SrcOk → A.DstOk →
    A.Apart A.srcAddr.toNat A.srcLen.toNat → s.Source A x → s.Sink A c.length →
    (s.eses.st ≠ .poisoned → A.srcLen.toNat ≤ 0x7E000000 →
      c = encodeBlock s.cfg x (if s.eses.linked then s.eses.win else s.eses.dict) A.level.toInt →
      exec .sesEnc s = .next { s.okState A c c.length with
        eses := { s.eses with
          st := .primed, win := (if s.eses.linked then lastBytes 65536 (s.eses.win ++ x) else s.eses.win),
          total := s.eses.total + BitVec.ofNat 64 x.length } }) ∧
    (s.dses.st ≠ .poisoned →
      decodeBlock x (if s.dses.linked then s.dses.win else s.dses.dict) (A.dstCap.toNat - A.dstLen.toNat) = .ok c →
      exec .sesDec s = .next { s.okState A c c.length with
        dses := { s.dses with
          st := .primed, win := (if s.dses.linked then lastBytes 65536 (s.dses.win ++ c) else s.dses.win),
          total := s.dses.total + BitVec.ofNat 64 c.length } })

/-- R194, R197: `FENC_OPEN` completes in every frame state with the frame header, and the context latches the configuration and
the dictionary. -/
def Obligations.FencOpenCompletes : Prop :=
  ∀ (s : State) (A : Args) (d desc hdr : Bytes) (flg bd : Byte), A = s.snapshot → s.Calm →
    flg = A.fcfg.extractLsb' 0 8 → bd = A.fcfg.extractLsb' 8 8 → A.fcfg.extractLsb' 16 16 = 0 → HeaderBytesOk s.cfg flg bd →
    A.DictOk → A.DstOk → A.Apart A.dictAddr.toNat A.dictLen.toNat → s.Dictionary A d →
    desc = [flg, bd] ++ (if flg.getLsbD 3 then le64 (A.csizeHi ++ A.csizeLo) else []) ++
      (if flg.getLsbD 0 then le32 A.dictId else []) →
    hdr = [0x04, 0x22, 0x4D, 0x18] ++ desc ++ [(xxh32 desc 0).extractLsb' 8 8] → s.Sink A hdr.length →
    exec .fencOpen s = .next { s.okState A hdr hdr.length with
      fenc := ⟨.opened, flg, bd, blockMax (bd.extractLsb' 4 3).toNat, A.level.toInt, A.csizeHi ++ A.csizeLo, d, d, [], [], 0⟩ }

/-- R190, R195, R196, R198: `FENC_WRITE` completes with the records of the blocks its bytes complete, `(|stage| + |X|) div bs` of
them, each cut at a multiple of `bs` and encoded against its own history; what is left is staged. -/
def Obligations.FencWriteCompletes : Prop :=
  ∀ (s : State) (A : Args) (x buf out : Bytes) (k : Nat), A = s.snapshot → s.Calm → s.fenc.Ok s.cfg →
    s.fenc.st = .opened ∨ s.fenc.st = .writing → A.SrcOk → A.DstOk → A.Apart A.srcAddr.toNat A.srcLen.toNat → s.Source A x →
    buf = s.fenc.stage ++ x → k = buf.length / s.fenc.bs → out = recordsOf s.cfg s.fenc buf k → s.Sink A out.length →
    exec .fencWrite s = .next { s.okState A out out.length with
      fenc := { s.fenc with st := .writing, stage := buf.drop (k * s.fenc.bs), win := windowAt s.fenc buf (k * s.fenc.bs),
                            plain := s.fenc.plain ++ x, total := s.fenc.total + BitVec.ofNat 64 x.length } } ∧
    (buf.length < s.fenc.bs → out = [] ∧ buf.drop (k * s.fenc.bs) = buf ∧ windowAt s.fenc buf (k * s.fenc.bs) = s.fenc.win)

/-- R195, R199: `FENC_CLOSE` completes with the record of the partial block, the End Mark and the content checksum; on a closed frame
it completes with no effect. -/
def Obligations.FencCloseCompletes : Prop :=
  ∀ (s : State) (A : Args) (out : Bytes), A = s.snapshot → s.Calm → A.DstOk → s.Plain A.window →
    (s.fenc.st = .closed → exec .fencClose s = .next (s.okPlain A 0)) ∧
    (s.fenc.Ok s.cfg → s.fenc.st = .opened ∨ s.fenc.st = .writing →
      (s.fenc.flg.getLsbD 3 = true → s.fenc.total = s.fenc.csize) →
      out = closingOf s.cfg s.fenc → s.Sink A out.length →
      exec .fencClose s = .next { s.okState A out out.length with
        fenc := { s.fenc with
          st := .closed, stage := [],
          win := (if s.fenc.stage = [] ∨ s.fenc.flg.getLsbD 5 = true then s.fenc.win
            else lastBytes 65536 (s.fenc.win ++ s.fenc.stage)) } })

/-- R220, R221, R226: `FDEC_OPEN` of a source that begins with a frame header completes in every frame state with that header's
length, and the context and the `FDEC_*` registers take its fields. -/
def Obligations.FdecOpenCompletes : Prop :=
  ∀ (s : State) (A : Args) (d desc : Bytes) (flg bd : Byte) (csize : BitVec 64) (dictid : Word) (hlen : Nat),
    A = s.snapshot → s.Calm → A.SrcOk → A.DictOk → s.Dictionary A d → HeaderBytesOk s.cfg flg bd →
    desc = [flg, bd] ++ (if flg.getLsbD 3 then le64 csize else []) ++ (if flg.getLsbD 0 then le32 dictid else []) →
    hlen = 7 + (if flg.getLsbD 3 then 8 else 0) + (if flg.getLsbD 0 then 4 else 0) → hlen ≤ A.srcLen.toNat →
    accessible s.cfg A.src A.srcAddr.toNat hlen = true → s.Plain A.src →
    Memory.bytes s.mem A.srcAddr.toNat hlen = [0x04, 0x22, 0x4D, 0x18] ++ desc ++ [(xxh32 desc 0).extractLsb' 8 8] →
    exec .fdecOpen s = .next { s.okPlain A hlen with
      fdec := ⟨.readingBlocks, A.srcAddr.toNat, A.srcLen.toNat, hlen, flg, bd, blockMax (bd.extractLsb' 4 3).toNat,
        if flg.getLsbD 3 then csize else 0, if flg.getLsbD 0 then dictid else 0, d, d, [], [], 0⟩,
      fregs := ⟨(0 : BitVec 16) ++ bd ++ flg, if flg.getLsbD 3 then csize.extractLsb' 0 32 else 0,
        if flg.getLsbD 3 then csize.extractLsb' 32 32 else 0, if flg.getLsbD 0 then dictid else 0,
        BitVec.ofNat 32 hlen⟩ }

/-- R222, R223, R227: `FDEC_READ` of at most as many bytes as are pending delivers the first of them and reads no record; with none
pending in FINISHED it delivers none (R228), whatever READ_LEN. A read to the end, or of more than is pending, that meets the End Mark
with a right trailer delivers what is pending and ends FINISHED past the trailer. -/
def Obligations.FdecReadCompletes : Prop :=
  (∀ (s : State) (A : Args), A = s.snapshot → s.raced = [] → s.fdec.st = .readingBlocks ∨ s.fdec.st = .finished →
    s.fdec.base + s.fdec.pos + (s.fdec.len - s.fdec.pos) ≤ 2 ^ 32 → A.DstOk →
    A.Apart (s.fdec.base + s.fdec.pos) (s.fdec.len - s.fdec.pos) →
    s.Plain (s.fdec.base + s.fdec.pos, s.fdec.len - s.fdec.pos) → s.Plain A.window →
    (A.readLen.toNat ≤ s.fdec.pend.length → s.Sink A A.readLen.toNat →
      exec .fdecRead s = .next { s.okState A (s.fdec.pend.take A.readLen.toNat) A.readLen.toNat with
        fdec := { s.fdec with pend := s.fdec.pend.drop A.readLen.toNat },
        fregs := { s.fregs with srcPos := BitVec.ofNat 32 s.fdec.pos } }) ∧
    (s.fdec.st = .finished → s.fdec.pend = [] →
      exec .fdecRead s = .next { s.okPlain A 0 with fregs := { s.fregs with srcPos := BitVec.ofNat 32 s.fdec.pos } } ∧
      exec .fdecReadToEnd s = .next { s.okPlain A 0 with fregs := { s.fregs with srcPos := BitVec.ofNat 32 s.fdec.pos } })) ∧
  (∀ (s : State) (A : Args) (next : Nat), A = s.snapshot → s.Calm → s.fdec.st = .readingBlocks →
    s.fdec.base + s.fdec.pos + (s.fdec.len - s.fdec.pos) ≤ 2 ^ 32 → A.DstOk →
    A.Apart (s.fdec.base + s.fdec.pos) (s.fdec.len - s.fdec.pos) →
    s.FrameBytes s.fdec s.fdec.pos 4 [0x00, 0x00, 0x00, 0x00] →
    (s.fdec.flg.getLsbD 2 = true → s.FrameBytes s.fdec (s.fdec.pos + 4) 4 (le32 (xxh32 s.fdec.plain 0))) →
    (s.fdec.flg.getLsbD 3 = true → s.fdec.total = s.fdec.csize) →
    next = s.fdec.pos + 4 + (if s.fdec.flg.getLsbD 2 then 4 else 0) → s.Sink A s.fdec.pend.length →
    exec .fdecReadToEnd s = .next { s.okState A s.fdec.pend s.fdec.pend.length with
      fdec := { s.fdec with st := .finished, pos := next, pend := [] },
      fregs := { s.fregs with srcPos := BitVec.ofNat 32 next } } ∧
    (s.fdec.pend.length < A.readLen.toNat →
      exec .fdecRead s = .next { s.okState A s.fdec.pend s.fdec.pend.length with
        fdec := { s.fdec with st := .finished, pos := next, pend := [] },
        fregs := { s.fregs with srcPos := BitVec.ofNat 32 next } }))

/-! ## Wire elements that complete -/

/-- R85, R122 (c) to (e), R124, R125: a token with a literal nibble 15 waits for the extension; another copies its literals, and
the block goes on at the offset, or, where it ends there, the ML nibble is ignored and what the block is decoded for follows. -/
def Obligations.TokenCompletes : Prop :=
  ∀ (s : State) (r : Run) (use : BlockUse) (p : Parser) (ll ml : BitVec 4),
    s.engine = .running r → r.progress = .block use p → p.phase = .token →
    (ll = 15 → exec (.token ll ml) s =
      .next (s.goesOn r (.block use { p with rest := p.rest.drop 1, ml := ml, phase := .litExt }))) ∧
    (ll ≠ 15 → 1 + ll.toNat < p.rest.length → p.out.length + ll.toNat ≤ p.cap →
      exec (.token ll ml) s = .next (s.goesOn r (.block use { p with
          out := p.out ++ (p.rest.drop 1).take ll.toNat, rest := p.rest.drop (1 + ll.toNat), ml := ml,
          phase := .offset }))) ∧
    (ll ≠ 15 → 1 + ll.toNat = p.rest.length → p.out.length + ll.toNat ≤ p.cap → s.Calm →
      s.AfterDecode r (p.out ++ p.rest.drop 1) (exec (.token ll ml) s) use)

/-- R84, R123, R125, R127, R129: extension bytes before the literals give their length, and the literals are copied, or end the block;
after an offset they give the match length, and the match is copied. Sums are exact. -/
def Obligations.LenextCompletes : Prop :=
  ∀ (s : State) (r : Run) (use : BlockUse) (p : Parser) (ffs : Nat) (final : Byte) (n : Nat),
    s.engine = .running r → r.progress = .block use p → n = 15 + 255 * ffs + final.toNat →
    (p.phase = .litExt → ffs + 1 + n < p.rest.length → p.out.length + n ≤ p.cap →
      exec (.lenext ffs final) s = .next (s.goesOn r (.block use { p with
          out := p.out ++ (p.rest.drop (ffs + 1)).take n, rest := p.rest.drop (ffs + 1 + n),
          phase := .offset }))) ∧
    (p.phase = .litExt → ffs + 1 + n = p.rest.length → p.out.length + n ≤ p.cap → s.Calm →
      s.AfterDecode r (p.out ++ p.rest.drop (ffs + 1)) (exec (.lenext ffs final) s) use) ∧
    (p.phase = .matchExt → p.off ≠ 0 → p.off ≤ p.hist.length + p.out.length → p.out.length + (n + 4) ≤ p.cap →
      exec (.lenext ffs final) s = .next (s.goesOn r (.block use { p with
          out := p.out ++ copyMatch (p.hist ++ p.out) p.off (n + 4), rest := p.rest.drop (ffs + 1),
          phase := .token })))

/-- R86, R126, R127, R129: an offset with a match nibble 15 waits for the extension; another copies a match of the nibble and 4
bytes. -/
def Obligations.OffsetCompletes : Prop :=
  ∀ (s : State) (r : Run) (use : BlockUse) (p : Parser) (off : BitVec 16),
    s.engine = .running r → r.progress = .block use p → p.phase = .offset →
    (p.ml = 15 → exec (.offset off) s =
      .next (s.goesOn r (.block use { p with rest := p.rest.drop 2, off := off.toNat, phase := .matchExt }))) ∧
    (p.ml ≠ 15 → off ≠ 0 → off.toNat ≤ p.hist.length + p.out.length → p.out.length + (p.ml.toNat + 4) ≤ p.cap →
      exec (.offset off) s = .next (s.goesOn r (.block use { p with
          out := p.out ++ copyMatch (p.hist ++ p.out) off.toNat (p.ml.toNat + 4), rest := p.rest.drop 2,
          off := off.toNat, phase := .token })))

/-- R87, R122, R129: a whole sequence copies its literals, then its match. -/
def Obligations.SeqCompletes : Prop :=
  ∀ (s : State) (r : Run) (use : BlockUse) (p : Parser) (lit : Bytes) (off : BitVec 16) (len : Nat),
    s.engine = .running r → r.progress = .block use p → p.phase = .token → off ≠ 0 →
    off.toNat ≤ p.hist.length + p.out.length + lit.length → p.out.length + lit.length + len ≤ p.cap →
    exec (.seq lit off len) s = .next (s.goesOn r (.block use { p with
          out := p.out ++ lit ++ copyMatch (p.hist ++ p.out ++ lit) off.toNat len,
          rest := p.rest.drop (encode (.seq lit off len)).length, off := off.toNat,
          ml := lengthNibble (len - 4) }))

/-- R87, R125, R142, R176, R222, R227: the last sequence ends the block, and with it `BLK_DECODE`, or `SES_DEC`, whose session takes
the output, or the record of a frame, whose window, `P`, total, cursor and pending bytes take it, and whose read delivers what it still
lacks and completes or goes on to the next record. -/
def Obligations.LastCompletes : Prop :=
  ∀ (s : State) (r : Run) (use : BlockUse) (p : Parser) (lit out : Bytes),
    s.engine = .running r → r.progress = .block use p → p.phase = .token → out = p.out ++ lit → out.length ≤ p.cap →
    s.Calm → s.AfterDecode r out (exec (.last lit) s) use

/-- R91 to R93, R220: in its place the magic is passed, FLG is latched, and BD is latched where its code is supported. -/
def Obligations.HeaderBytesComplete : Prop :=
  ∀ (s : State) (r : Run) (h : HeaderRun), s.engine = .running r → r.progress = .header h →
    (h.phase = .magic → exec .magic s = .next (s.goesOn r (.header ⟨.flg, h.t⟩))) ∧
    (h.phase = .flg → ∀ bi bc cs cc di : Bool, ∃ flg : Byte,
      exec (.flg bi bc cs cc di) s = .next (s.goesOn r (.header ⟨.bd, { h.t with flg := flg }⟩)) ∧
      flg.extractLsb' 6 2 = 1 ∧ flg.getLsbD 5 = bi ∧ flg.getLsbD 4 = bc ∧ flg.getLsbD 3 = cs ∧ flg.getLsbD 2 = cc ∧
      flg.getLsbD 1 = false ∧ flg.getLsbD 0 = di) ∧
    (h.phase = .bd → ∀ id : BitVec 3, id.toNat ≤ s.cfg.bsizeIdMax → ∃ bd : Byte,
      exec (.bd id) s = .next (s.goesOn r (.header ⟨.hc, { h.t with bd := bd }⟩)) ∧
      bd.extractLsb' 4 3 = id ∧ bd.getLsbD 7 = false ∧ bd.extractLsb' 0 4 = 0)

/-- R94, R193, R220, R221, R226: a header checksum byte that is the checksum of the descriptor in memory, FLG and BD with it, opens the
frame, and `FDEC_OPEN` completes. -/
def Obligations.HcCompletes : Prop :=
  ∀ (s : State) (r : Run) (h : HeaderRun) (desc : Bytes) (sum : Byte) (hlen : Nat) (csize : BitVec 64) (dictid : Word),
    s.engine = .running r → r.progress = .header h → h.phase = .hc → s.Calm → s.OnPlain .fdecOpen →
    hlen = 7 + (if h.t.flg.getLsbD 3 then 8 else 0) + (if h.t.flg.getLsbD 0 then 4 else 0) →
    s.FrameBytes h.t 4 (hlen - 5) desc → sum = (xxh32 desc 0).extractLsb' 8 8 →
    csize = (if h.t.flg.getLsbD 3 then le64At desc 2 else 0) →
    dictid = (if h.t.flg.getLsbD 0 then le32At desc (2 + if h.t.flg.getLsbD 3 then 8 else 0) else 0) →
    exec (.hc sum) s = .next { s.okPlain r.args hlen with
      fdec := { h.t with st := .readingBlocks, pos := hlen, bs := blockMax (h.t.bd.extractLsb' 4 3).toNat, csize := csize,
                         dictid := dictid },
      fregs := ⟨(0 : BitVec 16) ++ h.t.bd ++ h.t.flg, csize.extractLsb' 0 32, csize.extractLsb' 32 32, dictid,
        BitVec.ofNat 32 hlen⟩ }

/-- R95, R96, R222, R225: a record word of a compressed block whose payload is there with a right checksum starts that block's
decode, against the dictionary where blocks are independent and the window where they are linked, bounded by `bs`. -/
def Obligations.BlockwordLz4Completes : Prop :=
  ∀ (s : State) (r : Run) (rd : Reader) (size : BitVec 31) (payload : Bytes) (next : Nat),
    s.engine = .running r → r.progress = .record rd → s.Calm → size.toNat ≤ rd.t.bs →
    s.FrameBytes rd.t (rd.t.pos + 4) size.toNat payload →
    (rd.t.flg.getLsbD 4 = true → s.FrameBytes rd.t (rd.t.pos + 4 + size.toNat) 4 (le32 (xxh32 payload 0))) →
    next = rd.t.pos + 4 + size.toNat + (if rd.t.flg.getLsbD 4 then 4 else 0) →
    exec (.blockwordLz4 size) s = .next (s.goesOn r (.block (.frame rd next)
      ⟨if rd.t.flg.getLsbD 5 then rd.t.dict else rd.t.win, rd.t.bs, size.toNat, payload, [], .token, 0, 0⟩))

/-- R95, R96, R222, R227: a record word of a stored block: its payload joins the frame's plaintext and is delivered; a read to the
end, and one that still lacks bytes, goes on to the next record, and one that has its bytes completes with them. -/
def Obligations.BlockwordRawCompletes : Prop :=
  ∀ (s : State) (r : Run) (rd : Reader) (size : BitVec 31) (payload : Bytes) (next : Nat),
    s.engine = .running r → r.progress = .record rd → s.Calm → size.toNat ≤ rd.t.bs →
    s.FrameBytes rd.t (rd.t.pos + 4) size.toNat payload →
    (rd.t.flg.getLsbD 4 = true → s.FrameBytes rd.t (rd.t.pos + 4 + size.toNat) 4 (le32 (xxh32 payload 0))) →
    next = rd.t.pos + 4 + size.toNat + (if rd.t.flg.getLsbD 4 then 4 else 0) →
    s.AfterBlock r rd payload next (exec (.blockwordRaw size) s)

/-- R97, R223, R227: the End Mark with a right trailer ends the frame, and the read completes with what it has. -/
def Obligations.EndMarkCompletes : Prop :=
  ∀ (s : State) (r : Run) (rd : Reader) (next : Nat),
    s.engine = .running r → r.progress = .record rd → s.Calm → s.OnPlain .fdecRead → rd.t.pend = [] →
    (rd.t.flg.getLsbD 2 = true → s.FrameBytes rd.t (rd.t.pos + 4) 4 (le32 (xxh32 rd.t.plain 0))) →
    (rd.t.flg.getLsbD 3 = true → rd.t.total = rd.t.csize) →
    next = rd.t.pos + 4 + (if rd.t.flg.getLsbD 2 then 4 else 0) → s.Sink r.args rd.out.length →
    exec .endMark s = .next { s.okState r.args rd.out rd.out.length with
      fdec := { rd.t with st := .finished, pos := next }, fregs := { s.fregs with srcPos := BitVec.ofNat 32 next } }

/-! ## Frames -/

/-- R62, R83, R148, R264, R273: every command answers a next state in every state, and what it leaves unchanged. A stuck command
changes nothing (log entry 4); a completion changes no argument register but DST_LEN, no context but the command's own, and no byte of
memory outside the destination window, and none at all for a command that has no output, but that a format error of `FDEC_OPEN` leaves
any bytes in the window (R264, log entry 15); a success changes no byte outside the RESULT bytes from `DST_ADDR + DST_LEN` on. A command
with a region over memory with read side effects has any outcome (R66, log entry 2), and for it the clauses that do not ask for plain
memory hold: no context but its own, no byte outside the window and no other register. -/
def Obligations.FrameOfCommands : Prop :=
  ∀ (i : Instr) (s : State) (A : Args), i ∈ commands → A = s.snapshot → ∃ t, exec i s = .next t ∧
    (t.engine ≠ .idle → t = { s with engine := t.engine }) ∧
    (t.engine = .idle → t.done = true ∧ t.irqPending = true) ∧
    s.SameHost t ∧ s.SameArgs t ∧
    s.SameMemoryOutside t (A.dstAddr.toNat + A.dstLen.toNat, A.dstCap.toNat - A.dstLen.toNat) ∧
    (i ∈ [Instr.blkBound, .sesEncReset, .sesEncResetLinked, .sesDecReset, .sesDecResetLinked] → s.SameMemory t) ∧
    (i = .fdecOpen → s.OnPlain i → (∀ c, t.lastError = some c → c.isUsage = true) → s.SameMemory t) ∧
    (i ∈ [Instr.blkBound, .sesEncReset, .sesEncResetLinked, .sesDecReset, .sesDecResetLinked, .fdecOpen] → s.OnPlain i →
      t.args.dstLen ∈ [s.args.dstLen, A.dstLen]) ∧
    (t.Succeeded → s.raced = [] → s.OnPlain i →
      i ∈ [Instr.blkEncode, .blkDecode, .sesEnc, .sesDec, .fencOpen, .fencWrite, .fencClose, .fdecRead, .fdecReadToEnd] →
      s.SameMemoryOutside t (A.dstAddr.toNat + A.dstLen.toNat, t.result.toNat) ∧ t.args.dstLen = A.dstLen + t.result) ∧
    (i ∉ [Instr.sesEncReset, .sesEncResetLinked, .sesEnc] → t.eses = s.eses) ∧
    (i ∉ [Instr.sesDecReset, .sesDecResetLinked, .sesDec] → t.dses = s.dses) ∧
    (i ∉ [Instr.fencOpen, .fencWrite, .fencClose] → t.fenc = s.fenc) ∧
    (i ∉ [Instr.fdecOpen, .fdecRead, .fdecReadToEnd] → t.fdec = s.fdec ∧ t.fregs = s.fregs)

/-- R62, R70, R148, R264, R273: what a wire element leaves unchanged. While the command goes on, or is stuck (log entry 4), everything
but the engine; where the element ends the command, what that command leaves unchanged: no byte of memory outside the destination
window, and a header element none at all, but that one which ends `FDEC_OPEN` with an error leaves any bytes in the window (R264,
log entry 15). Over memory with read side effects the clauses hold that do not ask for plain memory (R66, log entry 2). The invariant
says that the output under way is bounded by the destination window. Running by elements is the model's
granularity (log entry 12). -/
def Obligations.FrameOfWireElements : Prop :=
  ∀ (i : Instr) (s t : State) (r : Run), i ∉ commands → s.Inv → s.engine = .running r → exec i s = .next t →
    (t.engine ≠ .idle → t = { s with engine := t.engine }) ∧ s.SameHost t ∧ s.SameArgs t ∧ t.eses = s.eses ∧
    t.fenc = s.fenc ∧ s.SameMemoryOutside t r.args.window ∧
    (∀ use p, r.progress = .block use p → (use ≠ .session → t.dses = s.dses) ∧
      (use = .block ∨ use = .session → t.fdec = s.fdec ∧ t.fregs = s.fregs)) ∧
    (i.slot ∈ [Slot.magic, .flg, .bd, .hc] → t.dses = s.dses ∧ (s.OnPlain .fdecOpen → t.lastError = none → s.SameMemory t)) ∧
    (i.slot = .record → t.dses = s.dses ∧
      (s.OnPlain .fdecRead → t.fregs = { s.fregs with srcPos := t.fregs.srcPos }))

/-- Log entry 13: a wire element has an effect exactly where the running command expects an element of its kind next; there it
always answers a next state, and elsewhere it is refused by name. -/
def Obligations.ElementsRunWhereExpected : Prop :=
  ∀ (i : Instr) (s : State), i ∉ commands →
    (s.Expects i → ∃ t, exec i s = .next t) ∧
    (¬s.Expects i → exec i s = .refused .elementOutOfPlace)

/-! ## Codec -/

/-- R129: every byte of a match is the one `off` positions before it in history and output, so a short offset repeats. -/
def Obligations.MatchCopyback : Prop :=
  ∀ (y : Bytes) (off m : Nat), 1 ≤ off → off ≤ y.length →
    (copyMatch y off m).length = m ∧
    ∀ k, k < m → (y ++ copyMatch y off m)[y.length + k]? = (y ++ copyMatch y off m)[y.length + k - off]?

/-- R131 (a) to (f), R134: what the matcher gives is a valid sequence list, at every level, for the reference matcher (R133) and
any other. -/
def Obligations.MatcherGivesValidLists : Prop :=
  ∀ (c : Config) (level : Int) (h x : Bytes), x.length ≤ maxInput → streamValid h x (matchFinder c level h x) = true

/-- R144: decoding an encoded block against the same history gives the input back, at every level and for every matcher. -/
def Obligations.BlockRoundTrip : Prop :=
  ∀ (c : Config) (x h : Bytes) (level : Int) (cap : Nat), x.length ≤ maxInput → x.length ≤ cap →
    decodeBlock (encodeBlock c x h level) h cap = .ok x

/-- R170, R171: the window is the last 65536 bytes of all the session has seen, so appending in pieces is appending at once, and
the window never exceeds its capacity. -/
def Obligations.WindowIsTheLatestBytes : Prop :=
  (∀ w d : Bytes, winAppend w d = (w ++ d).drop ((w ++ d).length - 65536) ∧ (winAppend w d).length ≤ 65536) ∧
  (∀ (d : Bytes) (xs : List Bytes), d.length ≤ 65536 →
    (xs.foldl Session.advance (Session.opened true d)).win = lastBytes 65536 (d ++ xs.flatten)) ∧
  (∀ (d : Bytes) (xs : List Bytes), (xs.foldl Session.advance (Session.opened false d)).win = d)

/-- R200: the records emitted for two chunks in a row are those emitted for both at once, with the same bytes staged and the same
window. -/
def Obligations.FrameChunkingIsTransparent : Prop :=
  ∀ (c : Config) (f : Fenc) (x y : Bytes), 0 < f.bs →
    ∀ one two both : Bytes × Bytes × Bytes,
      one = emitBlocks c f ((f.stage ++ x).length / f.bs) (f.stage ++ x) f.win →
      two = emitBlocks c { f with stage := one.2.1, win := one.2.2 } ((one.2.1 ++ y).length / f.bs) (one.2.1 ++ y) one.2.2 →
      both = emitBlocks c f ((f.stage ++ x ++ y).length / f.bs) (f.stage ++ x ++ y) f.win →
      both = (one.1 ++ two.1, two.2.1, two.2.2)

/-- R195, R201: a header is 7 to 19 bytes, a record at most 8 bytes longer than its block, `k` blocks of `bs` bytes at most
`k * (bs + 8)`, and a closing at most `bs + 16`. -/
def Obligations.FrameEncoderCapacity : Prop :=
  (∀ (flg bd : Byte) (csize : BitVec 64) (dictid : Word),
    (frameHeader flg bd csize dictid).length = 7 + (if flg.getLsbD 3 then 8 else 0) + (if flg.getLsbD 0 then 4 else 0)) ∧
  (∀ (c : Config) (f : Fenc) (blk h : Bytes), (emitBlock c f blk h).length ≤ 8 + blk.length) ∧
  (∀ (c : Config) (f : Fenc) (k : Nat) (buf w : Bytes), (emitBlocks c f k buf w).1.length ≤ k * (f.bs + 8)) ∧
  (∀ (c : Config) (f : Fenc), f.stage.length ≤ f.bs → (closing c f).length ≤ f.bs + 16)

/-- The examples of R192 and R193, and of 32 bytes, two stripes of R192's loop, from spec/95_test_vectors.md V6.6. -/
def Obligations.ChecksumExamples : Prop :=
  xxh32 [] 0 = 0x02CC5D05 ∧ xxh32 [0x61] 0 = 0x550D7456 ∧ xxh32 [0x61, 0x62, 0x63] 0 = 0x32D153FF ∧
  xxh32 [0x68, 0x65, 0x6C, 0x6C, 0x6F] 0 = 0xFB0077F9 ∧ headerChecksum [0x64, 0x40] = 0xA7 ∧
  headerChecksum [0x60, 0x40] = 0x82 ∧
  xxh32 ((List.replicate 2 [0x61, 0x62, 0x63, 0x64, 0x65, 0x66, 0x67, 0x68, 0x69, 0x6A, 0x6B, 0x6C, 0x6D, 0x6E, 0x6F,
    0x70]).flatten) 0 = 0x94622471

/-- R222, R227, R228: on plain memory, a successful read delivers the frame's plaintext in order: what was pending and what it decodes, of which
the rest stays pending. It returns no more than it was asked for, and less only at the end of the frame; a read to the end ends
FINISHED. What bytes a record's plaintext is, BlockwordRawCompletes and LastCompletes say. -/
def Obligations.ReadsDeliverThePlaintextInOrder : Prop :=
  ∀ (i : Instr) (s t : State), i = .fdecRead ∨ i = .fdecReadToEnd → s.raced = [] → s.OnPlain i → exec i s = .next t →
    t.Succeeded →
    (∃ new out : Bytes, t.fdec.plain = s.fdec.plain ++ new ∧ out ++ t.fdec.pend = s.fdec.pend ++ new ∧
      t.result.toNat = out.length ∧
        Memory.bytes t.mem (s.snapshot.dstAddr.toNat + s.snapshot.dstLen.toNat) out.length = out) ∧
    (i = .fdecRead → t.result.toNat ≤ s.snapshot.readLen.toNat ∧
      (t.result.toNat < s.snapshot.readLen.toNat → t.fdec.st = .finished)) ∧
    (i = .fdecReadToEnd → t.fdec.st = .finished)

/-! ## The two granularities -/

/-- R306 and log entry 12: a command run one element at a time, or one sequence at a time, comes to exactly the state the whole
command gives, in finitely many steps; and it completes unless a region it uses has a byte that is unmapped (R68) or in the register
window (R302), also over memory with read side effects (R66, log entry 2). -/
def Obligations.ElementsRunToTheCommandsResult : Prop :=
  ∀ (g : Grain) (s : State) (r : Run) (i : Instr), s.engine = .running r → r.progress = .start →
    decodeCommand r.word = some i →
    ∃ (n : Nat) (t : State), engineRun g n s = .next t ∧ exec i s = .next t ∧ (t.engine = .idle ∨ ∃ r', t.engine = .stuck r') ∧
      (s.Mapped i → t.engine = .idle)
end

