-- ==== Sys2Proof/Laws/Memory.lean ====
section
/-! SUPPORT. Host memory: every operation keeps the canonical form, and a read after a write. -/

namespace Sys2Proof.Machine

/-- The canonical form as a statement about all entries. -/
theorem Memory.wf_iff (m : Memory) :
    Memory.wf m = true ↔ m.Pairwise (fun c d => c.1 < d.1) ∧ ∀ c ∈ m, c.2 ≠ Memory.unlisted := by
  induction m with
  | nil => simp [Memory.wf]
  | cons c rest ih =>
    obtain ⟨a, b⟩ := c
    cases rest with
    | nil => simp [Memory.wf]
    | cons d rest =>
      obtain ⟨a', b'⟩ := d
      simp only [Memory.wf, Bool.and_eq_true, bne_iff_ne, decide_eq_true_eq, ih, List.pairwise_cons, List.mem_cons,
        forall_eq_or_imp]
      constructor
      · rintro ⟨⟨hb, ha⟩, ⟨h1, h2⟩, h3, h4⟩
        exact ⟨⟨⟨ha, fun c hc => lt_trans ha (h1 c hc)⟩, h1, h2⟩, hb, h3, h4⟩
      · rintro ⟨⟨⟨ha, -⟩, h1, h2⟩, hb, h3, h4⟩
        exact ⟨⟨hb, ha⟩, ⟨h1, h2⟩, h3, h4⟩

/-- The entries of a run of bytes stand at its addresses and are listed bytes. -/
theorem Memory.mem_cells {a : Nat} {v : Bytes} {c : Host.Cell} (h : c ∈ Memory.cells a v) :
    a ≤ c.1 ∧ c.1 < a + v.length ∧ c.2 ≠ Memory.unlisted := by
  induction v generalizing a with
  | nil => simp [Memory.cells] at h
  | cons b rest ih =>
    unfold Memory.cells at h
    split at h
    · have := ih h
      simp only [List.length_cons]
      exact ⟨by omega, by omega, this.2.2⟩
    · rcases List.mem_cons.mp h with rfl | h
      · simp_all
      · have := ih h
        simp only [List.length_cons]
        exact ⟨by omega, by omega, this.2.2⟩

theorem Memory.cells_pairwise (a : Nat) (v : Bytes) : (Memory.cells a v).Pairwise (fun c d => c.1 < d.1) := by
  induction v generalizing a with
  | nil => simp [Memory.cells]
  | cons b rest ih =>
    unfold Memory.cells
    split
    · exact ih _
    · refine List.pairwise_cons.mpr ⟨fun c hc => ?_, ih _⟩
      have := Memory.mem_cells hc
      simp only
      omega

/-- A write keeps the canonical form. -/
theorem Memory.write_wf {m : Memory} (hm : Memory.wf m = true) (a : Nat) (v : Bytes) :
    Memory.wf (Memory.write m a v) = true := by
  rw [Memory.wf_iff] at hm ⊢
  obtain ⟨hp, hn⟩ := hm
  unfold Memory.write
  split
  · exact ⟨hp, hn⟩
  constructor
  · refine List.pairwise_append.mpr ⟨List.pairwise_append.mpr ⟨hp.filter _, Memory.cells_pairwise a v, ?_⟩, hp.filter _, ?_⟩
    · intro c hc d hd
      have := Memory.mem_cells hd
      simp only [List.mem_filter, decide_eq_true_eq] at hc
      omega
    · intro c hc d hd
      simp only [List.mem_filter, decide_eq_true_eq] at hd
      rcases List.mem_append.mp hc with hc | hc
      · simp only [List.mem_filter, decide_eq_true_eq] at hc
        omega
      · have := Memory.mem_cells hc
        omega
  · intro c hc
    rcases List.mem_append.mp hc with hc | hc
    · rcases List.mem_append.mp hc with hc | hc
      · exact hn c (List.mem_filter.mp hc).1
      · exact (Memory.mem_cells hc).2.2
    · exact hn c (List.mem_filter.mp hc).1

/-- A write inside the address space keeps every listed byte inside it. -/
theorem Memory.write_inSpace {m : Memory} (hm : Memory.inSpace m) {a : Nat} {v : Bytes}
    (h : v = [] ∨ a + v.length ≤ addrSpace) : Memory.inSpace (Memory.write m a v) := by
  unfold Memory.write
  split
  · exact hm
  intro c hc
  rcases List.mem_append.mp hc with hc | hc
  · rcases List.mem_append.mp hc with hc | hc
    · exact hm c (List.mem_filter.mp hc).1
    · have := Memory.mem_cells hc
      rcases h with rfl | h
      · simp [Memory.cells] at hc
      · omega
  · exact hm c (List.mem_filter.mp hc).1

theorem Memory.reset_wf : Memory.wf State.reset.mem = true := rfl

/-! ## Reads -/

theorem Memory.read_append {m n : Memory} {a : Nat} :
    Memory.read (m ++ n) a = if a ∈ m.map (·.1) then Memory.read m a else Memory.read n a := by
  induction m with
  | nil => simp
  | cons c rest ih =>
    obtain ⟨k, b⟩ := c
    by_cases h : k = a
    · simp [Memory.read, h]
    · simp [Memory.read, h, ih, Ne.symm h]

theorem Memory.read_of_not_mem {m : Memory} {a : Nat} (h : ∀ c ∈ m, c.1 ≠ a) : Memory.read m a = Memory.unlisted := by
  induction m with
  | nil => rfl
  | cons c rest ih =>
    obtain ⟨k, b⟩ := c
    simp only [List.mem_cons, forall_eq_or_imp] at h
    simp [Memory.read, h.1, ih h.2]

theorem Memory.read_filter {m : Memory} {p : Nat → Bool} {a : Nat} :
    Memory.read (m.filter fun c => p c.1) a = if p a then Memory.read m a else Memory.unlisted := by
  induction m with
  | nil => simp [Memory.read]
  | cons c rest ih =>
    obtain ⟨k, b⟩ := c
    by_cases hk : k = a
    · subst hk
      by_cases hp : p k <;> simp [Memory.read, hp, ih]
    · by_cases hp : p k <;> simp [Memory.read, hk, hp, ih]

theorem Memory.read_cells (a : Nat) (v : Bytes) (k : Nat) (h : a ≤ k) :
    Memory.read (Memory.cells a v) k = v.getD (k - a) Memory.unlisted := by
  induction v generalizing a with
  | nil => simp [Memory.cells, Memory.read]
  | cons b rest ih =>
    unfold Memory.cells
    by_cases hk : a = k
    · subst hk
      split
      · rename_i hb
        rw [Memory.read_of_not_mem]
        · simp [hb]
        · intro c hc
          have := Memory.mem_cells hc
          omega
      · simp [Memory.read]
    · obtain ⟨j, rfl⟩ : ∃ j, k = a + 1 + j := ⟨k - (a + 1), by omega⟩
      have hj : a + 1 + j - a = j + 1 := by omega
      have := ih (a + 1) (by omega)
      have hj' : a + 1 + j - (a + 1) = j := by omega
      split <;> simp_all [Memory.read]

/-- A read after a write gives the byte written, and every other byte as before. -/
theorem Memory.read_write (m : Memory) (a : Nat) (v : Bytes) (k : Nat) :
    Memory.read (Memory.write m a v) k =
      if a ≤ k ∧ k < a + v.length then v.getD (k - a) Memory.unlisted else Memory.read m k := by
  unfold Memory.write
  split
  · rename_i hv
    subst hv
    have : ¬(a ≤ k ∧ k < a + ([] : Bytes).length) := by simp
    rw [if_neg this]
  rw [Memory.read_append, Memory.read_append]
  by_cases h1 : a ≤ k ∧ k < a + v.length
  · rw [if_pos h1]
    have hlo : k ∉ (m.filter fun c => decide (c.1 < a)).map (·.1) := by
      simp only [List.mem_map, List.mem_filter, decide_eq_true_eq]
      rintro ⟨c, ⟨-, hc⟩, rfl⟩
      omega
    by_cases hc : k ∈ (m.filter (fun c => decide (c.1 < a)) ++ Memory.cells a v).map (·.1)
    · rw [if_pos hc, if_neg hlo, Memory.read_cells a v k h1.1]
    · rw [if_neg hc, Memory.read_filter (p := fun x => decide (a + v.length ≤ x)), if_neg (by simp; omega),
        ← Memory.read_cells a v k h1.1]
      symm
      apply Memory.read_of_not_mem
      intro c hcm hck
      apply hc
      simp only [List.map_append, List.mem_append, List.mem_map]
      exact .inr ⟨c, hcm, hck⟩
  · rw [if_neg h1]
    have hcells : k ∉ (Memory.cells a v).map (·.1) := by
      simp only [List.mem_map]
      rintro ⟨c, hc, rfl⟩
      have := Memory.mem_cells hc
      omega
    by_cases hlo : k < a
    · by_cases hm : k ∈ (m.filter fun c => decide (c.1 < a)).map (·.1)
      · rw [if_pos (by rw [List.map_append]; exact List.mem_append_left _ hm), if_pos hm,
          Memory.read_filter (p := fun x => decide (x < a)), if_pos (by simpa using hlo)]
      · rw [if_neg (by rw [List.map_append, List.mem_append]; tauto),
          Memory.read_filter (p := fun x => decide (a + v.length ≤ x)), if_neg (by simp; omega)]
        symm
        apply Memory.read_of_not_mem
        intro c hc hck
        apply hm
        simp only [List.mem_map, List.mem_filter, decide_eq_true_eq]
        exact ⟨c, ⟨hc, by omega⟩, hck⟩
    · have hm : k ∉ (m.filter fun c => decide (c.1 < a)).map (·.1) := by
        simp only [List.mem_map, List.mem_filter, decide_eq_true_eq]
        rintro ⟨c, ⟨-, hc⟩, rfl⟩
        omega
      rw [if_neg (by rw [List.map_append, List.mem_append]; tauto),
        Memory.read_filter (p := fun x => decide (a + v.length ≤ x)), if_pos (by simp; omega)]

@[simp] theorem Memory.write_nil (m : Memory) (a : Nat) : Memory.write m a [] = m := by simp [Memory.write]

end Sys2Proof.Machine
end

