-- ==== Sys2Proof/Laws/State.lean ====
section
/-! SUPPORT. What each shared operation on the state does to each field it does not change, and to those it sets: one lemma per
field per operation, so that no proof unfolds a record update. -/

namespace Sys2Proof.Machine

/-! ### `setStarted` -/

@[simp] theorem State.setStarted_cfg (s : State) : (s.setStarted).cfg = s.cfg := rfl
@[simp] theorem State.setStarted_args (s : State) : (s.setStarted).args = s.args := rfl
@[simp] theorem State.setStarted_result (s : State) : (s.setStarted).result = s.result := rfl
@[simp] theorem State.setStarted_fregs (s : State) : (s.setStarted).fregs = s.fregs := rfl
@[simp] theorem State.setStarted_done (s : State) : (s.setStarted).done = false := rfl
@[simp] theorem State.setStarted_lastError (s : State) : (s.setStarted).lastError = none := rfl
@[simp] theorem State.setStarted_irqEn (s : State) : (s.setStarted).irqEn = s.irqEn := rfl
@[simp] theorem State.setStarted_irqPending (s : State) : (s.setStarted).irqPending = s.irqPending := rfl
@[simp] theorem State.setStarted_eses (s : State) : (s.setStarted).eses = s.eses := rfl
@[simp] theorem State.setStarted_dses (s : State) : (s.setStarted).dses = s.dses := rfl
@[simp] theorem State.setStarted_fenc (s : State) : (s.setStarted).fenc = s.fenc := rfl
@[simp] theorem State.setStarted_fdec (s : State) : (s.setStarted).fdec = s.fdec := rfl
@[simp] theorem State.setStarted_engine (s : State) : (s.setStarted).engine = s.engine := rfl
@[simp] theorem State.setStarted_mem (s : State) : (s.setStarted).mem = s.mem := rfl
@[simp] theorem State.setStarted_host (s : State) : (s.setStarted).host = s.host := rfl
@[simp] theorem State.setStarted_turns (s : State) : (s.setStarted).turns = s.turns := rfl
@[simp] theorem State.setStarted_rdata (s : State) : (s.setStarted).rdata = s.rdata := rfl
@[simp] theorem State.setStarted_nonce (s : State) : (s.setStarted).nonce = s.nonce := rfl

/-! ### `setCompleted` -/

@[simp] theorem State.setCompleted_cfg (s : State) (e : Option ErrCode) : (s.setCompleted e).cfg = s.cfg := rfl
@[simp] theorem State.setCompleted_args (s : State) (e : Option ErrCode) : (s.setCompleted e).args = s.args := rfl
@[simp] theorem State.setCompleted_result (s : State) (e : Option ErrCode) : (s.setCompleted e).result = s.result := rfl
@[simp] theorem State.setCompleted_fregs (s : State) (e : Option ErrCode) : (s.setCompleted e).fregs = s.fregs := rfl
@[simp] theorem State.setCompleted_done (s : State) (e : Option ErrCode) : (s.setCompleted e).done = true := rfl
@[simp] theorem State.setCompleted_lastError (s : State) (e : Option ErrCode) : (s.setCompleted e).lastError = e := rfl
@[simp] theorem State.setCompleted_irqEn (s : State) (e : Option ErrCode) : (s.setCompleted e).irqEn = s.irqEn := rfl
@[simp] theorem State.setCompleted_irqPending (s : State) (e : Option ErrCode) : (s.setCompleted e).irqPending = true := rfl
@[simp] theorem State.setCompleted_eses (s : State) (e : Option ErrCode) : (s.setCompleted e).eses = s.eses := rfl
@[simp] theorem State.setCompleted_dses (s : State) (e : Option ErrCode) : (s.setCompleted e).dses = s.dses := rfl
@[simp] theorem State.setCompleted_fenc (s : State) (e : Option ErrCode) : (s.setCompleted e).fenc = s.fenc := rfl
@[simp] theorem State.setCompleted_fdec (s : State) (e : Option ErrCode) : (s.setCompleted e).fdec = s.fdec := rfl
@[simp] theorem State.setCompleted_engine (s : State) (e : Option ErrCode) : (s.setCompleted e).engine = .idle := rfl
@[simp] theorem State.setCompleted_mem (s : State) (e : Option ErrCode) : (s.setCompleted e).mem = s.mem := rfl
@[simp] theorem State.setCompleted_host (s : State) (e : Option ErrCode) : (s.setCompleted e).host = s.host := rfl
@[simp] theorem State.setCompleted_turns (s : State) (e : Option ErrCode) : (s.setCompleted e).turns = s.turns := rfl
@[simp] theorem State.setCompleted_rdata (s : State) (e : Option ErrCode) : (s.setCompleted e).rdata = s.rdata := rfl
@[simp] theorem State.setCompleted_nonce (s : State) (e : Option ErrCode) : (s.setCompleted e).nonce = s.nonce + 1 := rfl

/-! ### `setProgress` -/

@[simp] theorem State.setProgress_cfg (s : State) (r : Run) (p : Progress) : (s.setProgress r p).cfg = s.cfg := rfl
@[simp] theorem State.setProgress_args (s : State) (r : Run) (p : Progress) : (s.setProgress r p).args = s.args := rfl
@[simp] theorem State.setProgress_result (s : State) (r : Run) (p : Progress) : (s.setProgress r p).result = s.result := rfl
@[simp] theorem State.setProgress_fregs (s : State) (r : Run) (p : Progress) : (s.setProgress r p).fregs = s.fregs := rfl
@[simp] theorem State.setProgress_done (s : State) (r : Run) (p : Progress) : (s.setProgress r p).done = s.done := rfl
@[simp] theorem State.setProgress_lastError (s : State) (r : Run) (p : Progress) : (s.setProgress r p).lastError = s.lastError := rfl
@[simp] theorem State.setProgress_irqEn (s : State) (r : Run) (p : Progress) : (s.setProgress r p).irqEn = s.irqEn := rfl
@[simp] theorem State.setProgress_irqPending (s : State) (r : Run) (p : Progress) : (s.setProgress r p).irqPending = s.irqPending := rfl
@[simp] theorem State.setProgress_eses (s : State) (r : Run) (p : Progress) : (s.setProgress r p).eses = s.eses := rfl
@[simp] theorem State.setProgress_dses (s : State) (r : Run) (p : Progress) : (s.setProgress r p).dses = s.dses := rfl
@[simp] theorem State.setProgress_fenc (s : State) (r : Run) (p : Progress) : (s.setProgress r p).fenc = s.fenc := rfl
@[simp] theorem State.setProgress_fdec (s : State) (r : Run) (p : Progress) : (s.setProgress r p).fdec = s.fdec := rfl
@[simp] theorem State.setProgress_engine (s : State) (r : Run) (p : Progress) : (s.setProgress r p).engine = .running { r with progress := p } := rfl
@[simp] theorem State.setProgress_mem (s : State) (r : Run) (p : Progress) : (s.setProgress r p).mem = s.mem := rfl
@[simp] theorem State.setProgress_host (s : State) (r : Run) (p : Progress) : (s.setProgress r p).host = s.host := rfl
@[simp] theorem State.setProgress_turns (s : State) (r : Run) (p : Progress) : (s.setProgress r p).turns = s.turns := rfl
@[simp] theorem State.setProgress_rdata (s : State) (r : Run) (p : Progress) : (s.setProgress r p).rdata = s.rdata := rfl
@[simp] theorem State.setProgress_nonce (s : State) (r : Run) (p : Progress) : (s.setProgress r p).nonce = s.nonce := rfl

/-! ### `scramble` -/

@[simp] theorem State.scramble_cfg (s : State) (w : Region) : (s.scramble w).cfg = s.cfg := rfl
@[simp] theorem State.scramble_args (s : State) (w : Region) : (s.scramble w).args = s.args := rfl
@[simp] theorem State.scramble_result (s : State) (w : Region) : (s.scramble w).result = s.result := rfl
@[simp] theorem State.scramble_fregs (s : State) (w : Region) : (s.scramble w).fregs = s.fregs := rfl
@[simp] theorem State.scramble_done (s : State) (w : Region) : (s.scramble w).done = s.done := rfl
@[simp] theorem State.scramble_lastError (s : State) (w : Region) : (s.scramble w).lastError = s.lastError := rfl
@[simp] theorem State.scramble_irqEn (s : State) (w : Region) : (s.scramble w).irqEn = s.irqEn := rfl
@[simp] theorem State.scramble_irqPending (s : State) (w : Region) : (s.scramble w).irqPending = s.irqPending := rfl
@[simp] theorem State.scramble_eses (s : State) (w : Region) : (s.scramble w).eses = s.eses := rfl
@[simp] theorem State.scramble_dses (s : State) (w : Region) : (s.scramble w).dses = s.dses := rfl
@[simp] theorem State.scramble_fenc (s : State) (w : Region) : (s.scramble w).fenc = s.fenc := rfl
@[simp] theorem State.scramble_fdec (s : State) (w : Region) : (s.scramble w).fdec = s.fdec := rfl
@[simp] theorem State.scramble_engine (s : State) (w : Region) : (s.scramble w).engine = s.engine := rfl
@[simp] theorem State.scramble_host (s : State) (w : Region) : (s.scramble w).host = s.host := rfl
@[simp] theorem State.scramble_turns (s : State) (w : Region) : (s.scramble w).turns = s.turns := rfl
@[simp] theorem State.scramble_rdata (s : State) (w : Region) : (s.scramble w).rdata = s.rdata := rfl
@[simp] theorem State.scramble_nonce (s : State) (w : Region) : (s.scramble w).nonce = s.nonce := rfl

/-! ### `blur` -/

@[simp] theorem State.blur_cfg (s : State) (i : Instr) : (s.blur i).cfg = s.cfg := by
  unfold State.blur; split <;> rfl
@[simp] theorem State.blur_args (s : State) (i : Instr) : (s.blur i).args = s.args := by
  unfold State.blur; split <;> rfl
@[simp] theorem State.blur_result (s : State) (i : Instr) : (s.blur i).result = s.result := by
  unfold State.blur; split <;> rfl
@[simp] theorem State.blur_fregs (s : State) (i : Instr) : (s.blur i).fregs = s.fregs := by
  unfold State.blur; split <;> rfl
@[simp] theorem State.blur_done (s : State) (i : Instr) : (s.blur i).done = s.done := by
  unfold State.blur; split <;> rfl
@[simp] theorem State.blur_lastError (s : State) (i : Instr) : (s.blur i).lastError = s.lastError := by
  unfold State.blur; split <;> rfl
@[simp] theorem State.blur_irqEn (s : State) (i : Instr) : (s.blur i).irqEn = s.irqEn := by
  unfold State.blur; split <;> rfl
@[simp] theorem State.blur_irqPending (s : State) (i : Instr) : (s.blur i).irqPending = s.irqPending := by
  unfold State.blur; split <;> rfl
@[simp] theorem State.blur_eses (s : State) (i : Instr) : (s.blur i).eses = s.eses := by
  unfold State.blur; split <;> rfl
@[simp] theorem State.blur_dses (s : State) (i : Instr) : (s.blur i).dses = s.dses := by
  unfold State.blur; split <;> rfl
@[simp] theorem State.blur_fenc (s : State) (i : Instr) : (s.blur i).fenc = s.fenc := by
  unfold State.blur; split <;> rfl
@[simp] theorem State.blur_fdec (s : State) (i : Instr) : (s.blur i).fdec = s.fdec := by
  unfold State.blur; split <;> rfl
@[simp] theorem State.blur_engine (s : State) (i : Instr) : (s.blur i).engine = s.engine := by
  unfold State.blur; split <;> rfl
@[simp] theorem State.blur_host (s : State) (i : Instr) : (s.blur i).host = s.host := by
  unfold State.blur; split <;> rfl
@[simp] theorem State.blur_turns (s : State) (i : Instr) : (s.blur i).turns = s.turns := by
  unfold State.blur; split <;> rfl
@[simp] theorem State.blur_rdata (s : State) (i : Instr) : (s.blur i).rdata = s.rdata := by
  unfold State.blur; split <;> rfl
@[simp] theorem State.blur_nonce (s : State) (i : Instr) : (s.blur i).nonce = s.nonce := by
  unfold State.blur; split <;> rfl

/-! ### `complete` -/

@[simp] theorem State.complete_cfg (s : State) (i : Instr) (out : Bytes) (n : Nat) : (s.complete i out n).cfg = s.cfg := by
  simp [State.complete]
@[simp] theorem State.complete_args (s : State) (i : Instr) (out : Bytes) (n : Nat) : (s.complete i out n).args = { s.args with dstLen := BitVec.ofNat 32 (s.snapshot.dstLen.toNat + out.length) } := by
  simp [State.complete]
@[simp] theorem State.complete_result (s : State) (i : Instr) (out : Bytes) (n : Nat) : (s.complete i out n).result = BitVec.ofNat 32 n := by
  simp [State.complete]
@[simp] theorem State.complete_fregs (s : State) (i : Instr) (out : Bytes) (n : Nat) : (s.complete i out n).fregs = s.fregs := by
  simp [State.complete]
@[simp] theorem State.complete_done (s : State) (i : Instr) (out : Bytes) (n : Nat) : (s.complete i out n).done = true := by
  simp [State.complete]
@[simp] theorem State.complete_lastError (s : State) (i : Instr) (out : Bytes) (n : Nat) : (s.complete i out n).lastError = none := by
  simp [State.complete]
@[simp] theorem State.complete_irqEn (s : State) (i : Instr) (out : Bytes) (n : Nat) : (s.complete i out n).irqEn = s.irqEn := by
  simp [State.complete]
@[simp] theorem State.complete_irqPending (s : State) (i : Instr) (out : Bytes) (n : Nat) : (s.complete i out n).irqPending = true := by
  simp [State.complete]
@[simp] theorem State.complete_eses (s : State) (i : Instr) (out : Bytes) (n : Nat) : (s.complete i out n).eses = s.eses := by
  simp [State.complete]
@[simp] theorem State.complete_dses (s : State) (i : Instr) (out : Bytes) (n : Nat) : (s.complete i out n).dses = s.dses := by
  simp [State.complete]
@[simp] theorem State.complete_fenc (s : State) (i : Instr) (out : Bytes) (n : Nat) : (s.complete i out n).fenc = s.fenc := by
  simp [State.complete]
@[simp] theorem State.complete_fdec (s : State) (i : Instr) (out : Bytes) (n : Nat) : (s.complete i out n).fdec = s.fdec := by
  simp [State.complete]
@[simp] theorem State.complete_engine (s : State) (i : Instr) (out : Bytes) (n : Nat) : (s.complete i out n).engine = .idle := by
  simp [State.complete]
@[simp] theorem State.complete_host (s : State) (i : Instr) (out : Bytes) (n : Nat) : (s.complete i out n).host = s.host := by
  simp [State.complete]
@[simp] theorem State.complete_turns (s : State) (i : Instr) (out : Bytes) (n : Nat) : (s.complete i out n).turns = s.turns := by
  simp [State.complete]
@[simp] theorem State.complete_rdata (s : State) (i : Instr) (out : Bytes) (n : Nat) : (s.complete i out n).rdata = s.rdata := by
  simp [State.complete]
@[simp] theorem State.complete_nonce (s : State) (i : Instr) (out : Bytes) (n : Nat) : (s.complete i out n).nonce = s.nonce + 1 := by
  simp [State.complete]

/-! ### `failContext` -/

@[simp] theorem State.failContext_cfg (s : State) (i : Instr) : (failContext i s).cfg = s.cfg := by
  cases i <;> rfl
@[simp] theorem State.failContext_args (s : State) (i : Instr) : (failContext i s).args = s.args := by
  cases i <;> rfl
@[simp] theorem State.failContext_result (s : State) (i : Instr) : (failContext i s).result = s.result := by
  cases i <;> rfl
@[simp] theorem State.failContext_done (s : State) (i : Instr) : (failContext i s).done = s.done := by
  cases i <;> rfl
@[simp] theorem State.failContext_lastError (s : State) (i : Instr) : (failContext i s).lastError = s.lastError := by
  cases i <;> rfl
@[simp] theorem State.failContext_irqEn (s : State) (i : Instr) : (failContext i s).irqEn = s.irqEn := by
  cases i <;> rfl
@[simp] theorem State.failContext_irqPending (s : State) (i : Instr) : (failContext i s).irqPending = s.irqPending := by
  cases i <;> rfl
@[simp] theorem State.failContext_engine (s : State) (i : Instr) : (failContext i s).engine = s.engine := by
  cases i <;> rfl
@[simp] theorem State.failContext_mem (s : State) (i : Instr) : (failContext i s).mem = s.mem := by
  cases i <;> rfl
@[simp] theorem State.failContext_host (s : State) (i : Instr) : (failContext i s).host = s.host := by
  cases i <;> rfl
@[simp] theorem State.failContext_turns (s : State) (i : Instr) : (failContext i s).turns = s.turns := by
  cases i <;> rfl
@[simp] theorem State.failContext_rdata (s : State) (i : Instr) : (failContext i s).rdata = s.rdata := by
  cases i <;> rfl
@[simp] theorem State.failContext_nonce (s : State) (i : Instr) : (failContext i s).nonce = s.nonce := by
  cases i <;> rfl

/-! ### `spoil` -/

@[simp] theorem State.spoil_cfg (s : State) (i : Instr) (c : ErrCode) : (s.spoil i c).cfg = s.cfg := by
  unfold State.spoil; split <;> [rfl; simp]
@[simp] theorem State.spoil_args (s : State) (i : Instr) (c : ErrCode) : (s.spoil i c).args = s.args := by
  unfold State.spoil; split <;> [rfl; simp]
@[simp] theorem State.spoil_result (s : State) (i : Instr) (c : ErrCode) : (s.spoil i c).result = s.result := by
  unfold State.spoil; split <;> [rfl; simp]
@[simp] theorem State.spoil_done (s : State) (i : Instr) (c : ErrCode) : (s.spoil i c).done = s.done := by
  unfold State.spoil; split <;> [rfl; simp]
@[simp] theorem State.spoil_lastError (s : State) (i : Instr) (c : ErrCode) : (s.spoil i c).lastError = s.lastError := by
  unfold State.spoil; split <;> [rfl; simp]
@[simp] theorem State.spoil_irqEn (s : State) (i : Instr) (c : ErrCode) : (s.spoil i c).irqEn = s.irqEn := by
  unfold State.spoil; split <;> [rfl; simp]
@[simp] theorem State.spoil_irqPending (s : State) (i : Instr) (c : ErrCode) : (s.spoil i c).irqPending = s.irqPending := by
  unfold State.spoil; split <;> [rfl; simp]
@[simp] theorem State.spoil_engine (s : State) (i : Instr) (c : ErrCode) : (s.spoil i c).engine = s.engine := by
  unfold State.spoil; split <;> [rfl; simp]
@[simp] theorem State.spoil_host (s : State) (i : Instr) (c : ErrCode) : (s.spoil i c).host = s.host := by
  unfold State.spoil; split <;> [rfl; simp]
@[simp] theorem State.spoil_turns (s : State) (i : Instr) (c : ErrCode) : (s.spoil i c).turns = s.turns := by
  unfold State.spoil; split <;> [rfl; simp]
@[simp] theorem State.spoil_rdata (s : State) (i : Instr) (c : ErrCode) : (s.spoil i c).rdata = s.rdata := by
  unfold State.spoil; split <;> [rfl; simp]
@[simp] theorem State.spoil_nonce (s : State) (i : Instr) (c : ErrCode) : (s.spoil i c).nonce = s.nonce := by
  unfold State.spoil; split <;> [rfl; simp]

/-! ### `raise` -/

@[simp] theorem State.raise_cfg (s : State) (i : Instr) (c : ErrCode) : (s.raise i c).cfg = s.cfg := by
  simp [State.raise]
@[simp] theorem State.raise_args (s : State) (i : Instr) (c : ErrCode) : (s.raise i c).args = s.args := by
  simp [State.raise]
@[simp] theorem State.raise_result (s : State) (i : Instr) (c : ErrCode) : (s.raise i c).result = 0 := by
  simp [State.raise]
@[simp] theorem State.raise_done (s : State) (i : Instr) (c : ErrCode) : (s.raise i c).done = true := by
  simp [State.raise]
@[simp] theorem State.raise_lastError (s : State) (i : Instr) (c : ErrCode) : (s.raise i c).lastError = some c := by
  simp [State.raise]
@[simp] theorem State.raise_irqEn (s : State) (i : Instr) (c : ErrCode) : (s.raise i c).irqEn = s.irqEn := by
  simp [State.raise]
@[simp] theorem State.raise_irqPending (s : State) (i : Instr) (c : ErrCode) : (s.raise i c).irqPending = true := by
  simp [State.raise]
@[simp] theorem State.raise_engine (s : State) (i : Instr) (c : ErrCode) : (s.raise i c).engine = .idle := by
  simp [State.raise]
@[simp] theorem State.raise_host (s : State) (i : Instr) (c : ErrCode) : (s.raise i c).host = s.host := by
  simp [State.raise]
@[simp] theorem State.raise_turns (s : State) (i : Instr) (c : ErrCode) : (s.raise i c).turns = s.turns := by
  simp [State.raise]
@[simp] theorem State.raise_rdata (s : State) (i : Instr) (c : ErrCode) : (s.raise i c).rdata = s.rdata := by
  simp [State.raise]
@[simp] theorem State.raise_nonce (s : State) (i : Instr) (c : ErrCode) : (s.raise i c).nonce = s.nonce + 1 := by
  simp [State.raise]

/-! ### `raiseOpcode` -/

@[simp] theorem State.raiseOpcode_cfg (s : State) : (s.raiseOpcode).cfg = s.cfg := rfl
@[simp] theorem State.raiseOpcode_args (s : State) : (s.raiseOpcode).args = s.args := rfl
@[simp] theorem State.raiseOpcode_result (s : State) : (s.raiseOpcode).result = 0 := rfl
@[simp] theorem State.raiseOpcode_fregs (s : State) : (s.raiseOpcode).fregs = s.fregs := rfl
@[simp] theorem State.raiseOpcode_done (s : State) : (s.raiseOpcode).done = true := rfl
@[simp] theorem State.raiseOpcode_lastError (s : State) : (s.raiseOpcode).lastError = some .badOpcode := rfl
@[simp] theorem State.raiseOpcode_irqEn (s : State) : (s.raiseOpcode).irqEn = s.irqEn := rfl
@[simp] theorem State.raiseOpcode_irqPending (s : State) : (s.raiseOpcode).irqPending = true := rfl
@[simp] theorem State.raiseOpcode_eses (s : State) : (s.raiseOpcode).eses = s.eses := rfl
@[simp] theorem State.raiseOpcode_dses (s : State) : (s.raiseOpcode).dses = s.dses := rfl
@[simp] theorem State.raiseOpcode_fenc (s : State) : (s.raiseOpcode).fenc = s.fenc := rfl
@[simp] theorem State.raiseOpcode_fdec (s : State) : (s.raiseOpcode).fdec = s.fdec := rfl
@[simp] theorem State.raiseOpcode_engine (s : State) : (s.raiseOpcode).engine = .idle := rfl
@[simp] theorem State.raiseOpcode_mem (s : State) : (s.raiseOpcode).mem = s.mem := rfl
@[simp] theorem State.raiseOpcode_host (s : State) : (s.raiseOpcode).host = s.host := rfl
@[simp] theorem State.raiseOpcode_turns (s : State) : (s.raiseOpcode).turns = s.turns := rfl
@[simp] theorem State.raiseOpcode_rdata (s : State) : (s.raiseOpcode).rdata = s.rdata := rfl
@[simp] theorem State.raiseOpcode_nonce (s : State) : (s.raiseOpcode).nonce = s.nonce + 1 := rfl

/-! ### `stick` -/

@[simp] theorem State.stick_cfg (s : State) (i : Instr) : (s.stick i).cfg = s.cfg := by
  unfold State.stick; split <;> rfl
@[simp] theorem State.stick_args (s : State) (i : Instr) : (s.stick i).args = s.args := by
  unfold State.stick; split <;> rfl
@[simp] theorem State.stick_result (s : State) (i : Instr) : (s.stick i).result = s.result := by
  unfold State.stick; split <;> rfl
@[simp] theorem State.stick_fregs (s : State) (i : Instr) : (s.stick i).fregs = s.fregs := by
  unfold State.stick; split <;> rfl
@[simp] theorem State.stick_done (s : State) (i : Instr) : (s.stick i).done = s.done := by
  unfold State.stick; split <;> rfl
@[simp] theorem State.stick_lastError (s : State) (i : Instr) : (s.stick i).lastError = s.lastError := by
  unfold State.stick; split <;> rfl
@[simp] theorem State.stick_irqEn (s : State) (i : Instr) : (s.stick i).irqEn = s.irqEn := by
  unfold State.stick; split <;> rfl
@[simp] theorem State.stick_irqPending (s : State) (i : Instr) : (s.stick i).irqPending = s.irqPending := by
  unfold State.stick; split <;> rfl
@[simp] theorem State.stick_eses (s : State) (i : Instr) : (s.stick i).eses = s.eses := by
  unfold State.stick; split <;> rfl
@[simp] theorem State.stick_dses (s : State) (i : Instr) : (s.stick i).dses = s.dses := by
  unfold State.stick; split <;> rfl
@[simp] theorem State.stick_fenc (s : State) (i : Instr) : (s.stick i).fenc = s.fenc := by
  unfold State.stick; split <;> rfl
@[simp] theorem State.stick_fdec (s : State) (i : Instr) : (s.stick i).fdec = s.fdec := by
  unfold State.stick; split <;> rfl
@[simp] theorem State.stick_mem (s : State) (i : Instr) : (s.stick i).mem = s.mem := by
  unfold State.stick; split <;> rfl
@[simp] theorem State.stick_host (s : State) (i : Instr) : (s.stick i).host = s.host := by
  unfold State.stick; split <;> rfl
@[simp] theorem State.stick_turns (s : State) (i : Instr) : (s.stick i).turns = s.turns := by
  unfold State.stick; split <;> rfl
@[simp] theorem State.stick_rdata (s : State) (i : Instr) : (s.stick i).rdata = s.rdata := by
  unfold State.stick; split <;> rfl
@[simp] theorem State.stick_nonce (s : State) (i : Instr) : (s.stick i).nonce = s.nonce := by
  unfold State.stick; split <;> rfl

/-! ### `startCommand` -/

@[simp] theorem State.startCommand_cfg (s : State) (w : Word) : (s.startCommand w).cfg = s.cfg := by
  unfold State.startCommand; split <;> rfl
@[simp] theorem State.startCommand_args (s : State) (w : Word) : (s.startCommand w).args = s.args := by
  unfold State.startCommand; split <;> rfl
@[simp] theorem State.startCommand_result (s : State) (w : Word) : (s.startCommand w).result = s.result := by
  unfold State.startCommand; split <;> rfl
@[simp] theorem State.startCommand_fregs (s : State) (w : Word) : (s.startCommand w).fregs = s.fregs := by
  unfold State.startCommand; split <;> rfl
@[simp] theorem State.startCommand_irqEn (s : State) (w : Word) : (s.startCommand w).irqEn = s.irqEn := by
  unfold State.startCommand; split <;> rfl
@[simp] theorem State.startCommand_irqPending (s : State) (w : Word) : (s.startCommand w).irqPending = s.irqPending := by
  unfold State.startCommand; split <;> rfl
@[simp] theorem State.startCommand_eses (s : State) (w : Word) : (s.startCommand w).eses = s.eses := by
  unfold State.startCommand; split <;> rfl
@[simp] theorem State.startCommand_dses (s : State) (w : Word) : (s.startCommand w).dses = s.dses := by
  unfold State.startCommand; split <;> rfl
@[simp] theorem State.startCommand_fenc (s : State) (w : Word) : (s.startCommand w).fenc = s.fenc := by
  unfold State.startCommand; split <;> rfl
@[simp] theorem State.startCommand_fdec (s : State) (w : Word) : (s.startCommand w).fdec = s.fdec := by
  unfold State.startCommand; split <;> rfl
@[simp] theorem State.startCommand_mem (s : State) (w : Word) : (s.startCommand w).mem = s.mem := by
  unfold State.startCommand; split <;> rfl
@[simp] theorem State.startCommand_host (s : State) (w : Word) : (s.startCommand w).host = s.host := by
  unfold State.startCommand; split <;> rfl
@[simp] theorem State.startCommand_turns (s : State) (w : Word) : (s.startCommand w).turns = s.turns := by
  unfold State.startCommand; split <;> rfl
@[simp] theorem State.startCommand_rdata (s : State) (w : Word) : (s.startCommand w).rdata = s.rdata := by
  unfold State.startCommand; split <;> rfl
@[simp] theorem State.startCommand_nonce (s : State) (w : Word) : (s.startCommand w).nonce = s.nonce := by
  unfold State.startCommand; split <;> rfl

/-! ### `csrWrite` -/

@[simp] theorem State.csrWrite_cfg (s : State) (off : Nat) (v : Word) : (s.csrWrite off v).cfg = s.cfg := by
  unfold State.csrWrite; split <;> first | rfl | simp | (split <;> rfl)
@[simp] theorem State.csrWrite_result (s : State) (off : Nat) (v : Word) : (s.csrWrite off v).result = s.result := by
  unfold State.csrWrite; split <;> first | rfl | simp | (split <;> rfl)
@[simp] theorem State.csrWrite_fregs (s : State) (off : Nat) (v : Word) : (s.csrWrite off v).fregs = s.fregs := by
  unfold State.csrWrite; split <;> first | rfl | simp | (split <;> rfl)
@[simp] theorem State.csrWrite_eses (s : State) (off : Nat) (v : Word) : (s.csrWrite off v).eses = s.eses := by
  unfold State.csrWrite; split <;> first | rfl | simp | (split <;> rfl)
@[simp] theorem State.csrWrite_dses (s : State) (off : Nat) (v : Word) : (s.csrWrite off v).dses = s.dses := by
  unfold State.csrWrite; split <;> first | rfl | simp | (split <;> rfl)
@[simp] theorem State.csrWrite_fenc (s : State) (off : Nat) (v : Word) : (s.csrWrite off v).fenc = s.fenc := by
  unfold State.csrWrite; split <;> first | rfl | simp | (split <;> rfl)
@[simp] theorem State.csrWrite_fdec (s : State) (off : Nat) (v : Word) : (s.csrWrite off v).fdec = s.fdec := by
  unfold State.csrWrite; split <;> first | rfl | simp | (split <;> rfl)
@[simp] theorem State.csrWrite_mem (s : State) (off : Nat) (v : Word) : (s.csrWrite off v).mem = s.mem := by
  unfold State.csrWrite; split <;> first | rfl | simp | (split <;> rfl)
@[simp] theorem State.csrWrite_host (s : State) (off : Nat) (v : Word) : (s.csrWrite off v).host = s.host := by
  unfold State.csrWrite; split <;> first | rfl | simp | (split <;> rfl)
@[simp] theorem State.csrWrite_turns (s : State) (off : Nat) (v : Word) : (s.csrWrite off v).turns = s.turns := by
  unfold State.csrWrite; split <;> first | rfl | simp | (split <;> rfl)
@[simp] theorem State.csrWrite_rdata (s : State) (off : Nat) (v : Word) : (s.csrWrite off v).rdata = s.rdata := by
  unfold State.csrWrite; split <;> first | rfl | simp | (split <;> rfl)
@[simp] theorem State.csrWrite_nonce (s : State) (off : Nat) (v : Word) : (s.csrWrite off v).nonce = s.nonce := by
  unfold State.csrWrite; split <;> first | rfl | simp | (split <;> rfl)

/-! ### `noteRace` -/

@[simp] theorem State.noteRace_cfg (s : State) (a : Nat) (bs : Bytes) : (s.noteRace a bs).cfg = s.cfg := by
  unfold State.noteRace; split <;> rfl
@[simp] theorem State.noteRace_args (s : State) (a : Nat) (bs : Bytes) : (s.noteRace a bs).args = s.args := by
  unfold State.noteRace; split <;> rfl
@[simp] theorem State.noteRace_result (s : State) (a : Nat) (bs : Bytes) : (s.noteRace a bs).result = s.result := by
  unfold State.noteRace; split <;> rfl
@[simp] theorem State.noteRace_fregs (s : State) (a : Nat) (bs : Bytes) : (s.noteRace a bs).fregs = s.fregs := by
  unfold State.noteRace; split <;> rfl
@[simp] theorem State.noteRace_done (s : State) (a : Nat) (bs : Bytes) : (s.noteRace a bs).done = s.done := by
  unfold State.noteRace; split <;> rfl
@[simp] theorem State.noteRace_lastError (s : State) (a : Nat) (bs : Bytes) : (s.noteRace a bs).lastError = s.lastError := by
  unfold State.noteRace; split <;> rfl
@[simp] theorem State.noteRace_irqEn (s : State) (a : Nat) (bs : Bytes) : (s.noteRace a bs).irqEn = s.irqEn := by
  unfold State.noteRace; split <;> rfl
@[simp] theorem State.noteRace_irqPending (s : State) (a : Nat) (bs : Bytes) : (s.noteRace a bs).irqPending = s.irqPending := by
  unfold State.noteRace; split <;> rfl
@[simp] theorem State.noteRace_eses (s : State) (a : Nat) (bs : Bytes) : (s.noteRace a bs).eses = s.eses := by
  unfold State.noteRace; split <;> rfl
@[simp] theorem State.noteRace_dses (s : State) (a : Nat) (bs : Bytes) : (s.noteRace a bs).dses = s.dses := by
  unfold State.noteRace; split <;> rfl
@[simp] theorem State.noteRace_fenc (s : State) (a : Nat) (bs : Bytes) : (s.noteRace a bs).fenc = s.fenc := by
  unfold State.noteRace; split <;> rfl
@[simp] theorem State.noteRace_fdec (s : State) (a : Nat) (bs : Bytes) : (s.noteRace a bs).fdec = s.fdec := by
  unfold State.noteRace; split <;> rfl
@[simp] theorem State.noteRace_mem (s : State) (a : Nat) (bs : Bytes) : (s.noteRace a bs).mem = s.mem := by
  unfold State.noteRace; split <;> rfl
@[simp] theorem State.noteRace_host (s : State) (a : Nat) (bs : Bytes) : (s.noteRace a bs).host = s.host := by
  unfold State.noteRace; split <;> rfl
@[simp] theorem State.noteRace_turns (s : State) (a : Nat) (bs : Bytes) : (s.noteRace a bs).turns = s.turns := by
  unfold State.noteRace; split <;> rfl
@[simp] theorem State.noteRace_rdata (s : State) (a : Nat) (bs : Bytes) : (s.noteRace a bs).rdata = s.rdata := by
  unfold State.noteRace; split <;> rfl
@[simp] theorem State.noteRace_nonce (s : State) (a : Nat) (bs : Bytes) : (s.noteRace a bs).nonce = s.nonce := by
  unfold State.noteRace; split <;> rfl

end Sys2Proof.Machine
end

