-- ==== Sys2Proof/Laws/Ops.lean ====
section
/-! SUPPORT. One lemma per shared operation that says everything it can do: engine reads, the two completions, the end of a
body, the frame of a command. -/

namespace Sys2Proof.Machine

/-! ## Reads -/

theorem State.engineByte_calm {s : State} (h : s.Calm) (use a : Nat) : s.engineByte use a = Memory.read s.mem a := by
  simp [State.engineByte, h]

theorem State.Plain.overVolatile {s : State} {r : Region} (h : s.Plain r) : overVolatile s.cfg r = false := by
  simpa [Machine.overVolatile] using h

theorem State.overVolatile_iff (s : State) (r : Region) : overVolatile s.cfg r = false ↔ s.Plain r := by
  simp [overVolatile]

theorem freeBytes_length (nonce use a n : Nat) : (freeBytes nonce use a n).length = n := by simp [freeBytes]

/-- Without a race an engine read of accessible bytes of a plain region returns what memory holds. -/
theorem State.memRead_calm {s : State} (h : s.Calm) {r : Region} {a n : Nat} (ha : accessible s.cfg r a n = true)
    (hp : s.Plain r) (use : Nat) : s.memRead use r a n = .ok (Memory.bytes s.mem a n) := by
  simp [State.memRead, ha, hp.overVolatile, Memory.bytes, State.engineByte_calm h]

theorem State.memRead_ok {s : State} {use : Nat} {r : Region} {a n : Nat} {x : Bytes}
    (h : s.memRead use r a n = .ok x) : accessible s.cfg r a n = true ∧ x.length = n := by
  unfold State.memRead at h
  split at h
  · rename_i hc
    obtain rfl := Except.ok.inj h
    refine ⟨hc, ?_⟩
    split
    · exact freeBytes_length ..
    · simp
  · exact absurd h (by simp)

theorem State.memRead_error {s : State} {use : Nat} {r : Region} {a n : Nat} {e : Stop}
    (h : s.memRead use r a n = .error e) : e = .stuck := by
  unfold State.memRead at h
  split at h
  · exact absurd h (by simp)
  · exact (Except.error.inj h).symm

theorem Memory.bytes_length (m : Memory) (a n : Nat) : (Memory.bytes m a n).length = n := by simp [Memory.bytes]

/-- The last bytes of a run of memory are the run of its last bytes. -/
theorem Memory.lastBytes_bytes (m : Memory) (a n k : Nat) :
    lastBytes k (Memory.bytes m a n) = Memory.bytes m (a + (n - k)) (min n k) := by
  apply List.ext_getElem
  · simp [lastBytes, Memory.bytes_length]; omega
  · intro i h1 h2
    simp [lastBytes, Memory.bytes, Nat.add_assoc]

/-- A part of a run of memory. -/
theorem Memory.bytes_sub (m : Memory) (a : Nat) {n i k : Nat} (h : i + k ≤ n) :
    Memory.bytes m (a + i) k = ((Memory.bytes m a n).drop i).take k := by
  apply List.ext_getElem
  · simp [Memory.bytes]; omega
  · intro j h1 h2
    simp [Memory.bytes, Nat.add_assoc]

theorem Region.meets_sub {a n i k : Nat} {w : Region} (h : i + k ≤ n) (hm : Region.meets (a, n) w = false) :
    Region.meets (a + i, k) w = false := by
  unfold Region.meets at *
  simp only [decide_eq_false_iff_not] at *
  omega

/-- A part of an accessible run is accessible. -/
theorem accessible_sub {c : Config} {r : Region} {a n i k : Nat} (h : i + k ≤ n) (ha : accessible c r a n = true) :
    accessible c r (a + i) k = true := by
  simp only [accessible, backs, Bool.and_eq_true, Bool.not_eq_true'] at *
  obtain ⟨⟨h1, h2⟩, h3⟩ := ha
  refine ⟨⟨?_, ?_⟩, h3⟩
  · simp only [Region.fits, decide_eq_true_iff] at *; omega
  · rw [List.any_eq_false] at *
    intro x hx
    have := h2 x hx
    rw [Bool.not_eq_true] at *
    exact Region.meets_sub h this

/-- A part of a run of frame bytes. -/
theorem State.FrameBytes.sub {s : State} {t : Fdec} {i n : Nat} {x : Bytes} (hx : s.FrameBytes t i n x) {j k : Nat}
    (h : j + k ≤ n) : s.FrameBytes t (i + j) k ((x.drop j).take k) := by
  obtain ⟨h1, h2, h3, rfl⟩ := hx
  exact ⟨by omega, by rw [← Nat.add_assoc]; exact accessible_sub h h2, h3, by rw [← Nat.add_assoc, Memory.bytes_sub _ _ h]⟩

theorem State.readSrc_calm {s : State} (h : s.Calm) {A : Args} {x : Bytes} (hx : s.Source A x) : s.readSrc A = .ok x := by
  rw [State.readSrc, State.memRead_calm h hx.1 hx.2.1, hx.2.2]

theorem State.readDict_calm {s : State} (h : s.Calm) {A : Args} {x : Bytes} (hx : s.Dictionary A x) :
    s.readDict A = .ok x := by
  rw [State.readDict, State.memRead_calm h hx.1 hx.2.1, hx.2.2, Memory.lastBytes_bytes]

theorem State.readFrame_calm {s : State} (h : s.Calm) {t : Fdec} {i n : Nat} {x : Bytes} (hx : s.FrameBytes t i n x)
    (use : Nat) : s.readFrame use t i n = .ok x := by
  rw [State.readFrame, State.memRead_calm h hx.2.1 hx.2.2.1, hx.2.2.2]

/-! ## Completions -/

theorem State.blur_calm {s : State} (h : s.raced = []) (i : Instr) : s.blur i = s := by
  unfold State.blur
  split
  · simp [h]
  · rfl

theorem accessible_nil (c : Config) (r : Region) (a : Nat) (h : coversCsr c r = false) (ha : a ≤ addrSpace) :
    accessible c r a 0 = true := by
  simp [accessible, backs, Region.fits, Region.meets, h, ha]

/-- Without a race a successful completion is the spec's. -/
theorem State.complete_calm {s : State} (h : s.raced = []) (i : Instr) (out : Bytes) (n : Nat) :
    s.complete i out n = s.okState s.snapshot out n := by
  have hb : ({ s with mem := Memory.write s.mem s.snapshot.dstPoint out } : State).blur i =
      { s with mem := Memory.write s.mem s.snapshot.dstPoint out } :=
    State.blur_calm (s := { s with mem := Memory.write s.mem s.snapshot.dstPoint out }) h i
  simp only [State.complete, hb]
  rfl

/-- Without a race a usage error is the spec's. -/
theorem State.raise_usage {s : State} (h : s.raced = []) (i : Instr) {c : ErrCode} (hc : c.isUsage = true) :
    s.raise i c = s.errState c := by
  unfold State.raise State.spoil
  rw [if_pos hc, State.blur_calm h]
  rfl

/-! ## Outcomes over memory with read side effects -/

theorem overDevice_iff (i : Instr) (s : State) : overDevice i s s.snapshot = false ↔ s.OnPlain i := by
  unfold overDevice
  rw [Bool.or_eq_false_iff, List.any_eq_false, Bool.and_eq_false_imp, State.overVolatile_iff]
  refine and_congr_left' (forall₂_congr fun r _ => ?_)
  rw [Bool.not_eq_true, State.overVolatile_iff]

/-- A command on plain memory ends as its rule says. -/
theorem State.settle_plain {s : State} {i : Instr} (h : s.OnPlain i) (t : State) : s.settle i t = t := by
  rw [State.settle, (overDevice_iff i s).mpr h]
  rfl

theorem State.settle_cases (s t : State) (i : Instr) :
    s.settle i t = t ∨ ¬s.OnPlain i ∧ s.settle i t = s.anyOutcome i := by
  unfold State.settle
  split
  · rename_i h
    exact .inr ⟨fun hp => absurd ((overDevice_iff i s).mpr hp) (by simp [h]), rfl⟩
  · exact .inl rfl

/-- What has completed is still complete. -/
theorem State.settle_engine {s t : State} (h : t.engine = .idle) (i : Instr) : (s.settle i t).engine = .idle := by
  unfold State.settle
  split
  · rfl
  · exact h

/-! ## The end of a body -/

/-- The output of a finished body goes to memory. -/
def State.takes (s : State) (out : Bytes) : Prop :=
  out = [] ∨ accessible s.cfg s.snapshot.window s.snapshot.dstPoint out.length = true

theorem State.finish_ok {s : State} {i : Instr} {d : Done} (h : s.takes d.out) (hp : s.OnPlain i) :
    s.finish i (.ok d) = .next ((d.commit s).complete i d.out d.result) := by
  simp only [State.finish, State.settle_plain hp]
  exact if_pos h

theorem State.finish_err {s : State} {i : Instr} {c : ErrCode} (hp : s.OnPlain i) :
    s.finish i (.error (.err c)) = .next (s.raise i c) := by
  simp only [State.finish, State.settle_plain hp]

/-- Everything the end of a body can do: stick, raise, complete, or, over memory with read side effects, anything. -/
theorem State.finish_cases {s t : State} {i : Instr} {r : Except Stop Done} (h : s.finish i r = .next t) :
    (t = s.stick i ∨ (∃ c, r = .error (.err c) ∧ t = s.raise i c) ∨
      ∃ d, r = .ok d ∧ s.takes d.out ∧ t = (d.commit s).complete i d.out d.result) ∨
      ¬s.OnPlain i ∧ t = s.anyOutcome i := by
  unfold State.finish at h
  split at h
  · exact .inl (.inl (by simpa using h.symm))
  · rename_i c
    obtain rfl := Host.Outcome.next.inj h
    exact (s.settle_cases (s.raise i c) i).imp (fun e => .inr (.inl ⟨c, rfl, e⟩)) id
  · rename_i d
    split at h
    · rename_i hd
      obtain rfl := Host.Outcome.next.inj h
      exact (s.settle_cases ((d.commit s).complete i d.out d.result) i).imp (fun e => .inr (.inr ⟨d, rfl, hd, e⟩)) id
    · exact .inl (.inl (by simpa using h.symm))

/-- The end of a body is a next state. -/
theorem State.finish_next (s : State) (i : Instr) (r : Except Stop Done) : ∃ t, s.finish i r = .next t := by
  unfold State.finish
  split
  · exact ⟨_, rfl⟩
  · exact ⟨_, rfl⟩
  · split <;> exact ⟨_, rfl⟩

/-! ## The frame of a command -/

theorem State.command_usage {s : State} {i : Instr} {body : Args → Except Stop Done} {c : ErrCode}
    (h : usageError i s s.snapshot = some c) : s.command i body = .next (s.raise i c) := by
  simp [State.command, h]

theorem State.command_body {s : State} {i : Instr} {body : Args → Except Stop Done}
    (h : usageError i s s.snapshot = none) : s.command i body = s.finish i (body s.snapshot) := by
  simp [State.command, h]

/-- A command always answers a next state. -/
theorem State.command_next (s : State) (i : Instr) (body : Args → Except Stop Done) :
    ∃ t, s.command i body = .next t := by
  unfold State.command
  split
  · exact ⟨_, rfl⟩
  · exact s.finish_next _ _

/-- Everything a command can do: a usage error, sticking, another error, success, or anything over memory with read side effects. -/
theorem State.command_cases {s t : State} {i : Instr} {body : Args → Except Stop Done}
    (h : s.command i body = .next t) :
    (∃ c, usageError i s s.snapshot = some c ∧ t = s.raise i c) ∨
      usageError i s s.snapshot = none ∧
        ((t = s.stick i ∨ (∃ c, body s.snapshot = .error (.err c) ∧ t = s.raise i c) ∨
          ∃ d, body s.snapshot = .ok d ∧ s.takes d.out ∧ t = (d.commit s).complete i d.out d.result) ∨
          ¬s.OnPlain i ∧ t = s.anyOutcome i) := by
  unfold State.command at h
  split at h
  · exact .inl ⟨_, by assumption, by simpa using h.symm⟩
  · exact .inr ⟨by assumption, State.finish_cases h⟩

/-- A usage error is one. -/
theorem usageError_isUsage {i : Instr} {s : State} {A : Args} {c : ErrCode} (h : usageError i s A = some c) :
    c.isUsage = true := by
  unfold usageError at h
  repeat' split at h
  all_goals first | (obtain rfl := Option.some.inj h; decide) | exact absurd h (by simp)

theorem fitOut_ok {A : Args} {d d' : Done} (h : fitOut A d = .ok d') : d' = d ∧ d.out.length ≤ A.room := by
  unfold fitOut at h
  split at h
  · exact absurd h (by simp)
  · exact ⟨(Except.ok.inj h).symm, by omega⟩

end Sys2Proof.Machine
end

