-- ==== Sys2Proof/Laws/Engine.lean ====
section
/-! SUPPORT. Whose move a step is, and what the engine's move is in each case of what it fetches. -/

namespace Sys2Proof.Machine

/-! ## Turns -/

theorem step_engine {s : State} {g : Grain} {ts : List Turn} (h : s.turns = .engine g :: ts) :
    step s = engineTurn g { s with turns := ts } := by
  simp only [step, advance, State.turn, h, List.tail]

theorem step_host {s : State} {ts : List Turn} (h : s.turns = .host :: ts) :
    step s = { s with turns := ts }.hostTurn := by
  simp only [step, advance, State.turn, h, List.tail]

theorem step_both {s : State} {g : Grain} {ts : List Turn} (h : s.turns = .both g :: ts) :
    step s = bothTurn g { s with turns := ts } := by
  simp only [step, advance, State.turn, h, List.tail]

theorem State.drop_no_turns {s : State} (h : s.turns = []) : ({ s with turns := s.turns.tail } : State) = s := by
  rw [h]
  exact (congrArg (fun ts => ({ s with turns := ts } : State)) h.symm).trans rfl

theorem step_running {s : State} {r : Run} (h : s.turns = []) (he : s.engine = .running r) :
    step s = engineTurn .command s := by
  unfold step advance
  rw [State.drop_no_turns h]
  simp only [State.turn, h, he]

theorem step_idle {s : State} (h : s.turns = []) (he : s.engine = .idle) : step s = s.hostTurn := by
  unfold step advance
  rw [State.drop_no_turns h]
  simp only [State.turn, h, he]

/-! ## The engine's move -/

theorem engineTurn_instr {s : State} {g : Grain} {r : Run} {i : Instr} (he : s.engine = .running r)
    (hf : s.fetch g r = .instr i) : engineTurn g s = exec i s := by
  simp only [engineTurn, he, hf]

theorem engineTurn_begin {s : State} {g : Grain} {r : Run} {i : Instr} (he : s.engine = .running r)
    (hf : s.fetch g r = .begin i) : engineTurn g s = s.begin i r := by
  simp only [engineTurn, he, hf]

theorem engineTurn_stop {s : State} {g : Grain} {r : Run} {i : Instr} {e : Stop} (he : s.engine = .running r)
    (hf : s.fetch g r = .stop i e) : engineTurn g s = s.finish i (.error e) := by
  simp only [engineTurn, he, hf]

theorem engineTurn_badOpcode {s : State} {g : Grain} {r : Run} (he : s.engine = .running r)
    (hf : s.fetch g r = .badOpcode) : engineTurn g s = .next s.raiseOpcode := by
  simp only [engineTurn, he, hf]

theorem engineTurn_idle {s : State} {g : Grain} (he : s.engine = .idle) : engineTurn g s = .next s := by
  simp only [engineTurn, he]

theorem engineTurn_stuck {s : State} {g : Grain} {r : Run} (he : s.engine = .stuck r) :
    engineTurn g s = .fault .engineStuck := by
  simp only [engineTurn, he]

/-! ## Where an element runs -/

theorem State.inBlock_at {s : State} {r : Run} {use : BlockUse} {p : Parser} {phases : List ParserPhase}
    (he : s.engine = .running r) (hp : r.progress = .block use p) (h : p.phase ∈ phases) (f : Parser → Parse) :
    s.inBlock phases f = s.afterParse r use (f p) := by
  simp only [State.inBlock, he, hp]
  rw [if_pos (List.contains_iff_mem.mpr h)]

theorem State.inHeader_at {s : State} {r : Run} {h : HeaderRun} {ph : HeaderPhase} (he : s.engine = .running r)
    (hp : r.progress = .header h) (hph : h.phase = ph) (f : Run → Fdec → Host.Outcome State Fault Refusal) :
    s.inHeader ph f = f r h.t := by
  simp only [State.inHeader, he, hp, if_pos hph]

theorem State.inRecord_at {s : State} {r : Run} {rd : Reader} (he : s.engine = .running r)
    (hp : r.progress = .record rd) (f : Run → Reader → Host.Outcome State Fault Refusal) : s.inRecord f = f r rd := by
  simp only [State.inRecord, he, hp]

end Sys2Proof.Machine
end

