-- ==== Sys2Proof/Laws/Commands.lean ====
section
/-! SUPPORT. The commands as one shape (the usage checks, then a body), and what their completions leave. -/

namespace Sys2Proof.Machine

/-! ## The bodies -/

/-- The body of a command; a wire element has none. -/
def bodyOf (i : Instr) (s : State) (A : Args) : Except Stop Done :=
  match i with
  | .blkBound => blkBoundBody A
  | .blkEncode => blkEncodeBody s A
  | .blkDecode => blkDecodeBody s A
  | .sesEncReset => sesEncResetBody false s A
  | .sesEncResetLinked => sesEncResetBody true s A
  | .sesEnc => sesEncBody s A
  | .sesDecReset => sesDecResetBody false s A
  | .sesDecResetLinked => sesDecResetBody true s A
  | .sesDec => sesDecBody s A
  | .fencOpen => fencOpenBody s A
  | .fencWrite => fencWriteBody s A
  | .fencClose => fencCloseBody s A
  | .fdecOpen => fdecOpenBody s A
  | .fdecRead => fdecReadBody false s A
  | .fdecReadToEnd => fdecReadBody true s A
  | .token _ _ | .lenext _ _ | .offset _ | .seq _ _ _ | .last _ | .magic | .flg _ _ _ _ _ | .bd _ | .hc _
  | .blockwordLz4 _ | .blockwordRaw _ | .endMark => .error .stuck

theorem mem_commands {i : Instr} : i ∈ commands ↔ i.slot = .command := by
  cases i <;> simp [commands, commandTable, Instr.slot]

theorem exec_command {i : Instr} (h : i ∈ commands) (s : State) : exec i s = s.command i (bodyOf i s) := by
  rw [mem_commands] at h
  cases i <;> first | rfl | exact absurd h (by simp [Instr.slot])

/-- What stays the same under a body's commit. -/
structure Done.Keeps (d : Done) (s : State) : Prop where
  cfg : (d.commit s).cfg = s.cfg
  args : (d.commit s).args = s.args
  irqEn : (d.commit s).irqEn = s.irqEn
  engine : (d.commit s).engine = s.engine
  mem : (d.commit s).mem = s.mem
  host : (d.commit s).host = s.host
  turns : (d.commit s).turns = s.turns
  rdata : (d.commit s).rdata = s.rdata
  nonce : (d.commit s).nonce = s.nonce

/-! ## A command that has not ended changes nothing but the engine -/

theorem State.stick_eq (i : Instr) (s : State) : s.stick i = { s with engine := (s.stick i).engine } := by
  unfold State.stick
  split <;> rfl

theorem State.stick_engine (i : Instr) (s : State) : ∃ r, (s.stick i).engine = .stuck r := by
  unfold State.stick
  split <;> exact ⟨_, rfl⟩

/-- A free outcome completes, with any value in what the command can write. -/
theorem State.anyOutcome_eq (i : Instr) (s : State) :
    s.anyOutcome i = { anyContext i (if opensDst i then s.scramble s.snapshot.window else s) with
      args := { s.args with dstLen := drawWord s.nonce 1 }, result := drawWord s.nonce 2, engine := .idle, done := true,
      lastError := anyError s.nonce, irqPending := true, nonce := s.nonce + 1 } := by
  have hn : (anyContext i (if opensDst i then s.scramble s.snapshot.window else s)).nonce = s.nonce := by
    cases i <;> rfl
  dsimp only [State.anyOutcome, State.setCompleted]
  rw [hn]

@[simp] theorem State.anyOutcome_engine (i : Instr) (s : State) : (s.anyOutcome i).engine = .idle := rfl

theorem State.finish_undone {s t : State} {i : Instr} {r : Except Stop Done} (h : s.finish i r = .next t)
    (ht : t.engine ≠ .idle) : t = { s with engine := t.engine } := by
  rcases State.finish_cases h with (rfl | ⟨c, -, rfl⟩ | ⟨d, -, -, rfl⟩) | ⟨-, rfl⟩
  · exact s.stick_eq i
  · exact absurd rfl ht
  · exact absurd rfl ht
  · exact absurd rfl ht

theorem State.command_undone {s t : State} {i : Instr} {body : Args → Except Stop Done}
    (h : s.command i body = .next t) (ht : t.engine ≠ .idle) : t = { s with engine := t.engine } := by
  rcases State.command_cases h with ⟨c, -, rfl⟩ | ⟨-, (rfl | ⟨c, -, rfl⟩ | ⟨d, -, -, rfl⟩) | ⟨-, rfl⟩⟩
  · exact absurd rfl ht
  · exact s.stick_eq i
  · exact absurd rfl ht
  · exact absurd rfl ht
  · exact absurd rfl ht

theorem State.afterRecord_undone {s t : State} {r : Run} {rd : Reader} (h : s.afterRecord r rd = .next t)
    (ht : t.engine ≠ .idle) : t = { s with engine := t.engine } := by
  unfold State.afterRecord at h
  split at h
  · exact State.finish_undone h ht
  · split at h
    · exact State.finish_undone h ht
    · obtain rfl := Host.Outcome.next.inj h; rfl

theorem State.afterParse_undone {s t : State} {r : Run} {use : BlockUse} {x : Parse}
    (h : s.afterParse r use x = .next t) (ht : t.engine ≠ .idle) : t = { s with engine := t.engine } := by
  unfold State.afterParse at h
  split at h
  · obtain rfl := Host.Outcome.next.inj h; rfl
  all_goals first | exact State.finish_undone h ht | exact State.afterRecord_undone h ht

/-! ## What a completion leaves -/

theorem State.blur_same (i : Instr) (s : State) : s.blur i = { s with mem := (s.blur i).mem } := by
  unfold State.blur
  split <;> rfl

/-- A raced completion changes memory only inside the destination window, and not at all for a command without one. -/
theorem State.blur_mem (i : Instr) (s : State) (a : Nat) (h : writesDst i = true → Region.holds s.snapshot.window a = false) :
    Memory.read (s.blur i).mem a = Memory.read s.mem a := by
  unfold State.blur
  split
  · rename_i hw
    have hh := h hw
    have key : ∀ (l : List Host.Cell) (m : Memory), (∀ c ∈ l, c.1 ≠ a) →
        Memory.read (l.foldl (fun m c => Memory.write m c.1 [Config.freeByte s.nonce useRace c.1]) m) a = Memory.read m a := by
      intro l
      induction l with
      | nil => intro m _; rfl
      | cons c l ih =>
        intro m hl
        rw [List.foldl_cons, ih _ (fun d hd => hl d (List.mem_cons_of_mem _ hd)), Memory.read_write, if_neg]
        have := hl c (List.mem_cons_self ..)
        simp only [List.length_singleton]
        omega
    refine key _ _ fun c hc he => ?_
    have := (List.mem_filter.mp hc).2
    rw [he, hh] at this
    exact absurd this (by simp)
  · rfl

theorem State.blur_mem_of_not_writes (i : Instr) (s : State) (h : writesDst i = false) : s.blur i = s := by
  unfold State.blur
  rw [h]
  rfl

theorem State.scramble_mem (s : State) (w : Region) (a : Nat) (h : Region.holds w a = false) :
    Memory.read (s.scramble w).mem a = Memory.read s.mem a := by
  simp only [State.scramble]
  rw [Memory.read_write, if_neg]
  rw [freeBytes_length]
  simp only [Region.holds, decide_eq_false_iff_not] at h
  omega

/-- A free context is the command's own. -/
theorem anyContext_other (i : Instr) (s : State) :
    (i ∉ [Instr.sesEncReset, .sesEncResetLinked, .sesEnc] → (anyContext i s).eses = s.eses) ∧
      (i ∉ [Instr.sesDecReset, .sesDecResetLinked, .sesDec] → (anyContext i s).dses = s.dses) ∧
      (i ∉ [Instr.fencOpen, .fencWrite, .fencClose] → (anyContext i s).fenc = s.fenc) ∧
      (i ∉ [Instr.fdecOpen, .fdecRead, .fdecReadToEnd] →
        (anyContext i s).fdec = s.fdec ∧ (anyContext i s).fregs = s.fregs) := by
  refine ⟨?_, ?_, ?_, ?_⟩ <;> intro hn <;> cases i <;>
    first | rfl | exact ⟨rfl, rfl⟩ | (exfalso; simp at hn)

theorem anyContext_same (i : Instr) (s : State) :
    anyContext i s = { s with
      eses := (anyContext i s).eses, dses := (anyContext i s).dses, fenc := (anyContext i s).fenc,
      fdec := (anyContext i s).fdec, fregs := (anyContext i s).fregs } := by
  cases i <;> rfl

/-- What a free outcome leaves alone: everything but RESULT, DST_LEN, the flags, the destination window where the command can write
one, and the command's own context. -/
theorem State.anyOutcome_frame {i : Instr} {s t : State} (h : t = s.anyOutcome i) :
    t = { s with args := { s.args with dstLen := drawWord s.nonce 1 }, result := drawWord s.nonce 2, engine := .idle, done := true,
                 lastError := anyError s.nonce, irqPending := true, nonce := s.nonce + 1, mem := t.mem, eses := t.eses,
                 dses := t.dses, fenc := t.fenc, fdec := t.fdec, fregs := t.fregs } ∧
      (∀ a, (opensDst i = true → Region.holds s.snapshot.window a = false) → Memory.read t.mem a = Memory.read s.mem a) ∧
      (i ∉ [Instr.sesEncReset, .sesEncResetLinked, .sesEnc] → t.eses = s.eses) ∧
      (i ∉ [Instr.sesDecReset, .sesDecResetLinked, .sesDec] → t.dses = s.dses) ∧
      (i ∉ [Instr.fencOpen, .fencWrite, .fencClose] → t.fenc = s.fenc) ∧
      (i ∉ [Instr.fdecOpen, .fdecRead, .fdecReadToEnd] → t.fdec = s.fdec ∧ t.fregs = s.fregs) := by
  have hc := s.anyOutcome_eq i
  obtain ⟨m, hm, hr⟩ : ∃ m, (if opensDst i then s.scramble s.snapshot.window else s) = { s with mem := m } ∧
      ∀ a, (opensDst i = true → Region.holds s.snapshot.window a = false) → Memory.read m a = Memory.read s.mem a := by
    split
    · rename_i ho
      exact ⟨_, rfl, fun a ha => s.scramble_mem _ _ (ha ho)⟩
    · exact ⟨_, rfl, fun _ _ => rfl⟩
  rw [hm] at hc
  obtain ⟨h1, h2, h3, h4⟩ := anyContext_other i { s with mem := m }
  rw [h, hc]
  refine ⟨?_, fun a ha => ?_, h1, h2, h3, h4⟩
  · cases i <;> rfl
  · rw [← hr a ha]
    cases i <;> rfl

/-- A spoiled state has the old one's engine, registers and host side. -/
theorem State.spoil_same (i : Instr) (c : ErrCode) (s : State) :
    s.spoil i c = { s with
      eses := (s.spoil i c).eses, dses := (s.spoil i c).dses, fenc := (s.spoil i c).fenc, fdec := (s.spoil i c).fdec,
      fregs := (s.spoil i c).fregs, mem := (s.spoil i c).mem } := by
  unfold State.spoil
  split
  · rfl
  · cases i <;> rfl

theorem State.spoil_mem (i : Instr) (c : ErrCode) (s : State) :
    (s.spoil i c).mem = if c.isUsage then s.mem else (s.scramble s.snapshot.window).mem := by
  unfold State.spoil
  cases hc : c.isUsage <;> simp

theorem State.raise_same (i : Instr) (c : ErrCode) (s : State) :
    s.raise i c = { s.errState c with
      eses := (s.spoil i c).eses, dses := (s.spoil i c).dses, fenc := (s.spoil i c).fenc, fdec := (s.spoil i c).fdec,
      fregs := (s.spoil i c).fregs, mem := ((s.spoil i c).blur i).mem } := by
  unfold State.raise
  rw [State.blur_same, State.spoil_same]
  rfl

end Sys2Proof.Machine
end

