-- ==== Sys2Proof/Laws/Errors.lean ====
section
/-! SUPPORT. Which errors each part of a command's body can end with. -/

namespace Sys2Proof.Machine

/-- Where `x` is an error of a command, it is one of these. -/
def ErrIn {α : Type} (l : List ErrCode) (x : Except Stop α) : Prop := ∀ c, x = .error (.err c) → c ∈ l

theorem ErrIn.ok {α : Type} {l : List ErrCode} {a : α} : ErrIn l (.ok a) := fun _ h => absurd h (by simp)

theorem ErrIn.stuck {α : Type} {l : List ErrCode} : ErrIn (α := α) l (.error .stuck) := fun _ h => absurd h (by simp)

theorem ErrIn.err {α : Type} {l : List ErrCode} {c : ErrCode} (h : c ∈ l) : ErrIn (α := α) l (.error (.err c)) := by
  intro d hd
  simp only [Except.error.injEq, Stop.err.injEq] at hd
  exact hd ▸ h

theorem ErrIn.bind {α β : Type} {l : List ErrCode} {x : Except Stop α} {f : α → Except Stop β} (hx : ErrIn l x)
    (hf : ∀ a, x = .ok a → ErrIn l (f a)) : ErrIn l (x >>= f) := by
  cases x with
  | error e => exact fun c hc => hx c (by simpa [Bind.bind, Except.bind] using hc)
  | ok a => exact hf a rfl

theorem ErrIn.mono {α : Type} {l m : List ErrCode} {x : Except Stop α} (hx : ErrIn l x) (h : l ⊆ m) : ErrIn m x :=
  fun c hc => h (hx c hc)

theorem ErrIn.ite {α : Type} {l : List ErrCode} {p : Prop} [Decidable p] {x y : Except Stop α} (hx : p → ErrIn l x)
    (hy : ¬p → ErrIn l y) : ErrIn l (if p then x else y) := by
  by_cases h : p
  · rw [if_pos h]; exact hx h
  · rw [if_neg h]; exact hy h

/-! ## Reads -/

theorem memRead_errIn (s : State) (use : Nat) (r : Region) (a n : Nat) : ErrIn [] (s.memRead use r a n) := by
  intro c hc
  exact absurd (State.memRead_error hc) (by simp)

theorem readSrc_errIn (l : List ErrCode) (s : State) (A : Args) : ErrIn l (s.readSrc A) :=
  (memRead_errIn s _ _ _ _).mono (List.nil_subset l)

theorem readDict_errIn (l : List ErrCode) (s : State) (A : Args) : ErrIn l (s.readDict A) :=
  (memRead_errIn s _ _ _ _).mono (List.nil_subset l)

theorem readFrame_errIn (l : List ErrCode) (s : State) (use : Nat) (t : Fdec) (i n : Nat) :
    ErrIn l (s.readFrame use t i n) :=
  (memRead_errIn s _ _ _ _).mono (List.nil_subset l)

theorem fitOut_errIn {l : List ErrCode} (h : ErrCode.dstFull ∈ l) (A : Args) (d : Done) : ErrIn l (fitOut A d) :=
  .ite (fun _ => .err h) (fun _ => .ok)

/-! ## The token parser -/

/-- The errors of the token parser (spec/40_block_codec.md R122). -/
def parserErrors : List ErrCode := [.truncated, .dstFull, .offsetZero, .offsetRange]

/-- Where an element's effect is an error, it is one of the token parser's. -/
def Parse.ErrOk (x : Parse) : Prop := ∀ c, x = .fail c → c ∈ parserErrors

theorem Parser.literals_errOk (p : Parser) (n : Nat) : (p.literals n).ErrOk := by
  intro c h
  unfold Parser.literals at h
  dsimp only at h
  repeat' split at h
  all_goals simp_all [parserErrors]

theorem Parser.copy_errOk (p : Parser) (m : Nat) : (p.copy m).ErrOk := by
  intro c h
  unfold Parser.copy at h
  repeat' split at h
  all_goals simp_all [parserErrors]

theorem Parser.next_errOk (p : Parser) : p.next.ErrOk := by
  have more : ∀ q : Parser, (Parse.more q).ErrOk := fun q c h => absurd h (by simp)
  have fail : (Parse.fail .truncated).ErrOk := fun c h => by simp_all [parserErrors]
  unfold Parser.next
  split
  · split
    · unfold Parser.token
      dsimp only
      split
      · exact more _
      · exact Parser.literals_errOk _ _
    · exact fail
  · split
    · exact Parser.literals_errOk _ _
    · exact fail
  · split
    · unfold Parser.offset
      dsimp only
      split
      · exact more _
      · exact Parser.copy_errOk _ _
    · exact fail
  · split
    · exact Parser.copy_errOk _ _
    · exact fail

theorem Parser.run_error (n : Nat) : ∀ {p : Parser} {c : ErrCode}, p.run n = .error c → c ∈ parserErrors := by
  induction n with
  | zero =>
    intro p c h
    obtain rfl := Except.error.inj h
    decide
  | succ n ih =>
    intro p c h
    unfold Parser.run at h
    split at h
    · exact ih h
    · exact absurd h (by simp)
    · rename_i c' hn
      obtain rfl := Except.error.inj h
      exact p.next_errOk _ hn

theorem raised_errIn {α : Type} {l : List ErrCode} {x : Except ErrCode α} (h : ∀ c, x = .error c → c ∈ l) :
    ErrIn l (raised x) := by
  intro c hc
  cases x with
  | ok a => exact absurd hc (by simp [raised, Except.mapError])
  | error e =>
    simp only [raised, Except.mapError, Except.error.injEq, Stop.err.injEq] at hc
    exact hc ▸ h e rfl

theorem frameError_mem {c : ErrCode} (h : c ∈ parserErrors) :
    frameError c ∈ [ErrCode.truncated, .offsetZero, .offsetRange, .blockTooLarge] := by
  simp only [parserErrors, List.mem_cons, List.not_mem_nil, or_false] at h
  rcases h with rfl | rfl | rfl | rfl <;> decide

/-! ## The header parser -/

/-- The errors of the header parser (spec/43_frame_decoder.md R220). -/
def headerErrors : List ErrCode := [.badMagic, .headerReserved, .headerCsum, .truncatedFrame]

theorem headerSum_errIn (s : State) (t : Fdec) (b : Byte) : ErrIn headerErrors (headerSum s t b) :=
  .bind (readFrame_errIn _ s _ _ _ _) fun _ _ =>
    .ite (fun _ => .bind (readFrame_errIn _ s _ _ _ _) fun _ _ => .ok) (fun _ => .err (by decide))

theorem parseHeader_errIn (s : State) (t : Fdec) : ErrIn headerErrors (parseHeader s t) := by
  refine .bind ?_ fun _ _ => .bind ?_ fun t _ => .bind ?_ fun b _ => headerSum_errIn s t _
  · exact .ite (fun _ => .err (by decide))
      fun _ => .bind (readFrame_errIn _ s _ _ _ _) fun _ _ => .ite (fun _ => .ok) (fun _ => .err (by decide))
  · exact .ite (fun _ => .err (by decide))
      fun _ => .bind (readFrame_errIn _ s _ _ _ _) fun _ _ => .ite (fun _ => .ok) (fun _ => .err (by decide))
  · exact .ite (fun _ => .err (by decide)) fun _ => readFrame_errIn _ s _ _ _ _

/-! ## The record reader -/

/-- The errors of the record reader (spec/43_frame_decoder.md R222, R223, R227). -/
def readErrors : List ErrCode :=
  [.dstFull, .truncated, .offsetZero, .offsetRange, .blockTooLarge, .blockCsum, .contentCsum, .truncatedFrame, .contentSize]

theorem recordPayload_errIn (s : State) (t : Fdec) (n : Nat) : ErrIn readErrors (recordPayload s t n) := by
  refine .ite (fun _ => .err (by decide)) fun _ => .ite (fun _ => .err (by decide)) fun _ => ?_
  refine .bind (readFrame_errIn _ s _ _ _ _) fun _ _ => .ite (fun _ => ?_) (fun _ => .ok)
  exact .bind (readFrame_errIn _ s _ _ _ _) fun _ _ => .ite (fun _ => .ok) (fun _ => .err (by decide))

theorem rawRecord_errIn (s : State) (t : Fdec) (n : Nat) : ErrIn readErrors (rawRecord s t n) :=
  .bind (recordPayload_errIn s t n) fun _ _ => .ok

theorem lz4Record_errIn (s : State) (t : Fdec) (n : Nat) : ErrIn readErrors (lz4Record s t n) := by
  refine .bind (recordPayload_errIn s t n) fun x _ => .bind (raised_errIn fun c hc => ?_) fun _ _ => .ok
  cases hr : (t.blockParser x.1).run ((t.blockParser x.1).size + 1) with
  | ok a => rw [hr] at hc; exact absurd hc (by simp [Except.mapError])
  | error e =>
    rw [hr] at hc
    simp only [Except.mapError, Except.error.injEq] at hc
    subst hc
    exact (show [ErrCode.truncated, .offsetZero, .offsetRange, .blockTooLarge] ⊆ readErrors by decide)
      (frameError_mem (Parser.run_error _ hr))

theorem endOfFrame_errIn (s : State) (t : Fdec) : ErrIn readErrors (endOfFrame s t) := by
  refine .bind ?_ fun _ _ => .ite (fun _ => .err (by decide)) (fun _ => .ok)
  refine .ite (fun _ => .ite (fun _ => .err (by decide)) fun _ => ?_) (fun _ => .ok)
  exact .bind (readFrame_errIn _ s _ _ _ _) fun _ _ => .ite (fun _ => .ok) (fun _ => .err (by decide))

theorem nextRecord_errIn (s : State) (t : Fdec) : ErrIn readErrors (nextRecord s t) := by
  refine .bind ?_ fun w _ => .ite (fun _ => endOfFrame_errIn s t)
    fun _ => .ite (fun _ => rawRecord_errIn s t _) (fun _ => lz4Record_errIn s t _)
  exact .ite (fun _ => .err (by decide)) fun _ => .bind (readFrame_errIn _ s _ _ _ _) fun _ _ => .ok

theorem Reader.deliver_errIn (rd : Reader) : ErrIn readErrors rd.deliver :=
  .ite (fun _ => .ok) fun _ => .ite (fun _ => .err (by decide)) (fun _ => .ok)

theorem readLoop_errIn (s : State) (n : Nat) : ∀ rd : Reader, ErrIn readErrors (readLoop s n rd) := by
  induction n with
  | zero => exact fun rd => .err (by decide)
  | succ n ih =>
    intro rd
    refine .bind rd.deliver_errIn fun rd' _ => .ite (fun _ => .ok) fun _ => ?_
    exact .bind (nextRecord_errIn s _) fun t _ => ih _

/-! ## The bodies -/

/-- The codec and format errors of a command's body. -/
def bodyErrors : Instr → List ErrCode
  | .blkEncode | .sesEnc => [.srcTooLarge, .dstFull]
  | .blkDecode | .sesDec => parserErrors
  | .fencOpen | .fencWrite => [.dstFull]
  | .fencClose => [.contentSize, .dstFull]
  | .fdecOpen => headerErrors
  | .fdecRead | .fdecReadToEnd => readErrors
  | .blkBound | .sesEncReset | .sesEncResetLinked | .sesDecReset | .sesDecResetLinked
  | .token _ _ | .lenext _ _ | .offset _ | .seq _ _ _ | .last _ | .magic | .flg _ _ _ _ _ | .bd _ | .hc _
  | .blockwordLz4 _ | .blockwordRaw _ | .endMark => []

theorem body_errIn (i : Instr) (s : State) (A : Args) : ErrIn (bodyErrors i) (bodyOf i s A) := by
  have run : ∀ (p : Parser) (f : Bytes → Done),
      ErrIn parserErrors (raised (p.run (p.size + 1)) >>= fun out => .ok (f out)) :=
    fun p f => .bind (raised_errIn fun _ h => Parser.run_error _ h) fun _ _ => .ok
  cases i with
  | blkBound => exact .ok
  | blkEncode =>
    exact .ite (fun _ => .err (by decide)) fun _ =>
      .bind (readSrc_errIn _ s A) fun _ _ => .bind (readDict_errIn _ s A) fun _ _ => fitOut_errIn (by decide) A _
  | blkDecode =>
    exact .bind (.bind (readSrc_errIn _ s A) fun _ _ => .bind (readDict_errIn _ s A) fun _ _ => .ok) fun p _ => run p _
  | sesEncReset | sesEncResetLinked | sesDecReset | sesDecResetLinked => exact .bind (readDict_errIn _ s A) fun _ _ => .ok
  | sesEnc =>
    exact .ite (fun _ => .err (by decide)) fun _ => .bind (readSrc_errIn _ s A) fun _ _ => fitOut_errIn (by decide) A _
  | sesDec => exact .bind (.bind (readSrc_errIn _ s A) fun _ _ => .ok) fun p _ => run p _
  | fencOpen => exact .bind (readDict_errIn _ s A) fun _ _ => fitOut_errIn (by decide) A _
  | fencWrite => exact .bind (readSrc_errIn _ s A) fun _ _ => fitOut_errIn (by decide) A _
  | fencClose =>
    exact .ite (fun _ => .ok) fun _ => .ite (fun _ => .err (by decide)) fun _ => fitOut_errIn (by decide) A _
  | fdecOpen => exact .bind (readDict_errIn _ s A) fun _ _ => .bind (parseHeader_errIn s _) fun _ _ => .ok
  | fdecRead | fdecReadToEnd => exact .bind (readLoop_errIn s _ _) fun _ _ => .ok
  | token | lenext | offset | seq | last | magic | flg | bd | hc | blockwordLz4 | blockwordRaw | endMark => exact .stuck

end Sys2Proof.Machine
end

