-- ==== Sys2Proof/Laws/Bodies.lean ====
section
/-! SUPPORT. What a command's body gives when it succeeds: what its commit leaves alone, and the size of its output. -/

namespace Sys2Proof.Machine

theorem bind_ok {α β : Type} {x : Except Stop α} {f : α → Except Stop β} {b : β} (h : (x >>= f) = .ok b) :
    ∃ a, x = .ok a ∧ f a = .ok b := by
  cases x with
  | error e => exact absurd h (by simp [Bind.bind, Except.bind])
  | ok a => exact ⟨a, rfl, h⟩

theorem map_ok {α β : Type} {x : Except Stop α} {f : α → β} {b : β} (h : x.map f = .ok b) : ∃ a, x = .ok a ∧ f a = b := by
  cases x with
  | error e => exact absurd h (by simp [Except.map])
  | ok a => exact ⟨a, rfl, by simpa [Except.map] using h⟩

theorem raised_ok {α : Type} {x : Except ErrCode α} {a : α} (h : raised x = .ok a) : x = .ok a := by
  cases x with
  | error e => exact absurd h (by simp [raised, Except.mapError])
  | ok b => simpa [raised, Except.mapError] using h

/-! ## The token parser keeps to its capacity -/

theorem copyMatch_length (y : Bytes) (off m : Nat) : (copyMatch y off m).length = m := by
  induction m generalizing y with
  | zero => rfl
  | succ m ih => simp [copyMatch, ih]

/-- An element's effect keeps the output within the capacity of the parser it started from. -/
def Parse.Within (x : Parse) (cap : Nat) : Prop :=
  match x with
  | .more p => p.cap = cap ∧ p.out.length ≤ cap
  | .done out => out.length ≤ cap
  | .fail _ => True

theorem Parser.literals_within (p : Parser) (n : Nat) : (p.literals n).Within p.cap := by
  unfold Parser.literals
  dsimp only
  repeat' split
  all_goals simp_all [Parse.Within, List.length_take]

theorem Parser.copy_within (p : Parser) (m : Nat) : (p.copy m).Within p.cap := by
  unfold Parser.copy
  repeat' split
  all_goals simp_all [Parse.Within, copyMatch_length]

theorem Parser.next_within (p : Parser) (h : p.out.length ≤ p.cap) : p.next.Within p.cap := by
  unfold Parser.next
  split
  · split
    · unfold Parser.token
      dsimp only
      split
      · exact ⟨rfl, h⟩
      · exact Parser.literals_within _ _
    · trivial
  · split
    · exact Parser.literals_within _ _
    · trivial
  · split
    · unfold Parser.offset
      dsimp only
      split
      · exact ⟨rfl, h⟩
      · exact Parser.copy_within _ _
    · trivial
  · split
    · exact Parser.copy_within _ _
    · trivial

theorem Parser.run_within (n : Nat) : ∀ {p : Parser} {out : Bytes}, p.out.length ≤ p.cap → p.run n = .ok out →
    out.length ≤ p.cap := by
  induction n with
  | zero => intro p out _ h; exact absurd h (by simp [Parser.run])
  | succ n ih =>
    intro p out hp h
    unfold Parser.run at h
    have hw := p.next_within hp
    split at h
    · rename_i q hq
      rw [hq] at hw
      have := ih (hw.1 ▸ hw.2) h
      rwa [hw.1] at this
    · rename_i o hq
      rw [hq] at hw
      exact Except.ok.inj h ▸ hw
    · exact absurd h (by simp)

/-! ## The record reader keeps to its capacity -/

theorem Reader.deliver_within {rd rd' : Reader} (h : rd.deliver = .ok rd') (ho : rd.out.length ≤ rd.cap) :
    rd'.out.length ≤ rd'.cap ∧ rd'.cap = rd.cap ∧ rd'.want = rd.want := by
  unfold Reader.deliver at h
  split at h
  · obtain rfl := Except.ok.inj h; exact ⟨ho, rfl, rfl⟩
  · split at h
    · exact absurd h (by simp)
    · rename_i h1 h2
      obtain rfl := Except.ok.inj h
      have : rd.due ≤ rd.t.pend.length := by unfold Reader.due; split <;> omega
      refine ⟨?_, rfl, rfl⟩
      simp only [List.length_append, List.length_take]
      omega

theorem readLoop_within (s : State) (n : Nat) : ∀ {rd rd' : Reader}, rd.out.length ≤ rd.cap → readLoop s n rd = .ok rd' →
    rd'.out.length ≤ rd'.cap ∧ rd'.cap = rd.cap ∧ rd'.want = rd.want := by
  induction n with
  | zero => intro rd rd' _ h; exact absurd h (by simp [readLoop])
  | succ n ih =>
    intro rd rd' ho h
    unfold readLoop at h
    obtain ⟨r1, h1, h⟩ := bind_ok h
    obtain ⟨k1, k2, k3⟩ := Reader.deliver_within h1 ho
    split at h
    · obtain rfl := Except.ok.inj h; exact ⟨k1, k2, k3⟩
    · obtain ⟨t, -, h⟩ := bind_ok h
      obtain ⟨j1, j2, j3⟩ := ih (rd := { r1 with t := t }) k1 h
      exact ⟨j1, j2.trans k2, j3.trans k3⟩

/-! ## Every body -/

/-- What a successful body's commit and output are, for any command. -/
structure Done.Spec (i : Instr) (s : State) (A : Args) (d : Done) : Prop where
  keeps : d.Keeps s
  eses : i ∉ [Instr.sesEncReset, .sesEncResetLinked, .sesEnc] → (d.commit s).eses = s.eses
  dses : i ∉ [Instr.sesDecReset, .sesDecResetLinked, .sesDec] → (d.commit s).dses = s.dses
  fenc : i ∉ [Instr.fencOpen, .fencWrite, .fencClose] → (d.commit s).fenc = s.fenc
  fdec : i ∉ [Instr.fdecOpen, .fdecRead, .fdecReadToEnd] → (d.commit s).fdec = s.fdec ∧ (d.commit s).fregs = s.fregs
  room : d.out.length ≤ A.room
  result : writesDst i = true → d.result = d.out.length
  silent : writesDst i = false → d.out = []

theorem body_ok {i : Instr} {s : State} {A : Args} {d : Done} (h : bodyOf i s A = .ok d) : d.Spec i s A := by
  have keep : ∀ {d : Done}, d.commit = id → d.Keeps s := by
    intro d hd; constructor <;> rw [hd] <;> rfl
  cases i with
  | blkBound =>
    obtain rfl := Except.ok.inj h
    exact ⟨keep rfl, fun _ => rfl, fun _ => rfl, fun _ => rfl, fun _ => ⟨rfl, rfl⟩, Nat.zero_le _, fun h => absurd h (by decide),
      fun _ => rfl⟩
  | blkEncode =>
    simp only [bodyOf, blkEncodeBody] at h
    split at h
    · exact absurd h (by simp)
    obtain ⟨x, -, h⟩ := bind_ok h
    obtain ⟨y, -, h⟩ := bind_ok h
    obtain ⟨rfl, hr⟩ := fitOut_ok h
    exact ⟨keep rfl, fun _ => rfl, fun _ => rfl, fun _ => rfl, fun _ => ⟨rfl, rfl⟩, hr, fun _ => rfl, fun h => absurd h (by decide)⟩
  | blkDecode =>
    obtain ⟨p, hp, h⟩ := bind_ok h
    obtain ⟨x, -, hp⟩ := bind_ok hp
    obtain ⟨y, -, hp⟩ := bind_ok hp
    obtain ⟨out, ho, h⟩ := bind_ok h
    obtain rfl := Except.ok.inj h
    obtain rfl := Except.ok.inj hp
    have := Parser.run_within _ (Nat.zero_le _) (raised_ok ho)
    exact ⟨keep rfl, fun _ => rfl, fun _ => rfl, fun _ => rfl, fun _ => ⟨rfl, rfl⟩, this, fun _ => rfl, fun h => absurd h (by decide)⟩
  | sesEncReset | sesEncResetLinked | sesDecReset | sesDecResetLinked =>
    obtain ⟨x, -, h⟩ := bind_ok h
    obtain rfl := Except.ok.inj h
    refine ⟨⟨rfl, rfl, rfl, rfl, rfl, rfl, rfl, rfl, rfl⟩, ?_, ?_, fun _ => rfl, fun _ => ⟨rfl, rfl⟩, Nat.zero_le _,
      fun h => absurd h (by decide), fun _ => rfl⟩ <;>
    intro hn <;> first | rfl | exact absurd (by simp) hn
  | sesEnc =>
    simp only [bodyOf, sesEncBody] at h
    split at h
    · exact absurd h (by simp)
    obtain ⟨x, -, h⟩ := bind_ok h
    obtain ⟨rfl, hr⟩ := fitOut_ok h
    exact ⟨⟨rfl, rfl, rfl, rfl, rfl, rfl, rfl, rfl, rfl⟩, fun hn => absurd (by simp) hn, fun _ => rfl, fun _ => rfl,
      fun _ => ⟨rfl, rfl⟩, hr, fun _ => rfl, fun h => absurd h (by decide)⟩
  | sesDec =>
    obtain ⟨p, hp, h⟩ := bind_ok h
    obtain ⟨x, -, hp⟩ := bind_ok hp
    obtain ⟨out, ho, h⟩ := bind_ok h
    obtain rfl := Except.ok.inj h
    obtain rfl := Except.ok.inj hp
    have := Parser.run_within _ (Nat.zero_le _) (raised_ok ho)
    exact ⟨⟨rfl, rfl, rfl, rfl, rfl, rfl, rfl, rfl, rfl⟩, fun _ => rfl, fun hn => absurd (by simp) hn, fun _ => rfl,
      fun _ => ⟨rfl, rfl⟩, this, fun _ => rfl, fun h => absurd h (by decide)⟩
  | fencOpen =>
    obtain ⟨x, -, h⟩ := bind_ok h
    obtain ⟨rfl, hr⟩ := fitOut_ok h
    exact ⟨⟨rfl, rfl, rfl, rfl, rfl, rfl, rfl, rfl, rfl⟩, fun _ => rfl, fun _ => rfl, fun hn => absurd (by simp) hn,
      fun _ => ⟨rfl, rfl⟩, hr, fun _ => rfl, fun h => absurd h (by decide)⟩
  | fencWrite =>
    obtain ⟨x, -, h⟩ := bind_ok h
    obtain ⟨rfl, hr⟩ := fitOut_ok h
    exact ⟨⟨rfl, rfl, rfl, rfl, rfl, rfl, rfl, rfl, rfl⟩, fun _ => rfl, fun _ => rfl, fun hn => absurd (by simp) hn,
      fun _ => ⟨rfl, rfl⟩, hr, fun _ => rfl, fun h => absurd h (by decide)⟩
  | fencClose =>
    simp only [bodyOf, fencCloseBody] at h
    split at h
    · obtain rfl := Except.ok.inj h
      exact ⟨keep rfl, fun _ => rfl, fun _ => rfl, fun _ => rfl, fun _ => ⟨rfl, rfl⟩, Nat.zero_le _, fun _ => rfl,
        fun h => absurd h (by decide)⟩
    split at h
    · exact absurd h (by simp)
    obtain ⟨rfl, hr⟩ := fitOut_ok h
    exact ⟨⟨rfl, rfl, rfl, rfl, rfl, rfl, rfl, rfl, rfl⟩, fun _ => rfl, fun _ => rfl, fun hn => absurd (by simp) hn,
      fun _ => ⟨rfl, rfl⟩, hr, fun _ => rfl, fun h => absurd h (by decide)⟩
  | fdecOpen =>
    obtain ⟨x, -, h⟩ := bind_ok h
    obtain ⟨t, -, h⟩ := bind_ok h
    obtain rfl := Except.ok.inj h
    exact ⟨⟨rfl, rfl, rfl, rfl, rfl, rfl, rfl, rfl, rfl⟩, fun _ => rfl, fun _ => rfl, fun _ => rfl,
      fun hn => absurd (by simp) hn, Nat.zero_le _, fun h => absurd h (by decide), fun _ => rfl⟩
  | fdecRead | fdecReadToEnd =>
    obtain ⟨rd, hl, h⟩ := bind_ok h
    obtain rfl := Except.ok.inj h
    obtain ⟨k1, k2, -⟩ := readLoop_within s _ (Nat.zero_le _) hl
    exact ⟨⟨rfl, rfl, rfl, rfl, rfl, rfl, rfl, rfl, rfl⟩, fun _ => rfl, fun _ => rfl, fun _ => rfl,
      fun hn => absurd (by simp) hn, le_of_le_of_eq k1 k2, fun _ => rfl, fun h => absurd h (by decide)⟩
  | token | lenext | offset | seq | last | magic | flg | bd | hc | blockwordLz4 | blockwordRaw | endMark =>
    exact absurd h (by simp [bodyOf])

end Sys2Proof.Machine
end

