-- ==== Sys2Proof/Laws/Codec.lean ====
section
/-! SUPPORT. Little-endian fields, length codes and token bytes, and the token parser over a whole sequence: the parser run over
the encoding of a sequence is the sequence's effect at once. -/

namespace Sys2Proof

/-! ## Fields -/

theorem le32At_le32 (w : Word) (rest : Bytes) : le32At (le32 w ++ rest) 0 = w := by
  apply BitVec.eq_of_toNat_eq
  have hlt := w.isLt
  simp only [le32At, le32, List.drop_zero, List.cons_append, List.nil_append, List.take_succ_cons, List.take_zero, leNat,
    BitVec.toNat_ofNat, BitVec.extractLsb'_toNat, Nat.shiftRight_eq_div_pow]
  generalize w.toNat = n at *
  omega

theorem le64At_le64 (w : BitVec 64) (rest : Bytes) : le64At (le64 w ++ rest) 0 = w := by
  apply BitVec.eq_of_toNat_eq
  have hlt := w.isLt
  simp only [le64At, le64, le32, List.drop_zero, List.cons_append, List.nil_append, List.take_succ_cons, List.take_zero, leNat,
    BitVec.toNat_ofNat, BitVec.extractLsb'_toNat, Nat.shiftRight_eq_div_pow]
  generalize w.toNat = n at *
  omega

theorem le16At_le16 (w : BitVec 16) : le16At [w.extractLsb' 0 8, w.extractLsb' 8 8] 0 = w := by
  apply BitVec.eq_of_toNat_eq
  have hlt := w.isLt
  simp only [le16At, List.drop_zero, List.take_succ_cons, List.take_zero, leNat, BitVec.toNat_ofNat,
    BitVec.extractLsb'_toNat, Nat.shiftRight_eq_div_pow]
  generalize w.toNat = n at *
  omega

theorem hiNibble_tokenByte (a b : BitVec 4) : hiNibble (tokenByte a b) = a := by revert a b; decide

theorem loNibble_tokenByte (a b : BitVec 4) : loNibble (tokenByte a b) = b := by revert a b; decide

theorem tokenByte_nibbles (t : Byte) : tokenByte (hiNibble t) (loNibble t) = t := by revert t; decide

/-! ## Length codes -/

theorem scanExt_extBytes (n : Nat) (f : Byte) (hf : f ≠ 255) (rest : Bytes) :
    scanExt (extBytes n f ++ rest) = some (n, f, rest) := by
  induction n with
  | zero => simp [extBytes, scanExt]; exact hf
  | succ n ih =>
    have e : extBytes (n + 1) f ++ rest = 255 :: (extBytes n f ++ rest) := by simp [extBytes, List.replicate_succ]
    rw [e, scanExt, if_pos rfl, ih]
    rfl

/-- The extension of a length of 15 or more, as the scanner reads it. -/
theorem scanExt_lengthExt {n : Nat} (h : 15 ≤ n) (rest : Bytes) :
    ∃ f g, scanExt (lengthExt n ++ rest) = some (f, g, rest) ∧ 15 + extValue f g = n ∧ f + 1 = (lengthExt n).length := by
  refine ⟨(n - 15) / 255, BitVec.ofNat 8 ((n - 15) % 255), ?_, ?_, ?_⟩
  · unfold lengthExt
    rw [if_neg (by omega), scanExt_extBytes]
    intro he
    have := congrArg BitVec.toNat he
    simp at this
    omega
  · simp [extValue]; omega
  · unfold lengthExt extBytes
    rw [if_neg (by omega)]
    simp

theorem lengthExt_short {n : Nat} (h : n < 15) : lengthExt n = [] := by unfold lengthExt; rw [if_pos h]

theorem lengthExt_length_le (n : Nat) : 255 * (lengthExt n).length ≤ n + 240 := by
  unfold lengthExt extBytes
  split
  · simp
  · simp; omega

theorem lengthNibble_toNat (n : Nat) : (lengthNibble n).toNat = min n 15 := by simp [lengthNibble]

theorem lengthNibble_eq_15 (n : Nat) : lengthNibble n = 15 ↔ 15 ≤ n := by
  rw [← BitVec.toNat_inj, lengthNibble_toNat]; simp

theorem lengthNibble_short {n : Nat} (h : n < 15) : lengthNibble n ≠ 15 ∧ (lengthNibble n).toNat = n := by
  constructor
  · rw [Ne, lengthNibble_eq_15]; omega
  · rw [lengthNibble_toNat]; omega

namespace Machine

/-! ## The parser -/

/-- A run of the parser after an element's effect. -/
def Parse.run (f : Nat) : Parse → Except ErrCode Bytes
  | .more p => p.run f
  | .done out => .ok out
  | .fail c => .error c

theorem Parser.run_succ (f : Nat) (p : Parser) : p.run (f + 1) = p.next.run f := by
  show (match p.next with | .more p' => Parser.run f p' | .done out => .ok out | .fail c => .error c) = _
  cases p.next <;> rfl

/-- A token and the extension of its literal length, then the literals. -/
theorem Parser.run_literals (p : Parser) (n : Nat) (ml : BitVec 4) (rest : Bytes) (hph : p.phase = .token)
    (hr : p.rest = tokenByte (lengthNibble n) ml :: (lengthExt n ++ rest)) :
    ∃ k, k ≤ (lengthExt n).length ∧ ∀ f, p.run (f + k + 1) =
      ({ p with rest := rest, ml := ml, phase := (if n < 15 then .token else .litExt) }.literals n).run f := by
  by_cases h : n < 15
  · refine ⟨0, Nat.zero_le _, fun f => ?_⟩
    rw [Parser.run_succ]
    unfold Parser.next
    rw [hph, hr]
    simp only [hiNibble_tokenByte, loNibble_tokenByte, Parser.token]
    rw [if_neg (lengthNibble_short h).1, (lengthNibble_short h).2]
    simp [h, hr, lengthExt_short h, hph]
  · obtain ⟨a, b, h1, h2, h3⟩ := scanExt_lengthExt (n := n) (by omega) rest
    refine ⟨1, by omega, fun f => ?_⟩
    have hn : p.next = .more { p with rest := lengthExt n ++ rest, ml := ml, phase := .litExt } := by
      unfold Parser.next
      rw [hph, hr]
      simp only [hiNibble_tokenByte, loNibble_tokenByte, Parser.token]
      rw [if_pos ((lengthNibble_eq_15 n).mpr (by omega)), hr]
      rfl
    rw [show f + 1 + 1 = (f + 1) + 1 from rfl, Parser.run_succ, hn]
    show Parser.run (f + 1) _ = _
    rw [Parser.run_succ]
    congr 1
    unfold Parser.next
    simp only [h1, Parser.litExt, h2, h3, List.drop_left, if_neg h]

/-- An offset and the extension of its match length, then the match. -/
theorem Parser.run_match (p : Parser) (off : BitVec 16) (m : Nat) (rest : Bytes) (hph : p.phase = .offset)
    (hml : p.ml = lengthNibble m) (hr : p.rest = le16 off ++ (lengthExt m ++ rest)) :
    ∃ k, k ≤ (lengthExt m).length ∧ ∀ f, p.run (f + k + 1) =
      ({ p with rest := rest, off := off.toNat, phase := (if m < 15 then .offset else .matchExt) }.copy
        (m + minMatch)).run f := by
  by_cases h : m < 15
  · refine ⟨0, Nat.zero_le _, fun f => ?_⟩
    rw [Parser.run_succ]
    unfold Parser.next
    rw [hph, hr]
    simp only [le16, List.cons_append, List.nil_append, Parser.offset]
    rw [le16At_le16, hml, if_neg (lengthNibble_short h).1, (lengthNibble_short h).2]
    simp only [if_pos h, hr, lengthExt_short h, hph]
    rw [← hml]
    rfl
  · obtain ⟨a, b, h1, h2, h3⟩ := scanExt_lengthExt (n := m) (by omega) rest
    refine ⟨1, by omega, fun f => ?_⟩
    have hn : p.next = .more { p with rest := lengthExt m ++ rest, off := off.toNat, phase := .matchExt } := by
      unfold Parser.next
      rw [hph, hr]
      simp only [le16, List.cons_append, List.nil_append, Parser.offset]
      rw [le16At_le16, if_pos (hml.trans ((lengthNibble_eq_15 m).mpr (by omega))), hr]
      rfl
    rw [show f + 1 + 1 = (f + 1) + 1 from rfl, Parser.run_succ, hn]
    show Parser.run (f + 1) _ = _
    rw [Parser.run_succ]
    congr 1
    unfold Parser.next
    simp only [h1, Parser.matchExt, h2, h3, List.drop_left, if_neg h]

/-- The parser over the encoding of a whole sequence does what `SEQ` does at once. -/
theorem Parser.run_seq (p : Parser) (lit : Bytes) (off : BitVec 16) (len : Nat) (rest : Bytes) (h4 : minMatch ≤ len)
    (hph : p.phase = .token) (hr : p.rest = encode (.seq lit off len) ++ rest) :
    ∃ k, 1 ≤ k ∧ k ≤ (encode (.seq lit off len)).length ∧ ∀ f, p.run (f + k) = (p.seq lit off len).run f := by
  have hr' : p.rest = tokenByte (lengthNibble lit.length) (lengthNibble (len - minMatch)) ::
      (lengthExt lit.length ++ (lit ++ (le16 off ++ (lengthExt (len - minMatch) ++ rest)))) := by
    rw [hr]; simp only [encode, List.cons_append, List.append_assoc]
  obtain ⟨k1, hk1, h1⟩ := Parser.run_literals p lit.length _ _ hph hr'
  have hel : (encode (.seq lit off len)).length =
      1 + (lengthExt lit.length).length + lit.length + 2 + (lengthExt (len - minMatch)).length := by
    simp only [encode, List.length_cons, List.length_append, le16, List.length_nil]; omega
  have hseq : p.seq lit off len = if p.cap < p.out.length + lit.length then .fail .dstFull
      else { p with rest := rest, out := p.out ++ lit, off := off.toNat, ml := lengthNibble (len - minMatch) }.copy len := by
    unfold Parser.seq
    rw [hr, List.drop_left]
  have hm : len - minMatch + minMatch = len := by omega
  by_cases hcap : p.cap < p.out.length + lit.length
  · refine ⟨k1 + 1, by omega, by omega, fun f => ?_⟩
    rw [← Nat.add_assoc, h1, hseq, if_pos hcap, Parser.literals]
    dsimp only
    rw [if_neg (by simp), if_pos hcap]
  · have hlit : Parser.literals { p with
          rest := lit ++ (le16 off ++ (lengthExt (len - minMatch) ++ rest)), ml := lengthNibble (len - minMatch),
          phase := (if lit.length < 15 then .token else .litExt) } lit.length =
        .more { p with
          rest := le16 off ++ (lengthExt (len - minMatch) ++ rest), out := p.out ++ lit,
          ml := lengthNibble (len - minMatch), phase := .offset } := by
      unfold Parser.literals
      dsimp only
      rw [if_neg (by simp), if_neg hcap, if_neg (by simp [le16])]
      simp
    rw [hlit] at h1
    obtain ⟨k2, hk2, h2⟩ := Parser.run_match { p with
        rest := le16 off ++ (lengthExt (len - minMatch) ++ rest), out := p.out ++ lit,
        ml := lengthNibble (len - minMatch), phase := .offset } off (len - minMatch) rest rfl rfl rfl
    refine ⟨k2 + 1 + (k1 + 1), by omega, by omega, fun f => ?_⟩
    rw [show f + (k2 + 1 + (k1 + 1)) = (f + k2 + 1) + k1 + 1 by omega, h1, hseq, if_neg hcap]
    show Parser.run (f + k2 + 1) _ = _
    rw [h2, hm]
    rfl

/-- The parser over the encoding of a last sequence, whatever its ML nibble, does what `LAST` does at once. -/
theorem Parser.run_last (p : Parser) (lit : Bytes) (ml : BitVec 4) (hph : p.phase = .token)
    (hr : p.rest = tokenByte (lengthNibble lit.length) ml :: (lengthExt lit.length ++ lit)) :
    ∃ k, 1 ≤ k ∧ k ≤ p.rest.length ∧ ∀ f, p.run (f + k) = (p.last lit).run f := by
  obtain ⟨k1, hk1, h1⟩ := Parser.run_literals p lit.length _ lit hph hr
  refine ⟨k1 + 1, by omega, by rw [hr]; simp; omega, fun f => ?_⟩
  rw [← Nat.add_assoc, h1, Parser.literals, Parser.last]
  dsimp only
  rw [if_neg (by simp)]
  split
  · rfl
  · rw [if_pos rfl, List.take_length]

end Machine

end Sys2Proof
end

