-- ==== Sys2Proof/Laws/Usage.lean ====
section
/-! SUPPORT. The usage checks in the spec's own terms, and what a command without a usage error comes to. -/

namespace Sys2Proof.Machine

theorem Region.fits_iff (a n : Nat) : Region.fits (a, n) = true ↔ a + n ≤ 2 ^ 32 := decide_eq_true_iff

theorem headerLegal_iff (c : Config) (f b : Byte) : headerLegal c f b = true ↔ HeaderBytesOk c f b := by
  unfold headerLegal HeaderBytesOk bdCode
  rw [decide_eq_true_iff]
  have h1 : ∀ f : Byte, f &&& 0xC2 = 0x40 ↔ f.extractLsb' 6 2 = 1 ∧ f.getLsbD 1 = false := by decide
  have h2 : ∀ b : Byte, b &&& 0x8F = 0 ↔ b.getLsbD 7 = false ∧ b.extractLsb' 0 4 = 0 := by decide
  rw [h1, h2]
  tauto

theorem fcfgLegal_iff (c : Config) (A : Args) : fcfgLegal c A = true ↔
    A.fcfg.extractLsb' 16 16 = 0 ∧ HeaderBytesOk c (A.fcfg.extractLsb' 0 8) (A.fcfg.extractLsb' 8 8) := by
  unfold fcfgLegal
  rw [Bool.and_eq_true, headerLegal_iff, decide_eq_true_iff]
  rfl

theorem Region.meets_window (A : Args) (a n : Nat) : Region.meets (a, n) A.window = true ↔ ¬A.Apart a n := by
  unfold Region.meets Args.Apart Args.window Args.dstPoint Args.room
  rw [decide_eq_true_iff]
  simp only
  omega

theorem rangeBad_iff (i : Instr) (s : State) (A : Args) : rangeBad i s A = true ↔
    (∃ r ∈ regionsRead i s A, ¬r.1 + r.2 ≤ 2 ^ 32) ∨ (writesDst i = true ∧ ¬A.DstOk) := by
  have hf : ∀ r : Region, (!Region.fits r) = true ↔ ¬r.1 + r.2 ≤ 2 ^ 32 := by
    intro r
    rw [Bool.not_eq_true', ← Bool.not_eq_true]
    exact not_congr (Region.fits_iff r.1 r.2)
  unfold rangeBad Args.DstOk
  rw [Bool.or_eq_true, List.any_eq_true, Bool.and_eq_true, Bool.or_eq_true, decide_eq_true_iff, hf]
  refine or_congr (exists_congr fun r => and_congr_right fun _ => hf r) (and_congr_right fun _ => ?_)
  simp only
  omega

theorem overlapBad_iff (i : Instr) (s : State) (A : Args) : overlapBad i s A = true ↔
    writesDst i = true ∧ ∃ r ∈ regionsRead i s A, ¬A.Apart r.1 r.2 := by
  unfold overlapBad
  rw [Bool.and_eq_true, List.any_eq_true]
  exact and_congr_right fun _ => exists_congr fun r => and_congr_right fun _ => Region.meets_window A r.1 r.2

/-- No usage check fails. -/
theorem usageError_none {i : Instr} {s : State} {A : Args} (h1 : stateForbids i s = false)
    (h2 : configForbids i s A = false) (h3 : ∀ r ∈ regionsRead i s A, r.1 + r.2 ≤ 2 ^ 32)
    (h4 : writesDst i = true → A.DstOk ∧ ∀ r ∈ regionsRead i s A, A.Apart r.1 r.2) : usageError i s A = none := by
  have hr : rangeBad i s A = false := by
    rw [← Bool.not_eq_true, rangeBad_iff]
    rintro (⟨r, hr, hn⟩ | ⟨hw, hn⟩)
    · exact hn (h3 r hr)
    · exact hn (h4 hw).1
  have ho : overlapBad i s A = false := by
    rw [← Bool.not_eq_true, overlapBad_iff]
    rintro ⟨hw, r, hr, hn⟩
    exact hn ((h4 hw).2 r hr)
  simp [usageError, h1, h2, hr, ho]

/-- A usage error without a race is the whole of what a command does. -/
theorem exec_usage {i : Instr} {s : State} {c : ErrCode} (hi : i ∈ commands) (hr : s.raced = [])
    (h : usageError i s s.snapshot = some c) : exec i s = .next (s.errState c) := by
  rw [exec_command hi, State.command_usage h, State.raise_usage hr i (usageError_isUsage h)]

/-- Output that fits the destination window where memory takes it is taken. -/
theorem State.Sink.takes {s : State} {out : Bytes} (h : s.Sink s.snapshot out.length) : s.takes out :=
  h.2.2.imp_left List.length_eq_zero_iff.mp

theorem State.Sink.fitOut {s : State} {A : Args} {d : Done} (h : s.Sink A d.out.length) : fitOut A d = .ok d := by
  unfold Machine.fitOut
  exact if_neg (Nat.not_lt.mpr h.1)

/-- The end of a successful body without a race, on plain memory. -/
theorem State.finish_calm {s : State} {i : Instr} {d : Done} (hr : (d.commit s).raced = []) (ht : s.takes d.out)
    (hp : s.OnPlain i) :
    s.finish i (.ok d) = .next ((d.commit s).okState (d.commit s).snapshot d.out d.result) := by
  rw [State.finish_ok ht hp, State.complete_calm hr]

/-- A command without a usage error whose body succeeds. -/
theorem exec_ok {i : Instr} {s : State} {d : Done} (hi : i ∈ commands) (hu : usageError i s s.snapshot = none)
    (hb : bodyOf i s s.snapshot = .ok d) (hr : s.raced = []) (ht : s.takes d.out)
    (hp : s.OnPlain i) :
    exec i s = .next ((d.commit s).okState s.snapshot d.out d.result) := by
  have hk := (body_ok hb).keeps
  have hraced : (d.commit s).raced = s.raced := by simp only [State.raced, State.run?, hk.engine]
  have hsnap : (d.commit s).snapshot = s.snapshot := by simp only [State.snapshot, State.run?, hk.engine, hk.args]
  rw [exec_command hi, State.command_body hu, hb, State.finish_calm (hraced.trans hr) ht hp, hsnap]

/-- An output without bytes leaves everything but the flags and `RESULT`. -/
theorem State.okState_nil (s : State) (A : Args) (n : Nat) : s.okState A [] n = s.okPlain A n := by
  simp [State.okState, State.okPlain, Memory.write]

end Sys2Proof.Machine
end

