-- ==== Sys2Proof/Laws/Completions.lean ====
section
/-! SUPPORT. Everything a command can do, as one case analysis, and what each of its ends leaves: sticking, an error, success. -/

namespace Sys2Proof.Machine

/-- Everything a command can do: a usage error, sticking, an error of its body, success, or, over memory with read side effects, a
free outcome. -/
theorem exec_cases {i : Instr} {s t : State} (hi : i ∈ commands) (h : exec i s = .next t) :
    (∃ c, usageError i s s.snapshot = some c ∧ t = s.raise i c) ∨
      usageError i s s.snapshot = none ∧
        ((t = s.stick i ∨ (∃ c ∈ bodyErrors i, t = s.raise i c) ∨
          ∃ d, bodyOf i s s.snapshot = .ok d ∧ s.takes d.out ∧ t = (d.commit s).complete i d.out d.result) ∨
          ¬s.OnPlain i ∧ t = s.anyOutcome i) := by
  rw [exec_command hi] at h
  rcases State.command_cases h with h | ⟨hu, (h | ⟨c, hc, h⟩ | h) | h⟩
  · exact .inl h
  · exact .inr ⟨hu, .inl (.inl h)⟩
  · exact .inr ⟨hu, .inl (.inr (.inl ⟨c, body_errIn _ _ _ c hc, h⟩))⟩
  · exact .inr ⟨hu, .inl (.inr (.inr h))⟩
  · exact .inr ⟨hu, .inr h⟩

theorem State.stick_not_idle (i : Instr) (s : State) : (s.stick i).engine ≠ .idle := by
  obtain ⟨r, h⟩ := s.stick_engine i
  rw [h]
  simp

/-- The ends of a command that leave the engine idle: an error, success, or, over memory with read side effects, a free outcome. -/
theorem exec_ends {i : Instr} {s t : State} (hi : i ∈ commands) (h : exec i s = .next t) (he : t.engine = .idle) :
    ((∃ c, (usageError i s s.snapshot = some c ∨ usageError i s s.snapshot = none ∧ c ∈ bodyErrors i) ∧ t = s.raise i c) ∨
      usageError i s s.snapshot = none ∧ ∃ d, bodyOf i s s.snapshot = .ok d ∧ s.takes d.out ∧ d.Spec i s s.snapshot ∧
        t = (d.commit s).complete i d.out d.result) ∨
      usageError i s s.snapshot = none ∧ ¬s.OnPlain i ∧ t = s.anyOutcome i := by
  rcases exec_cases hi h with ⟨c, hc, rfl⟩ | ⟨hu, (rfl | ⟨c, hc, rfl⟩ | ⟨d, hd, hk, rfl⟩) | hf⟩
  · exact .inl (.inl ⟨c, .inl hc, rfl⟩)
  · exact absurd he (State.stick_not_idle _ _)
  · exact .inl (.inl ⟨c, .inr ⟨hu, hc⟩, rfl⟩)
  · exact .inl (.inr ⟨hu, d, hd, hk, body_ok hd, rfl⟩)
  · exact .inr ⟨hu, hf⟩

/-- On plain memory the end is an error or success. -/
theorem exec_ends_plain {i : Instr} {s t : State} (hi : i ∈ commands) (hp : s.OnPlain i) (h : exec i s = .next t)
    (he : t.engine = .idle) :
    (∃ c, (usageError i s s.snapshot = some c ∨ usageError i s s.snapshot = none ∧ c ∈ bodyErrors i) ∧ t = s.raise i c) ∨
      usageError i s s.snapshot = none ∧ ∃ d, bodyOf i s s.snapshot = .ok d ∧ s.takes d.out ∧ d.Spec i s s.snapshot ∧
        t = (d.commit s).complete i d.out d.result :=
  (exec_ends hi h he).resolve_right fun hn => hn.2.1 hp

/-! ## An error -/

theorem State.raise_contexts (s : State) (i : Instr) (c : ErrCode) :
    (s.raise i c).eses = (s.spoil i c).eses ∧ (s.raise i c).dses = (s.spoil i c).dses ∧
      (s.raise i c).fenc = (s.spoil i c).fenc ∧ (s.raise i c).fdec = (s.spoil i c).fdec ∧
      (s.raise i c).fregs = (s.spoil i c).fregs := by
  rw [State.raise_same]
  exact ⟨rfl, rfl, rfl, rfl, rfl⟩

theorem State.spoil_usage {s : State} {i : Instr} {c : ErrCode} (h : c.isUsage = true) : s.spoil i c = s := by
  simp [State.spoil, h]

/-- An error spoils no context but the command's own. -/
theorem State.spoil_other (i : Instr) (c : ErrCode) (s : State) :
    (i ∉ [Instr.sesEncReset, .sesEncResetLinked, .sesEnc] → (s.spoil i c).eses = s.eses) ∧
      (i ∉ [Instr.sesDecReset, .sesDecResetLinked, .sesDec] → (s.spoil i c).dses = s.dses) ∧
      (i ∉ [Instr.fencOpen, .fencWrite, .fencClose] → (s.spoil i c).fenc = s.fenc) ∧
      (i ∉ [Instr.fdecOpen, .fdecRead, .fdecReadToEnd] →
        (s.spoil i c).fdec = s.fdec ∧ (s.spoil i c).fregs = s.fregs) := by
  refine ⟨?_, ?_, ?_, ?_⟩ <;> intro hn <;> unfold State.spoil <;> split
  all_goals first | rfl | exact ⟨rfl, rfl⟩ | skip
  all_goals cases i <;> first | rfl | exact ⟨rfl, rfl⟩ | (exfalso; simp at hn)

/-- An error changes memory only inside the destination window, and a usage error of a command without one not at all. -/
theorem State.raise_mem (s : State) (i : Instr) (c : ErrCode) (a : Nat)
    (h : writesDst i = true ∨ c.isUsage = false → Region.holds s.snapshot.window a = false) :
    Memory.read (s.raise i c).mem a = Memory.read s.mem a := by
  rw [State.raise_same]
  show Memory.read ((s.spoil i c).blur i).mem a = _
  have hsn : (s.spoil i c).snapshot = s.snapshot := by rw [State.spoil_same]; rfl
  rw [State.blur_mem _ _ _ (by rw [hsn]; exact fun hw => h (.inl hw)), State.spoil_mem]
  split
  · rfl
  · rename_i hn
    exact State.scramble_mem _ _ _ (h (.inr (by simpa using hn)))

/-! ## Success -/

theorem State.complete_contexts (s : State) (i : Instr) (out : Bytes) (n : Nat) :
    (s.complete i out n).eses = s.eses ∧ (s.complete i out n).dses = s.dses ∧ (s.complete i out n).fenc = s.fenc ∧
      (s.complete i out n).fdec = s.fdec ∧ (s.complete i out n).fregs = s.fregs := by
  simp

/-- Success changes memory only inside the destination window. -/
theorem State.complete_mem (s : State) (i : Instr) (out : Bytes) (n a : Nat)
    (h : Region.holds s.snapshot.window a = false) (ho : out.length ≤ s.snapshot.room) :
    Memory.read (s.complete i out n).mem a = Memory.read s.mem a := by
  have hm : (s.complete i out n).mem =
      (({ s with mem := Memory.write s.mem s.snapshot.dstPoint out } : State).blur i).mem := by
    simp only [State.complete, State.setCompleted]
  rw [hm, State.blur_mem]
  rotate_left
  · exact fun _ => h
  show Memory.read (Memory.write s.mem s.snapshot.dstPoint out) a = _
  rw [Memory.read_write, if_neg]
  unfold Region.holds Args.window at h
  rw [decide_eq_false_iff_not] at h
  dsimp only at h
  omega

/-- A commit leaves the snapshot and the races alone. -/
theorem Done.Spec.commit {i : Instr} {s : State} {A : Args} {d : Done} (h : d.Spec i s A) :
    (d.commit s).snapshot = s.snapshot ∧ (d.commit s).raced = s.raced := by
  constructor
  · simp only [State.snapshot, State.run?, h.keeps.engine, h.keeps.args]
  · simp only [State.raced, State.run?, h.keeps.engine]

end Sys2Proof.Machine
end

