-- ==== Sys2Proof/Laws/Elements.lean ====
section
/-! SUPPORT. Everything a wire element can do: the command under way goes on, or it ends as the command it is ends. -/

namespace Sys2Proof.Machine

/-- The command goes on: only its progress has changed. -/
def State.OnlyProgress (s t : State) (r : Run) : Prop := ∃ q, t = s.setProgress r q

/-- A read ends: with an error, or with what some record reader has. -/
def State.ReadEnds (s t : State) : Prop := ∃ res : Except Stop Reader, s.finish .fdecRead (res.map fdecReadDone) = .next t

theorem State.afterRecord_cases {s t : State} {r : Run} {rd : Reader} (h : s.afterRecord r rd = .next t) :
    s.OnlyProgress t r ∨ s.ReadEnds t := by
  unfold State.afterRecord at h
  split at h
  · exact .inr ⟨.error _, h⟩
  · split at h
    · exact .inr ⟨.ok _, h⟩
    · exact .inl ⟨_, (Host.Outcome.next.inj h).symm⟩

/-- How a block's command ends. -/
def State.BlockEnds (s t : State) : BlockUse → Prop
  | .block => ∃ res : Except Stop Bytes, s.finish .blkDecode (res.map blkDecodeDone) = .next t
  | .session => ∃ res : Except Stop Bytes, s.finish .sesDec (res.map sesDecDone) = .next t
  | .frame _ _ => s.ReadEnds t

theorem State.afterParse_cases {s t : State} {r : Run} {use : BlockUse} {x : Parse}
    (h : s.afterParse r use x = .next t) : s.OnlyProgress t r ∨ s.BlockEnds t use := by
  unfold State.afterParse at h
  split at h
  · exact .inl ⟨_, (Host.Outcome.next.inj h).symm⟩
  · exact .inr ⟨.error _, h⟩
  · exact .inr ⟨.error _, h⟩
  · exact .inr ⟨.error _, h⟩
  · exact .inr ⟨.ok _, h⟩
  · exact .inr ⟨.ok _, h⟩
  · exact State.afterRecord_cases h

theorem State.inBlock_cases {s t : State} {phases : List ParserPhase} {f : Parser → Parse}
    (h : s.inBlock phases f = .next t) :
    ∃ r use p, s.engine = .running r ∧ r.progress = .block use p ∧ p.phase ∈ phases ∧ s.afterParse r use (f p) = .next t := by
  unfold State.inBlock at h
  repeat' split at h
  all_goals first
    | exact absurd h (by simp)
    | exact ⟨_, _, _, by assumption, by assumption, List.contains_iff_mem.mp (by assumption), h⟩

theorem State.inHeader_cases {s t : State} {ph : HeaderPhase} {f : Run → Fdec → Host.Outcome State Fault Refusal}
    (h : s.inHeader ph f = .next t) :
    ∃ r hr, s.engine = .running r ∧ r.progress = .header hr ∧ hr.phase = ph ∧ f r hr.t = .next t := by
  unfold State.inHeader at h
  repeat' split at h
  all_goals first
    | exact absurd h (by simp)
    | exact ⟨_, _, by assumption, by assumption, by assumption, h⟩

theorem State.inRecord_cases {s t : State} {f : Run → Reader → Host.Outcome State Fault Refusal}
    (h : s.inRecord f = .next t) :
    ∃ r rd, s.engine = .running r ∧ r.progress = .record rd ∧ f r rd = .next t := by
  unfold State.inRecord at h
  repeat' split at h
  all_goals first
    | exact absurd h (by simp)
    | exact ⟨_, _, by assumption, by assumption, h⟩

/-- Everything a wire element can do. -/
theorem element_cases {i : Instr} {s t : State} (hi : i ∉ commands) (h : exec i s = .next t) :
    ∃ r, s.engine = .running r ∧
      ((∃ use p, r.progress = .block use p ∧ (s.OnlyProgress t r ∨ s.BlockEnds t use)) ∨
        (∃ hr, r.progress = .header hr ∧ i.slot ∈ [Slot.magic, .flg, .bd, .hc] ∧
          (s.OnlyProgress t r ∨ ∃ res : Except Stop Fdec, s.finish .fdecOpen (res.map fdecOpenDone) = .next t)) ∨
        (∃ rd, r.progress = .record rd ∧ i.slot = .record ∧ (s.OnlyProgress t r ∨ s.ReadEnds t))) := by
  have block : ∀ {ph f}, s.inBlock ph f = .next t → ∃ r, s.engine = .running r ∧
      ∃ use p, r.progress = .block use p ∧ (s.OnlyProgress t r ∨ s.BlockEnds t use) := by
    intro ph f hb
    obtain ⟨r, use, p, he, hp, -, hx⟩ := State.inBlock_cases hb
    exact ⟨r, he, use, p, hp, State.afterParse_cases hx⟩
  rw [mem_commands] at hi
  cases i with
  | token | lenext | offset | seq | last =>
    obtain ⟨r, he, hx⟩ := block h
    exact ⟨r, he, .inl hx⟩
  | magic | flg =>
    simp only [exec, execMagic, execFlg] at h
    obtain ⟨r, hr, he, hp, -, hx⟩ := State.inHeader_cases h
    exact ⟨r, he, .inr (.inl ⟨hr, hp, by simp [Instr.slot], .inl ⟨_, (Host.Outcome.next.inj hx).symm⟩⟩)⟩
  | bd =>
    simp only [exec, execBd] at h
    obtain ⟨r, hr, he, hp, -, hx⟩ := State.inHeader_cases h
    refine ⟨r, he, .inr (.inl ⟨hr, hp, by simp [Instr.slot], ?_⟩)⟩
    split at hx
    · exact .inr ⟨.error _, hx⟩
    · exact .inl ⟨_, (Host.Outcome.next.inj hx).symm⟩
  | hc =>
    simp only [exec, execHc] at h
    obtain ⟨r, hr, he, hp, -, hx⟩ := State.inHeader_cases h
    exact ⟨r, he, .inr (.inl ⟨hr, hp, by simp [Instr.slot], .inr ⟨_, hx⟩⟩)⟩
  | blockwordLz4 =>
    simp only [exec, execBlockwordLz4] at h
    obtain ⟨r, rd, he, hp, hx⟩ := State.inRecord_cases h
    refine ⟨r, he, .inr (.inr ⟨rd, hp, rfl, ?_⟩)⟩
    split at hx
    · exact .inr ⟨.error _, hx⟩
    · exact .inl ⟨_, (Host.Outcome.next.inj hx).symm⟩
  | blockwordRaw | endMark =>
    simp only [exec, execBlockwordRaw, execEndMark] at h
    obtain ⟨r, rd, he, hp, hx⟩ := State.inRecord_cases h
    refine ⟨r, he, .inr (.inr ⟨rd, hp, rfl, ?_⟩)⟩
    split at hx
    · exact .inr ⟨.error _, hx⟩
    · exact State.afterRecord_cases hx
  | _ => exact absurd rfl hi

end Sys2Proof.Machine
end

