-- ==== Sys2Proof/Laws/Frames.lean ====
section
/-! SUPPORT. What the frame encoder emits, in the words of spec/42_frame_encoder.md R195 to R199. -/

namespace Sys2Proof.Machine

/-- Appending to the latest bytes is appending to all of them. -/
theorem lastBytes_append (k : Nat) (w d : Bytes) : lastBytes k (lastBytes k w ++ d) = lastBytes k (w ++ d) := by
  unfold lastBytes
  rw [List.drop_append, List.drop_append, List.drop_drop, List.length_append, List.length_append, List.length_drop]
  congr 2 <;> omega

theorem lastBytes_short {k : Nat} {w : Bytes} (h : w.length ≤ k) : lastBytes k w = w := by
  unfold lastBytes
  rw [Nat.sub_eq_zero_of_le h, List.drop_zero]

theorem Fenc.history_eq (f : Fenc) (w : Bytes) : f.history w = if f.flg.getLsbD 5 then f.dict else w := rfl

/-- `EmitBlock` is R195's record. -/
theorem emitBlock_eq (c : Config) (f : Fenc) (blk h : Bytes) (hb : blk.length < 2 ^ 31) :
    emitBlock c f blk h = recordOf c f blk h := by
  have raw : 0x80000000 ||| (BitVec.ofNat 31 blk.length).setWidth 32 = BitVec.ofNat 32 blk.length ||| 0x80000000 := by
    rw [BitVec.or_comm, BitVec.setWidth_ofNat_of_le_of_lt (by decide) hb]
  unfold emitBlock recordOf
  by_cases hz : blk.length ≤ (encodeBlock c blk h f.level).length
  · simp only [hz, decide_true, if_true, encode, raw, bCsum]
  · have hl : (encodeBlock c blk h f.level).length < 2 ^ 31 := by omega
    simp only [hz, decide_false, Bool.false_eq_true, if_false, encode, BitVec.setWidth_ofNat_of_le_of_lt (by decide : 31 ≤ 32) hl,
      bCsum]

/-- The window slides over the next block of a buffer. -/
theorem Fenc.slide_windowAt (f : Fenc) (buf : Bytes) (m n : Nat) :
    f.slide (windowAt f buf m) ((buf.drop m).take n) = windowAt f buf (m + n) := by
  unfold Fenc.slide windowAt bIndep
  split
  · rfl
  · rw [winAppend, winSize, lastBytes_append, List.append_assoc, ← List.take_add]

/-- The blocks of a buffer from byte `m` on. -/
theorem emitBlocks_from (c : Config) (f : Fenc) (hb : f.bs < 2 ^ 31) (buf : Bytes) (k : Nat) : ∀ m : Nat,
    emitBlocks c f k (buf.drop m) (windowAt f buf m) =
      ((List.range k).flatMap fun j => recordOf c f ((buf.drop (m + j * f.bs)).take f.bs)
          (if f.flg.getLsbD 5 then f.dict else windowAt f buf (m + j * f.bs)),
        buf.drop (m + k * f.bs), windowAt f buf (m + k * f.bs)) := by
  induction k with
  | zero => intro m; simp [emitBlocks]
  | succ k ih =>
    intro m
    have hl : ((buf.drop m).take f.bs).length < 2 ^ 31 := by rw [List.length_take]; omega
    simp only [emitBlocks, List.drop_drop, Fenc.slide_windowAt, ih, emitBlock_eq c f _ _ hl, Fenc.history_eq]
    have e : ∀ j, m + f.bs + j * f.bs = m + (j + 1) * f.bs := fun j => by rw [Nat.succ_mul]; omega
    simp only [e, List.range_succ_eq_map, List.flatMap_cons, List.flatMap_map, Nat.zero_mul, Nat.add_zero]

/-- The records of `k` blocks are those of R196 and R198. -/
theorem emitBlocks_eq (c : Config) (f : Fenc) (hb : f.bs < 2 ^ 31) (hw : f.win.length ≤ 65536) (buf : Bytes) (k : Nat) :
    emitBlocks c f k buf f.win = (recordsOf c f buf k, buf.drop (k * f.bs), windowAt f buf (k * f.bs)) := by
  have h0 : windowAt f buf 0 = f.win := by
    unfold windowAt
    rw [List.take_zero, List.append_nil, lastBytes_short hw, ite_self]
  have h := emitBlocks_from c f hb buf k 0
  rw [h0, List.drop_zero] at h
  simpa [recordsOf] using h

/-- What `FENC_CLOSE` emits is R199's. -/
theorem closing_eq (c : Config) (f : Fenc) (hb : f.stage.length < 2 ^ 31) : closing c f = closingOf c f := by
  unfold closing closingOf
  rw [emitBlock_eq c f _ _ hb]
  rfl

theorem blockMax_lt (id : Nat) : blockMax id < 2 ^ 31 := by
  unfold blockMax
  split <;> decide

/-- The block size of an open frame. -/
theorem Fenc.Ok.bs_pos {c : Config} {f : Fenc} (h : f.Ok c) (ho : f.isOpen) : 0 < f.bs ∧ f.bs < 2 ^ 31 := by
  have hh := h.header ho
  rw [hh.2]
  refine ⟨?_, blockMax_lt _⟩
  have hl := (of_decide_eq_true hh.1).2.2
  have hlt : bdCode f.bd < 8 := (f.bd.extractLsb' 4 3).isLt
  generalize bdCode f.bd = n at *
  have : n = 4 ∨ n = 5 ∨ n = 6 ∨ n = 7 := by omega
  rcases this with rfl | rfl | rfl | rfl <;> decide

end Sys2Proof.Machine
end

