-- ==== Sys2Proof/Laws/Free.lean ====
section
/-! SUPPORT. The free contexts of an outcome over memory with read side effects (spec/20_memory.md R66) are contexts the invariant
allows. -/

namespace Sys2Proof.Machine

theorem drawStore_length (nonce k cap : Nat) : (drawStore nonce k cap).length ≤ cap := by
  have := Nat.mod_lt (drawNat nonce k) (show 0 < cap + 1 by omega)
  simp only [drawStore, freeBytes, List.length_map, List.length_range]
  omega

theorem anySession_ok (nonce : Nat) : (anySession nonce).Ok := by
  unfold anySession
  refine ⟨drawStore_length _ _ _, ?_, ?_, ?_⟩ <;> dsimp only
  · split <;> exact drawStore_length _ _ _
  · intro h
    rw [if_neg]
    simp [h]
  · intro h
    exact ⟨if_neg fun hn => hn.2 h, if_pos h⟩

theorem flgByte_bits (a b c d e : Bool) : flgByte a b c d e &&& 0xC2 = 0x40 := by
  revert a b c d e
  decide

theorem anyBd_bits {c : Config} (h : c.legal = true) (nonce : Nat) :
    anyBd c nonce &&& 0x8F = 0 ∧ 4 ≤ bdCode (anyBd c nonce) ∧ bdCode (anyBd c nonce) ≤ c.bsizeIdMax := by
  simp only [Config.legal, decide_eq_true_iff] at h
  unfold anyBd
  have hm := Nat.mod_lt (drawNat nonce 9) (show 0 < c.bsizeIdMax - 3 by omega)
  generalize hk : 4 + drawNat nonce 9 % (c.bsizeIdMax - 3) = k
  have key : ∀ k, 4 ≤ k → k ≤ 7 →
      (BitVec.ofNat 8 k <<< 4 : Byte) &&& 0x8F = 0 ∧ bdCode (BitVec.ofNat 8 k <<< 4) = k := by
    intro k h4 h7
    interval_cases k <;> decide
  obtain ⟨h1, h2⟩ := key k (by omega) (by omega)
  exact ⟨h1, by omega, by omega⟩

/-- A free header has no reserved value. -/
theorem anyHeader_legal {c : Config} (h : c.legal = true) (nonce : Nat) :
    headerLegal c (anyFlg nonce) (anyBd c nonce) = true := by
  obtain ⟨h1, h2, h3⟩ := anyBd_bits h nonce
  exact decide_eq_true_iff.mpr ⟨flgByte_bits _ _ _ _ _, h1, h2, h3⟩

theorem blockMax_anyBd {c : Config} (h : c.legal = true) (nonce : Nat) : 0 < blockMax (bdCode (anyBd c nonce)) := by
  obtain ⟨-, h2, h3⟩ := anyBd_bits h nonce
  simp only [Config.legal, decide_eq_true_iff] at h
  generalize bdCode (anyBd c nonce) = k at *
  have : k ≤ 7 := by omega
  interval_cases k <;> decide

theorem anyFenc_ok {c : Config} (h : c.legal = true) (nonce : Nat) : (anyFenc c nonce).Ok c := by
  unfold anyFenc
  refine ⟨drawStore_length _ _ _, drawStore_length _ _ _, rfl, fun _ => ⟨anyHeader_legal h nonce, rfl⟩, fun _ => ?_, ?_⟩ <;>
    dsimp only
  · have := blockMax_anyBd h nonce
    have := drawStore_length nonce 16 (blockMax (bdCode (anyBd c nonce)) - 1)
    split
    · simpa using blockMax_anyBd h nonce
    · omega
  · intro hs
    refine ⟨if_pos hs, fun hc => ?_⟩
    rw [if_pos ⟨hs, hc⟩]

theorem anyFdec_ok (c : Config) (nonce : Nat) : (anyFdec c nonce).Ok :=
  ⟨drawStore_length _ _ _, drawStore_length _ _ _, rfl⟩

/-- AWAITING_HEADER is never drawn (spec/10_state.md R49). -/
theorem anyFdec_st (c : Config) (nonce : Nat) : (anyFdec c nonce).st ≠ .awaitingHeader := by
  show [FdecState.idle, .readingBlocks, .finished].getD (drawNat nonce 10) .error ≠ _
  generalize drawNat nonce 10 = k
  rcases k with _ | _ | _ | k <;> simp

theorem anyFdec_open {c : Config} (h : c.legal = true) (nonce : Nat) : (anyFdec c nonce).Open c := by
  have hb := Nat.mod_lt (drawNat nonce 17) (show 0 < addrSpace by decide)
  unfold anyFdec
  refine ⟨?_, Nat.min_le_right _ _, anyHeader_legal h nonce, rfl, ?_, ?_⟩ <;> dsimp only
  · omega
  · split
    · exact Nat.zero_le _
    · exact drawStore_length _ _ _
  · intro hs
    refine ⟨if_pos hs, fun hc => ?_⟩
    rw [if_pos ⟨hs, hc⟩]

/-- The registers beside a free open frame mirror it (spec/10_state.md R36 to R39). -/
theorem anyFdecRegs_open {t : Fdec} (h : t.isOpen) (nonce : Nat) : anyFdecRegs t nonce = t.regs := if_pos h

end Sys2Proof.Machine
end

