-- ==== Sys2Proof/Laws/PerInstr.lean ====
section
/-! SUPPORT. One fact about every instruction as syntax: how many bytes its encoding has. The parsers' bounds on the number of
elements rest on it (log entry 18). -/

namespace Sys2Proof.Laws.EncodeLength

/-- The bytes an element of a slot has (spec/30_encoding.md R81, R85, R86, R91 to R95); none where the bytes themselves say. -/
def slotBytes : Slot → Option Nat
  | .command | .magic | .record => some 4
  | .offset => some 2
  | .token | .flg | .bd | .hc => some 1
  | .lenext | .sequence => none

/-- An encoding is never empty, and has the bytes its slot gives. -/
def Statement (i : Instr) : Prop :=
  0 < (encode i).length ∧ ∀ n, slotBytes i.slot = some n → (encode i).length = n

theorem le32_length (w : Word) : (le32 w).length = 4 := rfl

theorem of_word {i : Instr} (w : Word) (h : encode i = le32 w) (hs : slotBytes i.slot = some 4) : Statement i := by
  refine ⟨by rw [h, le32_length]; omega, fun n hn => ?_⟩
  rw [hs] at hn
  rw [h, le32_length, Option.some.inj hn]

theorem of_byte {i : Instr} (b : Byte) (h : encode i = [b]) (hs : slotBytes i.slot = some 1) : Statement i := by
  refine ⟨by simp [h], fun n hn => ?_⟩
  rw [hs] at hn
  rw [h, ← Option.some.inj hn]
  rfl

theorem of_open {i : Instr} (h : encode i ≠ []) (hs : slotBytes i.slot = none) : Statement i :=
  ⟨List.length_pos_iff.mpr h, fun n hn => by rw [hs] at hn; exact absurd hn (by simp)⟩

theorem blkBound : Statement .blkBound := of_word _ rfl rfl
theorem blkEncode : Statement .blkEncode := of_word _ rfl rfl
theorem blkDecode : Statement .blkDecode := of_word _ rfl rfl
theorem sesEncReset : Statement .sesEncReset := of_word _ rfl rfl
theorem sesEncResetLinked : Statement .sesEncResetLinked := of_word _ rfl rfl
theorem sesEnc : Statement .sesEnc := of_word _ rfl rfl
theorem sesDecReset : Statement .sesDecReset := of_word _ rfl rfl
theorem sesDecResetLinked : Statement .sesDecResetLinked := of_word _ rfl rfl
theorem sesDec : Statement .sesDec := of_word _ rfl rfl
theorem fencOpen : Statement .fencOpen := of_word _ rfl rfl
theorem fencWrite : Statement .fencWrite := of_word _ rfl rfl
theorem fencClose : Statement .fencClose := of_word _ rfl rfl
theorem fdecOpen : Statement .fdecOpen := of_word _ rfl rfl
theorem fdecRead : Statement .fdecRead := of_word _ rfl rfl
theorem fdecReadToEnd : Statement .fdecReadToEnd := of_word _ rfl rfl
theorem token (ll ml : BitVec 4) : Statement (.token ll ml) := of_byte _ rfl rfl
theorem lenext (ffs : Nat) (final : Byte) : Statement (.lenext ffs final) := of_open (by simp [encode, extBytes]) rfl
theorem offset (off : BitVec 16) : Statement (.offset off) :=
  ⟨by simp [encode, le16], fun n hn => by rw [← Option.some.inj (show some 2 = some n from hn)]; rfl⟩
theorem seq (lit : Bytes) (off : BitVec 16) (len : Nat) : Statement (.seq lit off len) := of_open (by simp [encode]) rfl
theorem last (lit : Bytes) : Statement (.last lit) := of_open (by simp [encode]) rfl
theorem magic : Statement .magic := of_word _ rfl rfl
theorem flg (bIndep bCsum cSize cCsum dictId : Bool) : Statement (.flg bIndep bCsum cSize cCsum dictId) :=
  of_byte _ rfl rfl
theorem bd (id : BitVec 3) : Statement (.bd id) := of_byte _ rfl rfl
theorem hc (sum : Byte) : Statement (.hc sum) := of_byte _ rfl rfl
theorem blockwordLz4 (size : BitVec 31) : Statement (.blockwordLz4 size) := of_word _ rfl rfl
theorem blockwordRaw (size : BitVec 31) : Statement (.blockwordRaw size) := of_word _ rfl rfl
theorem endMark : Statement .endMark := of_word _ rfl rfl

end Sys2Proof.Laws.EncodeLength
end

