-- ==== Sys2Proof/Laws/Progress.lean ====
section
/-! SUPPORT. Only memory that is not there keeps a command from completing (spec/70_reset_and_hazards.md R306): no body whose regions
are mapped gets stuck. -/

namespace Sys2Proof.Machine

/-- `x` is not stuck, and where it succeeds its value meets `P`. -/
def Gives {α : Type} (P : α → Prop) (x : Except Stop α) : Prop :=
  match x with
  | .ok a => P a
  | .error (.err _) => True
  | .error .stuck => False

theorem Gives.ok {α : Type} {P : α → Prop} {a : α} (h : P a) : Gives P (.ok a) := h

theorem Gives.err {α : Type} {P : α → Prop} {c : ErrCode} : Gives P (.error (.err c)) := trivial

theorem Gives.bind {α β : Type} {P : α → Prop} {Q : β → Prop} {x : Except Stop α} {f : α → Except Stop β} (hx : Gives P x)
    (hf : ∀ a, P a → Gives Q (f a)) : Gives Q (x >>= f) := by
  cases x with
  | ok a => exact hf a hx
  | error e => cases e with
    | err c => exact trivial
    | stuck => exact hx.elim

theorem Gives.ite {α : Type} {P : α → Prop} {p : Prop} [Decidable p] {x y : Except Stop α} (hx : p → Gives P x)
    (hy : ¬p → Gives P y) : Gives P (if p then x else y) := by
  by_cases h : p
  · rw [if_pos h]; exact hx h
  · rw [if_neg h]; exact hy h

/-- Whether a stop is one that is not stuck. -/
abbrev Ends {α : Type} (x : Except Stop α) : Prop := Gives (fun _ => True) x

theorem Ends.ok {α : Type} {a : α} : Ends (.ok a) := trivial

theorem raised_ends {α : Type} (x : Except ErrCode α) : Ends (raised x) := by
  cases x <;> exact trivial

theorem fitOut_ends (A : Args) (d : Done) : Ends (fitOut A d) := .ite (fun _ => .err) (fun _ => .ok trivial)

/-! ## Reads -/

/-- No byte of a region is unmapped or in the register window, and it fits the address space. -/
structure State.Backed (s : State) (r : Region) : Prop where
  fits : r.1 + r.2 ≤ 2 ^ 32
  apart : ∀ w ∈ (s.cfg.csrBase, csrWindow) :: s.cfg.holes, Region.meets r w = false

theorem State.Backed.accessible {s : State} {r : Region} (h : s.Backed r) {a n : Nat} (ha : r.1 ≤ a) (hn : a + n ≤ r.1 + r.2) :
    accessible s.cfg r a n = true := by
  have hall : Machine.accessible s.cfg r r.1 r.2 = true := by
    simp only [Machine.accessible, backs, coversCsr, Bool.and_eq_true, Bool.not_eq_true', List.any_eq_false, Bool.not_eq_true]
    exact ⟨⟨(Region.fits_iff _ _).mpr h.fits, h.apart⟩, h.apart _ (List.mem_cons_self ..)⟩
  obtain ⟨i, rfl⟩ := Nat.exists_eq_add_of_le ha
  exact accessible_sub (by omega) hall

theorem State.Backed.memRead {s : State} {r : Region} (h : s.Backed r) (use : Nat) {a n : Nat} (ha : r.1 ≤ a)
    (hn : a + n ≤ r.1 + r.2) : Ends (s.memRead use r a n) := by
  unfold State.memRead
  rw [if_pos (h.accessible ha hn)]
  exact trivial

theorem State.Backed.readSrc {s : State} {A : Args} (h : s.Backed A.src) : Ends (s.readSrc A) :=
  h.memRead _ le_rfl le_rfl

theorem State.Backed.readDict {s : State} {A : Args} (h : s.Backed A.dict) : Ends (s.readDict A) :=
  h.memRead _ (Nat.le_add_right ..) (by simp only [Args.dict, winSize]; omega)

/-! ## The header parser -/

theorem parseHeader_ends {s : State} {t : Fdec} (hst : t.st = .awaitingHeader) (h : s.Backed (t.base, t.len)) :
    Ends (parseHeader s t) := by
  have read : ∀ (u : Fdec), u.st = .awaitingHeader → u.base = t.base → u.len = t.len → ∀ use i n, i + n ≤ t.len →
      Ends (s.readFrame use u i n) := by
    intro u h1 h2 h3 use i n hn
    unfold State.readFrame State.frameRegion
    rw [if_pos h1, h2, h3]
    exact h.memRead _ (Nat.le_add_right ..) (by simp only; omega)
  unfold parseHeader headerMagic headerBytes headerSumByte headerSum
  refine .bind (P := fun _ => True) (.ite (fun _ => .err) fun hn => .bind (read t hst rfl rfl _ _ _ (by omega)) fun _ _ =>
    .ite (fun _ => .ok trivial) (fun _ => .err)) fun _ _ => ?_
  refine .bind (P := fun u => u.st = .awaitingHeader ∧ u.base = t.base ∧ u.len = t.len)
    (.ite (fun _ => .err) fun hn => .bind (read t hst rfl rfl _ _ _ (by omega)) fun _ _ =>
      .ite (fun _ => .ok ⟨hst, rfl, rfl⟩) (fun _ => .err)) fun u hu => ?_
  obtain ⟨h1, h2, h3⟩ := hu
  have hl : 7 ≤ headerLength u.flg := by unfold headerLength; omega
  refine .bind (P := fun _ => headerLength u.flg ≤ t.len) (.ite (fun _ => .err) fun hn => ?_) fun b hb => ?_
  · have := read u h1 h2 h3 useFrame (headerLength u.flg - 1) 1 (by omega)
    revert this
    cases s.readFrame useFrame u (headerLength u.flg - 1) 1 with
    | ok a => exact fun _ => Gives.ok (by omega)
    | error e => cases e with
      | err c => exact fun _ => trivial
      | stuck => exact fun h => h.elim
  · exact .bind (read u h1 h2 h3 _ _ _ (by omega)) fun _ _ =>
      .ite (fun _ => .bind (read u h1 h2 h3 _ _ _ (by omega)) fun _ _ => .ok trivial) (fun _ => .err)

/-! ## The record reader -/

/-- A working copy of the frame decoder reads what the context's cursor has not passed. -/
structure Fdec.Follows (t : Fdec) (s : State) : Prop where
  base : t.base = s.fdec.base
  len : t.len = s.fdec.len
  pos : s.fdec.pos ≤ t.pos
  st : t.st ≠ .awaitingHeader

section
variable {s : State} (h : s.Backed (s.fdec.base + s.fdec.pos, s.fdec.len - s.fdec.pos))
include h

theorem readFrame_ends {t : Fdec} (ht : t.Follows s) (use : Nat) {i n : Nat} (hi : t.pos ≤ i) (hn : i + n ≤ t.len) :
    Ends (s.readFrame use t i n) := by
  have := ht.pos
  have := ht.len
  unfold State.readFrame State.frameRegion
  rw [if_neg ht.st, ht.base]
  exact h.memRead _ (by simp only; omega) (by simp only; omega)

theorem recordPayload_gives {t : Fdec} (ht : t.Follows s) (n : Nat) :
    Gives (fun x => t.pos ≤ x.2) (recordPayload s t n) := by
  unfold recordPayload
  dsimp only
  refine .ite (fun _ => .err) fun _ => .ite (fun _ => .err) fun hl => ?_
  refine .bind (readFrame_ends h ht _ (by omega) (by omega)) fun _ _ => .ite (fun hb => ?_) (fun _ => .ok (by simp only; omega))
  rw [if_pos hb] at hl
  exact .bind (readFrame_ends h ht _ (by omega) (by omega)) fun _ _ => .ite (fun _ => .ok (by simp only; omega)) (fun _ => .err)

theorem nextRecord_gives {t : Fdec} (ht : t.Follows s) : Gives (Fdec.Follows · s) (nextRecord s t) := by
  have accept : ∀ (blk : Bytes) (next : Nat), t.pos ≤ next → (t.accept blk next).Follows s :=
    fun _ _ hn => ⟨ht.base, ht.len, ht.pos.trans hn, ht.st⟩
  unfold nextRecord recordWord
  refine .bind (P := fun _ => True) (.ite (fun _ => .err) fun hn =>
    .bind (readFrame_ends h ht _ le_rfl (by omega)) fun _ _ => .ok trivial) fun w _ => .ite (fun _ => ?_) fun _ =>
      .ite (fun _ => ?_) (fun _ => ?_)
  · unfold endOfFrame trailer
    refine .bind (P := fun q => t.pos ≤ q) (.ite (fun _ => .ite (fun _ => .err) fun hn => ?_) (fun _ => .ok (by omega))) fun q hq =>
      .ite (fun _ => .err) (fun _ => .ok ⟨ht.base, ht.len, ht.pos.trans hq, by simp⟩)
    exact .bind (readFrame_ends h ht _ (by omega) (by omega)) fun _ _ => .ite (fun _ => .ok (by omega)) (fun _ => .err)
  · exact .bind (recordPayload_gives h ht _) fun x hx => .ok (accept _ _ hx)
  · exact .bind (recordPayload_gives h ht _) fun x hx => .bind (raised_ends _) fun _ _ => .ok (accept _ _ hx)

theorem readLoop_ends (n : Nat) : ∀ {rd : Reader}, rd.t.Follows s → Ends (readLoop s n rd) := by
  induction n with
  | zero => exact fun _ => .err
  | succ n ih =>
    intro rd hrd
    unfold readLoop
    refine .bind (P := fun r => r.t.Follows s) ?_ fun r hr => .ite (fun _ => .ok trivial) fun _ =>
      .bind (nextRecord_gives h hr) fun t ht => ih ht
    exact .ite (fun _ => .ok hrd) fun _ => .ite (fun _ => .err) (fun _ => .ok ⟨hrd.base, hrd.len, hrd.pos, hrd.st⟩)

end

/-! ## Every command -/

/-- Past its usage checks no body whose regions are mapped is stuck. -/
theorem body_ends {i : Instr} {s : State} {A : Args} (hi : i ∈ commands) (hu : usageError i s A = none)
    (h : ∀ r ∈ regionsRead i s A, s.Backed r) : Ends (bodyOf i s A) := by
  have run : ∀ (p : Parser) (f : Bytes → Done), Ends (raised (p.run (p.size + 1)) >>= fun out => .ok (f out)) :=
    fun p f => .bind (raised_ends _) fun _ _ => .ok trivial
  have hst : stateForbids i s = false := by
    unfold usageError at hu
    split at hu
    · exact absurd hu (by simp)
    · exact Bool.not_eq_true _ ▸ ‹_›
  rw [mem_commands] at hi
  cases i with
  | blkBound => exact Ends.ok
  | blkEncode =>
    exact .ite (fun _ => .err) fun _ => .bind (h _ (by simp [regionsRead])).readSrc fun _ _ =>
      .bind (h _ (by simp [regionsRead])).readDict fun _ _ => fitOut_ends A _
  | blkDecode =>
    exact .bind (.bind (h _ (by simp [regionsRead])).readSrc fun _ _ =>
      .bind (h _ (by simp [regionsRead])).readDict fun _ _ => Ends.ok) fun p _ => run p _
  | sesEncReset | sesEncResetLinked | sesDecReset | sesDecResetLinked =>
    exact .bind (h _ (by simp [regionsRead])).readDict fun _ _ => .ok trivial
  | sesEnc => exact .ite (fun _ => .err) fun _ => .bind (h _ (by simp [regionsRead])).readSrc fun _ _ => fitOut_ends A _
  | sesDec => exact .bind (.bind (h _ (by simp [regionsRead])).readSrc fun _ _ => Ends.ok) fun p _ => run p _
  | fencOpen => exact .bind (h _ (by simp [regionsRead])).readDict fun _ _ => fitOut_ends A _
  | fencWrite => exact .bind (h _ (by simp [regionsRead])).readSrc fun _ _ => fitOut_ends A _
  | fencClose => exact .ite (fun _ => .ok trivial) fun _ => .ite (fun _ => .err) fun _ => fitOut_ends A _
  | fdecOpen =>
    exact .bind (h _ (by simp [regionsRead])).readDict fun d _ =>
      .bind (parseHeader_ends (t := Fdec.awaiting A d) rfl (h A.src (by simp [regionsRead]))) fun _ _ => .ok trivial
  | fdecRead | fdecReadToEnd =>
    refine .bind (readLoop_ends (h _ (by simp [regionsRead])) _ ⟨rfl, rfl, le_rfl, fun hs => ?_⟩) fun _ _ => .ok trivial
    simp [stateForbids, show s.fdec.st = .awaitingHeader from hs] at hst
  | token | lenext | offset | seq | last | magic | flg | bd | hc | blockwordLz4 | blockwordRaw | endMark =>
    exact absurd hi (by simp [Instr.slot])

/-- A command whose regions are mapped completes (R306). -/
theorem exec_completes {i : Instr} {s t : State} (hi : i ∈ commands) (hm : s.Mapped i) (h : exec i s = .next t) :
    t.engine = .idle := by
  rw [exec_command hi] at h
  cases hu : usageError i s s.snapshot with
  | some c =>
    rw [State.command_usage hu] at h
    exact Host.Outcome.next.inj h ▸ rfl
  | none =>
  have hr : ¬rangeBad i s s.snapshot = true := by
    unfold usageError at hu
    split at hu
    · exact absurd hu (by simp)
    split at hu
    · exact absurd hu (by simp)
    split at hu
    · exact absurd hu (by simp)
    · assumption
  rw [rangeBad_iff, not_or, not_and, not_exists] at hr
  have hb := body_ends hi hu fun r hmem =>
    ⟨Classical.byContradiction fun hf => hr.1 r ⟨hmem, hf⟩, fun w hw => (hm w hw).1 r hmem⟩
  rw [State.command_body hu] at h
  cases hd : bodyOf i s s.snapshot with
  | error e =>
    cases e with
    | stuck => rw [hd] at hb; exact hb.elim
    | err c =>
      rw [hd] at h
      obtain rfl := Host.Outcome.next.inj h
      exact State.settle_engine rfl i
  | ok d =>
    have hs := body_ok hd
    have ht : s.takes d.out := by
      cases hw : writesDst i with
      | false => exact .inl (hs.silent hw)
      | true =>
        have hdst := Classical.byContradiction (hr.2 hw)
        have hroom := hs.room
        refine .inr (State.Backed.accessible (r := s.snapshot.window) ⟨?_, fun w hmem => (hm w hmem).2 hw⟩ le_rfl ?_) <;>
          simp only [Args.window, Args.dstPoint, Args.room] at * <;> omega
    rw [hd] at h
    obtain rfl := Host.Outcome.next.inj ((if_pos ht).symm.trans h)
    exact State.settle_engine rfl i

end Sys2Proof.Machine
end

