-- ==== Sys2Proof/Tests/Slice0.lean ====
section
/-! SUPPORT. Tests of single operations and steps, with the results spec/95_test_vectors.md gives (V<n> names the vector) or the
encodings of spec/30_encoding.md. -/

namespace Sys2Proof.Tests

set_option Elab.async false

open Sys2Proof.Machine

/-! ## Small states -/

/-- "hello", "abc", and "abcdefghijklmnop", the X1 of section 4. -/
def hello : Bytes := [0x68, 0x65, 0x6C, 0x6C, 0x6F]
def abc : Bytes := [0x61, 0x62, 0x63]
def x1 : Bytes :=
  [0x61, 0x62, 0x63, 0x64, 0x65, 0x66, 0x67, 0x68, 0x69, 0x6A, 0x6B, 0x6C, 0x6D, 0x6E, 0x6F, 0x70]

/-- X1 with X1 as its history, encoded (V2.4). -/
def x1After : Bytes := [0x07, 0x10, 0x00, 0x50, 0x6C, 0x6D, 0x6E, 0x6F, 0x70]

/-- The frame of "hello" with a content checksum (V7.3). -/
def helloFrame : Bytes :=
  [0x04, 0x22, 0x4D, 0x18, 0x64, 0x40, 0xA7, 0x05, 0x00, 0x00, 0x80] ++ hello ++
    [0x00, 0x00, 0x00, 0x00, 0xF9, 0x77, 0x00, 0xFB]

/-- The registers of a command: a source of `n` bytes at 0x10000, no dictionary, a destination of 0x100 bytes at 0x200000. -/
def regs (n : Nat) : Args :=
  { Args.reset with srcAddr := 0x00010000, srcLen := BitVec.ofNat 32 n, dstAddr := 0x00200000, dstCap := 0x00000100 }

/-- After reset, with these registers and these bytes at 0x10000. -/
def mach (A : Args) (src : Bytes) : State := { State.reset with args := A, mem := Memory.write [] 0x10000 src }

/-- A command under way, its word latched with the registers as they are. -/
def State.under (s : State) (w : Word) (p : Progress) : State := { s with engine := .running ⟨w, s.args, [], p⟩ }

/-- A command about to run on a source. -/
def cmd (w : Word) (src : Bytes) : State := State.under (mach (regs src.length) src) w .start

/-- A successful step's STATUS and RESULT, and the bytes at the start of the destination. -/
def gives (status result : Word) (out : Bytes) (o : Host.Outcome State Fault Refusal) : Bool :=
  match o with
  | .next t => t.statusWord == status && t.result == result && Memory.bytes t.mem 0x200000 out.length == out
  | .fault _ | .refused _ => false

/-- What a next state is asked. -/
def sees (P : State → Bool) (o : Host.Outcome State Fault Refusal) : Bool :=
  match o with
  | .next t => P t
  | .fault _ | .refused _ => false

/-! ## WellFormed: an ill-formed term for each check -/

theorem test_wf_lenext_ends_below_255 : (Instr.lenext 1 255).wf = false := by decide
theorem test_wf_seq_needs_four_bytes : (Instr.seq [] 1 3).wf = false := by decide
theorem test_wf_bd_reserved_code : (Instr.bd 3).wf = false := by decide
theorem test_wf_blockword_zero_is_end_mark : (Instr.blockwordLz4 0).wf = false := by decide

/-! ## Decode: words of spec/30_encoding.md R81 (commands), R84 to R97 (elements) -/

theorem test_decode_blkBound : decode .command [0x01, 0x00, 0x00, 0x00] = .ok (.blkBound, []) := by rfl
theorem test_decode_blkEncode : decode .command [0x02, 0x00, 0x00, 0x00] = .ok (.blkEncode, []) := by rfl
theorem test_decode_blkDecode : decode .command [0x03, 0x00, 0x00, 0x00] = .ok (.blkDecode, []) := by rfl
theorem test_decode_sesEncReset : decode .command [0x04, 0x00, 0x00, 0x00] = .ok (.sesEncReset, []) := by rfl
theorem test_decode_sesEncResetLinked : decode .command [0x04, 0x01, 0x00, 0x00] = .ok (.sesEncResetLinked, []) := by rfl
theorem test_decode_sesEnc : decode .command [0x05, 0x00, 0x00, 0x00] = .ok (.sesEnc, []) := by rfl
theorem test_decode_sesDecReset : decode .command [0x06, 0x00, 0x00, 0x00] = .ok (.sesDecReset, []) := by rfl
theorem test_decode_sesDecResetLinked : decode .command [0x06, 0x01, 0x00, 0x00] = .ok (.sesDecResetLinked, []) := by rfl
theorem test_decode_sesDec : decode .command [0x07, 0x00, 0x00, 0x00] = .ok (.sesDec, []) := by rfl
theorem test_decode_fencOpen : decode .command [0x08, 0x00, 0x00, 0x00] = .ok (.fencOpen, []) := by rfl
theorem test_decode_fencWrite : decode .command [0x09, 0x00, 0x00, 0x00] = .ok (.fencWrite, []) := by rfl
theorem test_decode_fencClose : decode .command [0x0A, 0x00, 0x00, 0x00] = .ok (.fencClose, []) := by rfl
theorem test_decode_fdecOpen : decode .command [0x0B, 0x00, 0x00, 0x00] = .ok (.fdecOpen, []) := by rfl
theorem test_decode_fdecRead : decode .command [0x0C, 0x00, 0x00, 0x00] = .ok (.fdecRead, []) := by rfl
theorem test_decode_fdecReadToEnd : decode .command [0x0C, 0x02, 0x00, 0x00] = .ok (.fdecReadToEnd, []) := by rfl
theorem test_decode_token : decode .token [0x1F] = .ok (.token 1 15, []) := by rfl
theorem test_decode_lenext : decode .lenext [0xFF, 0xFF, 0x00, 0x61] = .ok (.lenext 2 0, [0x61]) := by rfl
theorem test_decode_offset : decode .offset [0x34, 0x12] = .ok (.offset 0x1234, []) := by rfl
/-- "1F 61 01 00 07" is SEQ("a", 1, 26) (V2.2). -/
theorem test_decode_seq :
    decode .sequence [0x1F, 0x61, 0x01, 0x00, 0x07, 0x50] = .ok (.seq [0x61] 1 26, [0x50]) := by rfl
/-- The last token's ML nibble is ignored (V3.1). -/
theorem test_decode_last : decode .sequence (0x57 :: hello) = .ok (.last hello, []) := by rfl
theorem test_decode_magic : decode .magic [0x04, 0x22, 0x4D, 0x18] = .ok (.magic, []) := by rfl
/-- FLG 0x6D: independent blocks, content size, content checksum, dictionary id (V5.2). -/
theorem test_decode_flg : decode .flg [0x6D] = .ok (.flg true false true true true, []) := by rfl
theorem test_decode_bd : decode .bd [0x70] = .ok (.bd 7, []) := by rfl
theorem test_decode_hc : decode .hc [0xB9] = .ok (.hc 0xB9, []) := by rfl
/-- The record word 0B 01 00 00 is a compressed block of 267 bytes (V6.5). -/
theorem test_decode_blockwordLz4 : decode .record [0x0B, 0x01, 0x00, 0x00] = .ok (.blockwordLz4 267, []) := by rfl
/-- The record word 00 00 00 80 is a stored block of no bytes (V7.4). -/
theorem test_decode_blockwordRaw : decode .record [0x00, 0x00, 0x00, 0x80] = .ok (.blockwordRaw 0, []) := by rfl
theorem test_decode_endMark : decode .record [0x00, 0x00, 0x00, 0x00] = .ok (.endMark, []) := by rfl

/-- The illegal words of V8.1. -/
theorem test_decode_illegal_words :
    [0x00000000, 0x0000000D, 0x0000001F, 0x00000020, 0x00000101, 0x00000105, 0x0000010C, 0x00000204, 0x00000304, 0x0000020B,
      0x00000400, 0x80000002, 0x00000109].map decodeCommand = List.replicate 13 none := by decide
/-- Reserved header values: FLG A4 and 66, BD C0, 41, 30 and 80 (V7.2). -/
theorem test_decode_reserved_flg : [0xA4, 0x66].map decodeFlg = List.replicate 2 (.error .reservedField) := by rfl
theorem test_decode_reserved_bd :
    [0xC0, 0x41, 0x30, 0x80].map decodeBd = List.replicate 4 (.error .reservedField) := by rfl
/-- Truncated elements (V3.2). -/
theorem test_decode_truncated :
    [decode .sequence [0xF0], decode .sequence [0x20, 0x61], decode .sequence [0x10, 0x61, 0x01],
      decode .sequence [0x1F, 0x61, 0x01, 0x00]] = List.replicate 4 (.error .truncated) := by rfl

/-! ## Commands, one step each -/

theorem test_blkBound : gives 0x00000002 1019 [] (step (State.under (mach (regs 1000) []) 0x1 .start)) = true := by decide
theorem test_blkBound_too_large :
    gives 0x00000002 0 [] (step (State.under (mach (regs 0x7E000001) []) 0x1 .start)) = true := by decide

/-- "a" x 13 (V2.2). -/
theorem test_blkEncode : gives 0x00000002 10 [0x13, 0x61, 0x01, 0x00, 0x50, 0x61, 0x61, 0x61, 0x61, 0x61]
    (step (cmd 0x2 (List.replicate 13 0x61))) = true := by decide +kernel
/-- A destination that is part of what the command reads (V8.4). -/
theorem test_blkEncode_overlap : gives 0x00000306 0 []
    (step (State.under (mach { regs 5 with srcAddr := 0x00200002 } []) 0x2 .start)) = true := by decide +kernel

/-- 04 04 00 00 with the dictionary "abcd" (V3.5). -/
theorem test_blkDecode_copyback : gives 0x00000002 8 [0x61, 0x62, 0x63, 0x64, 0x61, 0x62, 0x63, 0x64]
    (step (State.under (mach { regs 4 with dictAddr := 0x00010004, dictLen := 4 }
      [0x04, 0x04, 0x00, 0x00, 0x61, 0x62, 0x63, 0x64]) 0x3 .start)) = true := by decide +kernel
/-- The match length extension is missing, with a legal offset (V3.2). -/
theorem test_blkDecode_truncated :
    gives 0x00002206 0 [] (step (cmd 0x3 [0x1F, 0x61, 0x01, 0x00])) = true := by decide +kernel

/-- A session with X1 as its dictionary is FRESH, with X1 in its window (V4.3); an unlinked one too. -/
theorem test_sesEncReset : sees (fun t => t.statusWord == 0x2 && t.eses == ⟨.fresh, false, x1, x1, 0⟩)
    (step (State.under (mach { regs 0 with dictAddr := 0x00010000, dictLen := 16 } x1) 0x4 .start)) = true := by
  decide +kernel
theorem test_sesEncResetLinked : sees (fun t => t.statusWord == 0x2 && t.eses == ⟨.fresh, true, x1, x1, 0⟩)
    (step (State.under (mach { regs 0 with dictAddr := 0x00010000, dictLen := 16 } x1) 0x104 .start)) = true := by
  decide +kernel
theorem test_sesDecReset : sees (fun t => t.statusWord == 0x2 && t.dses == ⟨.fresh, false, x1, x1, 0⟩)
    (step (State.under (mach { regs 0 with dictAddr := 0x00010000, dictLen := 16 } x1) 0x6 .start)) = true := by
  decide +kernel
theorem test_sesDecResetLinked : sees (fun t => t.statusWord == 0x2 && t.dses == ⟨.fresh, true, x1, x1, 0⟩)
    (step (State.under (mach { regs 0 with dictAddr := 0x00010000, dictLen := 16 } x1) 0x106 .start)) = true := by
  decide +kernel

/-- A linked session after one block of X1. -/
def primed (s : State) : State := { s with eses := ⟨.primed, true, [], x1, 16⟩, dses := ⟨.primed, true, [], x1, 16⟩ }

/-- The second block of a linked session (V4.1), and of an unlinked one (V4.2). -/
theorem test_sesEnc_linked :
    gives 0x00050002 9 x1After (step (primed (cmd 0x5 x1))) = true ∧
    sees (fun t => t.eses == ⟨.primed, true, [], x1 ++ x1, 32⟩) (step (primed (cmd 0x5 x1))) = true := by decide +kernel
theorem test_sesEnc_unlinked : gives 0x00010002 18 ([0xF0, 0x01] ++ x1)
    (step { cmd 0x5 x1 with eses := ⟨.primed, false, [], [], 16⟩ }) = true := by decide +kernel
theorem test_sesDec_linked :
    gives 0x00050002 16 x1 (step (primed (cmd 0x7 x1After))) = true ∧
    sees (fun t => t.dses == ⟨.primed, true, [], x1 ++ x1, 32⟩) (step (primed (cmd 0x7 x1After))) = true := by
  decide +kernel
/-- The second block without the first (V4.4, P4). -/
theorem test_sesDec_without_history : gives 0x00082406 0 [] (step (cmd 0x7 x1After)) = true := by decide +kernel

/-- FCFG 0x4064 (V6.1). -/
theorem test_fencOpen : gives 0x00100002 7 [0x04, 0x22, 0x4D, 0x18, 0x64, 0x40, 0xA7]
    (step (State.under (mach { regs 0 with fcfg := 0x4064 } []) 0x8 .start)) = true := by decide +kernel
/-- FCFG outranks the dictionary region (V8.5). -/
theorem test_fencOpen_bad_config : gives 0x00000506 0 []
    (step (State.under (mach { regs 0 with dictAddr := 0xFFFFFFFF, dictLen := 2 } []) 0x8 .start)) = true := by
  decide +kernel

/-- A frame with flags, opened, with bytes staged. -/
def staged (flg : Byte) (bytes : Bytes) (s : State) : State :=
  { s with fenc := { Fenc.reset with
      st := .writing, flg := flg, bd := 0x40, bs := 65536, stage := bytes, plain := bytes,
      total := BitVec.ofNat 64 bytes.length } }

/-- A write that completes no block (V6.3). -/
theorem test_fencWrite :
    gives 0x00200002 0 [] (step (staged 0x64 [0x68, 0x65, 0x6C] (cmd 0x9 [0x6C, 0x6F]))) = true ∧
    sees (fun t => t.fenc.stage == hello && t.fenc.total == 5)
      (step (staged 0x64 [0x68, 0x65, 0x6C] (cmd 0x9 [0x6C, 0x6F]))) = true := by decide +kernel
/-- The end of a frame with both checksums (V6.4). -/
theorem test_fencClose : gives 0x00300002 21
    ([0x05, 0x00, 0x00, 0x80] ++ hello ++ [0xF9, 0x77, 0x00, 0xFB, 0x00, 0x00, 0x00, 0x00, 0xF9, 0x77, 0x00, 0xFB])
    (step (staged 0x74 hello (cmd 0xA []))) = true := by decide +kernel
/-- A content size that is not the frame's (V6.8). -/
theorem test_fencClose_content_size :
    gives 0x00403706 0 [] (step (let s := staged 0x6C hello (cmd 0xA []); { s with fenc.csize := 6 })) = true := by
  decide +kernel

/-- The header with a dictionary id (V7.8). -/
theorem test_fdecOpen :
    sees (fun t => t.statusWord == 0x02000002 && t.result == 11 && t.fregs == ⟨0x4061, 0, 0, 0x12345678, 0xB⟩)
      (step (cmd 0xB [0x04, 0x22, 0x4D, 0x18, 0x61, 0x40, 0x78, 0x56, 0x34, 0x12, 0xE8, 0x00, 0x00, 0x00, 0x00])) = true := by
  decide +kernel
/-- The header checksum with the magic taken in (V7.2). -/
theorem test_fdecOpen_checksum : gives 0x04003206 0 []
    (step (cmd 0xB [0x04, 0x22, 0x4D, 0x18, 0x64, 0x40, 0x0C, 0x00, 0x00, 0x00, 0x00, 0x05, 0x5D, 0xCC, 0x02])) = true := by
  decide +kernel

/-- A frame decoder at the first record of a frame at 0x10000 whose header has 7 bytes. -/
def reading (flg : Byte) (n : Nat) : Fdec :=
  { Fdec.reset with st := .readingBlocks, base := 0x10000, len := n, pos := 7, flg := flg, bd := 0x40, bs := 65536 }

/-- A read of the frame of "hello" after `FDEC_OPEN`. -/
def readHello (w readLen : Word) : State :=
  { State.under (mach { regs 0 with readLen := readLen } helloFrame) w .start with
    fdec := reading 0x64 24, fregs := ⟨0x4064, 0, 0, 0, 7⟩ }

/-- The first row of V7.3: two bytes delivered, three pending, the End Mark not read. -/
theorem test_fdecRead :
    gives 0x02000002 2 [0x68, 0x65] (step (readHello 0xC 2)) = true ∧
    sees (fun t => t.fregs.srcPos == 0x10 && t.fdec.pend == [0x6C, 0x6C, 0x6F]) (step (readHello 0xC 2)) = true := by
  decide +kernel
theorem test_fdecReadToEnd :
    gives 0x03000002 5 hello (step (readHello 0x20C 0)) = true ∧
    sees (fun t => t.fregs.srcPos == 0x18) (step (readHello 0x20C 0)) = true := by decide +kernel

/-! ## Wire elements, one step each -/

/-- A block of `BLK_DECODE` in the middle: the bytes left, the output so far, the phase, the ML nibble and the offset. -/
def inside (rest out : Bytes) (ph : ParserPhase) (ml : BitVec 4) (off : Nat) : State :=
  { State.under (mach (regs 0) []) 0x3 (.block .block ⟨[], 0x100, 16, rest, out, ph, ml, off⟩) with
    turns := [.engine .element] }

/-- The parser after a step. -/
def parser (P : Parser → Bool) (t : State) : Bool :=
  match t.run? with
  | some ⟨_, _, _, .block _ p⟩ => P p
  | _ => false

/-- 35 and its three literals (R103). -/
theorem test_token : sees (parser fun p => p.out == abc && p.rest == [0x03, 0x00, 0x00] && p.phase == .offset && p.ml == 5)
    (step (inside ([0x35] ++ abc ++ [0x03, 0x00, 0x00]) [] .token 0 0)) = true := by decide +kernel
/-- 10 61 ends the block (V3.1). -/
theorem test_token_last : gives 0x00000002 1 [0x61] (step (inside [0x10, 0x61] [] .token 0 0)) = true := by decide +kernel
/-- A literal length 15 + 1 (V2.2). -/
theorem test_lenext_literals : gives 0x00000002 16 x1 (step (inside (0x01 :: x1) [] .litExt 0 0)) = true := by
  decide +kernel
/-- A match length 15 + 7 + 4 = 26 at offset 1 (V2.2). -/
theorem test_lenext_match : sees (parser fun p => p.out == List.replicate 27 0x61 && p.phase == .token)
    (step (inside [0x07, 0x50] [0x61] .matchExt 15 1)) = true := by decide +kernel
theorem test_offset : sees (parser fun p => p.out == abc ++ abc ++ abc && p.rest == [0x00])
    (step (inside [0x03, 0x00, 0x00] abc .offset 2 0)) = true := by decide +kernel
/-- Offset 0 (V3.2). -/
theorem test_offset_zero : gives 0x00002306 0 [] (step (inside [0x00, 0x00] [0x61] .offset 0 0)) = true := by decide +kernel
theorem test_seq : sees (parser fun p => p.out == abc ++ abc ++ abc ++ abc && p.rest == [0x00])
    (step { inside ([0x35] ++ abc ++ [0x03, 0x00, 0x00]) [] .token 0 0 with turns := [.engine .sequence] }) = true := by
  decide +kernel
theorem test_last : gives 0x00000002 8 (abc ++ hello)
    (step { inside (0x57 :: hello) abc .token 0 0 with turns := [.engine .sequence] }) = true := by decide +kernel

/-- `FDEC_OPEN` of the frame of "hello" in the middle of its header. -/
def inHeader (ph : HeaderPhase) (flg bd : Byte) : State :=
  { State.under (mach (regs 24) helloFrame) 0xB
      (.header ⟨ph, { Fdec.awaiting (regs 24) [] with flg := flg, bd := bd }⟩) with
    turns := [.engine .element] }

/-- The header parser after a step. -/
def header (P : HeaderRun → Bool) (t : State) : Bool :=
  match t.run? with
  | some ⟨_, _, _, .header h⟩ => P h
  | _ => false

theorem test_magic : sees (header fun h => h.phase == .flg) (step (inHeader .magic 0 0)) = true := by decide +kernel
theorem test_flg : sees (header fun h => h.phase == .bd && h.t.flg == 0x64) (step (inHeader .flg 0 0)) = true := by
  decide +kernel
theorem test_bd : sees (header fun h => h.phase == .hc && h.t.bd == 0x40) (step (inHeader .bd 0x64 0)) = true := by
  decide +kernel
/-- A size code above `BSIZE_ID_MAX` (R93): code 5 where the largest is 4. -/
theorem test_bd_above_the_largest :
    sees (fun t => t.lastError == some .headerReserved) (exec (.bd 5)
      (let s := inHeader .bd 0x64 0; { s with cfg.bsizeIdMax := 4 })) = true := by decide +kernel
theorem test_hc :
    sees (fun t => t.statusWord == 0x02000002 && t.result == 7 && t.fregs == ⟨0x4064, 0, 0, 0, 7⟩)
      (step (inHeader .hc 0x64 0x40)) = true := by decide +kernel

/-- `FDEC_READ.TO_END` at a record word. -/
def atRecord (flg : Byte) (src out plain : Bytes) : State :=
  { State.under (mach (regs 0) src) 0x20C (.record ⟨{ reading flg src.length with
      pos := 0, plain := plain, total := BitVec.ofNat 64 plain.length }, out, none, 0x100⟩) with
    turns := [.engine .element] }

/-- The record reader after a step. -/
def record (P : Reader → Bool) (t : State) : Bool :=
  match t.run? with
  | some ⟨_, _, _, .record rd⟩ => P rd
  | _ => false

theorem test_blockwordRaw : sees (record fun rd => rd.out == hello && rd.t.pos == 9 && rd.t.plain == hello)
    (step (atRecord 0x64 ([0x05, 0x00, 0x00, 0x80] ++ hello) [] [])) = true := by decide +kernel
/-- A wrong block checksum (V7.5). -/
theorem test_blockwordRaw_checksum : gives 0x04003406 0 []
    (step (atRecord 0x74 ([0x05, 0x00, 0x00, 0x80] ++ hello ++ [0xF8, 0x77, 0x00, 0xFB]) [] [])) = true := by
  decide +kernel
theorem test_blockwordLz4 : sees (parser fun p => p.rest == [0x10, 0x61] && p.cap == 65536 && p.phase == .token)
    (step (atRecord 0x60 [0x02, 0x00, 0x00, 0x00, 0x10, 0x61] [] [])) = true := by decide +kernel
/-- The End Mark and the content checksum of "hello" (V7.3). -/
theorem test_endMark :
    gives 0x03000002 5 hello
      (step (atRecord 0x64 [0x00, 0x00, 0x00, 0x00, 0xF9, 0x77, 0x00, 0xFB] hello hello)) = true := by decide +kernel
theorem test_endMark_checksum :
    gives 0x04003506 0 []
      (step (atRecord 0x64 [0x00, 0x00, 0x00, 0x00, 0xF9, 0x77, 0x00, 0xFA] hello hello)) = true := by decide +kernel

/-! ## Witnesses: a state and operands that meet the hypotheses of each obligation of Certificates/Slice0/Obligations.lean,
clause by clause, at a boundary value where a clause has a range -/

theorem witness_DecodeOfEncodeIsTheInstruction :
    (Instr.seq hello 65535 4).wf = true ∧ (∀ lit, Instr.seq hello 65535 4 = .last lit → ([0x50] : Bytes) = []) ∧
    (Instr.last hello).wf = true ∧ (∀ lit, Instr.last hello = .last lit → ([] : Bytes) = []) := by
  refine ⟨by decide, ?_, by decide, ?_⟩ <;> intro lit h
  · exact absurd h (by simp)
  · rfl

/-- The word 0x400: a reserved bit is set (V8.1). -/
theorem witness_CommandWords : ∃ r, (cmd 0x400 []).engine = .running r ∧ r.progress = .start ∧
    ∀ i, (r.word, i) ∉ commandTable :=
  ⟨_, rfl, rfl, by intro i h; simp [commandTable] at h⟩

theorem witness_LengthEncodingIsUnique :
    (14 : BitVec 4).toNat < 15 ∧ (254 : Byte).toNat < 255 ∧ nibbleLength 15 [0xFF, 0x00] = some (270, []) ∧
    nibbleLength 14 [] = some (14, []) ∧ nibbleLength 15 [0x00] = some (15, []) := by decide

theorem witness_StepRunsTheDecodedCommand : ∃ r, (cmd 0x3 []).engine = .running r ∧ r.progress = .start ∧
    decodeCommand r.word = some .blkDecode ∧ hasElements .blkDecode = true ∧ hasElements .blkEncode = false ∧
    (cmd 0x3 []).turns = [] ∧ ({ cmd 0x3 [] with turns := [.engine .element] } : State).turns = .engine .element :: [] :=
  ⟨_, rfl, rfl, by decide, rfl, rfl, rfl, rfl⟩

theorem witness_StepRunsTheDecodedElement :
    (∃ r use p, (inside [0x00, 0x01] [] .offset 0 0).engine = .running r ∧ r.progress = .block use p ∧
      (inside [0x00, 0x01] [] .offset 0 0).turns = [.engine .element] ∧
      decode p.phase.slot p.rest = .ok (.offset 0x100, [])) ∧
    (decode .sequence (0x50 :: hello) = .ok (.last hello, [])) ∧
    (∃ r h, (inHeader .magic 0 0).engine = .running r ∧ r.progress = .header h ∧ h.phase = .magic ∧
      (inHeader .magic 0 0).Calm ∧ (inHeader .magic 0 0).FrameBytes h.t 0 4 [0x04, 0x22, 0x4D, 0x18]) ∧
    (∃ r h, (inHeader .flg 0 0).engine = .running r ∧ r.progress = .header h ∧ h.phase = .flg ∧
      (inHeader .flg 0 0).FrameBytes h.t 4 2 [0x64, 0x40] ∧
      decode .flg [0x64, 0x40] = .ok (.flg true false false true false, [0x40])) ∧
    (∃ r h, (inHeader .bd 0x64 0).engine = .running r ∧ r.progress = .header h ∧ h.phase = .bd ∧
      (inHeader .bd 0x64 0).FrameBytes h.t 5 1 [0x40] ∧ decode .bd [0x40] = .ok (.bd 4, [])) ∧
    (∃ r h, (inHeader .hc 0x64 0x40).engine = .running r ∧ r.progress = .header h ∧ h.phase = .hc ∧
      (inHeader .hc 0x64 0x40).FrameBytes h.t (headerLength h.t.flg - 1) 1 [0xA7] ∧ decode .hc [0xA7] = .ok (.hc 0xA7, [])) ∧
    (∃ r rd, (atRecord 0x64 [0x00, 0x00, 0x00, 0x00] [] []).engine = .running r ∧ r.progress = .record rd ∧
      (atRecord 0x64 [0x00, 0x00, 0x00, 0x00] [] []).Calm ∧
      (atRecord 0x64 [0x00, 0x00, 0x00, 0x00] [] []).FrameBytes rd.t rd.t.pos 4 [0x00, 0x00, 0x00, 0x00]) := by
  refine ⟨⟨_, _, _, rfl, rfl, rfl, rfl⟩, rfl, ⟨_, _, rfl, rfl, rfl, ?_, ?_⟩, ⟨_, _, rfl, rfl, rfl, ?_, rfl⟩,
    ⟨_, _, rfl, rfl, rfl, ?_, rfl⟩, ⟨_, _, rfl, rfl, rfl, ?_, rfl⟩, ⟨_, _, rfl, rfl, ?_, ?_⟩⟩ <;> decide +kernel

theorem witness_StepTakesTheHostsAccess :
    ({ State.reset with host := [.wait], turns := [.host] } : State).turns = [.host] ∧
    ({ State.reset with host := [.wait] } : State).engine = .idle ∧
    ({ State.reset with turns := [.engine .command] } : State).turns = [.engine .command] := ⟨rfl, rfl, rfl⟩

/-! The invariant holds while a command runs and in the middle of a frame. -/

theorem memory_inSpace (src : Bytes) (h : src.length ≤ 0x100) : Memory.inSpace (mach (regs 0) src).mem := by
  have hc : ∀ (v : Bytes) (a : Nat), ∀ c ∈ Memory.cells a v, c.1 < a + v.length := by
    intro v
    induction v with
    | nil => intro a c hc; simp [Memory.cells] at hc
    | cons b rest ih =>
      intro a c hc
      unfold Memory.cells at hc
      split at hc
      · have := ih (a + 1) c hc; simp only [List.length_cons]; omega
      · rcases List.mem_cons.mp hc with rfl | hc
        · simp
        · have := ih (a + 1) c hc; simp only [List.length_cons]; omega
  intro c h'
  have : (mach (regs 0) src).mem = Memory.write [] 0x10000 src := rfl
  rw [this] at h'
  unfold Memory.write at h'
  split at h'
  · simp at h'
  · have := hc src 0x10000 c (by simpa using h')
    simp only [addrSpace]
    omega

theorem readHello_inv : (readHello 0xC 2).Inv where
  cfg := by decide
  memory := by decide +kernel
  space := memory_inSpace helloFrame (by decide)
  eses := ⟨by decide, by decide, fun _ => rfl, fun _ => ⟨rfl, rfl⟩⟩
  dses := ⟨by decide, by decide, fun _ => rfl, fun _ => ⟨rfl, rfl⟩⟩
  fenc := ⟨by decide, by decide, rfl, fun h => by rcases h with h | h | h <;> exact absurd h (by decide),
    fun h => by rcases h with h | h | h <;> exact absurd h (by decide), fun h => absurd h (by decide)⟩
  fdec := ⟨by decide, by decide, rfl⟩
  frame := fun _ => ⟨by decide, by decide, by decide, rfl, by decide, fun h => absurd h (by decide)⟩
  awaiting := by decide
  mirror := fun _ => by decide
  flags := fun _ => ⟨rfl, rfl⟩
  err := fun h => absurd h (by decide)
  run := fun r h => by
    rcases h with h | h
    · obtain rfl := Engine.running.inj h
      exact ⟨rfl, by intro c hc; exact absurd hc (by simp), trivial, trivial⟩
    · exact absurd h (by simp [readHello, State.under])

theorem witness_EveryStepKeepsTheInvariant : (readHello 0xC 2).Inv ∧ ∃ t, step (readHello 0xC 2) = .next t :=
  ⟨readHello_inv, _, rfl⟩

/-- A command with a destination window, running and stuck; commands without one; a word that is no command; and an access to a
stuck command. -/
theorem witness_ResetInput :
    State.reset.engine = .idle ∧ (∃ r, (cmd 0x3 []).engine = .running r ∧ decodeCommand r.word = some .blkDecode) ∧
    (∃ r, (cmd 0x4 []).engine = .running r ∧ decodeCommand r.word = some .sesEncReset) ∧
    (∃ r, (cmd 0x400 []).engine = .running r ∧ decodeCommand r.word = none) ∧
    ∃ r t, ({ cmd 0x3 [] with engine := .stuck ⟨0x3, regs 0, [], .start⟩ } : State).engine = .stuck r ∧
      State.hostOp (.write 0xFF000000 4 1) { cmd 0x3 [] with engine := .stuck ⟨0x3, regs 0, [], .start⟩ } = .next t :=
  ⟨rfl, ⟨_, rfl, by decide⟩, ⟨_, rfl, by decide⟩, ⟨_, rfl, by decide⟩, _, _, rfl, rfl⟩

theorem witness_StatusFields :
    State.reset.lastError = none ∧ ({ State.reset with lastError := some .badOpcode } : State).lastError = some .badOpcode :=
  ⟨rfl, rfl⟩

theorem witness_ArgumentRegistersReadBack : State.reset.engine = .idle ∧ 0x08 % 4 = 0 ∧ 0x38 % 4 = 0 := by decide

theorem witness_RegisterAccesses :
    ¬(2 = 4 ∧ 0xFC % 4 = 0) ∧ ¬(4 = 4 ∧ 0xFF % 4 = 0) ∧ 0xFC < 256 ∧ 0xFF < 256 ∧ State.reset.engine = .idle := by decide

theorem witness_IgnoredWrites : (cmd 0x3 []).busy = true ∧ 0x5C < 256 ∧ 0x50 ≠ 0x54 ∧ 0x50 ≠ 0x58 := by decide

/-- A completion while IRQ_STATUS is being cleared. -/
theorem witness_InterruptBits :
    (∃ r t, (cmd 0x1 []).engine = .running r ∧ engineTurn .command (cmd 0x1 []) = .next t ∧ t.engine = .idle) ∧
    ∃ t r, ({ cmd 0x1 [] with host := [.write 0xFF000058 4 1], turns := [.both .command] } : State).engine = .running r ∧
      step { cmd 0x1 [] with host := [.write 0xFF000058 4 1], turns := [.both .command] } = .next t ∧ t.engine = .idle :=
  ⟨⟨_, _, rfl, rfl, rfl⟩, ⟨_, _, rfl, rfl, rfl⟩⟩

theorem witness_NothingIsSeenBeforeCompletion : ∃ t, engineTurn .element (cmd 0x3 [0x00]) = .next t ∧ t.engine ≠ .idle :=
  ⟨_, rfl, by decide +kernel⟩

/-- A plain source, in a platform with a device beside it; and a byte of it that the host has replaced during the command. -/
theorem witness_EngineReads :
    (let s : State := { cmd 0x3 [0x00] with cfg.volatile := [(0x10001, 1)] }
     s.Calm ∧ s.Plain (0x10000, 1) ∧ ¬s.Plain (0x10000, 2) ∧ accessible s.cfg (0x10000, 1) 0x10000 1 = true) ∧
    (let s : State := { cmd 0x3 [0x00] with engine := .running ⟨0x3, regs 2, [(0x10000, 1)], .start⟩ }
     s.Plain (0x10000, 2) ∧ accessible s.cfg (0x10000, 2) 0x10000 2 = true ∧ (∃ c ∈ s.raced, c.1 = 0x10000) ∧
       ∀ c ∈ s.raced, c.1 ≠ 0x10001) := by decide +kernel

/-- Regions whose last byte lies in a hole, and one over the register window, for each kind of read; a destination that another map
of the platform takes. -/
theorem witness_TouchingNoMemoryIsStuck :
    (let s := mach { regs 4 with srcAddr := 0xFF0000FF } []
     accessible s.cfg s.snapshot.src s.snapshot.srcAddr.toNat s.snapshot.srcLen.toNat = false ∧
       usageError .blkDecode s s.snapshot = none ∧ usageError .sesEnc s s.snapshot = none ∧
       s.snapshot.srcLen.toNat ≤ 0x7E000000) ∧
    (let s : State := { mach { regs 0 with dictAddr := 0x00020000, dictLen := 4 } [] with cfg.holes := [(0x20003, 1)] }
     let A := s.snapshot
     accessible s.cfg A.dict (A.dictAddr.toNat + (A.dictLen.toNat - 65536)) (min A.dictLen.toNat 65536) = false ∧
       usageError .sesDecReset s A = none) ∧
    (let s : State := { mach (regs 4) helloFrame with cfg.holes := [(0x10003, 1)] }
     4 ≤ s.snapshot.srcLen.toNat ∧ accessible s.cfg s.snapshot.src s.snapshot.srcAddr.toNat 4 = false ∧
       usageError .fdecOpen s s.snapshot = none) ∧
    (let s : State := { mach (regs 24) helloFrame with cfg.holes := [(0x10006, 1)] }
     let A := s.snapshot
     s.Calm ∧ s.Plain A.src ∧ Memory.bytes s.mem A.srcAddr.toNat 4 = [0x04, 0x22, 0x4D, 0x18] ∧
       Memory.bytes s.mem (A.srcAddr.toNat + 4) 2 = [0x64, 0x40] ∧ HeaderBytesOk s.cfg 0x64 0x40 ∧ 7 ≤ A.srcLen.toNat ∧
       accessible s.cfg A.src A.srcAddr.toNat 7 = false ∧
       (let t : State := { s with cfg.holes := [(0x10005, 1)] }
        6 ≤ A.srcLen.toNat ∧ accessible t.cfg A.src A.srcAddr.toNat 6 = false)) ∧
    (let s : State := { readHello 0x20C 0 with cfg.holes := [(0x1000A, 1)] }
     s.fdec.st = .readingBlocks ∧ s.fdec.pend.length ≤ s.snapshot.dstCap.toNat - s.snapshot.dstLen.toNat ∧
       s.fdec.pos + 4 ≤ s.fdec.len ∧ accessible s.cfg (s.frameRegion s.fdec) (s.fdec.base + s.fdec.pos) 4 = false ∧
       usageError .fdecReadToEnd s s.snapshot = none ∧ s.fdec.pend.length < (1 : Word).toNat) ∧
    (let s : State := { atRecord 0x70 ([0x05, 0x00, 0x00, 0x80] ++ hello ++ [0xF9, 0x77, 0x00, 0xFB]) [] [] with
       fdec := reading 0x70 20, cfg.holes := [(0x1000F, 1)] }
     ∃ r rd, s.engine = .running r ∧ r.progress = .record rd ∧ (5 : BitVec 31).toNat ≤ rd.t.bs ∧
       rd.t.pos + 4 + (5 : BitVec 31).toNat + 4 ≤ rd.t.len ∧
       accessible s.cfg (s.frameRegion rd.t) (rd.t.base + (rd.t.pos + 4)) (5 : BitVec 31).toNat = true ∧
       rd.t.flg.getLsbD 4 = true ∧ accessible s.cfg (s.frameRegion rd.t) (rd.t.base + (rd.t.pos + 4 + 5)) 4 = true ∧
       (let u : State := { s with cfg.holes := [(0x10008, 1)] }
        accessible u.cfg (u.frameRegion rd.t) (rd.t.base + (rd.t.pos + 4)) (5 : BitVec 31).toNat = false) ∧
       (let u : State := { s with cfg.holes := [(0x1000C, 1)] }
        accessible u.cfg (u.frameRegion rd.t) (rd.t.base + (rd.t.pos + 4 + 5)) 4 = false)) ∧
    (let s : State := { atRecord 0x64 [0x00, 0x00, 0x00, 0x00, 0xF9, 0x77, 0x00, 0xFB] [] hello with cfg.holes := [(0x10007, 1)] }
     ∃ r rd, s.engine = .running r ∧ r.progress = .record rd ∧ rd.t.flg.getLsbD 2 = true ∧ rd.t.pos + 8 ≤ rd.t.len ∧
       accessible s.cfg (s.frameRegion rd.t) (rd.t.base + (rd.t.pos + 4)) 4 = false) ∧
    (let s : State := { cmd 0x3 [0x10, 0x61] with cfg.holes := [(0x200000, 1)] }
     (∃ t, exec .blkDecode { s with cfg := { s.cfg with holes := [], csrBase := 0xFF000000 } } = .next t ∧ t.Succeeded ∧
       t.result = 1) ∧ s.OnPlain .blkDecode ∧ accessible s.cfg s.snapshot.window s.snapshot.dstPoint 1 = false) := by
  refine ⟨?_, ?_, ?_, ?_, ?_, ⟨_, _, rfl, rfl, ?_⟩, ⟨_, _, rfl, rfl, ?_⟩, ⟨_, rfl, ?_⟩, ?_⟩ <;> decide +kernel

theorem witness_StateAndConfigErrors :
    (mach (regs 0) []).raced = [] ∧ (mach (regs 0) []).fenc.st = .idle ∧ (mach (regs 0) []).fdec.st ≠ .readingBlocks ∧
    (mach (regs 0) []).fdec.st ≠ .finished ∧
    ({ mach (regs 0) [] with eses.st := .poisoned, dses.st := .poisoned } : State).eses.st = .poisoned ∧
    ¬((regs 0).fcfg.extractLsb' 16 16 = 0 ∧
      HeaderBytesOk Config.reference ((regs 0).fcfg.extractLsb' 0 8) ((regs 0).fcfg.extractLsb' 8 8)) := by decide +kernel

/-- Regions that end one byte past `2^32` (V8.3), with the states and the configuration that let the check be reached; and a
destination window that begins at a region's last byte. -/
theorem witness_RegionErrors :
    (¬({ regs 0x11 with srcAddr := 0xFFFFFFF0 } : Args).SrcOk ∧
      ¬({ regs 0 with dictAddr := 0xFFFFFFF0, dictLen := 0x11 } : Args).DictOk ∧
      ¬({ regs 0 with dstLen := 5, dstCap := 4 } : Args).DstOk ∧
      ¬({ regs 0 with dstAddr := 0xFFFFFFFF, dstCap := 2 } : Args).DstOk ∧
      State.reset.eses.st ≠ .poisoned ∧ State.reset.dses.st ≠ .poisoned ∧ (staged 0x64 [] .reset).fenc.st = .writing ∧
      (readHello 0xC 2).fdec.st = .readingBlocks ∧
      (0x00004064 : Word).extractLsb' 16 16 = 0 ∧ HeaderBytesOk Config.reference 0x64 0x40 ∧
      HeaderBytesOk Config.reference 0x64 0x70) ∧
    (let A : Args := { regs 17 with srcAddr := 0x00200000, dstLen := 16 }
     A.SrcOk ∧ A.DictOk ∧ A.DstOk ∧ ¬A.Apart A.srcAddr.toNat A.srcLen.toNat) ∧
    (let A : Args := { regs 0 with dictAddr := 0x002000FF, dictLen := 1 }
     A.SrcOk ∧ A.DictOk ∧ A.DstOk ∧ ¬A.Apart A.dictAddr.toNat A.dictLen.toNat) ∧
    (let s : State := { readHello 0xC 2 with args.dstAddr := 0x10017 }
     let s : State := { s with engine := .idle }
     s.snapshot.DstOk ∧ ¬s.snapshot.Apart (s.fdec.base + s.fdec.pos) (s.fdec.len - s.fdec.pos) ∧
       s.fdec.base + s.fdec.pos + (s.fdec.len - s.fdec.pos) ≤ 2 ^ 32) := by decide +kernel

theorem witness_ErrorCodes :
    Instr.blkDecode ∈ commands ∧ (cmd 0x3 []).OnPlain .blkDecode ∧
    ∃ t, exec .blkDecode (cmd 0x3 []) = .next t ∧ t.Failed .truncated :=
  ⟨by decide, by decide +kernel, _, rfl, by decide +kernel⟩

theorem witness_ErrorCompletion :
    (cmd 0x3 []).raced = [] ∧ (cmd 0x3 []).OnPlain .blkDecode ∧ (cmd 0x9 []).OnPlain .fencWrite ∧
    (∃ t, exec .blkDecode (cmd 0x3 []) = .next t ∧ t.Failed .truncated) ∧
    (∃ t, exec .fencWrite (cmd 0x9 []) = .next t ∧ t.Failed .badState) ∧
    0x05 < ErrCode.truncated.code.toNat ∧ ErrCode.badConfig.code.toNat ≤ 0x05 :=
  ⟨rfl, by decide +kernel, by decide +kernel, ⟨_, rfl, by decide +kernel⟩, ⟨_, rfl, by decide +kernel⟩, by decide, by decide⟩

/-- A parser with room for one more byte; blocks that end in a token, a literal length, the literals and an offset; an encoder input
one byte too long; and destinations one byte too short. -/
theorem witness_CodecErrors :
    (∃ r use p, (inside [0x10, 0x61] (List.replicate 255 0) .token 0 0).engine = .running r ∧
      r.progress = .block use p ∧ p.phase = .token ∧ (inside [0x10, 0x61] (List.replicate 255 0) .token 0 0).OnPlain use.command ∧
      p.cap < p.out.length + abc.length ∧
      p.out.length + [0x61].length ≤ p.cap ∧ p.hist.length + p.out.length + [0x61].length < (257 : BitVec 16).toNat ∧
      (256 : BitVec 16).toNat ≤ p.hist.length + p.out.length + [0x61].length ∧ p.cap < p.out.length + [0x61].length + 4) ∧
    (∃ r use p, (inside [] [] .token 0 0).engine = .running r ∧ r.progress = .block use p ∧
      (inside [] [] .token 0 0).OnPlain use.command ∧ p.phase = .token ∧ p.rest = []) ∧
    (∃ r use p, (inside [0xFF] [] .litExt 0 0).engine = .running r ∧ r.progress = .block use p ∧ p.phase = .litExt ∧
      (∀ b ∈ p.rest, b = 255) ∧ p.rest.length < 0 + 1 + (15 + 255 * 0 + (0 : Byte).toNat)) ∧
    (∃ r use p, (inside ([0x40] ++ abc) [] .token 0 0).engine = .running r ∧ r.progress = .block use p ∧ p.phase = .token ∧
      (4 : BitVec 4) ≠ 15 ∧ 1 ≤ p.rest.length ∧ p.rest.length < 1 + (4 : BitVec 4).toNat) ∧
    (∃ r use p, (inside [0x01] [] .offset 0 0).engine = .running r ∧ r.progress = .block use p ∧ p.phase = .offset ∧
      p.rest.length < 2) ∧
    (let s := mach { regs 0x7E000001 with srcAddr := 0x80000000 } []
     0x7E000000 < s.snapshot.srcLen.toNat ∧ s.OnPlain .blkEncode ∧ s.OnPlain .sesEnc ∧ usageError .blkEncode s s.snapshot = none ∧
       usageError .sesEnc s s.snapshot = none) ∧
    (let s := State.under (mach { regs 5 with dstCap := 5 } hello) 0x2 .start
     let A := s.snapshot
     s.Calm ∧ s.Plain A.window ∧ usageError .blkEncode s A = none ∧ usageError .sesEnc s A = none ∧ A.srcLen.toNat ≤ 0x7E000000 ∧
       s.Source A hello ∧ s.Dictionary A [] ∧
       A.dstCap.toNat - A.dstLen.toNat < (encodeBlock s.cfg hello [] A.level.toInt).length) ∧
    (let s := State.under (mach { regs 0 with fcfg := 0x4064, dstCap := 6 } []) 0x8 .start
     s.Plain s.snapshot.window ∧ usageError .fencOpen s s.snapshot = none ∧ s.Dictionary s.snapshot [] ∧
       s.snapshot.dstCap.toNat - s.snapshot.dstLen.toNat < 7) := by
  refine ⟨⟨_, _, _, rfl, rfl, rfl, ?_⟩, ⟨_, _, _, rfl, rfl, ?_⟩, ⟨_, _, _, rfl, rfl, rfl, ?_⟩,
    ⟨_, _, _, rfl, rfl, rfl, ?_⟩, ⟨_, _, _, rfl, rfl, rfl, ?_⟩, ?_, ?_, ?_⟩ <;> decide +kernel

/-- A frame encoder with bytes staged meets its part of the invariant. -/
theorem staged_ok (flg : Byte) (bytes : Bytes) (csize : BitVec 64) (s : State) (h1 : headerLegal s.cfg flg 0x40 = true)
    (h2 : bytes.length < 65536) :
    ({ (staged flg bytes s).fenc with csize := csize } : Fenc).Ok s.cfg where
  dict := Nat.zero_le _
  win := Nat.zero_le _
  total := rfl
  header := fun _ => ⟨h1, by show 65536 = blockMax (bdCode 0x40); decide⟩
  stage := fun _ => h2
  closed := fun h => FencState.noConfusion h

theorem recordOf_pos (c : Config) (f : Fenc) (blk h : Bytes) : 0 < (recordOf c f blk h).length := by
  unfold recordOf
  dsimp only
  split <;> simp [le32]

theorem recordsOf_pos (c : Config) (f : Fenc) (x : Byte) (h : f.stage.length + 1 = f.bs) :
    0 < (recordsOf c f (f.stage ++ [x]) ((f.stage.length + [x].length) / f.bs)).length := by
  rw [show f.stage.length + [x].length = f.bs from h, Nat.div_self (by omega)]
  unfold recordsOf
  rw [show List.range 1 = [0] from rfl, List.flatMap_singleton]
  exact recordOf_pos ..

/-- `FENC_WRITE` of the last byte of a block of 65536, into no room at all. -/
def lastByte : State := staged 0x60 (List.replicate 65535 0) (State.under (mach { regs 1 with dstCap := 0 } [0x61]) 0x9 .start)

/-- The last clauses of CodecErrors: a frame of 5 bytes closed with room for 12 of its 13, and one whose size is said to be 6; a write
that completes a block. -/
theorem witness_CodecErrors_frames :
    (let s : State := { staged 0x60 hello (cmd 0xA []) with args.dstCap := 12 }
     let s : State := { s with engine := .running ⟨0xA, s.args, [], .start⟩ }
     s.fenc.Ok s.cfg ∧ s.Calm ∧ usageError .fencClose s s.snapshot = none ∧ s.fenc.st ≠ .closed ∧
       s.fenc.flg.getLsbD 3 = false ∧
       s.snapshot.dstCap.toNat - s.snapshot.dstLen.toNat < (closingOf s.cfg s.fenc).length) ∧
    (let s : State := { staged 0x68 hello (cmd 0xA []) with fenc.csize := 6 }
     s.fenc.Ok s.cfg ∧ usageError .fencClose s s.snapshot = none ∧ s.fenc.st ≠ .closed ∧ s.fenc.flg.getLsbD 3 = true ∧
       s.fenc.total ≠ s.fenc.csize) ∧
    lastByte.fenc.Ok lastByte.cfg ∧
    (usageError .fencWrite lastByte lastByte.snapshot = none ∧ lastByte.Calm ∧ lastByte.Source lastByte.snapshot [0x61] ∧
      lastByte.snapshot.dstCap.toNat - lastByte.snapshot.dstLen.toNat = 0) ∧
    0 < (recordsOf lastByte.cfg lastByte.fenc (lastByte.fenc.stage ++ [0x61])
      ((lastByte.fenc.stage.length + [(0x61 : Byte)].length) / lastByte.fenc.bs)).length := by
  refine ⟨⟨staged_ok 0x60 hello 0 State.reset (by decide) (by decide), ?_⟩,
    ⟨staged_ok 0x68 hello 6 State.reset (by decide) (by decide), ?_⟩,
    staged_ok 0x60 (List.replicate 65535 0) 0 State.reset (by decide) (by rw [List.length_replicate]; decide), ?_, ?_⟩
  rotate_right
  · exact recordsOf_pos _ lastByte.fenc _ (by simp only [lastByte, staged, List.length_replicate])
  all_goals decide +kernel

/-- A source of 3 bytes, a wrong magic in 4, a header that ends inside FLG and BD, a reserved BD, a header one byte short, and one
whose checksum byte is wrong (V7.2). -/
theorem witness_HeaderErrors :
    (let s := cmd 0xB [0x04, 0x22, 0x4D]
     s.Calm ∧ s.snapshot.SrcOk ∧ s.snapshot.DictOk ∧ s.Dictionary s.snapshot [] ∧ s.Plain s.snapshot.src ∧
       s.snapshot.srcLen.toNat < 4 ∧ accessible s.cfg s.snapshot.src s.snapshot.srcAddr.toNat 0 = true) ∧
    (let s := cmd 0xB [0x05, 0x22, 0x4D, 0x18]
     accessible s.cfg s.snapshot.src s.snapshot.srcAddr.toNat 4 = true ∧ 4 ≤ s.snapshot.srcLen.toNat ∧
       (Memory.bytes s.mem s.snapshot.srcAddr.toNat 4).take 4 ≠ [0x04, 0x22, 0x4D, 0x18]) ∧
    (let s := cmd 0xB [0x04, 0x22, 0x4D, 0x18, 0x64]
     (Memory.bytes s.mem s.snapshot.srcAddr.toNat 4).take 4 = [0x04, 0x22, 0x4D, 0x18] ∧ s.snapshot.srcLen.toNat < 6) ∧
    ¬HeaderBytesOk Config.reference 0x64 0x30 ∧
    (let s := cmd 0xB [0x04, 0x22, 0x4D, 0x18, 0x64, 0x40]
     let x := Memory.bytes s.mem s.snapshot.srcAddr.toNat 6
     accessible s.cfg s.snapshot.src s.snapshot.srcAddr.toNat 6 = true ∧ x.take 4 = [0x04, 0x22, 0x4D, 0x18] ∧
       (x.drop 4).take 2 = [0x64, 0x40] ∧ HeaderBytesOk s.cfg 0x64 0x40 ∧ s.snapshot.srcLen.toNat < 7) ∧
    (let s := cmd 0xB [0x04, 0x22, 0x4D, 0x18, 0x64, 0x40, 0x0C]
     let x := Memory.bytes s.mem s.snapshot.srcAddr.toNat 7
     accessible s.cfg s.snapshot.src s.snapshot.srcAddr.toNat 7 = true ∧ 7 ≤ s.snapshot.srcLen.toNat ∧
       (x.drop 4).take 2 = [0x64, 0x40] ∧
       x[7 - 1]? ≠ some ((xxh32 ((x.drop 4).take (7 - 5)) 0).extractLsb' 8 8)) := by decide +kernel

/-- A record word, a payload, a block checksum and a trailer one byte short; a record one byte too large; wrong checksums (V7.5); a
wrong content size; and pending bytes that do not fit. -/
theorem witness_RecordErrors :
    (∃ r rd, (atRecord 0x60 [0x00, 0x00, 0x00] [] []).engine = .running r ∧ r.progress = .record rd ∧
      (atRecord 0x60 [0x00, 0x00, 0x00] [] []).OnPlain .fdecRead ∧
      rd.t.len < rd.t.pos + 4 ∧ rd.t.bs < (65537 : BitVec 31).toNat) ∧
    (∃ r rd, (atRecord 0x70 ([0x05, 0x00, 0x00, 0x80] ++ hello ++ [0xF9, 0x77, 0x00]) [] []).engine = .running r ∧
      r.progress = .record rd ∧
      (atRecord 0x70 ([0x05, 0x00, 0x00, 0x80] ++ hello ++ [0xF9, 0x77, 0x00]) [] []).OnPlain .fdecRead ∧
      (5 : BitVec 31).toNat ≤ rd.t.bs ∧
      rd.t.len < rd.t.pos + 4 + (5 : BitVec 31).toNat + (if rd.t.flg.getLsbD 4 then 4 else 0)) ∧
    (let s := atRecord 0x74 ([0x05, 0x00, 0x00, 0x80] ++ hello ++ [0xF8, 0x77, 0x00, 0xFB]) [] []
     ∃ r rd, s.engine = .running r ∧ r.progress = .record rd ∧ s.Calm ∧ s.OnPlain .fdecRead ∧ (5 : BitVec 31).toNat ≤ rd.t.bs ∧
       rd.t.flg.getLsbD 4 = true ∧ s.FrameBytes rd.t (rd.t.pos + 4) (5 : BitVec 31).toNat hello ∧
       s.FrameBytes rd.t (rd.t.pos + 4 + (5 : BitVec 31).toNat) 4 [0xF8, 0x77, 0x00, 0xFB] ∧
       [0xF8, 0x77, 0x00, 0xFB] ≠ le32 (xxh32 hello 0)) ∧
    (∃ r rd, (atRecord 0x64 [0x00, 0x00, 0x00, 0x00, 0xF9, 0x77, 0x00] [] []).engine = .running r ∧ r.progress = .record rd ∧
      (atRecord 0x64 [0x00, 0x00, 0x00, 0x00, 0xF9, 0x77, 0x00] [] []).OnPlain .fdecRead ∧
      rd.t.flg.getLsbD 2 = true ∧ rd.t.len < rd.t.pos + 8) ∧
    (let s := atRecord 0x64 [0x00, 0x00, 0x00, 0x00, 0xF9, 0x77, 0x00, 0xFA] hello hello
     ∃ r rd, s.engine = .running r ∧ r.progress = .record rd ∧ s.Calm ∧ s.OnPlain .fdecRead ∧ rd.t.flg.getLsbD 2 = true ∧
       s.FrameBytes rd.t (rd.t.pos + 4) 4 [0xF9, 0x77, 0x00, 0xFA] ∧
       [0xF9, 0x77, 0x00, 0xFA] ≠ le32 (xxh32 rd.t.plain 0)) ∧
    (let s := atRecord 0x68 [0x00, 0x00, 0x00, 0x00] hello hello
     ∃ r rd, s.engine = .running r ∧ r.progress = .record rd ∧ s.Calm ∧ s.OnPlain .fdecRead ∧ rd.t.flg.getLsbD 2 = false ∧
       rd.t.flg.getLsbD 3 = true ∧ rd.t.total ≠ rd.t.csize) ∧
    (let s : State := { readHello 0xC 3 with fdec.pend := [0x6C, 0x6C, 0x6F], args.dstCap := 2 }
     let s : State := { s with engine := .idle }
     let A := s.snapshot
     s.OnPlain .fdecRead ∧ usageError .fdecRead s A = none ∧ usageError .fdecReadToEnd s A = none ∧
       A.dstCap.toNat - A.dstLen.toNat < min A.readLen.toNat s.fdec.pend.length ∧
       A.dstCap.toNat - A.dstLen.toNat < s.fdec.pend.length) := by
  refine ⟨⟨_, _, rfl, rfl, ?_⟩, ⟨_, _, rfl, rfl, ?_⟩, ⟨_, _, rfl, rfl, ?_⟩, ⟨_, _, rfl, rfl, ?_⟩, ⟨_, _, rfl, rfl, ?_⟩,
    ⟨_, _, rfl, rfl, ?_⟩, ?_⟩ <;> decide +kernel

theorem witness_SessionStateMachine :
    Instr.sesDec ∈ commands ∧ (cmd 0x7 x1After).OnPlain .sesDec ∧ (cmd 0x7 x1After).dses.st ≠ .poisoned ∧
    ∃ t, exec .sesDec (cmd 0x7 x1After) = .next t ∧ t.engine = .idle ∧ t.lastError = some .offsetRange :=
  ⟨by decide, by decide +kernel, by decide, _, rfl, by decide +kernel⟩

theorem witness_FrameEncoderStateMachine :
    Instr.fencClose ∈ commands ∧ (staged 0x74 hello (cmd 0xA [])).OnPlain .fencClose ∧ (staged 0x74 hello (cmd 0xA [])).fenc.st = .writing ∧
    ∃ t, exec .fencClose (staged 0x74 hello (cmd 0xA [])) = .next t ∧ t.engine = .idle ∧ t.lastError = none :=
  ⟨by decide, by decide +kernel, rfl, _, rfl, by decide +kernel⟩

theorem witness_FrameDecoderStateMachine :
    Instr.fdecRead ∈ commands ∧ (readHello 0xC 2).Inv ∧ (readHello 0xC 2).OnPlain .fdecRead ∧ (readHello 0xC 2).fdec.st = .readingBlocks ∧
    ∃ t, exec .fdecRead (readHello 0xC 2) = .next t ∧ t.engine = .idle ∧ t.lastError = none :=
  ⟨by decide, readHello_inv, by decide +kernel, rfl, _, rfl, by decide +kernel⟩

/-- Sources, dictionaries and destinations that meet each other's bounds exactly. -/
theorem witness_BlockCommandsComplete :
    (let s := cmd 0x2 hello
     let A := s.snapshot
     s.Calm ∧ A.SrcOk ∧ A.DictOk ∧ A.DstOk ∧ A.Apart A.srcAddr.toNat A.srcLen.toNat ∧
       A.Apart A.dictAddr.toNat A.dictLen.toNat ∧ s.Source A hello ∧ s.Dictionary A [] ∧ A.srcLen.toNat ≤ 0x7E000000 ∧
       s.Sink A (encodeBlock s.cfg hello [] A.level.toInt).length) ∧
    (let s := State.under (mach { regs 9 with dictAddr := 0x00010009, dictLen := 16, dstCap := 16 } (x1After ++ x1)) 0x3 .start
     let A := s.snapshot
     s.Calm ∧ A.SrcOk ∧ A.DictOk ∧ A.DstOk ∧ A.Apart A.srcAddr.toNat A.srcLen.toNat ∧
       A.Apart A.dictAddr.toNat A.dictLen.toNat ∧ s.Source A x1After ∧ s.Dictionary A x1 ∧ s.Sink A x1.length) ∧
    decodeBlock x1After x1 16 = .ok x1 := by
  refine ⟨by decide +kernel, by decide +kernel, by rfl⟩

theorem witness_SessionResetsComplete :
    (let s := State.under (mach { regs 0 with dictAddr := 0x00010000, dictLen := 16 } x1) 0x4 .start
     s.Calm ∧ s.snapshot.DictOk ∧ s.Dictionary s.snapshot x1) := by decide +kernel

theorem witness_SessionBlocksComplete :
    (let s := primed (cmd 0x5 x1)
     let A := s.snapshot
     s.Calm ∧ A.SrcOk ∧ A.DstOk ∧ A.Apart A.srcAddr.toNat A.srcLen.toNat ∧ s.Source A x1 ∧ s.eses.st ≠ .poisoned ∧
       A.srcLen.toNat ≤ 0x7E000000 ∧ s.Sink A (encodeBlock s.cfg x1 x1 A.level.toInt).length) ∧
    (let s := primed (cmd 0x7 x1After)
     let A := s.snapshot
     s.Calm ∧ A.SrcOk ∧ A.DstOk ∧ A.Apart A.srcAddr.toNat A.srcLen.toNat ∧ s.Source A x1After ∧ s.dses.st ≠ .poisoned ∧
       s.Sink A x1.length) ∧
    decodeBlock x1After x1 256 = .ok x1 := by
  refine ⟨by decide +kernel, by decide +kernel, by rfl⟩

theorem witness_FencOpenCompletes :
    (let s := State.under (mach { regs 0 with fcfg := 0x4064, dstCap := 7 } []) 0x8 .start
     let A := s.snapshot
     s.Calm ∧ A.fcfg.extractLsb' 16 16 = 0 ∧ HeaderBytesOk s.cfg (A.fcfg.extractLsb' 0 8) (A.fcfg.extractLsb' 8 8) ∧
       A.DictOk ∧ A.DstOk ∧ A.Apart A.dictAddr.toNat A.dictLen.toNat ∧ s.Dictionary A [] ∧ s.Sink A 7) := by decide +kernel

theorem witness_FencWriteCompletes :
    (let s := staged 0x64 [0x68, 0x65, 0x6C] (cmd 0x9 [0x6C, 0x6F])
     let A := s.snapshot
     s.fenc.Ok s.cfg ∧ s.Calm ∧ s.fenc.st = .writing ∧ A.SrcOk ∧ A.DstOk ∧ A.Apart A.srcAddr.toNat A.srcLen.toNat ∧
       s.Source A [0x6C, 0x6F] ∧ recordsOf s.cfg s.fenc (s.fenc.stage ++ [0x6C, 0x6F]) 0 = [] ∧ s.Sink A 0 ∧
       (s.fenc.stage ++ [0x6C, 0x6F]).length / s.fenc.bs = 0 ∧ (s.fenc.stage ++ [0x6C, 0x6F]).length < s.fenc.bs) := by
  refine ⟨staged_ok 0x64 [0x68, 0x65, 0x6C] 0 State.reset (by decide) (by decide), ?_⟩
  decide +kernel

/-- The frame of "hello" with its content size, closed into exactly the bytes it needs; and a closed frame. -/
theorem witness_FencCloseCompletes :
    (let s : State := { staged 0x6C hello (cmd 0xA []) with fenc.csize := 5, args.dstCap := 17 }
     let s : State := { s with engine := .running ⟨0xA, s.args, [], .start⟩ }
     s.fenc.Ok s.cfg ∧ s.Calm ∧ s.snapshot.DstOk ∧ s.Plain s.snapshot.window ∧ s.fenc.st = .writing ∧ s.fenc.flg.getLsbD 3 = true ∧
       s.fenc.total = s.fenc.csize ∧ s.Sink s.snapshot (closingOf s.cfg s.fenc).length) ∧
    (let s : State := { staged 0x64 [] (cmd 0xA []) with fenc.st := .closed }
     s.Calm ∧ s.snapshot.DstOk ∧ s.Plain s.snapshot.window ∧ s.fenc.st = .closed) := by
  refine ⟨⟨staged_ok 0x6C hello 5 State.reset (by decide) (by decide), ?_⟩, ?_⟩ <;> decide +kernel

/-- A source that is the header and nothing more. -/
theorem witness_FdecOpenCompletes :
    (let s := cmd 0xB [0x04, 0x22, 0x4D, 0x18, 0x61, 0x40, 0x78, 0x56, 0x34, 0x12, 0xE8]
     let A := s.snapshot
     s.Calm ∧ A.SrcOk ∧ A.DictOk ∧ s.Dictionary A [] ∧ HeaderBytesOk s.cfg 0x61 0x40 ∧ 11 ≤ A.srcLen.toNat ∧
       accessible s.cfg A.src A.srcAddr.toNat 11 = true ∧ s.Plain A.src ∧
       Memory.bytes s.mem A.srcAddr.toNat 11 =
         [0x04, 0x22, 0x4D, 0x18] ++ ([0x61, 0x40] ++ le32 0x12345678) ++
           [(xxh32 ([0x61, 0x40] ++ le32 0x12345678) 0).extractLsb' 8 8]) := by decide +kernel

/-- Three bytes pending, with exactly three asked for; a finished frame; and the frame of "hello" at its End Mark, three bytes pending,
four asked for. -/
theorem witness_FdecReadCompletes :
    (let s : State := { readHello 0xC 3 with fdec.pend := [0x6C, 0x6C, 0x6F] }
     let A := s.snapshot
     s.raced = [] ∧ s.fdec.st = .readingBlocks ∧ s.fdec.base + s.fdec.pos + (s.fdec.len - s.fdec.pos) ≤ 2 ^ 32 ∧ A.DstOk ∧
       A.Apart (s.fdec.base + s.fdec.pos) (s.fdec.len - s.fdec.pos) ∧
       s.Plain (s.fdec.base + s.fdec.pos, s.fdec.len - s.fdec.pos) ∧ s.Plain A.window ∧ A.readLen.toNat ≤ s.fdec.pend.length ∧
       s.Sink A A.readLen.toNat) ∧
    (let s : State := { readHello 0xC 3 with fdec.st := .finished, fdec.pos := 24 }
     let A := s.snapshot
     s.raced = [] ∧ s.fdec.st = .finished ∧ s.fdec.pend = [] ∧ A.DstOk ∧
       s.fdec.base + s.fdec.pos + (s.fdec.len - s.fdec.pos) ≤ 2 ^ 32 ∧
       A.Apart (s.fdec.base + s.fdec.pos) (s.fdec.len - s.fdec.pos) ∧
       s.Plain (s.fdec.base + s.fdec.pos, s.fdec.len - s.fdec.pos) ∧ s.Plain A.window) ∧
    (let s : State := { readHello 0xC 4 with fdec.pos := 16, fdec.pend := [0x6C, 0x6C, 0x6F], fdec.plain := hello, fdec.total := 5 }
     let A := s.snapshot
     s.Calm ∧ s.fdec.st = .readingBlocks ∧ s.fdec.base + s.fdec.pos + (s.fdec.len - s.fdec.pos) ≤ 2 ^ 32 ∧ A.DstOk ∧
       A.Apart (s.fdec.base + s.fdec.pos) (s.fdec.len - s.fdec.pos) ∧
       s.FrameBytes s.fdec s.fdec.pos 4 [0x00, 0x00, 0x00, 0x00] ∧ s.fdec.flg.getLsbD 2 = true ∧
       s.FrameBytes s.fdec (s.fdec.pos + 4) 4 (le32 (xxh32 s.fdec.plain 0)) ∧ s.fdec.flg.getLsbD 3 = false ∧
       s.Sink A s.fdec.pend.length ∧ s.fdec.pend.length < A.readLen.toNat) := by decide +kernel

/-- A token whose literals end before the block does, one whose literals are its end, and one that waits for an extension. -/
theorem witness_TokenCompletes : ∃ r p, (inside ([0x35] ++ abc ++ [0x03]) [] .token 0 0).engine = .running r ∧
    r.progress = .block .block p ∧ p.phase = .token ∧ (3 : BitVec 4) ≠ 15 ∧ 1 + (3 : BitVec 4).toNat < p.rest.length ∧
    1 + (4 : BitVec 4).toNat = p.rest.length ∧ p.out.length + (4 : BitVec 4).toNat ≤ p.cap ∧
    (inside ([0x35] ++ abc ++ [0x03]) [] .token 0 0).Calm ∧ (inside ([0x35] ++ abc ++ [0x03]) [] .token 0 0).OnPlain .blkDecode ∧
    (inside ([0x35] ++ abc ++ [0x03]) [] .token 0 0).Sink r.args (p.out ++ p.rest.drop 1).length := by
  refine ⟨_, _, rfl, rfl, rfl, ?_⟩
  decide +kernel

theorem witness_LenextCompletes :
    (∃ r p, (inside (0x01 :: x1 ++ [0x00]) [] .litExt 0 0).engine = .running r ∧ r.progress = .block .block p ∧
      p.phase = .litExt ∧ 0 + 1 + (15 + 255 * 0 + (1 : Byte).toNat) < p.rest.length ∧
      p.out.length + (15 + 255 * 0 + (1 : Byte).toNat) ≤ p.cap) ∧
    (∃ r p, (inside (0x01 :: x1) [] .litExt 0 0).engine = .running r ∧ r.progress = .block .block p ∧
      p.phase = .litExt ∧ 0 + 1 + (15 + 255 * 0 + (1 : Byte).toNat) = p.rest.length ∧ (inside (0x01 :: x1) [] .litExt 0 0).Calm ∧
      (inside (0x01 :: x1) [] .litExt 0 0).OnPlain .blkDecode ∧
      (inside (0x01 :: x1) [] .litExt 0 0).Sink r.args (p.out ++ p.rest.drop (0 + 1)).length) ∧
    (∃ r p, (inside [0x07] [0x61] .matchExt 15 1).engine = .running r ∧ r.progress = .block .block p ∧
      p.phase = .matchExt ∧ p.off ≠ 0 ∧ p.off ≤ p.hist.length + p.out.length ∧
      p.out.length + (15 + 255 * 0 + (7 : Byte).toNat + 4) ≤ p.cap) := by
  refine ⟨⟨_, _, rfl, rfl, rfl, ?_⟩, ⟨_, _, rfl, rfl, rfl, ?_⟩, ⟨_, _, rfl, rfl, rfl, ?_⟩⟩ <;> decide +kernel

theorem witness_OffsetCompletes :
    (∃ r p, (inside [0x03, 0x00] abc .offset 15 0).engine = .running r ∧ r.progress = .block .block p ∧ p.phase = .offset ∧
      p.ml = 15) ∧
    (∃ r p, (inside [0x03, 0x00] abc .offset 14 0).engine = .running r ∧ r.progress = .block .block p ∧ p.phase = .offset ∧
      p.ml ≠ 15 ∧ (3 : BitVec 16) ≠ 0 ∧ (3 : BitVec 16).toNat ≤ p.hist.length + p.out.length ∧
      p.out.length + (p.ml.toNat + 4) ≤ p.cap) := by
  refine ⟨⟨_, _, rfl, rfl, rfl, ?_⟩, ⟨_, _, rfl, rfl, rfl, ?_⟩⟩ <;> decide +kernel

theorem witness_SeqCompletes : ∃ r p, (inside [] [] .token 0 0).engine = .running r ∧ r.progress = .block .block p ∧
    p.phase = .token ∧ (3 : BitVec 16) ≠ 0 ∧ (3 : BitVec 16).toNat ≤ p.hist.length + p.out.length + abc.length ∧
    p.out.length + abc.length + 253 ≤ p.cap := by
  refine ⟨_, _, rfl, rfl, rfl, ?_⟩
  decide +kernel

/-- `FDEC_READ` at the end of a compressed block whose record ends at byte 11 of the frame. -/
def inFrame (rest out : Bytes) (want : Option Nat) : State :=
  State.under (mach (regs 0) []) 0xC
    (.block (.frame ⟨reading 0x40 24, [], want, 0x100⟩ 11) ⟨[], 65536, 16, rest, out, .token, 0, 0⟩)

/-- The output of a block joins the frame, and the read completes with the bytes it asked for (V7.3's "hello", three asked for). -/
theorem test_last_of_a_frame_block :
    gives 0x02000002 3 [0x68, 0x65, 0x6C] (exec (.last hello) (inFrame [] [] (some 3))) = true ∧
    sees (fun t => t.fdec.pend == [0x6C, 0x6F] && t.fdec.win == hello && t.fdec.plain == hello && t.fdec.total == 5 &&
      t.fregs.srcPos == 11) (exec (.last hello) (inFrame [] [] (some 3))) = true := by decide +kernel

/-- The end of `BLK_DECODE`'s block, of `SES_DEC`'s, and of a block of a frame: a read that lacks bytes after it, one that has its bytes
with it, and one whose destination is full. -/
theorem witness_LastCompletes :
    (∃ r p, (inside [] abc .token 0 0).engine = .running r ∧ r.progress = .block .block p ∧
      p.phase = .token ∧ (p.out ++ hello).length ≤ p.cap ∧ (inside [] abc .token 0 0).Calm ∧
      (inside [] abc .token 0 0).OnPlain .blkDecode ∧
      (inside [] abc .token 0 0).Sink r.args (p.out ++ hello).length) ∧
    (let s := State.under (mach (regs 0) []) 0x7 (.block .session ⟨[], 0x100, 16, [], abc, .token, 0, 0⟩)
     ∃ r p, s.engine = .running r ∧ r.progress = .block .session p ∧ p.phase = .token ∧ (p.out ++ hello).length ≤ p.cap ∧
       s.Calm ∧ s.OnPlain .sesDec ∧ s.Sink r.args (p.out ++ hello).length) ∧
    (let s := inFrame [] [] (some 6)
     ∃ r rd next p, s.engine = .running r ∧ r.progress = .block (.frame rd next) p ∧ (p.out ++ hello).length ≤ p.cap ∧ s.Calm ∧
       rd.want = some 6 ∧ rd.out.length + (p.out ++ hello).length < 6 ∧ rd.t.st = .readingBlocks ∧
       rd.out.length + (p.out ++ hello).length ≤ rd.cap) ∧
    (let s := inFrame [] [] (some 5)
     ∃ r rd next p, s.engine = .running r ∧ r.progress = .block (.frame rd next) p ∧ s.Calm ∧ s.OnPlain .fdecRead ∧
       rd.want = some 5 ∧
       rd.out.length < 5 ∧ 5 ≤ rd.out.length + (p.out ++ hello).length ∧ 5 ≤ rd.cap ∧ s.Sink r.args 5 ∧
       (let full := { rd with cap := 4 }
        min (5 - full.out.length) (p.out ++ hello).length ≠ 0 ∧
          full.cap < full.out.length + min (5 - full.out.length) (p.out ++ hello).length)) := by
  refine ⟨⟨_, _, rfl, rfl, rfl, ?_⟩, ⟨_, _, rfl, rfl, rfl, ?_⟩, ⟨_, _, _, _, rfl, rfl, ?_⟩, ⟨_, _, _, _, rfl, rfl, ?_⟩⟩ <;>
    decide +kernel

theorem witness_HeaderBytesComplete :
    (∃ r h, (inHeader .magic 0 0).engine = .running r ∧ r.progress = .header h ∧ h.phase = .magic) ∧
    (∃ r h, (inHeader .flg 0 0).engine = .running r ∧ r.progress = .header h ∧ h.phase = .flg) ∧
    (∃ r h, (inHeader .bd 0x64 0).engine = .running r ∧ r.progress = .header h ∧ h.phase = .bd) ∧
    (7 : BitVec 3).toNat ≤ (inHeader .bd 0x64 0).cfg.bsizeIdMax :=
  ⟨⟨_, _, rfl, rfl, rfl⟩, ⟨_, _, rfl, rfl, rfl⟩, ⟨_, _, rfl, rfl, rfl⟩, by decide⟩

theorem witness_HcCompletes : ∃ r h, (inHeader .hc 0x64 0x40).engine = .running r ∧ r.progress = .header h ∧ h.phase = .hc ∧
    (inHeader .hc 0x64 0x40).Calm ∧ (inHeader .hc 0x64 0x40).OnPlain .fdecOpen ∧ (inHeader .hc 0x64 0x40).FrameBytes h.t 4 (7 - 5) [0x64, 0x40] := by
  refine ⟨_, _, rfl, rfl, rfl, ?_⟩
  decide +kernel

theorem witness_BlockwordLz4Completes :
    (let s := atRecord 0x70 ([0x05, 0x00, 0x00, 0x00] ++ hello ++ [0xF9, 0x77, 0x00, 0xFB]) [] []
     ∃ r rd, s.engine = .running r ∧ r.progress = .record rd ∧ s.Calm ∧ (5 : BitVec 31).toNat ≤ rd.t.bs ∧
       s.FrameBytes rd.t (rd.t.pos + 4) (5 : BitVec 31).toNat hello ∧ rd.t.flg.getLsbD 4 = true ∧
       s.FrameBytes rd.t (rd.t.pos + 4 + (5 : BitVec 31).toNat) 4 (le32 (xxh32 hello 0))) := by
  refine ⟨_, _, rfl, rfl, ?_⟩
  decide +kernel

/-- A stored block of five bytes: a read to the end, one of six bytes, one of five, and a destination of four. -/
theorem witness_BlockwordRawCompletes :
    (let s := atRecord 0x60 ([0x05, 0x00, 0x00, 0x80] ++ hello) [] []
     ∃ r rd, s.engine = .running r ∧ r.progress = .record rd ∧ s.Calm ∧ (5 : BitVec 31).toNat ≤ rd.t.bs ∧
       s.FrameBytes rd.t (rd.t.pos + 4) (5 : BitVec 31).toNat hello ∧ rd.t.flg.getLsbD 4 = false ∧
       rd.want = none ∧ rd.t.st = .readingBlocks ∧ rd.out.length + hello.length ≤ rd.cap ∧ s.OnPlain .fdecRead ∧
       (let rd6 := { rd with want := some 6 }
        rd6.out.length + hello.length < 6) ∧
       (let rd5 := { rd with want := some 5 }
        rd5.out.length < 5 ∧ 5 ≤ rd5.out.length + hello.length ∧ 5 ≤ rd5.cap ∧ s.Sink r.args 5) ∧
       (let full := { rd with cap := 4 }
        hello.length ≠ 0 ∧ full.cap < full.out.length + hello.length)) := by
  refine ⟨_, _, rfl, rfl, ?_⟩
  decide +kernel

theorem witness_EndMarkCompletes :
    (let s := atRecord 0x6C [0x00, 0x00, 0x00, 0x00, 0xF9, 0x77, 0x00, 0xFB] hello hello
     ∃ r rd, s.engine = .running r ∧ r.progress = .record rd ∧ s.Calm ∧ s.OnPlain .fdecRead ∧ rd.t.pend = [] ∧ rd.t.flg.getLsbD 2 = true ∧
       s.FrameBytes rd.t (rd.t.pos + 4) 4 (le32 (xxh32 rd.t.plain 0)) ∧ s.Sink r.args rd.out.length) ∧
    ({ reading 0x6C 8 with csize := 5, total := 5 } : Fdec).total = 5 := by
  refine ⟨⟨_, _, rfl, rfl, ?_⟩, rfl⟩
  decide +kernel

/-- A command over memory with read side effects, whose outcome is any value (R66); a success, a usage error and a format error of
`FDEC_OPEN` over plain memory, and a stuck command. -/
theorem witness_FrameOfCommands :
    (let s : State := { cmd 0x2 hello with cfg.volatile := [(0x10000, 1)] }
     ¬s.OnPlain .blkEncode ∧ exec .blkEncode s = .next (s.anyOutcome .blkEncode)) ∧
    Instr.fdecOpen ∈ commands ∧ (cmd 0x2 hello).OnPlain .blkEncode ∧ (cmd 0xB [0x04]).OnPlain .fdecOpen ∧ (∃ t, exec .blkEncode (cmd 0x2 hello) = .next t ∧ t.Succeeded) ∧
    (cmd 0x2 hello).raced = [] ∧
    sees (fun t => t.engine == .idle && t.lastError == some .badRange)
      (exec .fdecOpen (mach { regs 2 with srcAddr := 0xFFFFFFFF } [])) = true ∧
    sees (fun t => t.engine == .idle && t.lastError == some .truncatedFrame) (exec .fdecOpen (cmd 0xB [0x04])) = true ∧
    ∃ t, exec .blkDecode (mach { regs 4 with srcAddr := 0xFF000000 } []) = .next t ∧ t.engine ≠ .idle :=
  ⟨⟨by decide +kernel, rfl⟩, by decide, by decide +kernel, by decide +kernel, ⟨_, rfl, by decide +kernel⟩, rfl,
    by decide +kernel, by decide +kernel, _, rfl, by decide +kernel⟩

theorem inside_inv : (inside (0x50 :: hello) abc .token 0 0).Inv where
  cfg := by decide
  memory := by decide
  space := by intro c hc; exact absurd hc List.not_mem_nil
  eses := ⟨by decide, by decide, fun _ => rfl, fun _ => ⟨rfl, rfl⟩⟩
  dses := ⟨by decide, by decide, fun _ => rfl, fun _ => ⟨rfl, rfl⟩⟩
  fenc := ⟨by decide, by decide, rfl, fun h => by rcases h with h | h | h <;> exact absurd h (by decide),
    fun h => by rcases h with h | h | h <;> exact absurd h (by decide), fun h => absurd h (by decide)⟩
  fdec := ⟨by decide, by decide, rfl⟩
  frame := fun h => by rcases h with h | h <;> exact absurd h (by decide)
  awaiting := by decide
  mirror := fun h => by rcases h with h | h <;> exact absurd h (by decide)
  flags := fun _ => ⟨rfl, rfl⟩
  err := fun h => absurd h (by decide)
  run := fun r h => by
    rcases h with h | h
    · obtain rfl := Engine.running.inj h
      exact ⟨rfl, by intro c hc; exact absurd hc (by simp), ⟨⟨by decide, by decide, by decide⟩, trivial⟩, rfl⟩
    · exact absurd h (by simp [inside, State.under])

theorem witness_FrameOfWireElements :
    (inHeader .bd 0x64 0).OnPlain .fdecOpen ∧ (atRecord 0x60 [0x00, 0x00, 0x00] [] []).OnPlain .fdecRead ∧
    Instr.last hello ∉ commands ∧ (inside (0x50 :: hello) abc .token 0 0).Inv ∧
    ∃ r t, (inside (0x50 :: hello) abc .token 0 0).engine = .running r ∧
      exec (.last hello) (inside (0x50 :: hello) abc .token 0 0) = .next t ∧ t.engine = .idle :=
  ⟨by decide +kernel, by decide +kernel, by decide +kernel, inside_inv, _, _, rfl, rfl, by decide +kernel⟩

theorem witness_ElementsRunWhereExpected :
    (inside [] [] .matchExt 15 1).Expects (.lenext 0 7) ∧ ¬State.reset.Expects .endMark := by
  refine ⟨⟨_, rfl, .inr (.inl ⟨_, _, rfl, .inl rfl⟩)⟩, ?_⟩
  rintro ⟨r, h, -⟩
  exact absurd h (by simp [State.reset])

theorem witness_MatchCopyback : 1 ≤ 3 ∧ 3 ≤ abc.length := by decide

theorem witness_MatcherGivesValidLists : hello.length ≤ maxInput := by decide

theorem witness_BlockRoundTrip : hello.length ≤ maxInput ∧ hello.length ≤ 5 := by decide

theorem witness_WindowIsTheLatestBytes : (List.replicate 65536 (0 : Byte)).length ≤ 65536 := by
  rw [List.length_replicate]

/-- Blocks of two bytes: three bytes, then one. -/
theorem witness_FrameChunkingIsTransparent :
    (let f : Fenc := { Fenc.reset with bs := 2 }
     0 < f.bs ∧ (emitBlocks .reference f ((f.stage ++ abc).length / f.bs) (f.stage ++ abc) f.win).2 = ([0x63], [0x61, 0x62])) := by
  decide +kernel

theorem witness_FrameEncoderCapacity : ({ Fenc.reset with bs := 5, stage := hello } : Fenc).stage.length ≤ 5 := by decide

theorem witness_ReadsDeliverThePlaintextInOrder :
    (readHello 0xC 2).raced = [] ∧ (readHello 0xC 2).OnPlain .fdecRead ∧ (readHello 0x20C 0).OnPlain .fdecReadToEnd ∧
    (readHello 0xC 10).OnPlain .fdecRead ∧ (∃ t, exec .fdecRead (readHello 0xC 2) = .next t ∧ t.Succeeded) ∧
    (∃ t, exec .fdecReadToEnd (readHello 0x20C 0) = .next t ∧ t.Succeeded) ∧
    ∃ t, exec .fdecRead (readHello 0xC 10) = .next t ∧ t.Succeeded ∧ t.result.toNat < 10 :=
  ⟨rfl, by decide +kernel, by decide +kernel, by decide +kernel, ⟨_, rfl, by decide +kernel⟩, ⟨_, rfl, by decide +kernel⟩, _, rfl, by decide +kernel⟩

/-- A block beside a hole, over plain memory and over memory with read side effects. -/
theorem witness_ElementsRunToTheCommandsResult : ∃ r, (cmd 0x3 [0x10, 0x61]).engine = .running r ∧ r.progress = .start ∧
    decodeCommand r.word = some .blkDecode ∧ (cmd 0x3 [0x10, 0x61]).Mapped .blkDecode ∧
    (let s : State := { cmd 0x3 [0x10, 0x61] with cfg.volatile := [(0x10000, 1)], cfg.holes := [(0x10002, 1)] }
     s.Mapped .blkDecode ∧ ¬s.OnPlain .blkDecode) := by
  refine ⟨_, rfl, rfl, ?_⟩
  decide +kernel

end Sys2Proof.Tests
end

section
/-! PROOF. The invariant of the machine in parts (memory, contexts, the running command), what each part depends on, and the operations on
memory that keep it. -/

namespace Sys2Proof.Machine

/-! ## The invariant in parts -/

/-- Memory in canonical form inside the address space (spec/20_memory.md R60). -/
structure Memory.Ok (m : Memory) : Prop where
  wf : Memory.wf m = true
  space : Memory.inSpace m

/-- A frame decoder and the `FDEC_*` registers beside it, in a state between commands (spec/10_state.md R36 to R39, R48, R49). -/
structure Fdec.Beside (c : Config) (t : Fdec) (regs : FdecRegs) : Prop where
  ok : t.Ok
  frame : t.isOpen → t.Open c
  awaiting : t.st ≠ .awaitingHeader
  mirror : t.isOpen → regs = t.regs

/-- The four contexts meet the invariant. -/
structure State.ContextsOk (s : State) : Prop where
  eses : s.eses.Ok
  dses : s.dses.Ok
  fenc : s.fenc.Ok s.cfg
  fdec : s.fdec.Beside s.cfg s.fregs

theorem State.Inv.memoryOk {s : State} (h : s.Inv) : Memory.Ok s.mem := ⟨h.memory, h.space⟩

theorem State.Inv.contextsOk {s : State} (h : s.Inv) : s.ContextsOk :=
  ⟨h.eses, h.dses, h.fenc, h.fdec, h.frame, h.awaiting, h.mirror⟩

/-- The invariant from its parts. -/
theorem State.Inv.of_parts {s : State} (hc : s.cfg.legal = true) (hm : Memory.Ok s.mem) (hx : s.ContextsOk)
    (hf : s.busy = true → s.done = false ∧ s.lastError = none) (he : s.err = true → s.done = true)
    (hr : ∀ r, s.engine = .running r ∨ s.engine = .stuck r → r.Ok s) : s.Inv :=
  ⟨hc, hm.wf, hm.space, hx.eses, hx.dses, hx.fenc, hx.fdec.ok, hx.fdec.frame, hx.fdec.awaiting, hx.fdec.mirror, hf, he, hr⟩

/-- The invariant of a state between commands. -/
theorem State.Inv.of_idle {s : State} (hi : s.engine = .idle) (hc : s.cfg.legal = true) (hm : Memory.Ok s.mem)
    (hx : s.ContextsOk) (he : s.err = true → s.done = true) : s.Inv :=
  .of_parts hc hm hx (fun hb => by simp [State.busy, hi] at hb) he (fun r hr => by simp [hi] at hr)

/-- The contexts of a state with the same parts. -/
theorem State.ContextsOk.congr {s t : State} (h : s.ContextsOk) (hc : t.cfg = s.cfg) (he : t.eses = s.eses)
    (hd : t.dses = s.dses) (hf : t.fenc = s.fenc) (ht : t.fdec = s.fdec) (hr : t.fregs = s.fregs) : t.ContextsOk :=
  ⟨he ▸ h.eses, hd ▸ h.dses, hc ▸ hf ▸ h.fenc, hc ▸ ht ▸ hr ▸ h.fdec⟩

/-! ### What the running command's invariant depends on -/

theorem Reader.Ok.congr {s t : State} {rd : Reader} (h : rd.Ok s) (hc : t.cfg = s.cfg) (hf : t.fdec = s.fdec) : rd.Ok t :=
  ⟨h.ok, hc ▸ h.opened, h.reading, hf ▸ h.context, hf ▸ h.same, h.pend, h.out, h.want⟩

theorem Progress.Ok.congr {s t : State} {q : Progress} (h : q.Ok s) (hc : t.cfg = s.cfg) (hf : t.fdec = s.fdec) : q.Ok t := by
  cases q with
  | start => trivial
  | header hr => exact (congrArg hr.Ok hc).mpr h
  | block use p =>
    refine ⟨h.1, ?_⟩
    cases use with
    | block | session => trivial
    | frame rd next => exact ⟨h.2.1.congr hc hf, h.2.2⟩
  | record rd => exact Reader.Ok.congr h hc hf

theorem Run.Ok.congr {s t : State} {r : Run} (h : r.Ok s) (ha : t.args = s.args) (hc : t.cfg = s.cfg) (hf : t.fdec = s.fdec) :
    r.Ok t :=
  ⟨h.snapshot.trans ha.symm, h.raced, h.progress.congr hc hf, h.bounded⟩

/-- The invariant does not depend on what only the host's side changes: the interrupt bits, the pending accesses and turns, the
value of the last host read, RESULT and the counter of free values. -/
theorem State.Inv.congr {s t : State} (h : s.Inv)
    (ht : t = { s with result := t.result, irqEn := t.irqEn, irqPending := t.irqPending, host := t.host, turns := t.turns,
                       rdata := t.rdata, nonce := t.nonce }) : t.Inv := by
  rw [ht]
  exact .of_parts h.cfg h.memoryOk (h.contextsOk.congr rfl rfl rfl rfl rfl rfl) h.flags h.err
    fun r hr => (h.run r hr).congr rfl rfl rfl

/-- Another engine, whose running command meets the invariant, in a state whose flags are those of a running command. -/
theorem State.Inv.setEngine {s : State} (h : s.Inv) (hf : s.done = false ∧ s.lastError = none) {e : Engine}
    (hr : ∀ q, e = .running q ∨ e = .stuck q → q.Ok s) : ({ s with engine := e } : State).Inv :=
  .of_parts h.cfg h.memoryOk (h.contextsOk.congr rfl rfl rfl rfl rfl rfl) (fun _ => hf) h.err
    fun q hq => (hr q hq).congr rfl rfl rfl

/-- The command under way in a state that meets the invariant. -/
theorem State.Inv.running {s : State} (h : s.Inv) {r : Run} (he : s.engine = .running r) :
    r.Ok s ∧ s.done = false ∧ s.lastError = none ∧ s.snapshot = s.args ∧ s.raced = r.raced := by
  have hr := h.run r (.inl he)
  obtain ⟨hd, hl⟩ := h.flags (by simp [State.busy, he])
  exact ⟨hr, hd, hl, by simp only [State.snapshot, State.run?, he, hr.snapshot], by simp only [State.raced, State.run?, he]⟩

/-! ## Memory -/

theorem Memory.Ok.write {m : Memory} (h : Memory.Ok m) {a : Nat} {v : Bytes} (hv : v = [] ∨ a + v.length ≤ addrSpace) :
    Memory.Ok (Memory.write m a v) :=
  ⟨Memory.write_wf h.wf a v, Memory.write_inSpace h.space hv⟩

theorem State.scramble_memoryOk {s : State} (h : Memory.Ok s.mem) (w : Region) : Memory.Ok (s.scramble w).mem := by
  refine h.write ?_
  rw [freeBytes_length, ← List.length_eq_zero_iff, freeBytes_length]
  omega

theorem State.blur_memoryOk {s : State} (h : Memory.Ok s.mem) (hr : Memory.inSpace s.raced) (i : Instr) :
    Memory.Ok (s.blur i).mem := by
  unfold State.blur
  split
  · refine List.foldlRecOn _ _ (motive := Memory.Ok) h fun m hm c hc => hm.write (.inr ?_)
    have := hr c (List.mem_filter.mp hc).1
    simpa using this
  · exact h

theorem State.raise_memoryOk {s : State} (h : Memory.Ok s.mem) (hr : Memory.inSpace s.raced) (i : Instr) (c : ErrCode) :
    Memory.Ok (s.raise i c).mem := by
  have hm : Memory.Ok (s.spoil i c).mem := by
    rw [State.spoil_mem]
    split
    · exact h
    · exact State.scramble_memoryOk h _
  have hs : (s.spoil i c).raced = s.raced := by rw [State.spoil_same]; rfl
  rw [State.raise_same]
  exact State.blur_memoryOk hm (hs ▸ hr) i

theorem accessible_fits {c : Config} {r : Region} {a n : Nat} (h : accessible c r a n = true) : a + n ≤ addrSpace := by
  simp only [accessible, backs, Bool.and_eq_true] at h
  exact (Region.fits_iff a n).mp h.1.1

theorem State.complete_memoryOk {s : State} (h : Memory.Ok s.mem) (hr : Memory.inSpace s.raced) {out : Bytes}
    (ht : s.takes out) (i : Instr) (n : Nat) : Memory.Ok (s.complete i out n).mem :=
  State.blur_memoryOk (s := { s with mem := Memory.write s.mem s.snapshot.dstPoint out })
    (h.write (ht.imp_right accessible_fits)) hr i

theorem State.anyOutcome_memoryOk {s : State} (h : Memory.Ok s.mem) (i : Instr) : Memory.Ok (s.anyOutcome i).mem := by
  rw [State.anyOutcome_eq, anyContext_same]
  show Memory.Ok (if opensDst i then s.scramble s.snapshot.window else s).mem
  split
  · exact State.scramble_memoryOk h _
  · exact h

end Sys2Proof.Machine
end

section
/-! PROOF. Errors and free outcomes keep the contexts, and the ends of a command keep the invariant. -/

namespace Sys2Proof.Machine

/-! ## Errors and free outcomes keep the contexts -/

theorem Session.Ok.poison {c : Session} (h : c.Ok) : ({ c with st := .poisoned } : Session).Ok :=
  ⟨h.dict, h.win, h.unlinked, fun hs => absurd hs (by simp)⟩

theorem Fenc.Ok.fail {c : Config} {f : Fenc} (h : f.Ok c) : ({ f with st := .error } : Fenc).Ok c :=
  ⟨h.dict, h.win, h.total, fun ho => by simp [Fenc.isOpen] at ho, fun ho => by simp [Fenc.isOpen] at ho,
    fun hs => absurd hs (by simp)⟩

/-- A frame decoder that has failed stands beside any registers. -/
theorem Fdec.Ok.fail {t : Fdec} (h : t.Ok) (c : Config) (regs : FdecRegs) :
    ({ t with st := .error } : Fdec).Beside c regs :=
  ⟨⟨h.dict, h.win, h.total⟩, fun ho => by simp [Fdec.isOpen] at ho, by simp, fun ho => by simp [Fdec.isOpen] at ho⟩

theorem State.ContextsOk.failContext {s : State} (h : s.ContextsOk) (i : Instr) : (failContext i s).ContextsOk := by
  cases i with
  | sesEnc => exact ⟨h.eses.poison, h.dses, h.fenc, h.fdec⟩
  | sesDec => exact ⟨h.eses, h.dses.poison, h.fenc, h.fdec⟩
  | fencOpen | fencWrite | fencClose => exact ⟨h.eses, h.dses, h.fenc.fail, h.fdec⟩
  | fdecOpen | fdecRead | fdecReadToEnd => exact ⟨h.eses, h.dses, h.fenc, h.fdec.ok.fail _ _⟩
  | blkBound | blkEncode | blkDecode | sesEncReset | sesEncResetLinked | sesDecReset | sesDecResetLinked
  | token | lenext | offset | seq | last | magic | flg | bd | hc | blockwordLz4 | blockwordRaw | endMark => exact h

theorem State.ContextsOk.raise {s : State} (h : s.ContextsOk) (i : Instr) (c : ErrCode) : (s.raise i c).ContextsOk := by
  have hs : (s.spoil i c).ContextsOk := by
    unfold State.spoil
    split
    · exact h
    · exact State.ContextsOk.failContext (h.congr (t := s.scramble s.snapshot.window) rfl rfl rfl rfl rfl rfl) i
  obtain ⟨he, hd, hf, ht, hr⟩ := s.raise_contexts i c
  exact hs.congr (by simp) he hd hf ht hr

theorem State.ContextsOk.complete {s : State} (h : s.ContextsOk) (i : Instr) (out : Bytes) (n : Nat) :
    (s.complete i out n).ContextsOk :=
  h.congr (by simp) (by simp) (by simp) (by simp) (by simp) (by simp)

theorem State.ContextsOk.anyContext {s : State} (h : s.ContextsOk) (hc : s.cfg.legal = true) (i : Instr) :
    (anyContext i s).ContextsOk := by
  cases i with
  | sesEncReset | sesEncResetLinked | sesEnc => exact ⟨anySession_ok _, h.dses, h.fenc, h.fdec⟩
  | sesDecReset | sesDecResetLinked | sesDec => exact ⟨h.eses, anySession_ok _, h.fenc, h.fdec⟩
  | fencOpen | fencWrite | fencClose => exact ⟨h.eses, h.dses, anyFenc_ok hc _, h.fdec⟩
  | fdecOpen | fdecRead | fdecReadToEnd =>
    exact ⟨h.eses, h.dses, h.fenc, anyFdec_ok _ _, fun _ => anyFdec_open hc _, anyFdec_st _ _, fun ho => anyFdecRegs_open ho _⟩
  | blkBound | blkEncode | blkDecode
  | token | lenext | offset | seq | last | magic | flg | bd | hc | blockwordLz4 | blockwordRaw | endMark => exact h

theorem State.ContextsOk.anyOutcome {s : State} (h : s.ContextsOk) (hc : s.cfg.legal = true) (i : Instr) :
    (s.anyOutcome i).ContextsOk := by
  have hx : (Machine.anyContext i (if opensDst i then s.scramble s.snapshot.window else s)).ContextsOk := by
    split
    · exact State.ContextsOk.anyContext (h.congr (t := s.scramble s.snapshot.window) rfl rfl rfl rfl rfl rfl) hc i
    · exact h.anyContext hc i
  rw [State.anyOutcome_eq]
  exact hx.congr rfl rfl rfl rfl rfl rfl

/-! ## The ends of a command keep the invariant -/

theorem State.anyOutcome_inv {s : State} (h : s.Inv) (i : Instr) : (s.anyOutcome i).Inv := by
  refine .of_idle rfl ?_ (State.anyOutcome_memoryOk h.memoryOk i) (h.contextsOk.anyOutcome h.cfg i) (fun _ => rfl)
  rw [(State.anyOutcome_frame rfl).1]
  exact h.cfg

theorem State.raiseOpcode_inv {s : State} (h : s.Inv) : s.raiseOpcode.Inv :=
  .of_idle rfl h.cfg h.memoryOk (h.contextsOk.congr rfl rfl rfl rfl rfl rfl) (fun _ => rfl)

section
variable {s : State} (h : s.Inv) {r : Run} (he : s.engine = .running r)
include h he

theorem State.raise_inv (i : Instr) (c : ErrCode) : (s.raise i c).Inv := by
  obtain ⟨hr, -, -, -, hraced⟩ := h.running he
  exact .of_idle (by simp) (by simpa using h.cfg) (State.raise_memoryOk h.memoryOk (hraced ▸ hr.raced) i c)
    (h.contextsOk.raise i c) (fun _ => by simp)

theorem State.stick_inv (i : Instr) : (s.stick i).Inv := by
  obtain ⟨hr, hd, hl, -, -⟩ := h.running he
  have hstick : s.stick i = { s with engine := .stuck { r with progress := .start } } := by
    simp only [State.stick, State.run?, he]
  rw [hstick]
  refine h.setEngine ⟨hd, hl⟩ fun q hq => ?_
  obtain rfl : { r with progress := .start } = q := by simpa using hq
  exact ⟨hr.snapshot, hr.raced, trivial, trivial⟩

theorem State.setProgress_inv {q : Progress} (hq : q.Ok s) (hb : q.Bounded r.args) : (s.setProgress r q).Inv := by
  obtain ⟨hr, hd, hl, -, -⟩ := h.running he
  refine h.setEngine ⟨hd, hl⟩ fun p hp => ?_
  obtain rfl : { r with progress := q } = p := by simpa using hp
  exact ⟨hr.snapshot, hr.raced, hq, hb⟩

/-- A body whose commit keeps the contexts ends in a state that meets the invariant. -/
theorem State.finish_inv {t : State} {i : Instr} {res : Except Stop Done} (ht : s.finish i res = .next t)
    (hres : ∀ d, res = .ok d → d.Keeps s ∧ (d.commit s).ContextsOk) : t.Inv := by
  rcases State.finish_cases ht with (rfl | ⟨c, -, rfl⟩ | ⟨d, hd, htake, rfl⟩) | ⟨-, rfl⟩
  · exact State.stick_inv h he i
  · exact State.raise_inv h he i c
  · obtain ⟨hk, hx⟩ := hres d hd
    obtain ⟨hr, -, -, -, hraced⟩ := h.running he
    have hraced' : (d.commit s).raced = r.raced := by simp only [State.raced, State.run?, hk.engine, he]
    have htake' : (d.commit s).takes d.out := by
      simpa only [State.takes, State.snapshot, State.run?, hk.cfg, hk.engine, hk.args] using htake
    exact .of_idle (by simp) (by simpa [hk.cfg] using h.cfg)
      (State.complete_memoryOk (hk.mem ▸ h.memoryOk) (hraced' ▸ hr.raced) htake' i d.result)
      (hx.complete i d.out d.result) (fun _ => by simp)
  · exact State.anyOutcome_inv h i

end

end Sys2Proof.Machine
end

section
/-! PROOF. The record reader of `FDEC_READ`: what each part of a read gives, and that it keeps the frame decoder's invariant. -/

namespace Sys2Proof.Machine

/-! ## Checks in a body -/

/-- What has passed a check that raises where `p` holds. -/
theorem guard_ok {α : Type} {p : Prop} [Decidable p] {e : Stop} {x : Except Stop α} {a : α}
    (h : (if p then .error e else x) = .ok a) : ¬p ∧ x = .ok a := by
  split at h
  · exact absurd h (by simp)
  · exact ⟨‹_›, h⟩

/-- What has passed a check that raises where `p` does not hold. -/
theorem check_ok {α : Type} {p : Prop} [Decidable p] {e : Stop} {x : Except Stop α} {a : α}
    (h : (if p then x else .error e) = .ok a) : p ∧ x = .ok a := by
  split at h
  · exact ⟨‹_›, h⟩
  · exact absurd h (by simp)

theorem mapError_ok {α ε δ : Type} {x : Except ε α} {f : ε → δ} {a : α} (h : x.mapError f = .ok a) : x = .ok a := by
  cases x with
  | error e => exact absurd h (by simp [Except.mapError])
  | ok b => simpa [Except.mapError] using h

/-! ## The record reader -/

theorem lastBytes_length_le (k : Nat) (s : Bytes) : (lastBytes k s).length ≤ k := by
  rw [lastBytes, List.length_drop]
  omega

theorem winAppend_length_le (w d : Bytes) : (winAppend w d).length ≤ winSize := lastBytes_length_le _ _

/-- A record reader between records: a frame that is being read or is finished, the same frame as the context's, with the output
within its bounds. Pending bytes may still have to be delivered. -/
structure Reader.Serves (s : State) (rd : Reader) : Prop where
  ok : rd.t.Ok
  opened : rd.t.Open s.cfg
  st : rd.t.isOpen
  context : s.fdec.isOpen
  reading : rd.t.st = .readingBlocks → s.fdec.st = .readingBlocks
  same : rd.t.flg = s.fdec.flg ∧ rd.t.bd = s.fdec.bd ∧ rd.t.csize = s.fdec.csize ∧ rd.t.dictid = s.fdec.dictid
  out : rd.out.length ≤ rd.cap
  want : ∀ n, rd.want = some n → rd.out.length ≤ n

/-- The reader at the start of a read of an open frame. -/
theorem Reader.start_serves {s : State} (h : s.Inv) (ho : s.fdec.isOpen) (A : Args) (toEnd : Bool) :
    (Reader.start s A toEnd).Serves s :=
  ⟨h.fdec, h.frame ho, ho, ho, id, ⟨rfl, rfl, rfl, rfl⟩, Nat.zero_le _, fun _ _ => Nat.zero_le _⟩

theorem Reader.due_le_pend (rd : Reader) : rd.due ≤ rd.t.pend.length := by
  unfold Reader.due
  split
  · exact le_rfl
  · exact Nat.min_le_right _ _

theorem Reader.due_le_want (rd : Reader) {n : Nat} (h : rd.want = some n) : rd.due ≤ n - rd.out.length := by
  simp only [Reader.due, h]
  exact Nat.min_le_left _ _

/-- What a delivery gives: the due bytes move from the pending ones to the output. -/
theorem Reader.deliver_ok {rd rd' : Reader} (h : rd.deliver = .ok rd') (ho : rd.out.length ≤ rd.cap) :
    rd' = { rd with out := rd.out ++ rd.t.pend.take rd.due, t := { rd.t with pend := rd.t.pend.drop rd.due } } ∧
      rd.out.length + rd.due ≤ rd.cap := by
  unfold Reader.deliver at h
  split at h
  · rename_i h0
    obtain rfl := Except.ok.inj h
    simp [h0, ho]
  · split at h
    · exact absurd h (by simp)
    · exact ⟨(Except.ok.inj h).symm, by omega⟩

theorem Reader.deliver_serves {s : State} {rd rd' : Reader} (hs : rd.Serves s) (h : rd.deliver = .ok rd') :
    rd'.Serves s ∧ rd'.cap = rd.cap := by
  obtain ⟨rfl, hcap⟩ := Reader.deliver_ok h hs.out
  have hlen : (rd.out ++ rd.t.pend.take rd.due).length = rd.out.length + rd.due := by
    rw [List.length_append, List.length_take, Nat.min_eq_left rd.due_le_pend]
  have hpend : (rd.t.pend.drop rd.due).length ≤ rd.t.bs := by
    have := hs.opened.pend
    rw [List.length_drop]
    omega
  refine ⟨⟨⟨hs.ok.dict, hs.ok.win, hs.ok.total⟩, ⟨hs.opened.region, hs.opened.pos, hs.opened.header, hs.opened.bs, hpend, ?_⟩,
    hs.st, hs.context, hs.reading, hs.same, hlen ▸ hcap, fun n hn => ?_⟩, rfl⟩
  · intro hf
    obtain ⟨hp, hsize⟩ := hs.opened.finished hf
    exact ⟨by simp [hp], hsize⟩
  · have hle := hs.want n hn
    have hdue := rd.due_le_want hn
    simp only [hlen]
    omega

/-- A read that lacks bytes after a delivery has nothing pending and is still reading blocks. -/
theorem Reader.Serves.lacking {s : State} {rd rd' : Reader} (hs : rd.Serves s) (h : rd.deliver = .ok rd')
    (hn : rd'.enough = false) : rd'.Ok s := by
  obtain ⟨hs', -⟩ := Reader.deliver_serves hs h
  simp only [Reader.enough, Bool.or_eq_false_iff, beq_eq_false_iff_ne] at hn
  have hst : rd'.t.st = .readingBlocks := hs'.st.resolve_right hn.2
  refine ⟨hs'.ok, hs'.opened, hst, hs'.reading hst, hs'.same, ?_, hs'.out, hs'.want⟩
  obtain ⟨rfl, -⟩ := Reader.deliver_ok h hs.out
  have hdue : rd.t.pend.length ≤ rd.due := by
    cases hw : rd.want with
    | none => simp [Reader.due, hw]
    | some n =>
      have hle := hs.want n hw
      have hne : n ≠ (rd.out ++ rd.t.pend.take rd.due).length := fun e => hn.1 (by simp only [hw, e])
      rw [List.length_append, List.length_take, Nat.min_eq_left rd.due_le_pend] at hne
      have hmin : rd.due = min (n - rd.out.length) rd.t.pend.length := by simp only [Reader.due, hw]
      omega
  exact List.drop_eq_nil_of_le hdue

/-- A frame with the reader's working copy in place of the context's. -/
theorem Reader.Serves.beside {s : State} {rd : Reader} (hs : rd.Serves s) (h : s.Inv) :
    rd.t.Beside s.cfg { s.fregs with srcPos := BitVec.ofNat 32 rd.t.pos } := by
  refine ⟨hs.ok, fun _ => hs.opened, ?_, fun _ => ?_⟩
  · rcases hs.st with e | e <;> simp [e]
  · obtain ⟨hf, hb, hc, hd⟩ := hs.same
    rw [h.mirror hs.context]
    simp only [Fdec.regs, hf, hb, hc, hd]

theorem fdecReadDone_keeps {s : State} {rd : Reader} (hs : rd.Serves s) (h : s.Inv) :
    (fdecReadDone rd).Keeps s ∧ ((fdecReadDone rd).commit s).ContextsOk :=
  ⟨⟨rfl, rfl, rfl, rfl, rfl, rfl, rfl, rfl, rfl⟩, h.eses, h.dses, h.fenc, hs.beside h⟩

/-! ### Records -/

/-- Of a record whose payload is there: its size, and where it ends. -/
theorem recordPayload_ok {s : State} {t : Fdec} {size next : Nat} {payload : Bytes}
    (h : recordPayload s t size = .ok (payload, next)) : payload.length = size ∧ size ≤ t.bs ∧ t.pos + 4 ≤ next ∧ next ≤ t.len := by
  obtain ⟨hbs, h⟩ := guard_ok h
  obtain ⟨hlen, h⟩ := guard_ok h
  obtain ⟨x, hx, h⟩ := bind_ok h
  have hxl := (State.memRead_ok hx).2
  by_cases hc : bCsum t.flg = true
  · rw [if_pos hc] at hlen
    obtain ⟨y, -, h⟩ := bind_ok ((if_pos hc).symm.trans h)
    obtain ⟨-, h⟩ := check_ok h
    cases h
    exact ⟨hxl, by omega, by omega, by omega⟩
  · rw [if_neg hc] at hlen
    cases (if_neg hc).symm.trans h
    exact ⟨hxl, by omega, by omega, by omega⟩

/-- A block's plaintext joins the frame. -/
theorem Reader.Ok.accept {s : State} {rd : Reader} (h : rd.Ok s) {blk : Bytes} {next : Nat} (hn : next ≤ rd.t.len)
    (hb : blk.length ≤ rd.t.bs) : ({ rd with t := rd.t.accept blk next } : Reader).Serves s := by
  refine ⟨⟨h.ok.dict, ?_, ?_⟩, ⟨h.opened.region, hn, h.opened.header, h.opened.bs, hb, ?_⟩, .inl h.reading, .inl h.context,
    fun _ => h.context, h.same, h.out, h.want⟩
  · simp only [Fdec.accept]
    split
    · exact h.ok.win
    · exact winAppend_length_le _ _
  · simp only [Fdec.accept, h.ok.total, List.length_append, BitVec.ofNat_add]
  · intro hf
    have hr : (rd.t.accept blk next).st = .readingBlocks := h.reading
    exact absurd (hr.symm.trans hf) (by decide)

theorem trailer_ok {s : State} {t : Fdec} {q : Nat} (h : trailer s t = .ok q) (hw : t.pos + 4 ≤ t.len) :
    t.pos + 4 ≤ q ∧ q ≤ t.len := by
  unfold trailer at h
  by_cases hc : cCsum t.flg = true
  · obtain ⟨hlen, h⟩ := guard_ok ((if_pos hc).symm.trans h)
    obtain ⟨x, -, h⟩ := bind_ok h
    obtain ⟨-, h⟩ := check_ok h
    cases h
    omega
  · cases (if_neg hc).symm.trans h
    omega

/-- What the end of a frame gives, once the End Mark is there. -/
theorem endOfFrame_ok {s : State} {t u : Fdec} (h : endOfFrame s t = .ok u) (hw : t.pos + 4 ≤ t.len) :
    ∃ q, u = { t with pos := q, st := .finished } ∧ t.pos + 4 ≤ q ∧ q ≤ t.len ∧ (cSize t.flg = true → t.total = t.csize) := by
  obtain ⟨q, hq, h⟩ := bind_ok h
  obtain ⟨hs, h⟩ := guard_ok h
  obtain ⟨h1, h2⟩ := trailer_ok hq hw
  exact ⟨q, (Except.ok.inj h).symm, h1, h2, fun hc => Classical.byContradiction fun hne => hs ⟨hc, hne⟩⟩

/-- The frame ends. -/
theorem Reader.Ok.finish {s : State} {rd : Reader} (h : rd.Ok s) {u : Fdec} (hu : endOfFrame s rd.t = .ok u)
    (hw : rd.t.pos + 4 ≤ rd.t.len) : ({ rd with t := u } : Reader).Serves s := by
  obtain ⟨q, rfl, -, hq, hsize⟩ := endOfFrame_ok hu hw
  exact ⟨⟨h.ok.dict, h.ok.win, h.ok.total⟩,
    ⟨h.opened.region, hq, h.opened.header, h.opened.bs, by simp [h.pend], fun _ => ⟨h.pend, hsize⟩⟩, .inr rfl, .inl h.context,
    fun hf => absurd hf (by simp), h.same, h.out, h.want⟩

/-- A stored record. -/
theorem Reader.Ok.raw {s : State} {rd : Reader} (h : rd.Ok s) {size : Nat} {u : Fdec} (hu : rawRecord s rd.t size = .ok u) :
    ({ rd with t := u } : Reader).Serves s := by
  obtain ⟨⟨payload, next⟩, hp, hu⟩ := bind_ok hu
  obtain ⟨hlen, hb, -, hn⟩ := recordPayload_ok hp
  obtain rfl := Except.ok.inj hu
  exact h.accept hn (hlen ▸ hb)

theorem recordWord_ok {s : State} {t : Fdec} {w : Word} (h : recordWord s t = .ok w) : t.pos + 4 ≤ t.len :=
  Nat.not_lt.mp (guard_ok h).1

/-- Any record. -/
theorem Reader.Ok.record {s : State} {rd : Reader} (h : rd.Ok s) {u : Fdec} (hu : nextRecord s rd.t = .ok u) :
    ({ rd with t := u } : Reader).Serves s := by
  obtain ⟨w, hw, hu⟩ := bind_ok hu
  split at hu
  · exact h.finish hu (recordWord_ok hw)
  split at hu
  · exact h.raw hu
  · obtain ⟨⟨payload, next⟩, hp, hu⟩ := bind_ok hu
    obtain ⟨-, -, -, hn⟩ := recordPayload_ok hp
    obtain ⟨blk, hb, hu⟩ := bind_ok hu
    obtain rfl := Except.ok.inj hu
    exact h.accept hn (Parser.run_within (p := rd.t.blockParser payload) _ (Nat.zero_le _) (mapError_ok (raised_ok hb)))

theorem readLoop_serves (s : State) (n : Nat) : ∀ {rd rd' : Reader}, rd.Serves s → readLoop s n rd = .ok rd' → rd'.Serves s := by
  induction n with
  | zero => intro rd rd' _ h; exact absurd h (by simp [readLoop])
  | succ n ih =>
    intro rd rd' hs h
    obtain ⟨r1, h1, h⟩ := bind_ok h
    split at h
    · obtain rfl := Except.ok.inj h
      exact (Reader.deliver_serves hs h1).1
    · rename_i hne
      obtain ⟨t, ht, h⟩ := bind_ok h
      exact ih ((hs.lacking h1 (by simpa using hne)).record ht) h

end Sys2Proof.Machine
end

section
/-! PROOF. What each command's success leaves in its context, and that every whole command keeps the invariant. -/

namespace Sys2Proof.Machine

/-! ## What a command's success leaves in its context -/

/-- What the usage checks have let pass. -/
theorem usageError_none_iff {i : Instr} {s : State} {A : Args} : usageError i s A = none ↔
    stateForbids i s = false ∧ configForbids i s A = false ∧ rangeBad i s A = false ∧ overlapBad i s A = false := by
  unfold usageError
  cases stateForbids i s <;> cases configForbids i s A <;> cases rangeBad i s A <;> cases overlapBad i s A <;> simp

theorem isOpen_of_fencWrite {s : State} (h : stateForbids .fencWrite s = false) : s.fenc.isOpen := by
  cases hs : s.fenc.st <;> simp_all [stateForbids, Fenc.isOpen]

theorem isOpen_of_fencClose {s : State} (h : stateForbids .fencClose s = false) : s.fenc.isOpen := by
  cases hs : s.fenc.st <;> simp_all [stateForbids, Fenc.isOpen]

theorem isOpen_of_fdecRead {s : State} (h : stateForbids .fdecRead s = false) : s.fdec.isOpen := by
  cases hs : s.fdec.st <;> simp_all [stateForbids, Fdec.isOpen]

/-- A region a command reads lies in the address space once the usage checks are passed. -/
theorem regionsRead_fits {i : Instr} {s : State} {A : Args} (hu : usageError i s A = none) {r : Region}
    (hr : r ∈ regionsRead i s A) : r.1 + r.2 ≤ addrSpace := by
  obtain ⟨-, -, h, -⟩ := usageError_none_iff.mp hu
  rw [← Bool.not_eq_true, rangeBad_iff, not_or] at h
  exact Classical.byContradiction fun hn => h.1 ⟨r, hr, hn⟩

theorem readDict_length {s : State} {A : Args} {d : Bytes} (h : s.readDict A = .ok d) : d.length ≤ winSize := by
  rw [(State.memRead_ok h).2]
  exact Nat.min_le_right _ _

/-! ### Sessions -/

theorem Session.opened_ok (linked : Bool) {d : Bytes} (hd : d.length ≤ winSize) : (Session.opened linked d).Ok :=
  ⟨hd, hd, fun _ => rfl, fun _ => ⟨rfl, rfl⟩⟩

theorem Session.Ok.advance {c : Session} (h : c.Ok) (x : Bytes) : (c.advance x).Ok := by
  refine ⟨h.dict, ?_, fun hl => ?_, fun hs => absurd hs (by simp [Session.advance])⟩
  · simp only [Session.advance]
    split
    · exact winAppend_length_le _ _
    · exact h.win
  · have hl' : c.linked = false := hl
    simpa [Session.advance, hl'] using h.unlinked hl'

/-! ### The frame encoder -/

/-- The block size of a header without a reserved value. -/
theorem blockMax_pos {c : Config} {flg bd : Byte} (h : headerLegal c flg bd = true) : 0 < blockMax (bdCode bd) := by
  obtain ⟨-, -, h4, -⟩ := of_decide_eq_true h
  have h8 : bdCode bd < 8 := (bd.extractLsb' 4 3).isLt
  generalize bdCode bd = k at *
  interval_cases k <;> decide

theorem Fenc.opened_ok {c : Config} {A : Args} {d : Bytes} (hA : fcfgLegal c A = true) (hd : d.length ≤ winSize) :
    (Fenc.opened A d).Ok c := by
  have hh : headerLegal c A.flg A.bd = true := by
    rw [fcfgLegal, Bool.and_eq_true] at hA
    exact hA.2
  exact ⟨hd, hd, rfl, fun _ => ⟨hh, rfl⟩, fun _ => blockMax_pos hh, fun hs => absurd hs (by simp [Fenc.opened])⟩

theorem Fenc.slide_length_le (f : Fenc) {w : Bytes} (hw : w.length ≤ winSize) (blk : Bytes) : (f.slide w blk).length ≤ winSize := by
  unfold Fenc.slide
  split
  · exact hw
  · exact winAppend_length_le _ _

/-- What the blocks cut from a buffer leave: the bytes after them, and a window within its bound. -/
theorem emitBlocks_rest (c : Config) (f : Fenc) (k : Nat) : ∀ (buf w : Bytes), w.length ≤ winSize →
    (emitBlocks c f k buf w).2.1 = buf.drop (k * f.bs) ∧ (emitBlocks c f k buf w).2.2.length ≤ winSize := by
  induction k with
  | zero => intro buf w hw; exact ⟨by simp [emitBlocks], hw⟩
  | succ k ih =>
    intro buf w hw
    obtain ⟨h1, h2⟩ := ih (buf.drop f.bs) _ (f.slide_length_le hw (buf.take f.bs))
    refine ⟨h1.trans ?_, h2⟩
    rw [List.drop_drop, Nat.succ_mul, Nat.add_comm]

/-- A frame encoder after a write: the bytes of whole blocks have left the buffer. -/
theorem Fenc.Ok.write {c : Config} {f : Fenc} (h : f.Ok c) (ho : f.isOpen) (x : Bytes) :
    ({ f with st := .writing, stage := (emitBlocks c f ((f.stage ++ x).length / f.bs) (f.stage ++ x) f.win).2.1,
              win := (emitBlocks c f ((f.stage ++ x).length / f.bs) (f.stage ++ x) f.win).2.2, plain := f.plain ++ x,
              total := f.total + BitVec.ofNat 64 x.length } : Fenc).Ok c := by
  obtain ⟨hrest, hwin⟩ := emitBlocks_rest c f ((f.stage ++ x).length / f.bs) (f.stage ++ x) f.win h.win
  refine ⟨h.dict, hwin, ?_, fun _ => h.header ho, fun _ => ?_, fun hs => absurd hs (by simp)⟩
  · simp only [h.total, List.length_append, BitVec.ofNat_add]
  · simp only [hrest, List.length_drop]
    have := Nat.mod_lt (f.stage ++ x).length (h.bs_pos ho).1
    have := Nat.div_add_mod' (f.stage ++ x).length f.bs
    omega

theorem Fenc.Ok.close {c : Config} {f : Fenc} (h : f.Ok c) (ho : f.isOpen) (hs : cSize f.flg = true → f.total = f.csize) :
    f.close.Ok c := by
  refine ⟨h.dict, ?_, h.total, fun _ => h.header ho, fun _ => (h.bs_pos ho).1, fun _ => ⟨rfl, hs⟩⟩
  simp only [Fenc.close]
  split
  · exact h.win
  · exact f.slide_length_le h.win _

/-! ### The frame decoder -/

/-- A header run at its start. -/
theorem Fdec.awaiting_ok (c : Config) {A : Args} {d : Bytes} (hA : A.srcAddr.toNat + A.srcLen.toNat ≤ addrSpace)
    (hd : d.length ≤ winSize) : HeaderRun.Ok c ⟨.magic, Fdec.awaiting A d⟩ :=
  ⟨hA, hd, rfl, ⟨rfl, rfl, rfl⟩, fun h => by simp at h, fun h => absurd h (by simp)⟩

/-- An opened frame, once the last byte of its header is there. -/
theorem HeaderRun.Ok.openedWith {c : Config} {h : HeaderRun} (hh : h.Ok c) (hph : h.phase = .hc)
    (hl : headerLength h.t.flg ≤ h.t.len) (opt : Bytes) :
    (h.t.openedWith opt).Beside c (h.t.openedWith opt).regs := by
  obtain ⟨hpend, hplain, htotal⟩ := hh.empty
  refine ⟨⟨hh.dict, ?_, ?_⟩, fun _ => ⟨hh.region, hl, hh.bd hph, rfl, ?_, fun hs => absurd hs (by simp [Fdec.openedWith])⟩,
    by simp [Fdec.openedWith], fun _ => rfl⟩
  · simpa only [Fdec.openedWith, hh.win] using hh.dict
  · simp only [Fdec.openedWith, hplain, htotal]; rfl
  · simp only [Fdec.openedWith, hpend]; exact Nat.zero_le _

theorem headerSum_ok {s : State} {t u : Fdec} {b : Byte} (h : headerSum s t b = .ok u) : ∃ opt, u = t.openedWith opt := by
  obtain ⟨desc, -, h⟩ := bind_ok h
  obtain ⟨-, h⟩ := check_ok h
  obtain ⟨opt, -, h⟩ := bind_ok h
  exact ⟨opt, (Except.ok.inj h).symm⟩

theorem headerSumByte_ok {s : State} {t : Fdec} {b : Bytes} (h : headerSumByte s t = .ok b) : headerLength t.flg ≤ t.len :=
  Nat.not_lt.mp (guard_ok h).1

/-- What a whole header gives. -/
theorem parseHeader_ok {s : State} {t u : Fdec} (h : parseHeader s t = .ok u) (ht : HeaderRun.Ok s.cfg ⟨.magic, t⟩) :
    u.Beside s.cfg u.regs := by
  obtain ⟨-, -, h⟩ := bind_ok h
  obtain ⟨t1, h1, h⟩ := bind_ok h
  obtain ⟨sum, h2, h⟩ := bind_ok h
  obtain ⟨opt, rfl⟩ := headerSum_ok h
  obtain ⟨-, h1⟩ := guard_ok h1
  obtain ⟨fb, -, h1⟩ := bind_ok h1
  obtain ⟨hlegal, h1⟩ := check_ok h1
  obtain rfl := Except.ok.inj h1
  have hrun : HeaderRun.Ok s.cfg ⟨.hc, { t with flg := fb.getD 0 0, bd := fb.getD 1 0 }⟩ :=
    ⟨ht.region, ht.dict, ht.win, ht.empty, fun _ => (of_decide_eq_true hlegal).1, fun _ => hlegal⟩
  exact hrun.openedWith rfl (headerSumByte_ok h2) opt

/-! ### Every body -/

/-- A body that succeeds past its usage checks leaves contexts that meet the invariant. -/
theorem body_contextsOk {i : Instr} {s : State} (h : s.Inv) (hu : usageError i s s.snapshot = none) {d : Done}
    (hd : bodyOf i s s.snapshot = .ok d) : (d.commit s).ContextsOk := by
  have hx := h.contextsOk
  obtain ⟨hst, hcfg, -, -⟩ := usageError_none_iff.mp hu
  cases i with
  | blkBound =>
    cases hd
    exact hx
  | blkEncode =>
    obtain ⟨-, hd⟩ := guard_ok hd
    obtain ⟨x, -, hd⟩ := bind_ok hd
    obtain ⟨y, -, hd⟩ := bind_ok hd
    obtain ⟨rfl, -⟩ := fitOut_ok hd
    exact hx
  | blkDecode =>
    obtain ⟨p, -, hd⟩ := bind_ok hd
    obtain ⟨out, -, hd⟩ := bind_ok hd
    cases hd
    exact hx
  | sesEncReset | sesEncResetLinked =>
    obtain ⟨x, hx', hd⟩ := bind_ok hd
    cases hd
    exact ⟨Session.opened_ok _ (readDict_length hx'), hx.dses, hx.fenc, hx.fdec⟩
  | sesDecReset | sesDecResetLinked =>
    obtain ⟨x, hx', hd⟩ := bind_ok hd
    cases hd
    exact ⟨hx.eses, Session.opened_ok _ (readDict_length hx'), hx.fenc, hx.fdec⟩
  | sesEnc =>
    obtain ⟨-, hd⟩ := guard_ok hd
    obtain ⟨x, -, hd⟩ := bind_ok hd
    obtain ⟨rfl, -⟩ := fitOut_ok hd
    exact ⟨hx.eses.advance x, hx.dses, hx.fenc, hx.fdec⟩
  | sesDec =>
    obtain ⟨p, -, hd⟩ := bind_ok hd
    obtain ⟨out, -, hd⟩ := bind_ok hd
    cases hd
    exact ⟨hx.eses, hx.dses.advance out, hx.fenc, hx.fdec⟩
  | fencOpen =>
    obtain ⟨x, hx', hd⟩ := bind_ok hd
    obtain ⟨rfl, -⟩ := fitOut_ok hd
    have hlegal : fcfgLegal s.cfg s.snapshot = true := by simpa [configForbids] using hcfg
    exact ⟨hx.eses, hx.dses, Fenc.opened_ok hlegal (readDict_length hx'), hx.fdec⟩
  | fencWrite =>
    obtain ⟨x, -, hd⟩ := bind_ok hd
    obtain ⟨rfl, -⟩ := fitOut_ok hd
    exact ⟨hx.eses, hx.dses, hx.fenc.write (isOpen_of_fencWrite hst) x, hx.fdec⟩
  | fencClose =>
    by_cases hclosed : s.fenc.st = .closed
    · cases (if_pos hclosed).symm.trans hd
      exact hx
    · obtain ⟨hsize, hd⟩ := guard_ok ((if_neg hclosed).symm.trans hd)
      obtain ⟨rfl, -⟩ := fitOut_ok hd
      exact ⟨hx.eses, hx.dses, hx.fenc.close (isOpen_of_fencClose hst) fun hc =>
        Classical.byContradiction fun hne => hsize ⟨hc, hne⟩, hx.fdec⟩
  | fdecOpen =>
    obtain ⟨x, hx', hd⟩ := bind_ok hd
    obtain ⟨t, ht, hd⟩ := bind_ok hd
    cases hd
    have hsrc : s.snapshot.srcAddr.toNat + s.snapshot.srcLen.toNat ≤ addrSpace :=
      regionsRead_fits hu (r := s.snapshot.src) (by simp [regionsRead])
    have hbeside := parseHeader_ok ht (Fdec.awaiting_ok _ hsrc (readDict_length hx'))
    exact ⟨hx.eses, hx.dses, hx.fenc, hbeside⟩
  | fdecRead | fdecReadToEnd =>
    obtain ⟨rd, hrd, hd⟩ := bind_ok hd
    cases hd
    exact (fdecReadDone_keeps (readLoop_serves s _ (Reader.start_serves h (isOpen_of_fdecRead hst) _ _) hrd) h).2
  | token | lenext | offset | seq | last | magic | flg | bd | hc | blockwordLz4 | blockwordRaw | endMark =>
    exact absurd hd (by simp [bodyOf])

/-- A command keeps the invariant. -/
theorem command_inv {i : Instr} {s t : State} (hi : i ∈ commands) (h : s.Inv) {r : Run} (he : s.engine = .running r)
    (ht : exec i s = .next t) : t.Inv := by
  rw [exec_command hi] at ht
  cases hu : usageError i s s.snapshot with
  | some c =>
    rw [State.command_usage hu] at ht
    cases ht
    exact State.raise_inv h he i c
  | none =>
    rw [State.command_body hu] at ht
    exact State.finish_inv h he ht fun d hd => ⟨(body_ok hd).keeps, body_contextsOk h hu hd⟩

end Sys2Proof.Machine
end

section
/-! PROOF. The wire elements keep the invariant. -/

namespace Sys2Proof.Machine

/-! ## The token parser's elements -/

/-- An element's effect on a parser of a capacity: the parser it leaves is within its bounds, and so is a whole block. -/
def Parse.Ok (cap : Nat) : Parse → Prop
  | .more p => p.Ok ∧ p.cap = cap
  | .done out => out.length ≤ cap
  | .fail _ => True

theorem Parser.literals_ok {p : Parser} {cap : Nat} (hc : p.cap = cap) (hh : p.hist.length ≤ winSize)
    (hr : p.rest.length ≤ p.size) {n : Nat} : (p.literals n).Ok cap := by
  subst hc
  have hw := p.literals_within n
  unfold Parser.literals at hw ⊢
  dsimp only at hw ⊢
  split
  · trivial
  split
  · trivial
  rename_i h1 h2
  rw [if_neg h1, if_neg h2] at hw
  split
  · rename_i h3
    rwa [if_pos h3] at hw
  · rename_i h3
    rw [if_neg h3] at hw
    exact ⟨⟨hh, hw.2, (List.drop_suffix _ _).length_le.trans hr⟩, rfl⟩

theorem Parser.copy_ok {p : Parser} {cap : Nat} (hc : p.cap = cap) (hh : p.hist.length ≤ winSize)
    (hr : p.rest.length ≤ p.size) {m : Nat} : (p.copy m).Ok cap := by
  subst hc
  unfold Parser.copy
  split
  · trivial
  split
  · trivial
  split
  · trivial
  · refine ⟨⟨hh, ?_, hr⟩, rfl⟩
    simp only [List.length_append, copyMatch_length]
    omega

section
variable {p : Parser} (h : p.Ok)
include h

theorem Parser.Ok.drop_rest (n : Nat) : (p.rest.drop n).length ≤ p.size := (List.drop_suffix _ _).length_le.trans h.rest

theorem Parser.Ok.token (ll ml : BitVec 4) : (p.token ll ml).Ok p.cap := by
  unfold Parser.token
  dsimp only
  split
  · exact ⟨⟨h.hist, h.out, h.drop_rest 1⟩, rfl⟩
  · apply Parser.literals_ok
    exacts [rfl, h.hist, h.drop_rest 1]

theorem Parser.Ok.offset (off : BitVec 16) : (p.offset off).Ok p.cap := by
  unfold Parser.offset
  dsimp only
  split
  · exact ⟨⟨h.hist, h.out, h.drop_rest 2⟩, rfl⟩
  · apply Parser.copy_ok
    exacts [rfl, h.hist, h.drop_rest 2]

theorem Parser.Ok.seq (lit : Bytes) (off : BitVec 16) (len : Nat) : (p.seq lit off len).Ok p.cap := by
  unfold Parser.seq
  split
  · trivial
  · apply Parser.copy_ok
    exacts [rfl, h.hist, h.drop_rest _]

end

theorem Parser.last_ok (p : Parser) (lit : Bytes) : (p.last lit).Ok p.cap := by
  unfold Parser.last
  split
  · trivial
  · rename_i hcap
    simp only [Parse.Ok, List.length_append]
    omega

theorem Parser.start_ok {src hist : Bytes} (h : hist.length ≤ winSize) (cap : Nat) : (Parser.start src hist cap).Ok :=
  ⟨h, Nat.zero_le _, le_rfl⟩

/-! ## What follows an element of a block -/

/-- The error a command whose block raises `c` reports (spec/43_frame_decoder.md R222). -/
def BlockUse.error : BlockUse → ErrCode → ErrCode
  | .block, c | .session, c => c
  | .frame _ _, c => frameError c

theorem State.afterParse_more (r : Run) (use : BlockUse) (p : Parser) (s : State) :
    s.afterParse r use (.more p) = .next (s.setProgress r (.block use p)) := by
  cases use <;> rfl

theorem State.afterParse_fail (r : Run) (use : BlockUse) (c : ErrCode) (s : State) :
    s.afterParse r use (.fail c) = s.finish use.command (.error (.err (use.error c))) := by
  cases use <;> rfl

theorem State.afterParse_done_block (r : Run) (out : Bytes) (s : State) :
    s.afterParse r .block (.done out) = s.finish .blkDecode (.ok (blkDecodeDone out)) := rfl

theorem State.afterParse_done_session (r : Run) (out : Bytes) (s : State) :
    s.afterParse r .session (.done out) = s.finish .sesDec (.ok (sesDecDone out)) := rfl

theorem State.afterParse_done_frame (r : Run) (rd : Reader) (next : Nat) (out : Bytes) (s : State) :
    s.afterParse r (.frame rd next) (.done out) = s.afterRecord r { rd with t := rd.t.accept out next } := rfl

/-! ## The elements keep the invariant -/

section
variable {s : State} (h : s.Inv) {r : Run} (he : s.engine = .running r)
include h he

theorem State.afterRecord_inv {t : State} {rd : Reader} (hs : rd.Serves s) (hcap : rd.cap = r.args.room)
    (ht : s.afterRecord r rd = .next t) : t.Inv := by
  unfold State.afterRecord at ht
  split at ht
  · exact State.finish_inv h he ht fun d hd => absurd hd (by simp)
  · rename_i rd' hd
    obtain ⟨hs', hcap'⟩ := Reader.deliver_serves hs hd
    split at ht
    · refine State.finish_inv h he ht fun d hd => ?_
      cases hd
      exact fdecReadDone_keeps hs' h
    · rename_i hne
      cases ht
      exact State.setProgress_inv h he (q := .record rd') (hs.lacking hd (by simpa using hne)) (hcap'.trans hcap)

theorem State.afterParse_inv {t : State} {use : BlockUse} {p : Parser} {x : Parse} (hp : r.progress = .block use p)
    (hx : x.Ok p.cap) (ht : s.afterParse r use x = .next t) : t.Inv := by
  obtain ⟨hr, -, -, -, -⟩ := h.running he
  have hok := hr.progress
  have hbd := hr.bounded
  rw [hp] at hok hbd
  obtain ⟨-, huse⟩ := hok
  cases x with
  | more q =>
    obtain ⟨hq, hcap⟩ := hx
    rw [State.afterParse_more] at ht
    cases ht
    refine State.setProgress_inv h he (q := .block use q) ⟨hq, ?_⟩ ?_
    · cases use with
      | block | session => trivial
      | frame rd next => exact ⟨huse.1, huse.2.1, hcap.trans huse.2.2⟩
    · cases use with
      | block | session => exact hcap.trans hbd
      | frame rd next => exact hbd
  | fail c =>
    rw [State.afterParse_fail] at ht
    exact State.finish_inv h he ht fun d hd => absurd hd (by simp)
  | done out =>
    cases use with
    | block =>
      rw [State.afterParse_done_block] at ht
      refine State.finish_inv h he ht fun d hd => ?_
      cases hd
      exact ⟨⟨rfl, rfl, rfl, rfl, rfl, rfl, rfl, rfl, rfl⟩, h.contextsOk⟩
    | session =>
      rw [State.afterParse_done_session] at ht
      refine State.finish_inv h he ht fun d hd => ?_
      cases hd
      exact ⟨⟨rfl, rfl, rfl, rfl, rfl, rfl, rfl, rfl, rfl⟩, h.eses, h.dses.advance out, h.fenc, h.contextsOk.fdec⟩
    | frame rd next =>
      obtain ⟨hrd, hnext, hcap⟩ := huse
      rw [State.afterParse_done_frame] at ht
      exact State.afterRecord_inv h he (hrd.accept hnext (hcap ▸ hx)) hbd ht

/-- An element of a block, where its effect keeps the parser within its bounds. -/
theorem State.inBlock_inv {t : State} {phases : List ParserPhase} {f : Parser → Parse}
    (hf : ∀ p : Parser, p.Ok → (f p).Ok p.cap) (ht : s.inBlock phases f = .next t) : t.Inv := by
  obtain ⟨r', use, p, he', hp, -, hx⟩ := State.inBlock_cases ht
  obtain rfl : r = r' := by simpa [he] using he'
  have hok := (h.running he).1.progress
  rw [hp] at hok
  exact State.afterParse_inv h he hp (hf p hok.1) hx

/-- An element of a header, where it keeps the invariant of the header that is read. -/
theorem State.inHeader_inv {t : State} {ph : HeaderPhase} {f : Run → Fdec → Host.Outcome State Fault Refusal}
    (hf : ∀ hd : HeaderRun, r.progress = .header hd → hd.phase = ph → hd.Ok s.cfg → f r hd.t = .next t → t.Inv)
    (ht : s.inHeader ph f = .next t) : t.Inv := by
  obtain ⟨r', hd, he', hp, hph, hx⟩ := State.inHeader_cases ht
  obtain rfl : r = r' := by simpa [he] using he'
  have hok := (h.running he).1.progress
  rw [hp] at hok
  exact hf hd hp hph hok hx

/-- A record word, where it keeps the invariant of the read under way. -/
theorem State.inRecord_inv {t : State} {f : Run → Reader → Host.Outcome State Fault Refusal}
    (hf : ∀ rd : Reader, r.progress = .record rd → rd.Ok s → rd.cap = r.args.room → f r rd = .next t → t.Inv)
    (ht : s.inRecord f = .next t) : t.Inv := by
  obtain ⟨r', rd, he', hp, hx⟩ := State.inRecord_cases ht
  obtain rfl : r = r' := by simpa [he] using he'
  obtain ⟨hr, -⟩ := h.running he
  have hok := hr.progress
  have hbd := hr.bounded
  rw [hp] at hok hbd
  exact hf rd hp hok hbd hx

end

/-- What the bytes at the cursor say of the element that was read there, beyond what its meaning checks: a size code that is not
reserved (spec/30_encoding.md R93), and that the frame source holds the header's last byte or the record word. -/
def Run.Reads (r : Run) : Instr → Prop
  | .bd id => 4 ≤ id.toNat
  | .hc _ => ∀ h, r.progress = .header h → headerLength h.t.flg ≤ h.t.len
  | .endMark => ∀ rd, r.progress = .record rd → rd.t.pos + 4 ≤ rd.t.len
  | _ => True

/-- A BD byte of a size code that is not reserved and not above the largest one accepted. -/
theorem headerLegal_bd {c : Config} {flg : Byte} (hf : flg &&& 0xC2 = 0x40) {id : BitVec 3} (h4 : 4 ≤ id.toNat)
    (hmax : id.toNat ≤ c.bsizeIdMax) : headerLegal c flg (id.setWidth 8 <<< 4) = true := by
  have hbits : ∀ id : BitVec 3, (id.setWidth 8 <<< 4 : Byte) &&& 0x8F = 0 ∧ bdCode (id.setWidth 8 <<< 4) = id.toNat := by decide
  obtain ⟨h0, hcode⟩ := hbits id
  exact decide_eq_true ⟨hf, h0, hcode ▸ h4, hcode ▸ hmax⟩

/-- A wire element that was read at the cursor keeps the invariant. -/
theorem element_inv {i : Instr} {s t : State} (hi : i ∉ commands) (h : s.Inv) {r : Run} (he : s.engine = .running r)
    (hread : r.Reads i) (ht : exec i s = .next t) : t.Inv := by
  cases i with
  | token ll ml => exact State.inBlock_inv h he (fun p hp => hp.token ll ml) ht
  | lenext ffs final =>
    refine State.inBlock_inv h he (fun p hp => ?_) ht
    split
    · apply Parser.literals_ok
      exacts [rfl, hp.hist, hp.drop_rest _]
    · apply Parser.copy_ok
      exacts [rfl, hp.hist, hp.drop_rest _]
  | offset off => exact State.inBlock_inv h he (fun p hp => hp.offset off) ht
  | seq lit off len => exact State.inBlock_inv h he (fun p hp => hp.seq lit off len) ht
  | last lit => exact State.inBlock_inv h he (fun p _ => p.last_ok lit) ht
  | magic =>
    simp only [exec, execMagic] at ht
    refine State.inHeader_inv h he ?_ ht
    intro hd _ _ hh hx
    cases hx
    exact State.setProgress_inv h he (q := .header ⟨.flg, hd.t⟩)
      ⟨hh.region, hh.dict, hh.win, hh.empty, fun hp => by simp at hp, fun hp => absurd hp (by simp)⟩ trivial
  | flg bi bc cs cc di =>
    simp only [exec, execFlg] at ht
    refine State.inHeader_inv h he ?_ ht
    intro hd _ _ hh hx
    cases hx
    exact State.setProgress_inv h he (q := .header ⟨.bd, { hd.t with flg := flgByte bi bc cs cc di }⟩)
      ⟨hh.region, hh.dict, hh.win, hh.empty, fun _ => flgByte_bits .., fun hp => absurd hp (by simp)⟩ trivial
  | bd id =>
    simp only [exec, execBd] at ht
    refine State.inHeader_inv h he ?_ ht
    intro hd _ hph hh hx
    split at hx
    · exact State.finish_inv h he hx fun d hd => absurd hd (by simp)
    · rename_i hmax
      cases hx
      have hf := hh.flg (.inl hph)
      exact State.setProgress_inv h he (q := .header ⟨.hc, { hd.t with bd := id.setWidth 8 <<< 4 }⟩)
        ⟨hh.region, hh.dict, hh.win, hh.empty, fun _ => hf, fun _ => headerLegal_bd hf hread (Nat.not_lt.mp hmax)⟩ trivial
  | hc sum =>
    simp only [exec, execHc] at ht
    refine State.inHeader_inv h he ?_ ht
    intro hd hp hph hh hx
    refine State.finish_inv h he hx fun d hd' => ?_
    obtain ⟨u, hu, rfl⟩ := map_ok hd'
    obtain ⟨opt, rfl⟩ := headerSum_ok hu
    have hbeside := hh.openedWith hph (hread hd hp) opt
    exact ⟨⟨rfl, rfl, rfl, rfl, rfl, rfl, rfl, rfl, rfl⟩, h.eses, h.dses, h.fenc, hbeside⟩
  | blockwordLz4 size =>
    refine State.inRecord_inv h he (fun rd _ hrd hcap hx => ?_) ht
    split at hx
    · exact State.finish_inv h he hx fun d hd => absurd hd (by simp)
    · rename_i payload next hpay
      obtain ⟨-, -, -, hnext⟩ := recordPayload_ok hpay
      cases hx
      refine State.setProgress_inv h he (q := .block (.frame rd next) (rd.t.blockParser payload))
        ⟨Parser.start_ok ?_ _, hrd, hnext, rfl⟩ hcap
      unfold Fdec.history
      split
      · exact hrd.ok.dict
      · exact hrd.ok.win
  | blockwordRaw size =>
    refine State.inRecord_inv h he (fun rd _ hrd hcap hx => ?_) ht
    split at hx
    · exact State.finish_inv h he hx fun d hd => absurd hd (by simp)
    · rename_i u hu
      exact State.afterRecord_inv h he (hrd.raw hu) hcap hx
  | endMark =>
    refine State.inRecord_inv h he (fun rd hp hrd hcap hx => ?_) ht
    split at hx
    · exact State.finish_inv h he hx fun d hd => absurd hd (by simp)
    · rename_i u hu
      exact State.afterRecord_inv h he (hrd.finish hu (hread rd hp)) hcap hx
  | _ => exact absurd (mem_commands.mpr rfl) hi

end Sys2Proof.Machine
end

section
/-! PROOF. What the bytes at the cursor say of the element that is read there. -/

namespace Sys2Proof.Machine

/-! ## What the engine reads at the cursor -/

theorem elementIn_ok {slot : Slot} {bs : Bytes} {c : ErrCode} {i : Instr} (h : elementIn slot bs c = .ok i) :
    ∃ rest, decode slot bs = .ok (i, rest) := by
  unfold elementIn at h
  split at h
  · rename_i j rest hd
    cases h
    exact ⟨rest, hd⟩
  · exact absurd h (by simp)

theorem decodeSequence_slot {bs rest : Bytes} {i : Instr} (h : decodeSequence bs = .ok (i, rest)) : i.slot = .sequence := by
  unfold decodeSequence at h
  repeat' split at h
  all_goals cases h
  all_goals rfl

theorem decodeCommand_mem {w : Word} {i : Instr} (h : decodeCommand w = some i) : i ∈ commands := by
  unfold decodeCommand at h
  repeat' split at h
  all_goals cases h
  all_goals decide

theorem decodeFlg_slot {b : Byte} {i : Instr} (h : decodeFlg b = .ok i) : i.slot = .flg := by
  unfold decodeFlg at h
  split at h
  · cases h; rfl
  · exact absurd h (by simp)

theorem decodeBd_ok {b : Byte} {i : Instr} (h : decodeBd b = .ok i) :
    i = .bd (b.extractLsb' 4 3) ∧ b &&& 0x8F = 0 ∧ 4 ≤ (b.extractLsb' 4 3).toNat := by
  unfold decodeBd at h
  split at h
  · rename_i hb
    cases h
    exact ⟨rfl, hb⟩
  · exact absurd h (by simp)

theorem decodeRecord_slot (w : Word) : (decodeRecord w).slot = .record := by
  unfold decodeRecord
  split
  · rfl
  · split <;> rfl

/-- What a slot's bytes decode to is an instruction of that slot. -/
theorem decode_slot {slot : Slot} {bs rest : Bytes} {i : Instr} (h : decode slot bs = .ok (i, rest)) : i.slot = slot := by
  unfold decode at h
  split at h
  · split at h
    · rename_i hc
      cases h
      exact mem_commands.mp (decodeCommand_mem hc)
    · exact absurd h (by simp)
  · cases h; rfl
  · split at h
    · cases h; rfl
    · exact absurd h (by simp)
  · cases h; rfl
  · exact decodeSequence_slot h
  · split at h
    · cases h; rfl
    · exact absurd h (by simp)
  · rename_i b r
    cases hf : decodeFlg b with
    | error e => simp [hf, Except.map] at h
    | ok j =>
      simp only [hf, Except.map, Except.ok.injEq, Prod.mk.injEq] at h
      exact h.1 ▸ decodeFlg_slot hf
  · rename_i b r
    cases hf : decodeBd b with
    | error e => simp [hf, Except.map] at h
    | ok j =>
      simp only [hf, Except.map, Except.ok.injEq, Prod.mk.injEq] at h
      rw [← h.1, (decodeBd_ok hf).1]
      rfl
  · cases h; rfl
  · cases h; exact decodeRecord_slot _
  · exact absurd h (by simp)

/-- The element the token parser reads next is one its phase expects, or a whole sequence. -/
theorem fetchBlock_slot {g : Grain} {p : Parser} {i : Instr} (h : fetchBlock g p = .ok i) :
    i.slot = p.phase.slot ∨ i.slot = .sequence := by
  unfold fetchBlock at h
  split at h
  · rename_i hg
    split at h
    · rename_i j rest hd
      cases h
      exact .inr (decode_slot hd)
    · obtain ⟨rest, hd⟩ := elementIn_ok h
      exact .inl ((decode_slot hd).trans (by rw [hg.2]; rfl))
  · obtain ⟨rest, hd⟩ := elementIn_ok h
    exact .inl (decode_slot hd)

/-- The size code the header parser reads is not reserved. -/
theorem decode_bd {bs rest : Bytes} {id : BitVec 3} (h : decode .bd bs = .ok (.bd id, rest)) : 4 ≤ id.toNat := by
  cases bs with
  | nil => exact absurd h (by simp [decode])
  | cons b r =>
    cases hf : decodeBd b with
    | error e => simp [decode, hf, Except.map] at h
    | ok j =>
      obtain ⟨rfl, -, h4⟩ := decodeBd_ok hf
      simp only [decode, hf, Except.map, Except.ok.injEq, Prod.mk.injEq, Instr.bd.injEq] at h
      exact h.1 ▸ h4

/-- The slot the header parser reads. -/
def HeaderPhase.slot : HeaderPhase → Slot
  | .magic => .magic
  | .flg => .flg
  | .bd => .bd
  | .hc => .hc

/-- The element the header parser reads next stands in the slot its phase expects, and its last byte is there. -/
theorem fetchHeader_ok {s : State} {h : HeaderRun} {i : Instr} (hf : fetchHeader s h = .ok i) :
    (∃ bs rest, decode h.phase.slot bs = .ok (i, rest)) ∧ (h.phase = .hc → headerLength h.t.flg ≤ h.t.len) := by
  unfold fetchHeader at hf
  split at hf
  · rename_i hph
    rw [hph]
    obtain ⟨-, hf⟩ := guard_ok hf
    obtain ⟨bs, -, hf⟩ := bind_ok hf
    exact ⟨⟨bs, elementIn_ok hf⟩, by simp⟩
  · rename_i hph
    rw [hph]
    obtain ⟨-, hf⟩ := guard_ok hf
    obtain ⟨bs, -, hf⟩ := bind_ok hf
    exact ⟨⟨bs, elementIn_ok hf⟩, by simp⟩
  · rename_i hph
    rw [hph]
    obtain ⟨bs, -, hf⟩ := bind_ok hf
    exact ⟨⟨bs, elementIn_ok hf⟩, by simp⟩
  · rename_i hph
    rw [hph]
    obtain ⟨bs, hb, hf⟩ := bind_ok hf
    exact ⟨⟨bs, elementIn_ok hf⟩, fun _ => headerSumByte_ok hb⟩

/-- A command or an element of a block says no more than its meaning checks. -/
theorem Run.reads_of_slot {r : Run} {i : Instr} (h : i.slot ∈ [Slot.command, .token, .lenext, .offset, .sequence]) :
    r.Reads i := by
  cases i with
  | bd | hc | endMark => exact absurd h (by simp [Instr.slot])
  | _ => trivial

theorem HeaderRun.reads {s : State} {r : Run} {h : HeaderRun} (hp : r.progress = .header h) {i : Instr}
    (hf : fetchHeader s h = .ok i) : r.Reads i := by
  obtain ⟨⟨bs, rest, hd⟩, hlen⟩ := fetchHeader_ok hf
  have hslot := decode_slot hd
  cases i with
  | bd id =>
    rw [← hslot] at hd
    exact decode_bd hd
  | hc sum =>
    intro h' hp'
    obtain rfl : h = h' := by simpa [hp] using hp'
    refine hlen ?_
    cases hph : h.phase <;> simp [hph, HeaderPhase.slot, Instr.slot] at hslot
    rfl
  | endMark => exact fun rd hp' => absurd hp' (by simp [hp])
  | _ => trivial

theorem Reader.reads {s : State} {r : Run} {rd : Reader} (hp : r.progress = .record rd) {w : Word}
    (hw : recordWord s rd.t = .ok w) : r.Reads (decodeRecord w) := by
  have hslot := decodeRecord_slot w
  cases hi : decodeRecord w with
  | endMark =>
    intro rd' hp'
    obtain rfl : rd = rd' := by simpa [hp] using hp'
    exact recordWord_ok hw
  | bd | hc => exact absurd (hi ▸ hslot) (by simp [Instr.slot])
  | _ => trivial

/-- What the engine fetches has been read at the cursor. -/
theorem fetch_reads {s : State} {g : Grain} {r : Run} {i : Instr} (h : s.fetch g r = .instr i) : r.Reads i := by
  unfold State.fetch at h
  split at h
  · split at h
    · exact absurd h (by simp)
    · rename_i hd
      split at h
      · cases h
        exact Run.reads_of_slot (by rw [mem_commands.mp (decodeCommand_mem hd)]; decide)
      · exact absurd h (by simp)
  · rename_i hr hp
    split at h
    · rename_i j hf
      cases h
      exact HeaderRun.reads hp hf
    · exact absurd h (by simp)
  · rename_i use p hp
    split at h
    · rename_i j hf
      cases h
      refine Run.reads_of_slot ?_
      rcases fetchBlock_slot hf with hs | hs <;> rw [hs]
      · cases p.phase <;> decide
      · decide
    · exact absurd h (by simp)
  · rename_i rd hp
    split at h
    · rename_i w hw
      cases h
      exact Reader.reads hp hw
    · exact absurd h (by simp)

end Sys2Proof.Machine
end

section
/-! PROOF. Every step keeps the invariant (O8), which holds after reset (O9). -/

namespace Sys2Proof.Machine

/-! ## The engine's move keeps the invariant -/

/-- A block starts with a parser within its bounds and the room of the destination window as its capacity. -/
theorem blkDecodeStart_ok {s : State} {A : Args} {p : Parser} (h : blkDecodeStart s A = .ok p) : p.Ok ∧ p.cap = A.room := by
  obtain ⟨src, -, h⟩ := bind_ok h
  obtain ⟨d, hd, h⟩ := bind_ok h
  cases h
  exact ⟨Parser.start_ok (readDict_length hd) _, rfl⟩

theorem sesDecStart_ok {s : State} {A : Args} {p : Parser} (h : sesDecStart s A = .ok p) (hs : s.dses.Ok) :
    p.Ok ∧ p.cap = A.room := by
  obtain ⟨src, -, h⟩ := bind_ok h
  cases h
  refine ⟨Parser.start_ok ?_ _, rfl⟩
  unfold Session.history
  split
  · exact hs.win
  · exact hs.dict

section
variable {s : State} (h : s.Inv) {r : Run} (he : s.engine = .running r)
include h he

theorem State.reach_inv {t : State} {i : Instr} {p : Except Stop Progress} (ht : s.reach i r p = .next t)
    (hp : ∀ q, p = .ok q → q.Ok s ∧ q.Bounded r.args) : t.Inv := by
  cases p with
  | error e => exact State.finish_inv h he ht fun d hd => absurd hd (by simp)
  | ok q =>
    cases ht
    exact State.setProgress_inv h he (hp q rfl).1 (hp q rfl).2

/-- The start of a command that is run by its elements. -/
theorem State.begin_inv {t : State} {i : Instr} (ht : s.begin i r = .next t) : t.Inv := by
  obtain ⟨hr, -, -, hsnap, -⟩ := h.running he
  have hargs : s.snapshot = r.args := hsnap.trans hr.snapshot.symm
  cases hu : usageError i s s.snapshot with
  | some c =>
    simp only [State.begin, hu] at ht
    cases ht
    exact State.raise_inv h he i c
  | none =>
    obtain ⟨hst, -, -, -⟩ := usageError_none_iff.mp hu
    simp only [State.begin, hu] at ht
    cases i with
    | blkDecode =>
      refine State.reach_inv h he ht fun q hq => ?_
      obtain ⟨p, hp, rfl⟩ := map_ok hq
      obtain ⟨hp, hcap⟩ := blkDecodeStart_ok hp
      exact ⟨⟨hp, trivial⟩, hargs ▸ hcap⟩
    | sesDec =>
      refine State.reach_inv h he ht fun q hq => ?_
      obtain ⟨p, hp, rfl⟩ := map_ok hq
      obtain ⟨hp, hcap⟩ := sesDecStart_ok hp h.dses
      exact ⟨⟨hp, trivial⟩, hargs ▸ hcap⟩
    | fdecOpen =>
      refine State.reach_inv h he ht fun q hq => ?_
      obtain ⟨d, hd, rfl⟩ := map_ok hq
      have hsrc := regionsRead_fits hu (r := s.snapshot.src) (by simp [regionsRead])
      exact ⟨Fdec.awaiting_ok _ hsrc (readDict_length hd), trivial⟩
    | fdecRead | fdecReadToEnd =>
      exact State.afterRecord_inv h he (Reader.start_serves h (isOpen_of_fdecRead hst) _ _) (congrArg Args.room hargs) ht
    | _ => exact absurd ht (by simp)

end

/-- The engine's move keeps the invariant. -/
theorem engineTurn_inv {s t : State} {g : Grain} (h : s.Inv) (ht : engineTurn g s = .next t) : t.Inv := by
  cases he : s.engine with
  | idle =>
    rw [engineTurn_idle he] at ht
    cases ht
    exact h
  | stuck r => exact absurd ht (by simp [engineTurn_stuck he])
  | running r =>
    cases hf : s.fetch g r with
    | instr i =>
      rw [engineTurn_instr he hf] at ht
      by_cases hi : i ∈ commands
      · exact command_inv hi h he ht
      · exact element_inv hi h he (fetch_reads hf) ht
    | begin i =>
      rw [engineTurn_begin he hf] at ht
      exact State.begin_inv h he ht
    | stop i e =>
      rw [engineTurn_stop he hf] at ht
      exact State.finish_inv h he ht fun d hd => absurd hd (by simp)
    | badOpcode =>
      rw [engineTurn_badOpcode he hf] at ht
      cases ht
      exact State.raiseOpcode_inv h

/-! ## The host's move keeps the invariant -/

theorem Session.reset_ok : Session.reset.Ok := ⟨by decide, by decide, by decide, by decide⟩

theorem Fenc.reset_ok (c : Config) : Fenc.reset.Ok c :=
  ⟨by decide, by decide, rfl, fun h => absurd h (by unfold Fenc.isOpen; decide), fun h => absurd h (by unfold Fenc.isOpen; decide),
    fun h => absurd h (by decide)⟩

theorem Fdec.reset_beside (c : Config) (regs : FdecRegs) : Fdec.reset.Beside c regs :=
  have hc : ¬Fdec.reset.isOpen := by unfold Fdec.isOpen; decide
  ⟨⟨by decide, by decide, rfl⟩, fun h => absurd h hc, by decide, fun h => absurd h hc⟩

/-- The contexts after reset. -/
theorem contextsOk_of_reset {s : State} (he : s.eses = .reset) (hd : s.dses = .reset) (hf : s.fenc = .reset)
    (ht : s.fdec = .reset) : s.ContextsOk :=
  ⟨he ▸ Session.reset_ok, hd ▸ Session.reset_ok, hf ▸ Fenc.reset_ok _, ht ▸ Fdec.reset_beside _ _⟩

theorem State.hardReset_inv {s : State} (h : s.Inv) : s.hardReset.Inv := by
  have hm : Memory.Ok s.hardReset.mem := by
    unfold State.hardReset
    cases s.openWindow? with
    | none => exact h.memoryOk
    | some w => exact State.scramble_memoryOk h.memoryOk w
  exact .of_idle rfl h.cfg hm (contextsOk_of_reset rfl rfl rfl rfl)
    (fun he => absurd he Bool.false_ne_true)

theorem State.startCommand_inv {s : State} (h : s.Inv) (w : Word) : (s.startCommand w).Inv := by
  unfold State.startCommand
  split
  · exact h
  · refine .of_parts h.cfg h.memoryOk (h.contextsOk.congr rfl rfl rfl rfl rfl rfl) (fun _ => ⟨rfl, rfl⟩) (fun he => ?_) fun r hr => ?_
    · exact absurd he (by simp [State.err])
    · obtain rfl : ⟨w, s.args, [], .start⟩ = r := by simpa using hr
      exact ⟨rfl, fun c hc => by simp at hc, trivial, trivial⟩

theorem State.csrWrite_inv {s : State} (h : s.Inv) (off : Nat) (v : Word) : (s.csrWrite off v).Inv := by
  unfold State.csrWrite
  split
  · exact State.startCommand_inv h v
  · exact h.congr rfl
  · exact h.congr rfl
  · split
    · exact h
    · rename_i hb
      have hidle : s.engine = .idle := by
        unfold State.busy at hb
        cases he : s.engine <;> simp_all
      exact .of_idle hidle h.cfg h.memoryOk (h.contextsOk.congr rfl rfl rfl rfl rfl rfl) h.err

/-- What the host replaces in memory is kept beside the command. -/
theorem Run.Ok.race {s : State} {r : Run} (h : r.Ok s) {a : Nat} {bs : Bytes} (hfit : a + bs.length ≤ addrSpace) :
    ({ r with raced := (List.range bs.length).map (fun k => ((a + k, Memory.read s.mem (a + k)) : Host.Cell)) ++ r.raced } :
      Run).Ok s := by
  refine ⟨h.snapshot, fun c hc => ?_, h.progress, h.bounded⟩
  rcases List.mem_append.mp hc with hc | hc
  · obtain ⟨k, hk, rfl⟩ := List.mem_map.mp hc
    exact Nat.lt_of_lt_of_le (Nat.add_lt_add_left (List.mem_range.mp hk) a) hfit
  · exact h.raced c hc

theorem State.noteRace_inv {s : State} (h : s.Inv) {a : Nat} {bs : Bytes} (hfit : a + bs.length ≤ addrSpace) :
    (s.noteRace a bs).Inv := by
  unfold State.noteRace
  dsimp only
  split
  · exact h
  · rename_i r he
    refine h.setEngine (h.flags (by simp [State.busy, he])) fun q hq => ?_
    simp only [Engine.running.injEq, reduceCtorEq, or_false] at hq
    exact hq ▸ (h.run r (.inl he)).race hfit
  · rename_i r he
    refine h.setEngine (h.flags (by simp [State.busy, he])) fun q hq => ?_
    simp only [Engine.stuck.injEq, reduceCtorEq, false_or] at hq
    exact hq ▸ (h.run r (.inr he)).race hfit

theorem State.setMem_inv {s : State} (h : s.Inv) {m : Memory} (hm : Memory.Ok m) : ({ s with mem := m } : State).Inv :=
  .of_parts h.cfg hm (h.contextsOk.congr rfl rfl rfl rfl rfl rfl) h.flags h.err fun r hr => (h.run r hr).congr rfl rfl rfl

/-- Every event of the host's side keeps the invariant. -/
theorem State.hostOp_inv {s t : State} {op : HostOp} (h : s.Inv) (ht : s.hostOp op = .next t) : t.Inv := by
  unfold State.hostOp at ht
  cases op with
  | write addr width v =>
    dsimp only at ht
    split at ht
    · cases ht
      split
      · exact State.csrWrite_inv h _ v
      · exact h
    · cases ht
      exact h
  | read addr width =>
    dsimp only at ht
    split at ht <;> cases ht
    · exact h.congr rfl
    · exact h
  | memWrite addr bs =>
    dsimp only at ht
    split at ht
    · rename_i hb
      cases ht
      have hfit : addr + bs.length ≤ addrSpace := by
        rw [backs, Bool.and_eq_true] at hb
        exact (Region.fits_iff _ _).mp hb.1
      exact State.setMem_inv (State.noteRace_inv h hfit) (h.memoryOk.write (.inr hfit))
    · exact absurd ht (by simp)
  | memRead addr =>
    dsimp only at ht
    split at ht
    · cases ht
      exact h.congr rfl
    · exact absurd ht (by simp)
  | wait =>
    cases ht
    split <;> exact h.congr rfl
  | reset =>
    cases ht
    exact State.hardReset_inv h

theorem State.hostTurn_inv {s t : State} (h : s.Inv) (ht : s.hostTurn = .next t) : t.Inv := by
  unfold State.hostTurn at ht
  split at ht
  · cases ht
    exact h
  · rename_i op rest ho
    exact State.hostOp_inv (s := { s with host := rest }) (h.congr rfl) ht

/-! ## Every step -/

theorem bothTurn_next {s t : State} {g : Grain} (h : bothTurn g s = .next t) :
    ∃ u, s.hostTurn = .next u ∧ engineTurn g u = .next t := by
  unfold bothTurn at h
  split at h
  · exact ⟨_, ‹_›, h⟩
  · exact absurd h (by simp)
  · exact absurd h (by simp)

/-- A step is the move of the agent whose turn it is, in the state without that turn. -/
theorem step_cases {s t : State} (h : step s = .next t) :
    ({ s with turns := s.turns.tail } : State).hostTurn = .next t ∨
      ∃ g, engineTurn g { s with turns := s.turns.tail } = .next t ∨ bothTurn g { s with turns := s.turns.tail } = .next t := by
  unfold step advance at h
  dsimp only at h
  split at h
  · exact .inl h
  · exact .inr ⟨_, .inl h⟩
  · exact .inr ⟨_, .inr h⟩

/-- Settles O8: each move of the host and of the engine keeps the invariant, command by command and element by element. -/
theorem everyStepKeepsTheInvariant : Obligations.EveryStepKeepsTheInvariant := by
  intro s t h ht
  have h' : ({ s with turns := s.turns.tail } : State).Inv := h.congr rfl
  rcases step_cases ht with ht | ⟨g, ht | ht⟩
  · exact State.hostTurn_inv h' ht
  · exact engineTurn_inv h' ht
  · obtain ⟨u, hu, ht⟩ := bothTurn_next ht
    exact engineTurn_inv (State.hostTurn_inv h' hu) ht

/-- Settles O9: reset leaves empty memory, no command and the initial contexts. -/
theorem resetMeetsTheInvariant : Obligations.ResetMeetsTheInvariant :=
  .of_idle rfl (by decide) ⟨rfl, fun c hc => by simp [State.reset] at hc⟩ (contextsOk_of_reset rfl rfl rfl rfl)
    (fun he => absurd he (by decide))

end Sys2Proof.Machine
end

section
/-! PROOF. The registers: the fields of STATUS (O12), the argument registers (O13), reset (O10); and the host's turn (O7). -/

namespace Sys2Proof.Machine

/-! ## Registers -/

/-- Fields that stand side by side as the STATUS word's do, from bit 31 down to bit 0 (spec/10_state.md R25). -/
def sideBySide (fdec fenc : BitVec 3) (dses eses : BitVec 2) (code : Byte) (err done busy : Bool) :
    BitVec (5 + 3 + 1 + 3 + 2 + 2 + 8 + 5 + 1 + 1 + 1) :=
  (0 : BitVec 5) ++ fdec ++ (0 : BitVec 1) ++ fenc ++ dses ++ eses ++ code ++ (0 : BitVec 5) ++ BitVec.ofBool err ++
    BitVec.ofBool done ++ BitVec.ofBool busy

theorem sideBySide_fields (fdec fenc : BitVec 3) (dses eses : BitVec 2) (code : Byte) (err done busy : Bool) :
    let w := sideBySide fdec fenc dses eses code err done busy
    w.getLsbD 0 = busy ∧ w.getLsbD 1 = done ∧ w.getLsbD 2 = err ∧ w.extractLsb' 3 5 = 0 ∧ w.extractLsb' 8 8 = code ∧
      w.extractLsb' 16 2 = eses ∧ w.extractLsb' 18 2 = dses ∧ w.extractLsb' 20 3 = fenc ∧ w.getLsbD 23 = false ∧
      w.extractLsb' 24 3 = fdec ∧ w.extractLsb' 27 5 = 0 := by
  refine ⟨?_, ?_, ?_, ?_, ?_, ?_, ?_, ?_, ?_, ?_, ?_⟩ <;>
    simp (disch := decide) [-Nat.reduceAdd, sideBySide, BitVec.getElem_append, BitVec.extractLsb'_append_eq_of_le,
      BitVec.extractLsb'_append_eq_of_add_le]

theorem State.statusWord_eq (s : State) : s.statusWord =
    sideBySide s.fdec.st.code s.fenc.st.code s.dses.st.code s.eses.st.code s.errcode s.err s.done s.busy := rfl

/-- Settles O12: the STATUS word is its fields side by side, and each field holds the code of its table. -/
theorem statusFields : Obligations.StatusFields := by
  intro s
  obtain ⟨busy, done, err, r3, code, eses, dses, fenc, r23, fdec, r27⟩ := sideBySide_fields s.fdec.st.code s.fenc.st.code
    s.dses.st.code s.eses.st.code s.errcode s.err s.done s.busy
  refine ⟨_, s.statusWord_eq, busy, done, err, r3, fun h => code.trans ?_, fun c h => code.trans ?_, eses.trans ?_, dses.trans ?_,
    fenc.trans ?_, r23, fdec.trans ?_, r27⟩
  · simp [State.errcode, h]
  · simp [State.errcode, h]
  · cases s.eses.st <;> rfl
  · cases s.dses.st <;> rfl
  · cases s.fenc.st <;> rfl
  · cases s.fdec.st <;> rfl

/-! ### Register accesses of the host -/

theorem csrOffset?_add (c : Config) {off : Nat} (h : off < 256) : csrOffset? c (c.csrBase + off) = some off := by
  have hin : Region.holds (c.csrBase, csrWindow) (c.csrBase + off) = true :=
    decide_eq_true ⟨Nat.le_add_right .., Nat.add_lt_add_left h _⟩
  rw [csrOffset?, if_pos hin, Nat.add_sub_cancel_left]

/-- A 32-bit write of the host at an aligned offset of the register window (spec/20_memory.md R65). -/
theorem State.hostOp_write {off : Nat} (h : off < 256) (h4 : off % 4 = 0) (v : Word) (s : State) :
    s.hostOp (.write (s.cfg.csrBase + off) 4 v) = .next (s.csrWrite off v) := by
  simp only [State.hostOp, csrOffset?_add s.cfg h, csrAccessOk, h4, and_self, decide_true, if_true]

/-- While idle a write to an offset that is not CMD, IRQ_EN or IRQ_STATUS concerns the argument registers alone. -/
theorem State.csrWrite_idle {s : State} (he : s.engine = .idle) {off : Nat} (h0 : 0 < off) (h54 : off < 0x54) (v : Word) :
    s.csrWrite off v = { s with args := s.args.write off v } := by
  have hb : s.busy = false := by simp only [State.busy, he]
  unfold State.csrWrite
  split
  · omega
  · omega
  · omega
  · simp [hb]

/-- An argument register reads back what was written to it, and every other register reads as before. -/
theorem State.csrRead_write {off : Nat} (h4 : off % 4 = 0) (hlo : 0x08 ≤ off) (hhi : off ≤ 0x38) (v : Word) (s : State) :
    ({ s with args := s.args.write off v } : State).csrRead off = v ∧
      ∀ off', off' ≠ off → ({ s with args := s.args.write off v } : State).csrRead off' = s.csrRead off' := by
  obtain ⟨k, rfl⟩ := Nat.dvd_of_mod_eq_zero h4
  obtain ⟨hk2, hk14⟩ : 2 ≤ k ∧ k ≤ 14 := by omega
  interval_cases k <;> refine ⟨rfl, fun off' hne => ?_⟩ <;> unfold State.csrRead <;> split <;> trivial

/-- Settles O13: a write to an argument register while idle writes that register alone. -/
theorem argumentRegistersReadBack : Obligations.ArgumentRegistersReadBack := by
  intro s off v he h4 hlo hhi
  have hw := State.csrWrite_idle he (off := off) (by omega) (by omega) v
  obtain ⟨hsame, hother⟩ := s.csrRead_write h4 hlo hhi v
  exact ⟨_, State.hostOp_write (by omega) h4 v s, hw ▸ hsame, hw ▸ hother, hw ▸ rfl⟩

/-- Settles O10: every field of the reset state is its reset value. -/
theorem resetLeavesEveryRegisterZero : Obligations.ResetLeavesEveryRegisterZero := by
  refine ⟨fun off => ?_, rfl, rfl, rfl, rfl, rfl, rfl⟩
  unfold State.csrRead
  split <;> rfl

/-! ## Turns -/

theorem State.hostTurn_cons {s : State} {op : HostOp} {ops : List HostOp} (h : s.host = op :: ops) :
    s.hostTurn = ({ s with host := ops } : State).hostOp op := by
  simp only [State.hostTurn, h]

/-- Settles O7: the agent whose turn it is moves. -/
theorem stepTakesTheHostsAccess : Obligations.StepTakesTheHostsAccess := by
  refine ⟨fun s ts op ops ht ho => ?_, fun s op ops ht he ho => ?_, fun s g ts ht he => ?_⟩
  · rw [step_host ht, State.hostTurn_cons (s := { s with turns := ts }) ho]
  · rw [step_idle ht he, State.hostTurn_cons ho]
  · rw [step_engine ht, engineTurn_idle (s := { s with turns := ts }) he]

end Sys2Proof.Machine
end

section
/-! PROOF. Everything the engine's move can do: the interrupt bits (O16), where an element runs (O51) and which element is read (O6). -/

namespace Sys2Proof.Machine

/-! ## Everything the engine's move can do -/

/-- A command ends: as an illegal word does, with a usage error, or as some body does. -/
def State.CommandEnds (s t : State) : Prop :=
  t = s.raiseOpcode ∨ (∃ i c, t = s.raise i c) ∨ ∃ (i : Instr) (res : Except Stop Done), s.finish i res = .next t

theorem State.CommandEnds.of_finish {s t : State} {i : Instr} {res : Except Stop Done} (h : s.finish i res = .next t) :
    s.CommandEnds t := .inr (.inr ⟨i, res, h⟩)

theorem State.ReadEnds.commandEnds {s t : State} (h : s.ReadEnds t) : s.CommandEnds t :=
  let ⟨_, h⟩ := h
  .of_finish h

theorem State.BlockEnds.commandEnds {s t : State} {use : BlockUse} (h : s.BlockEnds t use) : s.CommandEnds t := by
  cases use with
  | block => exact let ⟨_, h⟩ := h; .of_finish h
  | session => exact let ⟨_, h⟩ := h; .of_finish h
  | frame rd next => exact State.ReadEnds.commandEnds h

theorem command_ends {i : Instr} {s t : State} (hi : i ∈ commands) (h : exec i s = .next t) : s.CommandEnds t := by
  rw [exec_command hi] at h
  cases hu : usageError i s s.snapshot with
  | some c =>
    rw [State.command_usage hu] at h
    cases h
    exact .inr (.inl ⟨i, c, rfl⟩)
  | none =>
    rw [State.command_body hu] at h
    exact .of_finish h

theorem element_goesOn_or_ends {i : Instr} {s t : State} (hi : i ∉ commands) {r : Run} (he : s.engine = .running r)
    (h : exec i s = .next t) : s.OnlyProgress t r ∨ s.CommandEnds t := by
  obtain ⟨r', he', hx⟩ := element_cases hi h
  obtain rfl : r = r' := by simpa [he] using he'
  rcases hx with ⟨use, p, -, hx⟩ | ⟨hr, -, -, hx⟩ | ⟨rd, -, -, hx⟩
  · exact hx.imp_right fun hb => hb.commandEnds
  · exact hx.imp_right fun ⟨_, hf⟩ => .of_finish hf
  · exact hx.imp_right fun hb => hb.commandEnds

theorem State.reach_cases {s t : State} {i : Instr} {r : Run} {p : Except Stop Progress} (h : s.reach i r p = .next t) :
    s.OnlyProgress t r ∨ s.CommandEnds t := by
  cases p with
  | error e => exact .inr (.of_finish h)
  | ok q => exact .inl ⟨q, (Host.Outcome.next.inj h).symm⟩

theorem State.begin_cases {s t : State} {i : Instr} {r : Run} (h : s.begin i r = .next t) :
    s.OnlyProgress t r ∨ s.CommandEnds t := by
  unfold State.begin at h
  split at h
  · cases h
    exact .inr (.inr (.inl ⟨_, _, rfl⟩))
  · split at h
    · exact State.reach_cases h
    · exact State.reach_cases h
    · exact State.reach_cases h
    · exact (State.afterRecord_cases h).imp_right fun hr => hr.commandEnds
    · exact (State.afterRecord_cases h).imp_right fun hr => hr.commandEnds
    all_goals exact absurd h (by simp)

/-- The engine's move while a command runs: the command goes on, or it ends. -/
theorem engineTurn_cases {s t : State} {g : Grain} {r : Run} (he : s.engine = .running r) (h : engineTurn g s = .next t) :
    s.OnlyProgress t r ∨ s.CommandEnds t := by
  cases hf : s.fetch g r with
  | instr i =>
    rw [engineTurn_instr he hf] at h
    by_cases hi : i ∈ commands
    · exact .inr (command_ends hi h)
    · exact element_goesOn_or_ends hi he h
  | begin i =>
    rw [engineTurn_begin he hf] at h
    exact State.begin_cases h
  | stop i e =>
    rw [engineTurn_stop he hf] at h
    exact .inr (.of_finish h)
  | badOpcode =>
    rw [engineTurn_badOpcode he hf] at h
    exact .inr (.inl (Host.Outcome.next.inj h).symm)

/-! ## The interrupt bits -/

/-- Every completion sets DONE_IP (spec/10_state.md R41). -/
theorem State.CommandEnds.irqPending {s t : State} (h : s.CommandEnds t) (he : t.engine = .idle) : t.irqPending = true := by
  rcases h with rfl | ⟨i, c, rfl⟩ | ⟨i, res, h⟩
  · rfl
  · simp
  · rcases State.finish_cases h with (rfl | ⟨c, -, rfl⟩ | ⟨d, -, -, rfl⟩) | ⟨-, rfl⟩
    · exact absurd he (State.stick_not_idle i s)
    · simp
    · simp
    · rfl

theorem engineTurn_irqPending {s t : State} {g : Grain} {r : Run} (he : s.engine = .running r) (h : engineTurn g s = .next t)
    (ht : t.engine = .idle) : t.irqPending = true := by
  rcases engineTurn_cases he h with ⟨q, rfl⟩ | hend
  · exact absurd ht (by simp)
  · exact hend.irqPending ht

/-- A write to IRQ_STATUS clears DONE_IP where its bit 0 is 1, and else leaves it (spec/10_state.md R41). -/
theorem State.csrWrite_irqStatus (s : State) (v : Word) :
    s.csrWrite 0x58 v = { s with irqPending := if v.getLsbD 0 then false else s.irqPending } := by
  simp only [State.csrWrite]
  cases v.getLsbD 0 <;> simp

/-- Settles O16: the bits are read and written as their registers say; every completion sets DONE_IP, and in a turn of both the
engine moves last. -/
theorem interruptBits : Obligations.InterruptBits := by
  refine ⟨fun s => rfl, rfl, rfl, fun s => ⟨rfl, rfl⟩, fun s v => ⟨rfl, s.csrWrite_irqStatus v⟩,
    fun s t g r he h ht => engineTurn_irqPending he h ht, fun s t g ts ops r hturns hhost he h ht => ?_⟩
  rw [step_both hturns] at h
  obtain ⟨u, hu, h⟩ := bothTurn_next h
  rw [State.hostTurn_cons (s := { s with turns := ts }) hhost] at hu
  have hw := State.hostOp_write (off := 0x58) (by decide) (by decide) 1 { s with turns := ts, host := ops }
  rw [State.csrWrite_irqStatus] at hw
  cases hw.symm.trans hu
  exact engineTurn_irqPending (r := r) (by exact he) h ht

/-! ## Where an element runs -/

/-- An outcome is a next state where `P` holds, and the refusal of log entry 13 elsewhere. -/
def RunsWhere (P : Prop) (o : Host.Outcome State Fault Refusal) : Prop :=
  (P → ∃ t, o = .next t) ∧ (¬P → o = .refused .elementOutOfPlace)

theorem RunsWhere.congr {P Q : Prop} {o : Host.Outcome State Fault Refusal} (h : RunsWhere P o) (hpq : Q ↔ P) : RunsWhere Q o :=
  ⟨fun hq => h.1 (hpq.mp hq), fun hq => h.2 fun hp => hq (hpq.mpr hp)⟩

theorem State.afterRecord_next (r : Run) (rd : Reader) (s : State) : ∃ t, s.afterRecord r rd = .next t := by
  unfold State.afterRecord
  split
  · exact s.finish_next _ _
  · split
    · exact s.finish_next _ _
    · exact ⟨_, rfl⟩

theorem State.afterParse_next (r : Run) (use : BlockUse) (x : Parse) (s : State) : ∃ t, s.afterParse r use x = .next t := by
  cases x with
  | more p => exact ⟨_, s.afterParse_more r use p⟩
  | fail c => rw [State.afterParse_fail]; exact s.finish_next _ _
  | done out =>
    cases use with
    | block => rw [State.afterParse_done_block]; exact s.finish_next _ _
    | session => rw [State.afterParse_done_session]; exact s.finish_next _ _
    | frame rd next => exact s.afterRecord_next r _

theorem State.inBlock_runsWhere (s : State) (phases : List ParserPhase) (f : Parser → Parse) :
    RunsWhere (∃ r use p, s.engine = .running r ∧ r.progress = .block use p ∧ p.phase ∈ phases) (s.inBlock phases f) := by
  constructor
  · rintro ⟨r, use, p, he, hp, hph⟩
    rw [State.inBlock_at he hp hph]
    exact s.afterParse_next r use _
  · intro hn
    unfold State.inBlock
    split
    · rename_i r he
      split
      · rename_i use p hp
        exact if_neg fun hc => hn ⟨r, use, p, he, hp, List.contains_iff_mem.mp hc⟩
      all_goals rfl
    all_goals rfl

theorem State.inHeader_runsWhere (s : State) (ph : HeaderPhase) {f : Run → Fdec → Host.Outcome State Fault Refusal}
    (hf : ∀ r t, ∃ u, f r t = .next u) :
    RunsWhere (∃ r h, s.engine = .running r ∧ r.progress = .header h ∧ h.phase = ph) (s.inHeader ph f) := by
  constructor
  · rintro ⟨r, h, he, hp, hph⟩
    rw [State.inHeader_at he hp hph]
    exact hf r h.t
  · intro hn
    unfold State.inHeader
    split
    · rename_i r he
      split
      · rename_i h hp
        exact if_neg fun hph => hn ⟨r, h, he, hp, hph⟩
      all_goals rfl
    all_goals rfl

theorem State.inRecord_runsWhere (s : State) {f : Run → Reader → Host.Outcome State Fault Refusal}
    (hf : ∀ r rd, ∃ u, f r rd = .next u) :
    RunsWhere (∃ r rd, s.engine = .running r ∧ r.progress = .record rd) (s.inRecord f) := by
  constructor
  · rintro ⟨r, rd, he, hp⟩
    rw [State.inRecord_at he hp]
    exact hf r rd
  · intro hn
    unfold State.inRecord
    split
    · rename_i r he
      split
      · rename_i rd hp
        exact absurd ⟨r, rd, he, hp⟩ hn
      all_goals rfl
    all_goals rfl

/-- Where an element of a block is expected. -/
theorem State.expects_block {s : State} {i : Instr} {sl : Slot} (hi : i.slot = sl) {phases : List ParserPhase}
    (hb : ∀ ph : ParserPhase, (sl = ph.slot ∨ sl = .sequence ∧ ph = .token) ↔ ph ∈ phases)
    (hs : sl ∈ [Slot.token, .lenext, .offset, .sequence]) :
    s.Expects i ↔ ∃ r use p, s.engine = .running r ∧ r.progress = .block use p ∧ p.phase ∈ phases := by
  subst hi
  constructor
  · rintro ⟨r, he, ⟨h, -, hx⟩ | ⟨use, p, hp, hx⟩ | ⟨rd, -, hx⟩⟩
    · exfalso
      generalize i.slot = sl at hs hx
      generalize h.phase = ph at hx
      revert hs hx
      cases sl <;> cases ph <;> decide
    · exact ⟨r, use, p, he, hp, (hb _).mp hx⟩
    · rw [hx] at hs
      exact absurd hs (by decide)
  · rintro ⟨r, use, p, he, hp, hx⟩
    exact ⟨r, he, .inr (.inl ⟨use, p, hp, (hb _).mpr hx⟩)⟩

/-- Where an element of a header is expected. -/
theorem State.expects_header {s : State} {i : Instr} {ph : HeaderPhase} (hi : i.slot = ph.slot) :
    s.Expects i ↔ ∃ r h, s.engine = .running r ∧ r.progress = .header h ∧ h.phase = ph := by
  constructor
  · rintro ⟨r, he, ⟨h, hp, hx⟩ | ⟨use, p, -, hx⟩ | ⟨rd, -, hx⟩⟩
    · refine ⟨r, h, he, hp, ?_⟩
      rw [hi] at hx
      generalize h.phase = q at hx
      revert hx
      cases q <;> cases ph <;> decide
    · exfalso
      rw [hi] at hx
      generalize p.phase = q at hx
      revert hx
      cases q <;> cases ph <;> decide
    · rw [hi] at hx
      cases ph <;> exact absurd hx (by decide)
  · rintro ⟨r, h, he, hp, rfl⟩
    refine ⟨r, he, .inl ⟨h, hp, ?_⟩⟩
    rw [hi]
    cases h.phase <;> decide

/-- Where a record word is expected. -/
theorem State.expects_record {s : State} {i : Instr} (hi : i.slot = .record) :
    s.Expects i ↔ ∃ r rd, s.engine = .running r ∧ r.progress = .record rd := by
  constructor
  · rintro ⟨r, he, ⟨h, -, hx⟩ | ⟨use, p, -, hx⟩ | ⟨rd, hp, -⟩⟩
    · exact absurd (hi ▸ hx) (by simp)
    · rw [hi] at hx
      cases hph : p.phase <;> simp [hph, ParserPhase.slot] at hx
    · exact ⟨r, rd, he, hp⟩
  · rintro ⟨r, rd, he, hp⟩
    exact ⟨r, he, .inr (.inr ⟨rd, hp, hi⟩)⟩

/-- Settles O51: an element of a block, of a header or a record word runs exactly where the command under way expects one. -/
theorem elementsRunWhereExpected : Obligations.ElementsRunWhereExpected := by
  intro i s hi
  have next : ∀ t : State, ∃ u, (Host.Outcome.next t : Host.Outcome State Fault Refusal) = .next u := fun t => ⟨t, rfl⟩
  show RunsWhere (s.Expects i) (exec i s)
  rw [mem_commands] at hi
  cases i with
  | token =>
    exact (s.inBlock_runsWhere _ _).congr (State.expects_block (sl := .token) rfl (by rintro (_ | _) <;> decide) (by decide))
  | lenext =>
    exact (s.inBlock_runsWhere _ _).congr (State.expects_block (sl := .lenext) rfl (by rintro (_ | _) <;> decide) (by decide))
  | offset =>
    exact (s.inBlock_runsWhere _ _).congr (State.expects_block (sl := .offset) rfl (by rintro (_ | _) <;> decide) (by decide))
  | seq | last =>
    exact (s.inBlock_runsWhere _ _).congr (State.expects_block (sl := .sequence) rfl (by rintro (_ | _) <;> decide) (by decide))
  | magic =>
    refine RunsWhere.congr ?_ (State.expects_header (ph := .magic) rfl)
    simp only [exec, execMagic]
    exact s.inHeader_runsWhere .magic fun r t => next _
  | flg =>
    refine RunsWhere.congr ?_ (State.expects_header (ph := .flg) rfl)
    simp only [exec, execFlg]
    exact s.inHeader_runsWhere .flg fun r t => next _
  | bd =>
    refine RunsWhere.congr ?_ (State.expects_header (ph := .bd) rfl)
    simp only [exec, execBd]
    refine s.inHeader_runsWhere .bd fun r t => ?_
    split
    · exact s.finish_next _ _
    · exact next _
  | hc =>
    refine RunsWhere.congr ?_ (State.expects_header (ph := .hc) rfl)
    simp only [exec, execHc]
    exact s.inHeader_runsWhere .hc fun r t => s.finish_next _ _
  | blockwordLz4 =>
    refine (s.inRecord_runsWhere fun r rd => ?_).congr (State.expects_record rfl)
    split
    · exact s.finish_next _ _
    · exact next _
  | blockwordRaw | endMark =>
    refine (s.inRecord_runsWhere fun r rd => ?_).congr (State.expects_record rfl)
    split
    · exact s.finish_next _ _
    · exact s.afterRecord_next r _
  | _ => exact absurd rfl hi

/-! ## What the engine reads next -/

theorem elementIn_of_decode {slot : Slot} {bs rest : Bytes} {i : Instr} (h : decode slot bs = .ok (i, rest)) (c : ErrCode) :
    elementIn slot bs c = .ok i := by
  simp only [elementIn, h]

theorem State.fetch_header {s : State} {g : Grain} {r : Run} {h : HeaderRun} (hp : r.progress = .header h) {i : Instr}
    (hf : fetchHeader s h = .ok i) : s.fetch g r = .instr i := by
  simp only [State.fetch, hp, hf]

theorem State.fetch_block {s : State} {g : Grain} {r : Run} {use : BlockUse} {p : Parser} (hp : r.progress = .block use p)
    {i : Instr} (hf : fetchBlock g p = .ok i) : s.fetch g r = .instr i := by
  simp only [State.fetch, hp, hf]

theorem State.fetch_record {s : State} {g : Grain} {r : Run} {rd : Reader} (hp : r.progress = .record rd) {w : Word}
    (hf : recordWord s rd.t = .ok w) : s.fetch g r = .instr (decodeRecord w) := by
  simp only [State.fetch, hp, hf]

/-- By elements the token parser reads in its phase's slot. -/
theorem fetchBlock_element {g : Grain} {p : Parser} (h : ¬(g = .sequence ∧ p.phase = .token)) :
    fetchBlock g p = elementIn p.phase.slot p.rest .truncated := if_neg h

/-- By sequences the token parser reads the whole sequence that stands there complete. -/
theorem fetchBlock_sequence {p : Parser} (h : p.phase = .token) {i : Instr} {rest : Bytes}
    (hd : decode .sequence p.rest = .ok (i, rest)) : fetchBlock .sequence p = .ok i := by
  simp only [fetchBlock, h, and_self, if_true, hd]

section
variable {s : State} (hs : s.Calm) {h : HeaderRun} {i : Instr} {bs rest : Bytes}
include hs

theorem fetchHeader_magic (hph : h.phase = .magic) (hb : s.FrameBytes h.t 0 4 bs) (hd : decode .magic bs = .ok (i, rest)) :
    fetchHeader s h = .ok i := by
  simp only [fetchHeader, hph]
  rw [if_neg (Nat.not_lt.mpr hb.1), State.readFrame_calm hs hb]
  exact elementIn_of_decode hd _

theorem fetchHeader_flg (hph : h.phase = .flg) (hb : s.FrameBytes h.t 4 2 bs) (hd : decode .flg bs = .ok (i, rest)) :
    fetchHeader s h = .ok i := by
  simp only [fetchHeader, hph]
  rw [if_neg (Nat.not_lt.mpr hb.1), State.readFrame_calm hs hb]
  exact elementIn_of_decode hd _

theorem fetchHeader_bd (hph : h.phase = .bd) (hb : s.FrameBytes h.t 5 1 bs) (hd : decode .bd bs = .ok (i, rest)) :
    fetchHeader s h = .ok i := by
  simp only [fetchHeader, hph]
  rw [State.readFrame_calm hs hb]
  exact elementIn_of_decode hd _

theorem fetchHeader_hc (hph : h.phase = .hc) (hb : s.FrameBytes h.t (headerLength h.t.flg - 1) 1 bs)
    (hd : decode .hc bs = .ok (i, rest)) : fetchHeader s h = .ok i := by
  have h7 : 7 ≤ headerLength h.t.flg := by unfold headerLength; omega
  have hlen := hb.1
  simp only [fetchHeader, hph, headerSumByte]
  rw [if_neg (by omega), State.readFrame_calm hs hb]
  exact elementIn_of_decode hd _

end

/-- The word of a record, as the decoder reads it. -/
theorem decode_record {bs : Bytes} (hl : bs.length = 4) : decode .record bs = .ok (decodeRecord (le32At bs 0), []) := by
  match bs, hl with
  | [_, _, _, _], _ => rfl

theorem recordWord_calm {s : State} (hs : s.Calm) {t : Fdec} {bs : Bytes} (hb : s.FrameBytes t t.pos 4 bs) :
    recordWord s t = .ok (le32At bs 0) := by
  rw [recordWord, if_neg (Nat.not_lt.mpr hb.1), State.readFrame_calm hs hb]
  rfl

/-- Settles O6: what is fetched is the element at the cursor, in a block, a header and at a record. -/
theorem stepRunsTheDecodedElement : Obligations.StepRunsTheDecodedElement := by
  intro s r g ts i bs rest he hturns
  have run : ∀ {j : Instr}, ({ s with turns := ts } : State).fetch g r = .instr j → step s = exec j { s with turns := ts } :=
    fun hf => (step_engine hturns).trans (engineTurn_instr (s := { s with turns := ts }) he hf)
  refine ⟨fun use p hp => ⟨fun hg hd => ?_, fun hg hph hd => ?_⟩, fun h hp hcalm => ?_, fun rd hp hcalm hb hd => ?_⟩
  · refine run (State.fetch_block hp ?_)
    rw [fetchBlock_element (by tauto)]
    exact elementIn_of_decode hd _
  · subst hg
    exact run (State.fetch_block hp (fetchBlock_sequence hph hd))
  · exact ⟨fun hph hb hd => run (State.fetch_header hp (fetchHeader_magic hcalm hph hb hd)),
      fun hph hb hd => run (State.fetch_header hp (fetchHeader_flg hcalm hph hb hd)),
      fun hph hb hd => run (State.fetch_header hp (fetchHeader_bd hcalm hph hb hd)),
      fun hph hb hd => run (State.fetch_header hp (fetchHeader_hc hcalm hph hb hd))⟩
  · have hl : bs.length = 4 := by rw [hb.2.2.2, Memory.bytes_length]
    rw [decode_record hl] at hd
    cases hd
    exact run (State.fetch_record hp (recordWord_calm (s := { s with turns := ts }) hcalm hb))

end Sys2Proof.Machine
end

section
/-! PROOF. What the engine reads and how a command ends does not depend on the command's progress. -/

namespace Sys2Proof.Machine

/-! ## Only the progress of the running command differs

Between its start and its completion a command that is run by its elements changes nothing but its progress. What the engine reads
and how the command ends does not depend on that. -/

theorem setProgress_overDevice (s : State) (r : Run) (q : Progress) (i : Instr) (A : Args) :
    overDevice i (s.setProgress r q) A = overDevice i s A := by
  cases i <;> rfl

section
variable {s : State} {r : Run} (he : s.engine = .running r) (q : Progress)
include he

theorem State.setProgress_snapshot : (s.setProgress r q).snapshot = s.snapshot := by
  simp only [State.snapshot, State.run?, State.setProgress, he]

theorem State.setProgress_raced : (s.setProgress r q).raced = s.raced := by
  simp only [State.raced, State.run?, State.setProgress, he]

theorem State.setProgress_memRead : (s.setProgress r q).memRead = s.memRead := by
  have hb : (s.setProgress r q).engineByte = s.engineByte := by
    funext use a
    simp only [State.engineByte, State.setProgress_raced he, State.setProgress_mem, State.setProgress_nonce]
  funext use w a n
  simp only [State.memRead, hb, State.setProgress_cfg, State.setProgress_nonce]

theorem State.setProgress_readFrame : (s.setProgress r q).readFrame = s.readFrame := by
  funext use t i n
  simp only [State.readFrame, State.setProgress_memRead he, State.frameRegion, State.setProgress_fdec]

theorem setProgress_recordWord : recordWord (s.setProgress r q) = recordWord s := by
  funext t
  simp only [recordWord, State.setProgress_readFrame he]

theorem setProgress_recordPayload : recordPayload (s.setProgress r q) = recordPayload s := by
  funext t n
  simp only [recordPayload, State.setProgress_readFrame he]

theorem setProgress_rawRecord : rawRecord (s.setProgress r q) = rawRecord s := by
  funext t n
  simp only [rawRecord, setProgress_recordPayload he]

theorem setProgress_endOfFrame : endOfFrame (s.setProgress r q) = endOfFrame s := by
  funext t
  simp only [endOfFrame, trailer, State.setProgress_readFrame he]

theorem setProgress_headerSum : headerSum (s.setProgress r q) = headerSum s := by
  funext t b
  simp only [headerSum, State.setProgress_readFrame he]

theorem setProgress_headerSumByte : headerSumByte (s.setProgress r q) = headerSumByte s := by
  funext t
  simp only [headerSumByte, State.setProgress_readFrame he]

theorem setProgress_fetchHeader : fetchHeader (s.setProgress r q) = fetchHeader s := by
  funext h
  simp only [fetchHeader, State.setProgress_readFrame he, setProgress_headerSumByte he]

theorem State.setProgress_stick (i : Instr) : (s.setProgress r q).stick i = s.stick i := by
  simp only [State.stick, State.run?, State.setProgress_engine, he]
  rfl

theorem State.setProgress_blur (i : Instr) : (s.setProgress r q).blur i = (s.blur i).setProgress r q := by
  unfold State.blur
  rw [State.setProgress_raced he, State.setProgress_snapshot he]
  split <;> rfl

theorem State.setProgress_spoil (i : Instr) (c : ErrCode) :
    (s.setProgress r q).spoil i c = (s.spoil i c).setProgress r q := by
  unfold State.spoil
  rw [State.setProgress_snapshot he]
  split
  · rfl
  · cases i <;> rfl

theorem State.setProgress_raise (i : Instr) (c : ErrCode) : (s.setProgress r q).raise i c = s.raise i c := by
  have hs : (s.spoil i c).engine = .running r := by rw [State.spoil_engine, he]
  simp only [State.raise, State.setProgress_spoil he, State.setProgress_blur hs]
  rfl

theorem State.setProgress_complete (i : Instr) (out : Bytes) (n : Nat) :
    (s.setProgress r q).complete i out n = s.complete i out n := by
  have hb : ({ s.setProgress r q with mem := Memory.write s.mem s.snapshot.dstPoint out } : State).blur i =
      (({ s with mem := Memory.write s.mem s.snapshot.dstPoint out } : State).blur i).setProgress r q :=
    State.setProgress_blur (s := { s with mem := Memory.write s.mem s.snapshot.dstPoint out }) he q i
  simp only [State.complete, State.setProgress_snapshot he, State.setProgress_mem, hb]
  rfl

theorem State.setProgress_anyOutcome (i : Instr) : (s.setProgress r q).anyOutcome i = s.anyOutcome i := by
  simp only [State.anyOutcome, State.setProgress_snapshot he]
  cases i <;> rfl

end

/-- A body's commit leaves the engine alone and does not look at the progress of the command. -/
structure Done.Blind (d : Done) (s : State) (r : Run) : Prop where
  engine : (d.commit s).engine = s.engine
  progress : ∀ q, d.commit (s.setProgress r q) = (d.commit s).setProgress r q

section
variable {s : State} {r : Run} (he : s.engine = .running r) (q : Progress)
include he

theorem State.setProgress_settle (i : Instr) (t : State) : (s.setProgress r q).settle i t = s.settle i t := by
  simp only [State.settle, setProgress_overDevice, State.setProgress_snapshot he, State.setProgress_anyOutcome he]

/-- The end of a command does not depend on its progress. -/
theorem State.setProgress_finish (i : Instr) {res : Except Stop Done} (hd : ∀ d, res = .ok d → d.Blind s r) :
    (s.setProgress r q).finish i res = s.finish i res := by
  match res, hd with
  | .error .stuck, _ => simp only [State.finish, State.setProgress_stick he]
  | .error (.err c), _ => simp only [State.finish, State.setProgress_settle he, State.setProgress_raise he]
  | .ok d, hd =>
    obtain ⟨hce, hc⟩ := hd d rfl
    simp only [State.finish, State.setProgress_settle he, State.setProgress_cfg, State.setProgress_snapshot he, hc q,
      State.setProgress_complete (hce.trans he), State.setProgress_stick he]

theorem State.setProgress_finish_error (i : Instr) (e : Stop) :
    (s.setProgress r q).finish i (.error e) = s.finish i (.error e) :=
  State.setProgress_finish he q i fun d hd => absurd hd (by simp)

theorem State.setProgress_afterRecord (rd : Reader) :
    (s.setProgress r q).afterRecord { r with progress := q } rd = s.afterRecord r rd := by
  unfold State.afterRecord
  cases rd.deliver with
  | error e => exact State.setProgress_finish_error he q _ e
  | ok rd' =>
    dsimp only
    split
    · refine State.setProgress_finish he q _ fun d hd => ?_
      cases hd
      exact ⟨rfl, fun _ => rfl⟩
    · rfl

theorem State.setProgress_afterParse (use : BlockUse) (x : Parse) :
    (s.setProgress r q).afterParse { r with progress := q } use x = s.afterParse r use x := by
  cases x with
  | more p => simp only [State.afterParse_more]; rfl
  | fail c => simp only [State.afterParse_fail]; exact State.setProgress_finish_error he q _ _
  | done out =>
    cases use with
    | block =>
      rw [State.afterParse_done_block, State.afterParse_done_block]
      refine State.setProgress_finish he q _ fun d hd => ?_
      cases hd
      exact ⟨rfl, fun _ => rfl⟩
    | session =>
      rw [State.afterParse_done_session, State.afterParse_done_session]
      refine State.setProgress_finish he q _ fun d hd => ?_
      cases hd
      exact ⟨rfl, fun _ => rfl⟩
    | frame rd next => exact State.setProgress_afterRecord he q _

end

end Sys2Proof.Machine
end

section
/-! PROOF. What the decoder read is the encoding of what it gives, and the token parser's result over all its bytes: the steps by elements
and by whole sequences lead to the same one. -/

namespace Sys2Proof

/-! ## What the decoder read is the encoding of what it gives -/

theorem scanExt_some {bs rest : Bytes} {n : Nat} {f : Byte} (h : scanExt bs = some (n, f, rest)) :
    bs = extBytes n f ++ rest ∧ f ≠ 255 := by
  induction bs generalizing n with
  | nil => exact absurd h (by simp [scanExt])
  | cons b bs ih =>
    by_cases hb : b = 255
    · subst hb
      obtain ⟨⟨m, g, r⟩, hs, hx⟩ := Option.map_eq_some_iff.mp ((if_pos rfl).symm.trans h)
      cases hx
      obtain ⟨rfl, hf⟩ := ih hs
      exact ⟨by simp [extBytes, List.replicate_succ], hf⟩
    · cases (if_neg hb).symm.trans h
      exact ⟨rfl, hb⟩

theorem lengthExt_ext (n : Nat) {f : Byte} (hf : f ≠ 255) : lengthExt (15 + extValue n f) = extBytes n f := by
  have hlt : f.toNat < 255 := by
    have h1 := f.isLt
    have h2 : f.toNat ≠ 255 := fun h => hf (BitVec.eq_of_toNat_eq h)
    omega
  have hn : (15 + extValue n f - 15) / 255 = n := by simp only [extValue]; omega
  have hm : (15 + extValue n f - 15) % 255 = f.toNat := by simp only [extValue]; omega
  rw [lengthExt, if_neg (by omega), hn, hm, BitVec.ofNat_toNat, BitVec.setWidth_eq]

/-- A length is read from its nibble and the extension its encoding has. -/
theorem nibbleLength_some {v : BitVec 4} {bs rest : Bytes} {n : Nat} (h : nibbleLength v bs = some (n, rest)) :
    v = lengthNibble n ∧ bs = lengthExt n ++ rest := by
  by_cases hv : v = 15
  · obtain ⟨⟨k, f, r⟩, hs, hx⟩ := Option.map_eq_some_iff.mp ((if_pos hv).symm.trans h)
    cases hx
    obtain ⟨rfl, hf⟩ := scanExt_some hs
    exact ⟨hv.trans ((lengthNibble_eq_15 _).mpr (by omega)).symm, by rw [lengthExt_ext k hf]⟩
  · cases (if_neg hv).symm.trans h
    have hlt : v.toNat < 15 := by
      have h1 := v.isLt
      have h2 : v.toNat ≠ 15 := fun h => hv (BitVec.eq_of_toNat_eq h)
      omega
    refine ⟨BitVec.eq_of_toNat_eq ?_, by rw [lengthExt_short hlt]; rfl⟩
    rw [lengthNibble_toNat]
    omega

theorem le16_le16At (b0 b1 : Byte) : le16 (le16At [b0, b1] 0) = [b0, b1] := by
  have h0 := b0.isLt
  have h1 := b1.isLt
  simp only [le16, le16At, List.drop_zero, List.take_succ_cons, List.take_zero, leNat, List.cons.injEq, and_true]
  constructor <;> apply BitVec.eq_of_toNat_eq <;>
    simp only [BitVec.extractLsb'_toNat, BitVec.toNat_ofNat, Nat.shiftRight_eq_div_pow] <;> omega

/-- What a whole sequence was read from: its own encoding, but for the ML nibble of a last sequence, which is ignored. -/
theorem decodeSequence_ok {bs rest : Bytes} {i : Instr} (h : decodeSequence bs = .ok (i, rest)) :
    (∃ lit off len, i = .seq lit off len ∧ Machine.minMatch ≤ len ∧ bs = encode (.seq lit off len) ++ rest) ∨
      ∃ lit ml, i = .last lit ∧ bs = tokenByte (lengthNibble lit.length) ml :: (lengthExt lit.length ++ lit) := by
  cases bs with
  | nil => exact absurd h (by simp [decodeSequence])
  | cons t r1 =>
    simp only [decodeSequence] at h
    split at h
    · exact absurd h (by simp)
    rename_i litLen r2 hlit
    obtain ⟨hhi, rfl⟩ := nibbleLength_some hlit
    split at h
    · exact absurd h (by simp)
    rename_i hlen
    have hl : (r2.take litLen).length = litLen := List.length_take_of_le (Nat.not_lt.mp hlen)
    have hsplit := List.take_append_drop litLen r2
    split at h
    · rename_i hdrop
      cases h
      rw [hdrop, List.append_nil] at hsplit
      refine .inr ⟨_, loNibble t, rfl, ?_⟩
      rw [hl, ← hhi, tokenByte_nibbles, hsplit]
    · exact absurd h (by simp)
    · rename_i b0 b1 r4 hdrop
      split at h
      · exact absurd h (by simp)
      rename_i m r5 hml
      obtain ⟨hlo, rfl⟩ := nibbleLength_some hml
      cases h
      refine .inl ⟨_, _, _, rfl, Nat.le_add_left .., ?_⟩
      rw [encode, hl, Nat.add_sub_cancel, ← hhi, ← hlo, tokenByte_nibbles, le16_le16At]
      simp only [List.cons_append, List.append_assoc, List.nil_append]
      rw [← hdrop, hsplit]

namespace Machine

/-! ## The token parser's result does not depend on its bound -/

/-- What the parser comes to, over all the bytes it has left. -/
def Parser.result (p : Parser) : Except ErrCode Bytes := p.run (p.rest.length + 1)

/-- What the parser comes to after an element's effect. -/
def Parse.result : Parse → Except ErrCode Bytes
  | .more p => p.result
  | .done out => .ok out
  | .fail c => .error c

/-- An effect that leaves fewer bytes than `n`, where the block goes on. -/
def Parse.Below (x : Parse) (n : Nat) : Prop := ∀ q, x = .more q → q.rest.length < n

theorem Parser.literals_below (p : Parser) (k : Nat) {n : Nat} (h : p.rest.length < n) : (p.literals k).Below n := by
  intro q hq
  unfold Parser.literals at hq
  dsimp only at hq
  split at hq
  · exact absurd hq (by simp)
  split at hq
  · exact absurd hq (by simp)
  split at hq
  · exact absurd hq (by simp)
  · cases hq
    exact (List.drop_suffix _ _).length_le.trans_lt h

theorem Parser.copy_below (p : Parser) (k : Nat) {n : Nat} (h : p.rest.length < n) : (p.copy k).Below n := by
  intro q hq
  unfold Parser.copy at hq
  split at hq
  · exact absurd hq (by simp)
  split at hq
  · exact absurd hq (by simp)
  split at hq
  · exact absurd hq (by simp)
  · cases hq
    exact h

theorem Parse.below_more {p : Parser} {n : Nat} (h : p.rest.length < n) : (Parse.more p).Below n := by
  intro q hq
  cases hq
  exact h

theorem Parse.below_fail (c : ErrCode) (n : Nat) : (Parse.fail c).Below n := fun _ hq => absurd hq (by simp)

theorem drop_length_lt {bs : Bytes} (h : bs ≠ []) {k : Nat} (hk : 0 < k) : (bs.drop k).length < bs.length := by
  have := List.length_pos_iff.mpr h
  rw [List.length_drop]
  omega

/-- Every element takes at least one byte (log entry 18). -/
theorem Parser.next_below (p : Parser) : p.next.Below p.rest.length := by
  have hext : ∀ {n f r}, scanExt p.rest = some (n, f, r) → p.rest ≠ [] := by
    rintro n f r h h0
    exact absurd h (by simp [h0, scanExt])
  unfold Parser.next
  split
  · split
    · rename_i b bs hb
      have hdrop := drop_length_lt (bs := p.rest) (by simp [hb]) Nat.one_pos
      unfold Parser.token
      dsimp only
      split
      · exact Parse.below_more hdrop
      · exact Parser.literals_below _ _ hdrop
    · exact Parse.below_fail _ _
  · split
    · rename_i n f r hs
      exact Parser.literals_below _ _ (drop_length_lt (hext hs) (Nat.succ_pos n))
    · exact Parse.below_fail _ _
  · split
    · rename_i b0 b1 bs hb
      have hdrop := drop_length_lt (bs := p.rest) (by simp [hb]) Nat.two_pos
      unfold Parser.offset
      dsimp only
      split
      · exact Parse.below_more hdrop
      · exact Parser.copy_below _ _ hdrop
    · exact Parse.below_fail _ _
  · split
    · rename_i n f r hs
      exact Parser.copy_below _ _ (drop_length_lt (hext hs) (Nat.succ_pos n))
    · exact Parse.below_fail _ _

/-- Any bound above the number of bytes left gives the parser's result. -/
theorem Parser.run_eq_result : ∀ (f : Nat) {p : Parser}, p.rest.length < f → p.run f = p.result := by
  intro f
  induction f using Nat.strong_induction_on with
  | _ f ih =>
    intro p hp
    obtain ⟨f, rfl⟩ := Nat.exists_eq_succ_of_ne_zero (Nat.ne_zero_of_lt hp)
    rw [Parser.result, Parser.run_succ, Parser.run_succ]
    cases hx : p.next with
    | more q =>
      have hq := p.next_below q hx
      rcases Nat.lt_or_ge p.rest.length f with hlt | hge
      · exact (ih f (Nat.lt_succ_self f) (hq.trans hlt)).trans (ih _ (by omega) hq).symm
      · rw [show f = p.rest.length by omega]
    | done out => rfl
    | fail c => rfl

theorem Parse.run_eq_result {x : Parse} {f : Nat} (h : x.Below f) : x.run f = x.result := by
  cases x with
  | more q => exact Parser.run_eq_result f (h q rfl)
  | done out => rfl
  | fail c => rfl

theorem Parser.result_next (p : Parser) : p.result = p.next.result := by
  rw [Parser.result, Parser.run_succ, Parse.run_eq_result p.next_below]

/-- A whole sequence with a match, where one stands there complete, has the effect of its elements. -/
theorem Parser.result_seq {p : Parser} (hph : p.phase = .token) {lit rest : Bytes} {off : BitVec 16} {len : Nat}
    (h4 : minMatch ≤ len) (hr : p.rest = encode (.seq lit off len) ++ rest) :
    p.result = (p.seq lit off len).result ∧ (p.seq lit off len).Below p.rest.length := by
  have hbelow : (p.seq lit off len).Below p.rest.length := by
    unfold Parser.seq
    split
    · exact Parse.below_fail _ _
    · refine Parser.copy_below _ _ (drop_length_lt ?_ ?_)
      · simp [hr, encode]
      · simp [encode]
  obtain ⟨k, hk1, hk2, hk⟩ := p.run_seq lit off len rest h4 hph hr
  refine ⟨?_, hbelow⟩
  rw [← Parse.run_eq_result hbelow, ← hk, Parser.run_eq_result _ (by omega)]

theorem Parser.result_last {p : Parser} (hph : p.phase = .token) {lit : Bytes} {ml : BitVec 4}
    (hr : p.rest = tokenByte (lengthNibble lit.length) ml :: (lengthExt lit.length ++ lit)) :
    p.result = (p.last lit).result ∧ (p.last lit).Below p.rest.length := by
  have hbelow : (p.last lit).Below p.rest.length := by
    unfold Parser.last
    split
    · exact Parse.below_fail _ _
    · exact fun _ hq => absurd hq (by simp)
  obtain ⟨k, hk1, hk2, hk⟩ := p.run_last lit ml hph hr
  refine ⟨?_, hbelow⟩
  rw [← Parse.run_eq_result hbelow, ← hk, Parser.run_eq_result _ (by omega)]

end Machine
end Sys2Proof
end

section
/-! PROOF. A block and a frame header by their elements come to what the whole command's parsers give. -/

namespace Sys2Proof.Machine

/-! ## The engine comes to an outcome -/

/-- From the outcome `a` of a move the engine comes to the outcome `o` in finitely many further moves. -/
def ComesTo (g : Grain) (a o : Host.Outcome State Fault Refusal) : Prop :=
  ∃ n t, a = .next t ∧ engineRun g n t = o

theorem ComesTo.refl (g : Grain) {a : Host.Outcome State Fault Refusal} (h : ∃ t, a = .next t) : ComesTo g a a :=
  let ⟨t, ht⟩ := h
  ⟨0, t, ht, ht.symm⟩

/-- One move of the engine. -/
theorem ComesTo.turn {g : Grain} {s : State} {r : Run} {o : Host.Outcome State Fault Refusal} (he : s.engine = .running r)
    (h : ComesTo g (engineTurn g s) o) : ComesTo g (.next s) o := by
  obtain ⟨n, t, ht, hn⟩ := h
  refine ⟨n + 1, s, rfl, ?_⟩
  simp only [engineRun, he, ht, hn]

theorem ComesTo.finish (g : Grain) (s : State) (i : Instr) (res : Except Stop Done) :
    ComesTo g (s.finish i res) (s.finish i res) := .refl g (s.finish_next i res)

/-! ## A block by its elements -/

/-- What follows a block that has been decoded, or has raised an error. -/
def State.afterBlock (r : Run) (use : BlockUse) (x : Except ErrCode Bytes) (s : State) : Host.Outcome State Fault Refusal :=
  match x with
  | .ok out => s.afterParse r use (.done out)
  | .error c => s.afterParse r use (.fail c)

/-- The bound a block's parser is run with is the number of its bytes and one more. -/
theorem Parser.start_run (src hist : Bytes) (cap : Nat) :
    (Parser.start src hist cap).run ((Parser.start src hist cap).size + 1) = (Parser.start src hist cap).result := rfl

theorem BlockUse.error_truncated (use : BlockUse) : use.error .truncated = .truncated := by cases use <;> rfl

section
variable {s : State} {r : Run} (he : s.engine = .running r) {use : BlockUse} {p : Parser} (hp : r.progress = .block use p)
include he hp

/-- No element stands at the cursor: the block is truncated. -/
theorem engineTurn_truncated {g : Grain} (hf : fetchBlock g p = .error (.err .truncated)) :
    engineTurn g s = s.afterParse r use (.fail .truncated) := by
  have hstop : s.fetch g r = .stop use.command (.err .truncated) := by simp only [State.fetch, hp, hf]
  rw [engineTurn_stop he hstop, State.afterParse_fail, BlockUse.error_truncated]

/-- The element at the cursor has its effect on the parser. -/
theorem engineTurn_inBlock {g : Grain} {i : Instr} (hf : fetchBlock g p = .ok i) {phases : List ParserPhase}
    {f : Parser → Parse} (hx : exec i s = s.inBlock phases f) (hph : p.phase ∈ phases) :
    engineTurn g s = s.afterParse r use (f p) := by
  rw [engineTurn_instr he (State.fetch_block hp hf), hx, State.inBlock_at he hp hph]

/-- By elements, the engine's move in a block is the parser's next element. -/
theorem engineTurn_element {g : Grain} (hg : fetchBlock g p = elementIn p.phase.slot p.rest .truncated) :
    engineTurn g s = s.afterParse r use p.next := by
  unfold Parser.next
  cases hph : p.phase with
  | token =>
    rw [hph] at hg
    cases hr : p.rest with
    | nil => exact engineTurn_truncated he hp (hg.trans (by rw [hr]; rfl))
    | cons b bs =>
      exact engineTurn_inBlock he hp (i := .token (hiNibble b) (loNibble b)) (hg.trans (by rw [hr]; rfl)) rfl
        (by rw [hph]; decide)
  | litExt =>
    rw [hph] at hg
    cases hs : scanExt p.rest with
    | none => exact engineTurn_truncated he hp (hg.trans (by simp [elementIn, ParserPhase.slot, decode, hs]))
    | some x =>
      obtain ⟨n, f, rest⟩ := x
      refine (engineTurn_inBlock he hp (i := .lenext n f) (hg.trans (by simp [elementIn, ParserPhase.slot, decode, hs])) rfl
        (by rw [hph]; decide)).trans ?_
      rw [if_pos hph]
  | offset =>
    rw [hph] at hg
    match hr : p.rest with
    | [] => exact engineTurn_truncated he hp (hg.trans (by rw [hr]; rfl))
    | [b] => exact engineTurn_truncated he hp (hg.trans (by rw [hr]; rfl))
    | b0 :: b1 :: bs =>
      exact engineTurn_inBlock he hp (i := .offset (le16At [b0, b1] 0)) (hg.trans (by rw [hr]; rfl)) rfl
        (by rw [hph]; decide)
  | matchExt =>
    rw [hph] at hg
    cases hs : scanExt p.rest with
    | none => exact engineTurn_truncated he hp (hg.trans (by simp [elementIn, ParserPhase.slot, decode, hs]))
    | some x =>
      obtain ⟨n, f, rest⟩ := x
      refine (engineTurn_inBlock he hp (i := .lenext n f) (hg.trans (by simp [elementIn, ParserPhase.slot, decode, hs])) rfl
        (by rw [hph]; decide)).trans ?_
      rw [if_neg (by rw [hph]; decide)]

/-- At every grain the engine's move in a block has an effect that leads to the parser's result, and takes at least one byte. -/
theorem engineTurn_block (g : Grain) :
    ∃ x, engineTurn g s = s.afterParse r use x ∧ p.result = x.result ∧ x.Below p.rest.length := by
  by_cases hg : g = .sequence ∧ p.phase = .token
  · obtain ⟨rfl, hph⟩ := hg
    cases hd : decode .sequence p.rest with
    | ok x =>
      obtain ⟨i, rest⟩ := x
      have hf := fetchBlock_sequence hph hd
      rcases decodeSequence_ok hd with ⟨lit, off, len, rfl, h4, hr⟩ | ⟨lit, ml, rfl, hr⟩
      · exact ⟨_, engineTurn_inBlock he hp hf rfl (by rw [hph]; decide), Parser.result_seq hph h4 hr⟩
      · exact ⟨_, engineTurn_inBlock he hp hf rfl (by rw [hph]; decide), Parser.result_last hph hr⟩
    | error e =>
      refine ⟨_, engineTurn_element he hp ?_, p.result_next, p.next_below⟩
      simp only [fetchBlock, hph, and_self, if_true, hd]
      rfl
  · exact ⟨_, engineTurn_element he hp (fetchBlock_element hg), p.result_next, p.next_below⟩

end

/-- A block under decode comes to what follows the parser's result. -/
theorem block_comesTo {g : Grain} {s : State} {r : Run} (he : s.engine = .running r) (use : BlockUse)
    {o : Host.Outcome State Fault Refusal} : ∀ (p : Parser), ComesTo g (s.afterBlock r use p.result) o →
      ComesTo g (.next (s.setProgress r (.block use p))) o := by
  intro p
  induction hn : p.rest.length using Nat.strong_induction_on generalizing p with
  | _ n ih =>
    intro h
    subst hn
    refine .turn (s.setProgress_engine r _) ?_
    obtain ⟨x, hx, hres, hbelow⟩ := engineTurn_block (s.setProgress_engine r (.block use p)) rfl g
    rw [hx, State.setProgress_afterParse he]
    rw [hres] at h
    cases x with
    | more q =>
      rw [State.afterParse_more]
      exact ih _ (hbelow q rfl) q rfl h
    | done out => exact h
    | fail c => exact h

/-! ## A header by its elements -/

/-- How `FDEC_OPEN` ends with what its header parser gives. -/
def State.opens (s : State) (x : Except Stop Fdec) : Host.Outcome State Fault Refusal :=
  s.finish .fdecOpen (x.map fdecOpenDone)

/-- One read of an address returns the same byte, by itself and with the byte before it. -/
theorem State.memRead_second {s : State} {use : Nat} {rg : Region} {addr : Nat} {a b : Byte}
    (h : s.memRead use rg addr 2 = .ok [a, b]) : s.memRead use rg (addr + 1) 1 = .ok [b] := by
  have hacc := (State.memRead_ok h).1
  have hacc' : accessible s.cfg rg (addr + 1) 1 = true := accessible_sub (by decide) hacc
  simp only [State.memRead, hacc, if_true, Except.ok.injEq] at h
  simp only [State.memRead, hacc', if_true, Except.ok.injEq]
  cases hv : overVolatile s.cfg rg <;> rw [hv] at h <;> exact congrArg List.tail h

/-- Four bytes are the magic exactly where they are its little-endian bytes. -/
theorem le32At_magic (a b c d : Byte) : le32At [a, b, c, d] 0 = 0x184D2204 ↔ [a, b, c, d] = encode .magic := by
  constructor
  · intro hw
    have ha := a.isLt
    have hb := b.isLt
    have hc := c.isLt
    have hn : (a.toNat + 256 * (b.toNat + 256 * (c.toNat + 256 * (d.toNat + 256 * 0)))) % 2 ^ 32 = 0x184D2204 :=
      (BitVec.toNat_ofNat _ 32).symm.trans (congrArg BitVec.toNat hw)
    have hd := d.isLt
    obtain rfl : a = 0x04 := BitVec.eq_of_toNat_eq (show a.toNat = 0x04 by omega)
    obtain rfl : b = 0x22 := BitVec.eq_of_toNat_eq (show b.toNat = 0x22 by omega)
    obtain rfl : c = 0x4D := BitVec.eq_of_toNat_eq (show c.toNat = 0x4D by omega)
    obtain rfl : d = 0x18 := BitVec.eq_of_toNat_eq (show d.toNat = 0x18 by omega)
    rfl
  · intro hw
    rw [hw]
    rfl

theorem elementIn_magic {x : Bytes} (h : x.length = 4) :
    elementIn .magic x .badMagic = if x = encode .magic then .ok .magic else .error (.err .badMagic) := by
  match x, h with
  | [a, b, c, d], _ =>
    by_cases hm : [a, b, c, d] = encode .magic
    · simp only [elementIn, decode, if_pos ((le32At_magic a b c d).mpr hm), if_pos hm]
    · simp only [elementIn, decode, if_neg (mt (le32At_magic a b c d).mp hm), if_neg hm]

theorem elementIn_flg (a : Byte) (bs : Bytes) : elementIn .flg (a :: bs) .headerReserved =
    if a &&& 0xC2 = 0x40 then
      .ok (.flg (a.getLsbD 5) (a.getLsbD 4) (a.getLsbD 3) (a.getLsbD 2) (a.getLsbD 0))
    else .error (.err .headerReserved) := by
  by_cases h : a &&& 0xC2 = 0x40
  · simp only [elementIn, decode, decodeFlg, if_pos h, Except.map]
  · simp only [elementIn, decode, decodeFlg, if_neg h, Except.map]

/-- A legal FLG byte is made of its flags. -/
theorem flgByte_of_legal (a : Byte) (h : a &&& 0xC2 = 0x40) :
    flgByte (a.getLsbD 5) (a.getLsbD 4) (a.getLsbD 3) (a.getLsbD 2) (a.getLsbD 0) = a := by
  revert a
  decide

theorem elementIn_bd (b : Byte) : elementIn .bd [b] .headerReserved =
    if b &&& 0x8F = 0 ∧ 4 ≤ bdCode b then .ok (.bd (b.extractLsb' 4 3)) else .error (.err .headerReserved) := by
  by_cases h : b &&& 0x8F = 0 ∧ 4 ≤ bdCode b
  · have h' : b &&& 0x8F = 0 ∧ 4 ≤ (b.extractLsb' 4 3).toNat := h
    simp only [elementIn, decode, decodeBd, if_pos h', if_pos h, Except.map]
  · have h' : ¬(b &&& 0x8F = 0 ∧ 4 ≤ (b.extractLsb' 4 3).toNat) := h
    simp only [elementIn, decode, decodeBd, if_neg h', if_neg h, Except.map]

/-- A BD byte with its reserved bits 0 is made of its size code. -/
theorem bdByte_of_legal (b : Byte) (h : b &&& 0x8F = 0) : ((b.extractLsb' 4 3).setWidth 8 <<< 4 : Byte) = b := by
  revert b
  decide

section
variable {g : Grain} {s : State} {r : Run} (he : s.engine = .running r)
include he

/-- The engine's move in a header: the element at the cursor, or the command's end. -/
theorem engineTurn_header (h : HeaderRun) : engineTurn g (s.setProgress r (.header h)) =
    match fetchHeader s h with
    | .ok i => exec i (s.setProgress r (.header h))
    | .error e => s.finish .fdecOpen (.error e) := by
  have hrun := s.setProgress_engine r (.header h)
  have hfetch := congrFun (setProgress_fetchHeader he (.header h)) h
  cases hf : fetchHeader s h with
  | ok i => exact engineTurn_instr hrun (State.fetch_header rfl (hfetch.trans hf))
  | error e =>
    have hstop : (s.setProgress r (.header h)).fetch g { r with progress := .header h } = .stop .fdecOpen e := by
      simp only [State.fetch, hfetch, hf]
    rw [engineTurn_stop hrun hstop, State.setProgress_finish_error he]

/-- The last byte of a header, its checksum and its fields. -/
theorem hc_comesTo (t : Fdec) : ComesTo g (.next (s.setProgress r (.header ⟨.hc, t⟩)))
    (s.opens (headerSumByte s t >>= fun sum => headerSum s t (sum.getD 0 0))) := by
  refine .turn (s.setProgress_engine r _) ?_
  rw [engineTurn_header he]
  simp only [fetchHeader]
  cases hb : headerSumByte s t with
  | error e => exact .finish g s _ _
  | ok x =>
    obtain ⟨b, rfl⟩ := List.length_eq_one_iff.mp (State.memRead_ok (guard_ok hb).2).2
    have hi : elementIn .hc [b] .headerCsum = .ok (.hc b) := rfl
    have hexec : exec (.hc b) (s.setProgress r (.header ⟨.hc, t⟩)) = s.opens (headerSum s t b) := by
      show (s.setProgress r (.header ⟨.hc, t⟩)).finish .fdecOpen _ = _
      rw [setProgress_headerSum he]
      refine State.setProgress_finish he _ _ fun d hd => ?_
      obtain ⟨u, -, rfl⟩ := map_ok hd
      exact ⟨rfl, fun _ => rfl⟩
    simp only [bind, Except.bind, hi, hexec]
    exact .finish g s _ _

/-- BD, once FLG has no reserved value. -/
theorem bd_comesTo {t : Fdec} {b : Byte} (hflg : t.flg &&& 0xC2 = 0x40) (hread : s.readFrame useFrame t 5 1 = .ok [b]) :
    ComesTo g (.next (s.setProgress r (.header ⟨.bd, t⟩)))
      (s.opens ((if headerLegal s.cfg t.flg b then .ok { t with bd := b } else .error (.err .headerReserved)) >>=
        fun t => headerSumByte s t >>= fun sum => headerSum s t (sum.getD 0 0))) := by
  refine .turn (s.setProgress_engine r _) ?_
  rw [engineTurn_header he]
  simp only [fetchHeader, hread, bind, Except.bind, elementIn_bd]
  by_cases hb : b &&& 0x8F = 0 ∧ 4 ≤ bdCode b
  · simp only [if_pos hb]
    by_cases hmax : s.cfg.bsizeIdMax < bdCode b
    · have hl : ¬headerLegal s.cfg t.flg b = true := fun h => Nat.not_lt.mpr (of_decide_eq_true h).2.2.2 hmax
      have hexec : exec (.bd (b.extractLsb' 4 3)) (s.setProgress r (.header ⟨.bd, t⟩)) =
          (s.setProgress r (.header ⟨.bd, t⟩)).finish .fdecOpen (.error (.err .headerReserved)) := if_pos hmax
      rw [if_neg hl, hexec, State.setProgress_finish_error he]
      exact .finish g s _ _
    · have hl : headerLegal s.cfg t.flg b = true := decide_eq_true ⟨hflg, hb.1, hb.2, Nat.not_lt.mp hmax⟩
      have hexec : exec (.bd (b.extractLsb' 4 3)) (s.setProgress r (.header ⟨.bd, t⟩)) =
          .next (s.setProgress r (.header ⟨.hc, { t with bd := (b.extractLsb' 4 3).setWidth 8 <<< 4 }⟩)) := if_neg hmax
      rw [if_pos hl, hexec, bdByte_of_legal b hb.1]
      exact hc_comesTo he _
  · have hl : ¬headerLegal s.cfg t.flg b = true := fun h =>
      have ⟨_, h0, h4, _⟩ := of_decide_eq_true h
      hb ⟨h0, h4⟩
    simp only [if_neg hb, if_neg hl]
    exact .finish g s _ _

/-- FLG and BD, which the parser reads together before it judges either. -/
theorem flg_comesTo (t : Fdec) : ComesTo g (.next (s.setProgress r (.header ⟨.flg, t⟩)))
    (s.opens (headerBytes s t >>= fun t => headerSumByte s t >>= fun sum => headerSum s t (sum.getD 0 0))) := by
  refine .turn (s.setProgress_engine r _) ?_
  rw [engineTurn_header he]
  simp only [fetchHeader, headerBytes]
  by_cases hlen : t.len < 6
  · simp only [if_pos hlen]
    exact .finish g s _ _
  simp only [if_neg hlen]
  cases hread : s.readFrame useFrame t 4 2 with
  | error e => exact .finish g s _ _
  | ok x =>
    obtain ⟨a, b, rfl⟩ := List.length_eq_two.mp (State.memRead_ok hread).2
    simp only [bind, Except.bind, elementIn_flg, List.getD_cons_zero, List.getD_cons_succ]
    by_cases ha : a &&& 0xC2 = 0x40
    · simp only [if_pos ha]
      show ComesTo g (.next (s.setProgress r (.header ⟨.bd, { t with flg := flgByte _ _ _ _ _ }⟩))) _
      rw [flgByte_of_legal a ha]
      exact bd_comesTo he (t := { t with flg := a }) ha (State.memRead_second hread)
    · have hl : ¬headerLegal s.cfg a b = true := fun h => ha (of_decide_eq_true h).1
      simp only [if_neg ha, if_neg hl]
      exact .finish g s _ _

/-- A whole header. -/
theorem header_comesTo (t : Fdec) :
    ComesTo g (.next (s.setProgress r (.header ⟨.magic, t⟩))) (s.opens (parseHeader s t)) := by
  refine .turn (s.setProgress_engine r _) ?_
  rw [engineTurn_header he]
  simp only [fetchHeader, parseHeader, headerMagic]
  by_cases hlen : t.len < 4
  · simp only [if_pos hlen]
    exact .finish g s _ _
  simp only [if_neg hlen]
  cases hread : s.readFrame useFrame t 0 4 with
  | error e => exact .finish g s _ _
  | ok x =>
    simp only [bind, Except.bind, elementIn_magic (State.memRead_ok hread).2]
    by_cases hm : x = encode .magic
    · simp only [if_pos hm]
      exact flg_comesTo he t
    · simp only [if_neg hm]
      exact .finish g s _ _

end

end Sys2Proof.Machine
end

section
/-! PROOF. A read by its elements, and every command by its elements, comes to the result of the whole command (O60). -/

namespace Sys2Proof.Machine

/-! ## A read by its elements -/

/-- How `FDEC_READ` ends with what its record reader gives. -/
def State.reads (s : State) (x : Except Stop Reader) : Host.Outcome State Fault Refusal :=
  s.finish .fdecRead (x.map fdecReadDone)

/-- What follows a record: the read goes on with the frame decoder it leaves, or ends with its error. -/
def State.afterNext (r : Run) (rd : Reader) (x : Except Stop Fdec) (s : State) : Host.Outcome State Fault Refusal :=
  match x with
  | .ok t => s.afterRecord r { rd with t := t }
  | .error e => s.finish .fdecRead (.error e)

section
variable {g : Grain} {s : State} {r : Run} (he : s.engine = .running r)
include he

/-- The engine's move at a record word. -/
theorem engineTurn_record (rd : Reader) : engineTurn g (s.setProgress r (.record rd)) =
    match recordWord s rd.t with
    | .ok w => exec (decodeRecord w) (s.setProgress r (.record rd))
    | .error e => s.finish .fdecRead (.error e) := by
  have hrun := s.setProgress_engine r (.record rd)
  have hword := congrFun (setProgress_recordWord he (.record rd)) rd.t
  cases hf : recordWord s rd.t with
  | ok w => exact engineTurn_instr hrun (State.fetch_record rfl (hword.trans hf))
  | error e =>
    have hstop : (s.setProgress r (.record rd)).fetch g { r with progress := .record rd } = .stop .fdecRead e := by
      simp only [State.fetch, hword, hf]
    rw [engineTurn_stop hrun hstop, State.setProgress_finish_error he]

theorem exec_endMark (rd : Reader) :
    exec .endMark (s.setProgress r (.record rd)) = s.afterNext r rd (endOfFrame s rd.t) := by
  simp only [exec, execEndMark, State.inRecord_at (s.setProgress_engine r (.record rd)) rfl, setProgress_endOfFrame he]
  cases endOfFrame s rd.t with
  | error e => exact State.setProgress_finish_error he _ _ e
  | ok t => exact State.setProgress_afterRecord he _ _

theorem exec_blockwordRaw (rd : Reader) (size : BitVec 31) :
    exec (.blockwordRaw size) (s.setProgress r (.record rd)) = s.afterNext r rd (rawRecord s rd.t size.toNat) := by
  simp only [exec, execBlockwordRaw, State.inRecord_at (s.setProgress_engine r (.record rd)) rfl, setProgress_rawRecord he]
  cases rawRecord s rd.t size.toNat with
  | error e => exact State.setProgress_finish_error he _ _ e
  | ok t => exact State.setProgress_afterRecord he _ _

/-- A compressed record, whose block is decoded by its elements. -/
theorem blockwordLz4_comesTo (rd : Reader) (size : BitVec 31) {o : Host.Outcome State Fault Refusal}
    (h : ComesTo g (s.afterNext r rd (lz4Record s rd.t size.toNat)) o) :
    ComesTo g (exec (.blockwordLz4 size) (s.setProgress r (.record rd))) o := by
  simp only [exec, execBlockwordLz4, State.inRecord_at (s.setProgress_engine r (.record rd)) rfl,
    setProgress_recordPayload he]
  unfold lz4Record at h
  cases hp : recordPayload s rd.t size.toNat with
  | error e =>
    rw [hp] at h
    dsimp only
    rw [State.setProgress_finish_error he]
    exact h
  | ok x =>
    obtain ⟨payload, next⟩ := x
    rw [hp] at h
    refine block_comesTo he (.frame rd next) (rd.t.blockParser payload) ?_
    simp only [bind, Except.bind, Fdec.blockParser, Parser.start_run] at h ⊢
    cases hres : (Parser.start payload rd.t.history rd.t.bs).result <;> rw [hres] at h <;> exact h

/-- One record. -/
theorem record_comesTo (rd : Reader) {o : Host.Outcome State Fault Refusal}
    (h : ComesTo g (s.afterNext r rd (nextRecord s rd.t)) o) : ComesTo g (.next (s.setProgress r (.record rd))) o := by
  refine .turn (s.setProgress_engine r _) ?_
  rw [engineTurn_record he]
  unfold nextRecord at h
  cases hw : recordWord s rd.t with
  | error e =>
    rw [hw] at h
    exact h
  | ok w =>
    rw [hw] at h
    simp only [bind, Except.bind] at h ⊢
    unfold decodeRecord
    by_cases h0 : w = 0
    · rw [if_pos h0] at h ⊢
      rwa [exec_endMark he]
    rw [if_neg h0] at h ⊢
    by_cases hraw : w.getLsbD 31
    · rw [if_pos hraw] at h ⊢
      rwa [exec_blockwordRaw he]
    · rw [if_neg hraw] at h ⊢
      exact blockwordLz4_comesTo he rd _ h

end

/-- A record takes at least its word from the frame source. -/
theorem nextRecord_advances {s : State} {t u : Fdec} (h : nextRecord s t = .ok u) :
    u.len = t.len ∧ t.pos + 4 ≤ u.pos ∧ t.pos + 4 ≤ t.len := by
  obtain ⟨w, hw, h⟩ := bind_ok h
  have hlen := recordWord_ok hw
  by_cases h0 : w = 0
  · obtain ⟨q, rfl, hq, -, -⟩ := endOfFrame_ok ((if_pos h0).symm.trans h) hlen
    exact ⟨rfl, hq, hlen⟩
  replace h := (if_neg h0).symm.trans h
  by_cases hraw : w.getLsbD 31 = true
  · obtain ⟨⟨payload, next⟩, hp, h⟩ := bind_ok ((if_pos hraw).symm.trans h)
    cases h
    exact ⟨rfl, (recordPayload_ok hp).2.2.1, hlen⟩
  · obtain ⟨⟨payload, next⟩, hp, h⟩ := bind_ok ((if_neg hraw).symm.trans h)
    obtain ⟨blk, -, h⟩ := bind_ok h
    cases h
    exact ⟨rfl, (recordPayload_ok hp).2.2.1, hlen⟩

theorem Reader.deliver_frame {rd rd' : Reader} (h : rd.deliver = .ok rd') : rd'.t.len = rd.t.len ∧ rd'.t.pos = rd.t.pos := by
  unfold Reader.deliver at h
  split at h
  · cases h
    exact ⟨rfl, rfl⟩
  · split at h
    · exact absurd h (by simp)
    · cases h
      exact ⟨rfl, rfl⟩

/-- A read by its elements comes to what the loop of `FDEC_READ` gives, whose bound no read reaches (log entry 18). -/
theorem read_comesTo {g : Grain} {s : State} {r : Run} (he : s.engine = .running r) (n : Nat) : ∀ rd : Reader,
    rd.t.len - rd.t.pos + 2 ≤ n → ComesTo g (s.afterRecord r rd) (s.reads (readLoop s n rd)) := by
  induction n with
  | zero => intro rd h; omega
  | succ n ih =>
    intro rd hn
    unfold State.afterRecord readLoop
    cases hd : rd.deliver with
    | error e => exact .finish g s _ _
    | ok rd' =>
      simp only [bind, Except.bind]
      by_cases henough : rd'.enough = true
      · rw [if_pos henough, if_pos henough]
        exact .finish g s _ _
      rw [if_neg henough, if_neg henough]
      refine record_comesTo he rd' ?_
      cases hx : nextRecord s rd'.t with
      | error e => exact .finish g s _ _
      | ok t =>
        obtain ⟨hlen, hpos⟩ := Reader.deliver_frame hd
        obtain ⟨hlen', hpos', hin⟩ := nextRecord_advances hx
        refine ih { rd' with t := t } ?_
        dsimp only
        omega

/-! ## Every command by its elements -/

theorem bind_ok_eq_map {α β : Type} (x : Except Stop α) (f : α → β) : (x >>= fun a => .ok (f a)) = x.map f := by
  cases x <;> rfl

theorem State.afterBlock_block (r : Run) (x : Except ErrCode Bytes) (s : State) :
    s.afterBlock r .block x = s.finish .blkDecode (raised x >>= fun out => .ok (blkDecodeDone out)) := by
  cases x <;> rfl

theorem State.afterBlock_session (r : Run) (x : Except ErrCode Bytes) (s : State) :
    s.afterBlock r .session x = s.finish .sesDec (raised x >>= fun out => .ok (sesDecDone out)) := by
  cases x <;> rfl

/-- A read to the end ends as a read does. -/
theorem State.finish_fdecReadToEnd {s : State} {r : Run} (he : s.engine = .running r) (res : Except Stop Done) :
    s.finish .fdecReadToEnd res = s.finish .fdecRead res := by
  have hstick : s.stick .fdecReadToEnd = s.stick .fdecRead := by simp only [State.stick, State.run?, he]
  have hsettle : ∀ t, s.settle .fdecReadToEnd t = s.settle .fdecRead t := fun t => rfl
  match res with
  | .error .stuck => simp only [State.finish, hstick]
  | .error (.err c) => rfl
  | .ok d =>
    simp only [State.finish, hstick, hsettle]
    rfl

/-- The start of a command that is run by its elements comes to what the whole command gives. -/
theorem begin_comesTo {g : Grain} {s : State} {r : Run} (he : s.engine = .running r) {i : Instr} (hi : i ∈ commands)
    (hel : hasElements i = true) : ComesTo g (s.begin i r) (exec i s) := by
  rw [exec_command hi]
  cases hu : usageError i s s.snapshot with
  | some c =>
    rw [State.command_usage hu]
    simp only [State.begin, hu]
    exact .refl g ⟨_, rfl⟩
  | none =>
    rw [State.command_body hu]
    simp only [State.begin, hu]
    cases i with
    | blkDecode =>
      simp only [bodyOf, blkDecodeBody]
      cases hp : blkDecodeStart s s.snapshot with
      | error e => exact .finish g s _ _
      | ok p =>
        obtain ⟨src, -, hp⟩ := bind_ok hp
        obtain ⟨d, -, hp⟩ := bind_ok hp
        cases hp
        exact block_comesTo he .block _ (State.afterBlock_block r _ s ▸ .finish g s _ _)
    | sesDec =>
      simp only [bodyOf, sesDecBody]
      cases hp : sesDecStart s s.snapshot with
      | error e => exact .finish g s _ _
      | ok p =>
        obtain ⟨src, -, hp⟩ := bind_ok hp
        cases hp
        exact block_comesTo he .session _ (State.afterBlock_session r _ s ▸ .finish g s _ _)
    | fdecOpen =>
      simp only [bodyOf, fdecOpenBody]
      cases hd : s.readDict s.snapshot with
      | error e => exact .finish g s _ _
      | ok d =>
        refine (bind_ok_eq_map (parseHeader s (Fdec.awaiting s.snapshot d)) fdecOpenDone).symm ▸ ?_
        exact header_comesTo he (Fdec.awaiting s.snapshot d)
    | fdecRead =>
      rw [show bodyOf .fdecRead s s.snapshot = _ from bind_ok_eq_map _ fdecReadDone]
      exact read_comesTo he _ (Reader.start s s.snapshot false) le_rfl
    | fdecReadToEnd =>
      rw [State.finish_fdecReadToEnd he, show bodyOf .fdecReadToEnd s s.snapshot = _ from bind_ok_eq_map _ fdecReadDone]
      exact read_comesTo he _ (Reader.start s s.snapshot true) le_rfl
    | _ => exact absurd hel Bool.false_ne_true

/-- A command that has just started comes to what the whole command gives, at every grain. -/
theorem start_comesTo (g : Grain) {s : State} {r : Run} {i : Instr} (he : s.engine = .running r) (hp : r.progress = .start)
    (hd : decodeCommand r.word = some i) : ComesTo g (.next s) (exec i s) := by
  have hi := decodeCommand_mem hd
  refine .turn he ?_
  by_cases hg : g = .command ∨ hasElements i = false
  · have hf : s.fetch g r = .instr i := by simp only [State.fetch, hp, hd, if_pos hg]
    rw [engineTurn_instr he hf]
    exact .refl g (by rw [exec_command hi]; exact s.command_next _ _)
  · have hf : s.fetch g r = .begin i := by simp only [State.fetch, hp, hd, if_neg hg]
    rw [engineTurn_begin he hf]
    exact begin_comesTo he hi (by simpa using (not_or.mp hg).2)

/-- A command completes or is stuck. -/
theorem command_engine {i : Instr} {s t : State} (hi : i ∈ commands) (h : exec i s = .next t) :
    t.engine = .idle ∨ ∃ r, t.engine = .stuck r := by
  rcases exec_cases hi h with ⟨c, -, rfl⟩ | ⟨-, (rfl | ⟨c, -, rfl⟩ | ⟨d, -, -, rfl⟩) | ⟨-, rfl⟩⟩
  · exact .inl (by simp)
  · exact .inr (s.stick_engine i)
  · exact .inl (by simp)
  · exact .inl (by simp)
  · exact .inl rfl

/-- Settles O60: by its elements a command reads the same bytes, runs the same parsers and ends in the same way. -/
theorem elementsRunToTheCommandsResult : Obligations.ElementsRunToTheCommandsResult := by
  intro g s r i he hp hd
  have hi := decodeCommand_mem hd
  obtain ⟨n, u, hu, hn⟩ := start_comesTo g he hp hd
  cases hu
  obtain ⟨t, ht⟩ : ∃ t, exec i s = .next t := by
    rw [exec_command hi]
    exact s.command_next _ _
  exact ⟨n, t, hn.trans ht, ht, command_engine hi ht, fun hm => exec_completes hi hm ht⟩

end Sys2Proof.Machine
end

section
/-! PROOF. The host's register accesses (O14), what an engine turn leaves before its command completes (O17), and engine reads (O18). -/

namespace Sys2Proof.Machine

/-! ## Register accesses -/

/-- An access that is not 32 bits wide and aligned to 4 bytes (spec/20_memory.md R65). -/
theorem State.hostOp_unsupported {off width : Nat} (h : off < 256) (hw : ¬(width = 4 ∧ off % 4 = 0)) (v : Word) (s : State) :
    s.hostOp (.write (s.cfg.csrBase + off) width v) = .next s ∧
      s.hostOp (.read (s.cfg.csrBase + off) width) = .next { s with rdata := 0 } := by
  simp [State.hostOp, csrOffset?_add s.cfg h, csrAccessOk, hw]

/-- A 32-bit read of the host at an aligned offset of the register window. -/
theorem State.hostOp_read {off : Nat} (h : off < 256) (h4 : off % 4 = 0) (s : State) :
    s.hostOp (.read (s.cfg.csrBase + off) 4) = .next { s with rdata := s.csrRead off } := by
  simp [State.hostOp, csrOffset?_add s.cfg h, csrAccessOk, h4]

/-- While idle a write to CMD starts a command (spec/30_encoding.md R82). -/
theorem State.csrWrite_cmd {s : State} (he : s.engine = .idle) (v : Word) :
    s.csrWrite 0 v = { s with engine := .running ⟨v, s.args, [], .start⟩, done := false, lastError := none } := by
  have hb : s.busy = false := by simp only [State.busy, he]
  simp only [State.csrWrite, State.startCommand, hb]
  rfl

/-- Settles O14: an unsupported access does nothing, and a supported one is a register read or write. -/
theorem registerAccesses : Obligations.RegisterAccesses := by
  intro s off width v h
  refine ⟨fun hw => State.hostOp_unsupported h hw v s, fun h4 => State.hostOp_read h h4 s, fun he => ?_, ?_⟩
  · exact (State.hostOp_write (off := 0) (by decide) (by decide) v s).trans (congrArg _ (State.csrWrite_cmd he v))
  · exact (State.hostOp_write (by decide) (by decide) v s).trans (congrArg _ (s.csrWrite_irqStatus v))

/-! ## Before a command completes -/

/-- An end of a command that leaves the engine busy is a stuck command, and nothing else has changed. -/
theorem State.CommandEnds.undone {s t : State} (h : s.CommandEnds t) (ht : t.engine ≠ .idle) :
    t = { s with engine := t.engine } := by
  rcases h with rfl | ⟨i, c, rfl⟩ | ⟨i, res, h⟩
  · exact absurd rfl ht
  · exact absurd (State.raise_engine s i c) ht
  · exact State.finish_undone h ht

/-- Settles O17: the engine's turn moves the progress on, or ends the command; only a stuck command ends with the engine busy. -/
theorem nothingIsSeenBeforeCompletion : Obligations.NothingIsSeenBeforeCompletion := by
  intro s t g h ht
  cases he : s.engine with
  | idle =>
    rw [engineTurn_idle he] at h
    cases h
    exact absurd he ht
  | stuck r =>
    rw [engineTurn_stuck he] at h
    exact absurd h (by simp)
  | running r =>
    rcases engineTurn_cases he h with ⟨q, rfl⟩ | hend
    · rfl
    · exact hend.undone ht

/-! ## Engine reads -/

/-- A byte the host has not written during the command is the one in memory. -/
theorem State.engineByte_unraced {s : State} {a : Nat} (h : ∀ c ∈ s.raced, c.1 ≠ a) (use : Nat) :
    s.engineByte use a = Memory.read s.mem a := by
  have hnone : s.raced.filter (fun c => c.1 == a) = [] := List.filter_eq_nil_iff.mpr fun c hc => by simpa using h c hc
  simp [State.engineByte, hnone]

/-- An engine read of an address returns the byte in memory or one that stood there since the command's start (spec/20_memory.md R71). -/
theorem State.engineByte_cases (s : State) (use a : Nat) :
    s.engineByte use a = Memory.read s.mem a ∨ ∃ c ∈ s.raced, c.1 = a ∧ s.engineByte use a = c.2 := by
  unfold State.engineByte
  split
  · exact .inl rfl
  · generalize holds : s.raced.filter (fun c => c.1 == a) = olds
    have hlt : Config.freePick s.nonce use a % (olds.length + 1) < (Memory.read s.mem a :: olds.map (·.2)).length := by
      simpa using Nat.mod_lt _ (Nat.succ_pos olds.length)
    rw [List.getD_eq_getElem _ _ hlt]
    refine (List.mem_cons.mp (List.getElem_mem hlt)).imp_right fun hmem => ?_
    obtain ⟨c, hc, hval⟩ := List.mem_map.mp hmem
    obtain ⟨hraced, hat⟩ := List.mem_filter.mp (holds ▸ hc)
    exact ⟨c, hraced, by simpa using hat, hval.symm⟩

/-- An engine read of accessible bytes of a plain region, raced or not, returns the engine's byte at each address. -/
theorem State.memRead_plain {s : State} {r : Region} {a n : Nat} (hp : s.Plain r) (ha : accessible s.cfg r a n = true) (use : Nat) :
    s.memRead use r a n = .ok ((List.range n).map fun k => s.engineByte use (a + k)) := by
  simp [State.memRead, ha, hp.overVolatile]

/-- Settles O18: an engine read takes the engine's byte at each address. -/
theorem engineReads : Obligations.EngineReads := by
  refine ⟨fun s use r a n hs hp ha => ?_, fun s use r a n hp ha => ?_⟩
  · exact ⟨_, State.memRead_calm hs ha hp use, Memory.bytes_length .., fun k hk => by simp [Memory.bytes, hk]⟩
  · refine ⟨_, State.memRead_plain hp ha use, by simp, fun k hk => ?_⟩
    have hget : ((List.range n).map fun k => s.engineByte use (a + k))[k]? = some (s.engineByte use (a + k)) := by simp [hk]
    rw [hget]
    refine ⟨(s.engineByte_cases use (a + k)).imp (congrArg some) fun ⟨c, hc, hat, hval⟩ => ⟨c, hc, hat, congrArg some hval⟩,
      fun hn => congrArg some (State.engineByte_unraced hn use)⟩

end Sys2Proof.Machine
end

section
/-! PROOF. Ill-formed regions and overlaps (O21). -/

namespace Sys2Proof.Machine

section
variable {i : Instr} {s : State} (hi : i ∈ commands) (hr : s.raced = []) (hst : stateForbids i s = false)
  (hcf : configForbids i s s.snapshot = false)
include hi hr hst hcf

/-- A command that its state and its configuration permit, and a region of which is not well-formed (spec/60_exceptions.md R263). -/
theorem exec_badRange
    (h : ¬((∀ r ∈ regionsRead i s s.snapshot, r.1 + r.2 ≤ 2 ^ 32) ∧ (writesDst i = true → s.snapshot.DstOk))) :
    exec i s = .next (s.errState .badRange) := by
  have hbad : rangeBad i s s.snapshot = true := by
    by_contra hn
    rw [rangeBad_iff, not_or, not_exists, not_and] at hn
    exact h ⟨fun r hr => Classical.not_not.mp fun hf => hn.1 r ⟨hr, hf⟩, fun hw => Classical.not_not.mp (hn.2 hw)⟩
  exact exec_usage hi hr (by simp [usageError, hst, hcf, hbad])

/-- A command with well-formed regions whose destination window overlaps a region it reads (spec/60_exceptions.md R263). -/
theorem exec_overlap (hw : writesDst i = true) (hfit : ∀ r ∈ regionsRead i s s.snapshot, r.1 + r.2 ≤ 2 ^ 32)
    (hdst : s.snapshot.DstOk) (h : ¬∀ r ∈ regionsRead i s s.snapshot, s.snapshot.Apart r.1 r.2) :
    exec i s = .next (s.errState .overlap) := by
  have hrange : rangeBad i s s.snapshot = false := by
    rw [← Bool.not_eq_true, rangeBad_iff]
    rintro (⟨r, hr, hn⟩ | ⟨-, hn⟩)
    · exact hn (hfit r hr)
    · exact hn hdst
  have hover : overlapBad i s s.snapshot = true := by
    obtain ⟨r, hmem, hn⟩ := not_forall₂.mp h
    exact (overlapBad_iff ..).mpr ⟨hw, r, hmem, hn⟩
  exact exec_usage hi hr (by simp [usageError, hst, hcf, hrange, hover])

end

/-! ## When a command's context and configuration permit it -/

theorem sesEnc_permitted {s : State} (h : s.eses.st ≠ .poisoned) : stateForbids .sesEnc s = false := by
  simpa [stateForbids] using h

theorem sesDec_permitted {s : State} (h : s.dses.st ≠ .poisoned) : stateForbids .sesDec s = false := by
  simpa [stateForbids] using h

theorem fencWrite_permitted {s : State} (h : s.fenc.st = .opened ∨ s.fenc.st = .writing) : stateForbids .fencWrite s = false := by
  rcases h with h | h <;> simp [stateForbids, h]

theorem fencClose_permitted {s : State} (h : s.fenc.st = .opened ∨ s.fenc.st = .writing ∨ s.fenc.st = .closed) :
    stateForbids .fencClose s = false := by
  rcases h with h | h | h <;> simp [stateForbids, h]

theorem fdecRead_permitted {s : State} (h : s.fdec.st = .readingBlocks ∨ s.fdec.st = .finished) :
    stateForbids .fdecRead s = false := by
  rcases h with h | h <;> simp [stateForbids, h]

theorem fencOpen_permitted {s : State} {A : Args} (h : A.fcfg.extractLsb' 16 16 = 0)
    (hb : HeaderBytesOk s.cfg (A.fcfg.extractLsb' 0 8) (A.fcfg.extractLsb' 8 8)) : configForbids .fencOpen s A = false := by
  simp [configForbids, (fcfgLegal_iff s.cfg A).mpr ⟨h, hb⟩]

/-- Settles O21: the range check comes after the state and the configuration, and the overlap check after it. -/
theorem regionErrors : Obligations.RegionErrors := by
  refine ⟨fun s hr => ⟨fun h => ?_, fun h => ?_, fun hst h => ?_, fun hst h => ?_, fun hc hb h => ?_, fun hst h => ?_,
    fun hst h => ?_, fun h => ?_, fun hst h => ?_⟩, fun s hr hsrc hdict hdst => ⟨fun h => ?_, fun h => ?_, fun h hc hb => ?_,
    fun h hst hfit => ?_⟩⟩
  · exact ⟨exec_badRange (by decide) hr rfl rfl fun ⟨hf, hd⟩ => h ⟨hf _ (.head _), hf _ (.tail _ (.head _)), hd rfl⟩,
      exec_badRange (by decide) hr rfl rfl fun ⟨hf, hd⟩ => h ⟨hf _ (.head _), hf _ (.tail _ (.head _)), hd rfl⟩⟩
  · refine ⟨?_, ?_, ?_, ?_⟩ <;> exact exec_badRange (by decide) hr rfl rfl fun ⟨hf, _⟩ => h (hf _ (.head _))
  · exact exec_badRange (by decide) hr (sesEnc_permitted hst) rfl fun ⟨hf, hd⟩ => h ⟨hf _ (.head _), hd rfl⟩
  · exact exec_badRange (by decide) hr (sesDec_permitted hst) rfl fun ⟨hf, hd⟩ => h ⟨hf _ (.head _), hd rfl⟩
  · exact exec_badRange (by decide) hr rfl (fencOpen_permitted hc hb) fun ⟨hf, hd⟩ => h ⟨hf _ (.head _), hd rfl⟩
  · exact exec_badRange (by decide) hr (fencWrite_permitted hst) rfl fun ⟨hf, hd⟩ => h ⟨hf _ (.head _), hd rfl⟩
  · exact exec_badRange (by decide) hr (fencClose_permitted hst) rfl fun ⟨_, hd⟩ => h (hd rfl)
  · exact exec_badRange (by decide) hr rfl rfl fun ⟨hf, _⟩ => h ⟨hf _ (.head _), hf _ (.tail _ (.head _))⟩
  · exact ⟨exec_badRange (by decide) hr (fdecRead_permitted hst) rfl fun ⟨_, hd⟩ => h (hd rfl),
      exec_badRange (by decide) hr (fdecRead_permitted hst) rfl fun ⟨_, hd⟩ => h (hd rfl)⟩
  · have fit : ∀ r ∈ [s.snapshot.src, s.snapshot.dict], r.1 + r.2 ≤ 2 ^ 32 :=
      List.forall_mem_cons.mpr ⟨hsrc, List.forall_mem_singleton.mpr hdict⟩
    exact ⟨exec_overlap (by decide) hr rfl rfl rfl fit hdst fun hn => h ⟨hn _ (.head _), hn _ (.tail _ (.head _))⟩,
      exec_overlap (by decide) hr rfl rfl rfl fit hdst fun hn => h ⟨hn _ (.head _), hn _ (.tail _ (.head _))⟩⟩
  · have fit : ∀ r ∈ [s.snapshot.src], r.1 + r.2 ≤ 2 ^ 32 := List.forall_mem_singleton.mpr hsrc
    refine ⟨fun hst => ?_, fun hst => ?_, fun hst => ?_⟩
    · exact exec_overlap (by decide) hr (sesEnc_permitted hst) rfl rfl fit hdst fun hn => h (hn _ (.head _))
    · exact exec_overlap (by decide) hr (sesDec_permitted hst) rfl rfl fit hdst fun hn => h (hn _ (.head _))
    · exact exec_overlap (by decide) hr (fencWrite_permitted hst) rfl rfl fit hdst fun hn => h (hn _ (.head _))
  · exact exec_overlap (by decide) hr rfl (fencOpen_permitted hc hb) rfl (List.forall_mem_singleton.mpr hdict) hdst
      fun hn => h (hn _ (.head _))
  · have fit : ∀ r ∈ regionsRead .fdecRead s s.snapshot, r.1 + r.2 ≤ 2 ^ 32 := List.forall_mem_singleton.mpr hfit
    exact ⟨exec_overlap (by decide) hr (fdecRead_permitted hst) rfl rfl fit hdst fun hn => h (hn _ (.head _)),
      exec_overlap (by decide) hr (fdecRead_permitted hst) rfl rfl fit hdst fun hn => h (hn _ (.head _))⟩

end Sys2Proof.Machine
end

section
/-! PROOF. What the end of a command leaves unchanged, and the frame of the commands (O49). -/

namespace Sys2Proof.Machine

/-! ## The ends of a command -/

/-- What an end of the command `i` leaves unchanged, whatever its regions lie over: the host's side, every argument register but
DST_LEN, memory outside the destination window, all of memory where the command opens no window, and every context but its own. -/
structure State.EndFrame (i : Instr) (s t : State) : Prop where
  host : s.SameHost t
  args : s.SameArgs t
  memory : s.SameMemoryOutside t s.snapshot.window
  silent : opensDst i = false → s.SameMemory t
  eses : i ∉ [Instr.sesEncReset, .sesEncResetLinked, .sesEnc] → t.eses = s.eses
  dses : i ∉ [Instr.sesDecReset, .sesDecResetLinked, .sesDec] → t.dses = s.dses
  fenc : i ∉ [Instr.fencOpen, .fencWrite, .fencClose] → t.fenc = s.fenc
  fdec : i ∉ [Instr.fdecOpen, .fdecRead, .fdecReadToEnd] → t.fdec = s.fdec ∧ t.fregs = s.fregs

/-- Where only the engine differs, everything else is unchanged. -/
theorem State.EndFrame.of_engine {i : Instr} {s t : State} (h : t = { s with engine := t.engine }) : s.EndFrame i t := by
  rw [h]
  exact ⟨⟨rfl, rfl, rfl, rfl, rfl⟩, ⟨_, rfl⟩, fun _ _ => rfl, fun _ _ => rfl, fun _ => rfl, fun _ => rfl, fun _ => rfl,
    fun _ => ⟨rfl, rfl⟩⟩

theorem writesDst_of_opensDst {i : Instr} (h : opensDst i = false) : writesDst i = false := (Bool.or_eq_false_iff.mp h).1

/-- An error, which is a usage error where the command opens no window. -/
theorem State.raise_endFrame {i : Instr} {s : State} {c : ErrCode} (hc : opensDst i = false → c.isUsage = true) :
    s.EndFrame i (s.raise i c) := by
  obtain ⟨he, hd, hf, ht, hr⟩ := s.raise_contexts i c
  obtain ⟨oe, od, of, ot⟩ := State.spoil_other i c s
  refine ⟨by simp [State.SameHost], ⟨s.args.dstLen, by simp⟩, fun a ha => s.raise_mem i c a fun _ => ha,
    fun ho a => s.raise_mem i c a ?_, fun hn => he.trans (oe hn), fun hn => hd.trans (od hn), fun hn => hf.trans (of hn),
    fun hn => ⟨ht.trans (ot hn).1, hr.trans (ot hn).2⟩⟩
  simp [writesDst_of_opensDst ho, hc ho]

/-- A success of a command without output changes no byte. -/
theorem State.complete_silent {i : Instr} (hw : writesDst i = false) (s : State) (n : Nat) : (s.complete i [] n).mem = s.mem := by
  simp only [State.complete, State.blur_mem_of_not_writes _ _ hw, State.setCompleted_mem, Memory.write_nil]

/-- A success. -/
theorem State.complete_endFrame {i : Instr} {s : State} {d : Done} (hd : d.Spec i s s.snapshot) :
    s.EndFrame i ((d.commit s).complete i d.out d.result) := by
  obtain ⟨hsnap, -⟩ := hd.commit
  obtain ⟨hk, ce, cd, cf, ct, hroom, -, hsilent⟩ := hd
  refine ⟨?_, ⟨BitVec.ofNat 32 (s.snapshot.dstLen.toNat + d.out.length), ?_⟩, fun a ha => ?_, fun ho a => ?_, ?_, ?_, ?_, ?_⟩
  · simp [State.SameHost, hk.cfg, hk.irqEn, hk.host, hk.turns, hk.rdata]
  · simp [hk.args, hsnap]
  · rw [State.complete_mem _ _ _ _ _ (hsnap ▸ ha) (hsnap ▸ hroom), hk.mem]
  · have hw := writesDst_of_opensDst ho
    rw [hsilent hw, State.complete_silent hw, hk.mem]
  · simpa using ce
  · simpa using cd
  · simpa using cf
  · simpa using ct

/-- Any outcome, over memory with read side effects. -/
theorem State.anyOutcome_endFrame (i : Instr) (s : State) : s.EndFrame i (s.anyOutcome i) := by
  obtain ⟨hs, hm, he, hd, hf, ht⟩ := State.anyOutcome_frame (i := i) (s := s) rfl
  refine ⟨?_, ⟨drawWord s.nonce 1, ?_⟩, fun a ha => hm a fun _ => ha, fun ho a => hm a fun h => absurd h (by simp [ho]),
    he, hd, hf, ht⟩
  · rw [hs]
    exact ⟨rfl, rfl, rfl, rfl, rfl⟩
  · rw [hs]

/-- The end of a body. -/
theorem State.finish_endFrame {i : Instr} {s t : State} {res : Except Stop Done} (h : s.finish i res = .next t)
    (herr : ∀ c, res = .error (.err c) → opensDst i = false → c.isUsage = true)
    (hok : ∀ d, res = .ok d → d.Spec i s s.snapshot) : s.EndFrame i t := by
  rcases State.finish_cases h with (rfl | ⟨c, hc, rfl⟩ | ⟨d, hd, -, rfl⟩) | ⟨-, rfl⟩
  · exact .of_engine (s.stick_eq i)
  · exact State.raise_endFrame (herr c hc)
  · exact State.complete_endFrame (hok d hd)
  · exact s.anyOutcome_endFrame i

/-- A command without a window has no errors but usage errors. -/
theorem bodyErrors_of_opensDst {i : Instr} (h : opensDst i = false) : bodyErrors i = [] := by
  cases i with
  | blkBound | sesEncReset | sesEncResetLinked | sesDecReset | sesDecResetLinked => rfl
  | token | lenext | offset | seq | last | magic | flg | bd | hc | blockwordLz4 | blockwordRaw | endMark => rfl
  | _ => exact absurd h (by decide)

/-- A whole command. -/
theorem exec_endFrame {i : Instr} {s t : State} (hi : i ∈ commands) (h : exec i s = .next t) : s.EndFrame i t := by
  rw [exec_command hi] at h
  cases hu : usageError i s s.snapshot with
  | some c =>
    rw [State.command_usage hu] at h
    cases h
    exact State.raise_endFrame fun _ => usageError_isUsage hu
  | none =>
    rw [State.command_body hu] at h
    refine State.finish_endFrame h (fun c hc ho => ?_) fun d hd => body_ok hd
    have hmem := body_errIn i s s.snapshot c hc
    rw [bodyErrors_of_opensDst ho] at hmem
    exact absurd hmem List.not_mem_nil

/-! ## On plain memory -/

/-- On plain memory a command that writes no destination changes no byte, unless it raises a codec or a format error. -/
theorem State.finish_sameMemory {i : Instr} {s t : State} {res : Except Stop Done} (h : s.finish i res = .next t)
    (hp : s.OnPlain i) (hw : writesDst i = false) (hc : ∀ c, t.lastError = some c → c.isUsage = true)
    (hok : ∀ d, res = .ok d → d.Spec i s s.snapshot) : s.SameMemory t := by
  rcases State.finish_cases h with (rfl | ⟨c, -, rfl⟩ | ⟨d, hd, -, rfl⟩) | ⟨hn, -⟩
  · exact fun a => by simp
  · exact fun a => s.raise_mem i c a (by simp [hw, hc c (by simp)])
  · have hs := hok d hd
    intro a
    rw [hs.silent hw, State.complete_silent hw, hs.keeps.mem]
  · exact absurd hp hn

theorem exec_sameMemory {i : Instr} {s t : State} (hi : i ∈ commands) (h : exec i s = .next t) (hp : s.OnPlain i)
    (hw : writesDst i = false) (hc : ∀ c, t.lastError = some c → c.isUsage = true) : s.SameMemory t := by
  rw [exec_command hi] at h
  cases hu : usageError i s s.snapshot with
  | some c =>
    rw [State.command_usage hu] at h
    cases h
    exact fun a => s.raise_mem i c a (by simp [hw, usageError_isUsage hu])
  | none =>
    rw [State.command_body hu] at h
    exact State.finish_sameMemory h hp hw hc fun d hd => body_ok hd

/-- On plain memory a command that writes no destination leaves DST_LEN as the register has it, or as its snapshot has. -/
theorem exec_dstLen {i : Instr} {s t : State} (hi : i ∈ commands) (h : exec i s = .next t) (hp : s.OnPlain i)
    (hw : writesDst i = false) : t.args.dstLen ∈ [s.args.dstLen, s.snapshot.dstLen] := by
  rcases exec_cases hi h with ⟨c, -, rfl⟩ | ⟨-, (rfl | ⟨c, -, rfl⟩ | ⟨d, hd, -, rfl⟩) | ⟨hn, -⟩⟩
  · simp
  · simp
  · simp
  · have hs := body_ok hd
    simp [hs.silent hw, hs.commit.1]
  · exact absurd hp hn

/-- The output of a success is shorter than the address space, so RESULT holds its length. -/
theorem Done.Spec.result_toNat {i : Instr} {s : State} {A : Args} {d : Done} (h : d.Spec i s A) (hw : writesDst i = true) :
    (BitVec.ofNat 32 d.result).toNat = d.out.length := by
  have hroom := h.room
  have hcap := A.dstCap.isLt
  unfold Args.room at hroom
  rw [h.result hw, BitVec.toNat_ofNat, Nat.mod_eq_of_lt (by omega)]

/-- On plain memory the success of a command with output, not raced: the output's length is RESULT, DST_LEN grows by it, and no byte
outside it changes. -/
theorem exec_success {i : Instr} {s t : State} (hi : i ∈ commands) (h : exec i s = .next t) (hs : t.Succeeded) (hr : s.raced = [])
    (hp : s.OnPlain i) (hw : writesDst i = true) :
    s.SameMemoryOutside t (s.snapshot.dstPoint, t.result.toNat) ∧ t.args.dstLen = s.snapshot.dstLen + t.result := by
  obtain ⟨hidle, hnone⟩ := hs
  rcases exec_ends_plain hi hp h hidle with ⟨c, -, rfl⟩ | ⟨-, d, -, -, hd, rfl⟩
  · exact absurd hnone (by simp)
  obtain ⟨hsnap, hraced⟩ := hd.commit
  rw [State.complete_calm (hraced.trans hr), hsnap]
  refine ⟨fun a ha => ?_, ?_⟩
  · simp only [Region.holds, decide_eq_false_iff_not, State.okState, State.okPlain, hd.result_toNat hw] at ha
    show Memory.read (Memory.write (d.commit s).mem s.snapshot.dstPoint d.out) a = _
    rw [Memory.read_write, if_neg ha, hd.keeps.mem]
  · show BitVec.ofNat 32 (s.snapshot.dstLen.toNat + d.out.length) = s.snapshot.dstLen + BitVec.ofNat 32 d.result
    rw [hd.result hw, BitVec.ofNat_add, BitVec.ofNat_toNat, BitVec.setWidth_eq]

/-- A completion sets DONE and DONE_IP (spec/30_encoding.md R83). -/
theorem exec_done {i : Instr} {s t : State} (hi : i ∈ commands) (h : exec i s = .next t) (ht : t.engine = .idle) :
    t.done = true ∧ t.irqPending = true := by
  rcases exec_ends hi h ht with (⟨c, -, rfl⟩ | ⟨-, d, -, -, -, rfl⟩) | ⟨-, -, rfl⟩
  · simp
  · simp
  · exact ⟨rfl, rfl⟩

/-- Settles O49: a command is stuck, raises, succeeds, or has any outcome over memory with read side effects. -/
theorem frameOfCommands : Obligations.FrameOfCommands := by
  rintro i s _ hi rfl
  obtain ⟨t, ht⟩ : ∃ t, exec i s = .next t := exec_command hi s ▸ s.command_next i (bodyOf i s)
  have hf := exec_endFrame hi ht
  have undone : t.engine ≠ .idle → t = { s with engine := t.engine } :=
    State.command_undone ((exec_command hi s).symm.trans ht)
  refine ⟨t, ht, undone, exec_done hi ht, hf.host, hf.args, hf.memory, fun hm => hf.silent ?_, ?_, fun hm hp => ?_,
    fun hs hr hp hm => ?_, hf.eses, hf.dses, hf.fenc, hf.fdec⟩
  · exact (by decide : ∀ j ∈ [Instr.blkBound, .sesEncReset, .sesEncResetLinked, .sesDecReset, .sesDecResetLinked],
      opensDst j = false) i hm
  · rintro rfl hp hc
    exact exec_sameMemory hi ht hp rfl hc
  · exact exec_dstLen hi ht hp ((by decide : ∀ j ∈ [Instr.blkBound, .sesEncReset, .sesEncResetLinked, .sesDecReset,
      .sesDecResetLinked, .fdecOpen], writesDst j = false) i hm)
  · exact exec_success hi ht hs hr hp ((by decide : ∀ j ∈ [Instr.blkEncode, .blkDecode, .sesEnc, .sesDec, .fencOpen, .fencWrite,
      .fencClose, .fdecRead, .fdecReadToEnd], writesDst j = true) i hm)

end Sys2Proof.Machine
end

section
/-! PROOF. How a wire element ends its command, and the frame of the wire elements (O50). -/

namespace Sys2Proof.Machine

/-! ## How an element ends its command -/

/-- The command `i` ends as a body of it does: with an error, stuck, or with an output that fits the destination window. -/
def State.EndsAs (s t : State) (i : Instr) : Prop :=
  ∃ res : Except Stop Done, s.finish i res = .next t ∧ ∀ d, res = .ok d → d.Spec i s s.snapshot

theorem State.EndsAs.of_error {s t : State} {i : Instr} {e : Stop} (h : s.finish i (.error e) = .next t) : s.EndsAs t i :=
  ⟨_, h, fun _ hd => absurd hd (by simp)⟩

theorem State.EndsAs.of_ok {s t : State} {i : Instr} {d : Done} (h : s.finish i (.ok d) = .next t) (hd : d.Spec i s s.snapshot) :
    s.EndsAs t i :=
  ⟨_, h, fun _ he => Except.ok.inj he ▸ hd⟩

theorem blkDecodeDone_spec {s : State} {A : Args} {out : Bytes} (h : out.length ≤ A.room) :
    (blkDecodeDone out).Spec .blkDecode s A :=
  ⟨⟨rfl, rfl, rfl, rfl, rfl, rfl, rfl, rfl, rfl⟩, fun _ => rfl, fun _ => rfl, fun _ => rfl, fun _ => ⟨rfl, rfl⟩, h, fun _ => rfl,
    fun hw => absurd hw (by decide)⟩

theorem sesDecDone_spec {s : State} {A : Args} {out : Bytes} (h : out.length ≤ A.room) : (sesDecDone out).Spec .sesDec s A :=
  ⟨⟨rfl, rfl, rfl, rfl, rfl, rfl, rfl, rfl, rfl⟩, fun _ => rfl, fun hn => absurd (by simp) hn, fun _ => rfl, fun _ => ⟨rfl, rfl⟩, h,
    fun _ => rfl, fun hw => absurd hw (by decide)⟩

theorem fdecOpenDone_spec (s : State) (A : Args) (t : Fdec) : (fdecOpenDone t).Spec .fdecOpen s A :=
  ⟨⟨rfl, rfl, rfl, rfl, rfl, rfl, rfl, rfl, rfl⟩, fun _ => rfl, fun _ => rfl, fun _ => rfl, fun hn => absurd (by simp) hn,
    Nat.zero_le _, fun hw => absurd hw (by decide), fun _ => rfl⟩

theorem fdecReadDone_spec {s : State} {A : Args} {rd : Reader} (h : rd.out.length ≤ A.room) : (fdecReadDone rd).Spec .fdecRead s A :=
  ⟨⟨rfl, rfl, rfl, rfl, rfl, rfl, rfl, rfl, rfl⟩, fun _ => rfl, fun _ => rfl, fun _ => rfl, fun hn => absurd (by simp) hn, h,
    fun _ => rfl, fun hw => absurd hw (by decide)⟩

/-- What a wire element does: the command under way goes on, or it ends as the command whose elements these are. -/
inductive State.ElementEnds (s t : State) (r : Run) (i : Instr) : Prop where
  | goesOn (h : s.OnlyProgress t r)
  | block {use : BlockUse} {p : Parser} (hp : r.progress = .block use p) (hs : i.slot ∉ [Slot.magic, .flg, .bd, .hc, .record])
      (h : s.EndsAs t use.command)
  | header {hd : HeaderRun} (hp : r.progress = .header hd) (hs : i.slot ≠ .record) (h : s.EndsAs t .fdecOpen)
  | record {rd : Reader} (hp : r.progress = .record rd) (hs : i.slot = .record) (h : s.EndsAs t .fdecRead)

/-- An element of a header, given how it ends the command. -/
theorem State.inHeader_ends {s t : State} {r : Run} (he : s.engine = .running r) {i : Instr} (hs : i.slot ≠ .record)
    {ph : HeaderPhase} {f : Run → Fdec → Host.Outcome State Fault Refusal}
    (hf : ∀ u, f r u = .next t → s.OnlyProgress t r ∨ s.EndsAs t .fdecOpen) (ht : s.inHeader ph f = .next t) :
    s.ElementEnds t r i := by
  obtain ⟨r', hd, he', hp, -, hx⟩ := State.inHeader_cases ht
  obtain rfl : r = r' := by simpa [he] using he'
  exact (hf _ hx).elim .goesOn (.header hp hs)

section
variable {s : State} (h : s.Inv) {r : Run} (he : s.engine = .running r)
include h he

theorem State.Inv.snapshot_running : s.snapshot = r.args := by
  obtain ⟨hr, -, -, hsnap, -⟩ := h.running he
  exact hsnap.trans hr.snapshot.symm

theorem State.afterRecord_ends {t : State} {rd : Reader} (hout : rd.out.length ≤ rd.cap) (hcap : rd.cap = r.args.room)
    (ht : s.afterRecord r rd = .next t) : s.OnlyProgress t r ∨ s.EndsAs t .fdecRead := by
  unfold State.afterRecord at ht
  split at ht
  · exact .inr (.of_error ht)
  · rename_i rd' hd
    obtain ⟨hout', hcap', -⟩ := Reader.deliver_within hd hout
    split at ht
    · refine .inr (.of_ok ht (fdecReadDone_spec ?_))
      rwa [h.snapshot_running he, ← hcap, ← hcap']
    · exact .inl ⟨_, (Host.Outcome.next.inj ht).symm⟩

theorem State.afterParse_ends {t : State} {use : BlockUse} {p : Parser} {x : Parse} (hp : r.progress = .block use p)
    (hx : x.Ok p.cap) (ht : s.afterParse r use x = .next t) : s.OnlyProgress t r ∨ s.EndsAs t use.command := by
  obtain ⟨hr, -⟩ := h.running he
  have hok := hr.progress
  have hbd := hr.bounded
  rw [hp] at hok hbd
  cases x with
  | more q =>
    rw [State.afterParse_more] at ht
    exact .inl ⟨_, (Host.Outcome.next.inj ht).symm⟩
  | fail c =>
    rw [State.afterParse_fail] at ht
    exact .inr (.of_error ht)
  | done out =>
    cases use with
    | block => exact .inr (.of_ok ht (blkDecodeDone_spec (h.snapshot_running he ▸ hbd ▸ hx)))
    | session => exact .inr (.of_ok ht (sesDecDone_spec (h.snapshot_running he ▸ hbd ▸ hx)))
    | frame rd next =>
      obtain ⟨-, hrd, -⟩ := hok
      exact State.afterRecord_ends h he (rd := { rd with t := rd.t.accept out next }) hrd.out hbd ht

/-- An element of a block, where its effect keeps the parser within its bounds. -/
theorem State.inBlock_ends {t : State} {i : Instr} (hs : i.slot ∉ [Slot.magic, .flg, .bd, .hc, .record])
    {phases : List ParserPhase} {f : Parser → Parse} (hf : ∀ p : Parser, p.Ok → (f p).Ok p.cap)
    (ht : s.inBlock phases f = .next t) : s.ElementEnds t r i := by
  obtain ⟨r', use, p, he', hp, -, hx⟩ := State.inBlock_cases ht
  obtain rfl : r = r' := by simpa [he] using he'
  have hok := (h.running he).1.progress
  rw [hp] at hok
  exact (State.afterParse_ends h he hp (hf p hok.1) hx).elim .goesOn (.block hp hs)

/-- A record word, given how it ends the read. -/
theorem State.inRecord_ends {t : State} {i : Instr} (hs : i.slot = .record)
    {f : Run → Reader → Host.Outcome State Fault Refusal}
    (hf : ∀ rd : Reader, rd.out.length ≤ rd.cap → rd.cap = r.args.room → f r rd = .next t →
      s.OnlyProgress t r ∨ s.EndsAs t .fdecRead) (ht : s.inRecord f = .next t) : s.ElementEnds t r i := by
  obtain ⟨r', rd, he', hp, hx⟩ := State.inRecord_cases ht
  obtain rfl : r = r' := by simpa [he] using he'
  obtain ⟨hr, -⟩ := h.running he
  have hok := hr.progress
  have hbd := hr.bounded
  rw [hp] at hok hbd
  exact (hf rd hok.out hbd hx).elim .goesOn (.record hp hs)

/-- Everything a wire element can do in a state that meets the invariant, which bounds the output under way. -/
theorem element_ends {i : Instr} {t : State} (hi : i ∉ commands) (ht : exec i s = .next t) : s.ElementEnds t r i := by
  cases i with
  | token ll ml => exact State.inBlock_ends h he (by simp [Instr.slot]) (fun p hp => hp.token ll ml) ht
  | lenext ffs final =>
    refine State.inBlock_ends h he (by simp [Instr.slot]) (fun p hp => ?_) ht
    split
    · apply Parser.literals_ok
      exacts [rfl, hp.hist, hp.drop_rest _]
    · apply Parser.copy_ok
      exacts [rfl, hp.hist, hp.drop_rest _]
  | offset off => exact State.inBlock_ends h he (by simp [Instr.slot]) (fun p hp => hp.offset off) ht
  | seq lit off len => exact State.inBlock_ends h he (by simp [Instr.slot]) (fun p hp => hp.seq lit off len) ht
  | last lit => exact State.inBlock_ends h he (by simp [Instr.slot]) (fun p _ => p.last_ok lit) ht
  | magic | flg =>
    simp only [exec, execMagic, execFlg] at ht
    exact State.inHeader_ends he (by simp [Instr.slot]) (fun u hx => .inl ⟨_, (Host.Outcome.next.inj hx).symm⟩) ht
  | bd id =>
    simp only [exec, execBd] at ht
    refine State.inHeader_ends he (by simp [Instr.slot]) (fun u hx => ?_) ht
    split at hx
    · exact .inr (.of_error hx)
    · exact .inl ⟨_, (Host.Outcome.next.inj hx).symm⟩
  | hc sum =>
    simp only [exec, execHc] at ht
    refine State.inHeader_ends he (by simp [Instr.slot]) (fun u hx => .inr ⟨_, hx, fun d hd => ?_⟩) ht
    obtain ⟨v, -, rfl⟩ := map_ok hd
    exact fdecOpenDone_spec s _ v
  | blockwordLz4 size =>
    refine State.inRecord_ends h he rfl (fun rd _ _ hx => ?_) ht
    split at hx
    · exact .inr (.of_error hx)
    · exact .inl ⟨_, (Host.Outcome.next.inj hx).symm⟩
  | blockwordRaw | endMark =>
    refine State.inRecord_ends h he rfl (fun rd hout hcap hx => ?_) ht
    split at hx
    · exact .inr (.of_error hx)
    · rename_i u _
      exact State.afterRecord_ends h he (rd := { rd with t := u }) hout hcap hx
  | _ => exact absurd (mem_commands.mpr rfl) hi

end

/-! ## The frame of the elements -/

/-- On plain memory a read leaves the `FDEC_*` registers as they are, but for the cursor (spec/10_state.md R39). -/
theorem State.ReadEnds.fregs {s t : State} (h : s.ReadEnds t) (hp : s.OnPlain .fdecRead) :
    t.fregs = { s.fregs with srcPos := t.fregs.srcPos } := by
  obtain ⟨res, h⟩ := h
  rcases State.finish_cases h with (rfl | ⟨c, -, rfl⟩ | ⟨d, hd, -, rfl⟩) | ⟨hn, -⟩
  · simp
  · have hr : (s.raise .fdecRead c).fregs = s.fregs := by
      rw [(s.raise_contexts .fdecRead c).2.2.2.2, State.spoil]
      split <;> rfl
    rw [hr]
  · obtain ⟨rd, -, rfl⟩ := map_ok hd
    simp [fdecReadDone]
  · exact absurd hp hn

/-- So does a record word of it. -/
theorem recordWord_fregs {i : Instr} {s t : State} {r : Run} {rd : Reader} (hi : i ∉ commands) (he : s.engine = .running r)
    (hp : r.progress = .record rd) (ht : exec i s = .next t) (hpl : s.OnPlain .fdecRead) :
    t.fregs = { s.fregs with srcPos := t.fregs.srcPos } := by
  obtain ⟨r', he', hx⟩ := element_cases hi ht
  obtain rfl : r = r' := by simpa [he] using he'
  rcases hx with ⟨use, p, hp', -⟩ | ⟨hd, hp', -⟩ | ⟨rd', -, -, ⟨q, rfl⟩ | hend⟩
  · exact absurd (hp.symm.trans hp') (by simp)
  · exact absurd (hp.symm.trans hp') (by simp)
  · rfl
  · exact hend.fregs hpl

/-- The commands that decode a block write their output. -/
theorem BlockUse.command_opensDst (use : BlockUse) : opensDst use.command = true := by cases use <;> rfl

/-- Settles O50: while the command goes on only its progress changes, and an element that ends the command leaves what that command
leaves. -/
theorem frameOfWireElements : Obligations.FrameOfWireElements := by
  intro i s t r hi h he ht
  have hsnap := h.snapshot_running he
  rcases element_ends h he hi ht with ⟨q, rfl⟩ | ⟨hp, hslot, res, hx, hok⟩ | ⟨hp, hslot, res, hx, hok⟩ | ⟨hp, hslot, res, hx, hok⟩
  · exact ⟨fun _ => rfl, ⟨rfl, rfl, rfl, rfl, rfl⟩, ⟨_, rfl⟩, rfl, rfl, fun _ _ => rfl, fun _ _ _ => ⟨fun _ => rfl, fun _ => ⟨rfl, rfl⟩⟩,
      fun _ => ⟨rfl, fun _ _ _ => rfl⟩, fun _ => ⟨rfl, fun _ => rfl⟩⟩
  · rename_i use p
    have hf : s.EndFrame use.command t :=
      State.finish_endFrame hx (fun _ _ ho => absurd (use.command_opensDst.symm.trans ho) (by simp)) hok
    refine ⟨State.finish_undone hx, hf.host, hf.args, hf.eses (by cases use <;> simp [BlockUse.command]),
      hf.fenc (by cases use <;> simp [BlockUse.command]), hsnap ▸ hf.memory, fun use' p' hp' => ?_,
      fun hs => absurd (List.mem_append_left [Slot.record] hs) hslot, fun hs => absurd (by simp [hs]) hslot⟩
    cases hp.symm.trans hp'
    refine ⟨fun hne => hf.dses ?_, fun hu => hf.fdec ?_⟩
    · cases use <;> simp [BlockUse.command] at hne ⊢
    · rcases hu with rfl | rfl <;> decide
  · have hf : s.EndFrame .fdecOpen t := State.finish_endFrame hx (fun _ _ ho => absurd ho (by decide)) hok
    refine ⟨State.finish_undone hx, hf.host, hf.args, hf.eses (by decide), hf.fenc (by decide), hsnap ▸ hf.memory,
      fun use' p' hp' => absurd (hp.symm.trans hp') (by simp), fun _ => ⟨hf.dses (by decide), fun hpl hnone => ?_⟩,
      fun hs => absurd hs hslot⟩
    exact State.finish_sameMemory hx hpl rfl (fun c hc => absurd (hnone.symm.trans hc) (by simp)) hok
  · have hf : s.EndFrame .fdecRead t := State.finish_endFrame hx (fun _ _ ho => absurd ho (by decide)) hok
    exact ⟨State.finish_undone hx, hf.host, hf.args, hf.eses (by decide), hf.fenc (by decide), hsnap ▸ hf.memory,
      fun use' p' hp' => absurd (hp.symm.trans hp') (by simp), fun hs => absurd hs (by rw [hslot]; decide),
      fun _ => ⟨hf.dses (by decide), recordWord_fregs hi he hp ht⟩⟩

end Sys2Proof.Machine
end

section
/-! PROOF. Two memory maps of one platform: past its usage checks a command's body gives the same under both, unless one of them makes
it stuck. -/

namespace Sys2Proof.Machine

/-! ## Bodies that agree -/

/-- One of two bodies is stuck, or they are equal. -/
def Agree {α : Type} (x y : Except Stop α) : Prop := x = .error .stuck ∨ y = .error .stuck ∨ x = y

theorem Agree.of_eq {α : Type} {x y : Except Stop α} (h : x = y) : Agree x y := .inr (.inr h)

theorem Agree.rfl {α : Type} {x : Except Stop α} : Agree x x := .of_eq (Eq.refl x)

theorem Agree.bind {α β : Type} {x y : Except Stop α} {f g : α → Except Stop β} (hx : Agree x y) (hf : ∀ a, Agree (f a) (g a)) :
    Agree (x >>= f) (y >>= g) := by
  rcases hx with hx | hy | rfl
  · exact .inl (by rw [hx]; exact Eq.refl _)
  · exact .inr (.inl (by rw [hy]; exact Eq.refl _))
  · cases x with
    | error e => exact .rfl
    | ok a => exact hf a

theorem Agree.ite {α : Type} {p : Prop} [Decidable p] {x y x' y' : Except Stop α} (hx : Agree x y) (hx' : Agree x' y') :
    Agree (if p then x else x') (if p then y else y') := by
  by_cases h : p
  · rwa [if_pos h, if_pos h]
  · rwa [if_neg h, if_neg h]

/-! ## Another map of the platform -/

/-- The state in a platform with other unmapped regions and another place of the register window. -/
def State.remap (s : State) (holes : List (Nat × Nat)) (base : Nat) : State :=
  { s with cfg := { s.cfg with holes := holes, csrBase := base } }

/-- The encoder does not depend on the map. -/
theorem emitBlocks_remap (s : State) (holes : List (Nat × Nat)) (base : Nat) (f : Fenc) (k : Nat) : ∀ buf w : Bytes,
    emitBlocks (s.remap holes base).cfg f k buf w = emitBlocks s.cfg f k buf w := by
  induction k with
  | zero => exact fun _ _ => rfl
  | succ k ih =>
    intro buf w
    unfold emitBlocks
    dsimp only
    rw [ih]
    rfl

section
variable (s : State) (holes : List (Nat × Nat)) (base : Nat)

theorem memRead_agree (use : Nat) (r : Region) (a n : Nat) : Agree (s.memRead use r a n) ((s.remap holes base).memRead use r a n) := by
  by_cases h : accessible s.cfg r a n = true
  · by_cases h' : accessible (s.remap holes base).cfg r a n = true
    · exact .of_eq ((if_pos h).trans (if_pos h').symm)
    · exact .inr (.inl (if_neg h'))
  · exact .inl (if_neg h)

theorem readFrame_agree (use : Nat) (t : Fdec) (i n : Nat) : Agree (s.readFrame use t i n) ((s.remap holes base).readFrame use t i n) :=
  memRead_agree s holes base use _ _ _

theorem parseHeader_agree (t : Fdec) : Agree (parseHeader s t) (parseHeader (s.remap holes base) t) := by
  have read := readFrame_agree s holes base
  refine .bind (.ite .rfl (.bind (read ..) fun m => .rfl)) fun _ => .bind (.ite .rfl (.bind (read ..) fun fb => .rfl)) fun u =>
    .bind (.ite .rfl (read ..)) fun sum => .bind (read ..) fun desc => .ite (.bind (read ..) fun opt => .rfl) .rfl

theorem recordPayload_agree (t : Fdec) (size : Nat) : Agree (recordPayload s t size) (recordPayload (s.remap holes base) t size) := by
  have read := readFrame_agree s holes base
  exact .ite .rfl (.ite .rfl (.bind (read ..) fun payload => .ite (.bind (read ..) fun sum => .rfl) .rfl))

theorem endOfFrame_agree (t : Fdec) : Agree (endOfFrame s t) (endOfFrame (s.remap holes base) t) :=
  .bind (.ite (.ite .rfl (.bind (readFrame_agree s holes base ..) fun _ => .rfl)) .rfl) fun _ => .rfl

theorem nextRecord_agree (t : Fdec) : Agree (nextRecord s t) (nextRecord (s.remap holes base) t) :=
  .bind (.ite .rfl (.bind (readFrame_agree s holes base ..) fun _ => .rfl)) fun _ =>
    .ite (endOfFrame_agree s holes base t)
      (.ite (.bind (recordPayload_agree s holes base t _) fun _ => .rfl) (.bind (recordPayload_agree s holes base t _) fun _ => .rfl))

theorem readLoop_agree (n : Nat) : ∀ rd : Reader, Agree (readLoop s n rd) (readLoop (s.remap holes base) n rd) := by
  induction n with
  | zero => exact fun _ => .rfl
  | succ n ih => exact fun rd => .bind .rfl fun rd' => .ite .rfl (.bind (nextRecord_agree s holes base rd'.t) fun t => ih _)

/-- The body of a command under two maps. -/
theorem body_agree (i : Instr) (A : Args) : Agree (bodyOf i s A) (bodyOf i (s.remap holes base) A) := by
  have read := memRead_agree s holes base
  cases i with
  | blkBound | fencClose => exact .rfl
  | blkEncode => exact .ite .rfl (.bind (read ..) fun x => .bind (read ..) fun d => .rfl)
  | blkDecode => exact .bind (.bind (read ..) fun x => .bind (read ..) fun d => .rfl) fun p => .rfl
  | sesEncReset | sesEncResetLinked | sesDecReset | sesDecResetLinked | fencOpen => exact .bind (read ..) fun d => .rfl
  | sesEnc => exact .ite .rfl (.bind (read ..) fun x => .rfl)
  | sesDec => exact .bind (.bind (read ..) fun x => .rfl) fun p => .rfl
  | fencWrite =>
    refine .bind (read ..) fun x => .of_eq ?_
    dsimp only
    rw [emitBlocks_remap]
    rfl
  | fdecOpen => exact .bind (read ..) fun d => .bind (parseHeader_agree s holes base _) fun t => .rfl
  | fdecRead | fdecReadToEnd => exact .bind (readLoop_agree s holes base _ _) fun rd => .rfl
  | token | lenext | offset | seq | last | magic | flg | bd | hc | blockwordLz4 | blockwordRaw | endMark => exact .rfl

end

end Sys2Proof.Machine
end

section
/-! PROOF. A command that touches memory that is not there is stuck (O19). -/

namespace Sys2Proof.Machine

/-! ## Stuck reads and stuck bodies -/

theorem State.memRead_stuck {s : State} {r : Region} {a n : Nat} (h : accessible s.cfg r a n = false) (use : Nat) :
    s.memRead use r a n = .error .stuck := by
  simp [State.memRead, h]

/-- A body that starts with a read is stuck where it is stuck after every successful read. -/
theorem State.memRead_bind_stuck {β : Type} {s : State} {use : Nat} {r : Region} {a n : Nat} {f : Bytes → Except Stop β}
    (h : ∀ x, accessible s.cfg r a n = true → s.memRead use r a n = .ok x → f x = .error .stuck) :
    (s.memRead use r a n >>= f) = .error .stuck := by
  cases hx : s.memRead use r a n with
  | error e => rw [State.memRead_error hx]; rfl
  | ok x => exact h x (State.memRead_ok hx).1 hx

theorem bind_stuck {α β : Type} {x : Except Stop α} (h : x = .error .stuck) (f : α → Except Stop β) : (x >>= f) = .error .stuck := by
  rw [h]
  rfl

/-- Two accessible runs side by side are one. -/
theorem accessible_append {c : Config} {r : Region} {a m n : Nat} (h1 : accessible c r a m = true)
    (h2 : accessible c r (a + m) n = true) : accessible c r a (m + n) = true := by
  simp only [accessible, backs, Bool.and_eq_true, Bool.not_eq_true', List.any_eq_false, Bool.not_eq_true] at *
  obtain ⟨⟨-, apart1⟩, hcsr⟩ := h1
  obtain ⟨⟨fits2, apart2⟩, -⟩ := h2
  refine ⟨⟨?_, fun w hw => ?_⟩, hcsr⟩
  · rw [Region.fits_iff] at *
    omega
  · have := apart1 w hw
    have := apart2 w hw
    simp only [Region.meets, decide_eq_false_iff_not] at *
    omega

theorem State.stick_sticks (s : State) (i : Instr) : s.Sticks (.next (s.stick i)) := by
  obtain ⟨r, hr⟩ := s.stick_engine i
  exact ⟨r, congrArg _ (hr ▸ s.stick_eq i)⟩

/-- An output that no memory takes. -/
theorem State.finish_untaken {s : State} {d : Done} (h : ¬s.takes d.out) (i : Instr) : s.finish i (.ok d) = .next (s.stick i) :=
  if_neg h

theorem State.finish_stuck (s : State) (i : Instr) : s.Sticks (s.finish i (.error .stuck)) := s.stick_sticks i

/-- A command whose body is stuck. -/
theorem exec_sticks {i : Instr} {s : State} (hi : i ∈ commands) (hu : usageError i s s.snapshot = none)
    (hb : bodyOf i s s.snapshot = .error .stuck) : s.Sticks (exec i s) := by
  rw [exec_command hi, State.command_body hu, hb]
  exact s.finish_stuck i

/-! ## A source or a dictionary that is not all memory -/

section
variable {s : State} {A : Args}

theorem body_stuck_of_src (h : accessible s.cfg A.src A.srcAddr.toNat A.srcLen.toNat = false) {i : Instr}
    (hi : i ∈ [Instr.blkDecode, .sesDec, .fencWrite] ∨ i ∈ [Instr.blkEncode, .sesEnc] ∧ A.srcLen.toNat ≤ maxInput) :
    i ∈ commands ∧ bodyOf i s A = .error .stuck := by
  have src : s.readSrc A = .error .stuck := State.memRead_stuck h useSrc
  simp only [List.mem_cons, List.not_mem_nil, or_false] at hi
  rcases hi with (rfl | rfl | rfl) | ⟨rfl | rfl, hle⟩
  · exact ⟨by decide, bind_stuck (bind_stuck src _) _⟩
  · exact ⟨by decide, bind_stuck (bind_stuck src _) _⟩
  · exact ⟨by decide, bind_stuck src _⟩
  · exact ⟨by decide, (if_neg (Nat.not_lt.mpr hle)).trans (bind_stuck src _)⟩
  · exact ⟨by decide, (if_neg (Nat.not_lt.mpr hle)).trans (bind_stuck src _)⟩

theorem body_stuck_of_dict
    (h : accessible s.cfg A.dict (A.dictAddr.toNat + (A.dictLen.toNat - winSize)) (min A.dictLen.toNat winSize) = false) {i : Instr}
    (hi : i ∈ [Instr.blkDecode, .sesEncReset, .sesEncResetLinked, .sesDecReset, .sesDecResetLinked, .fencOpen, .fdecOpen] ∨
      i = .blkEncode ∧ A.srcLen.toNat ≤ maxInput) : i ∈ commands ∧ bodyOf i s A = .error .stuck := by
  have dict : s.readDict A = .error .stuck := State.memRead_stuck h useDict
  simp only [List.mem_cons, List.not_mem_nil, or_false] at hi
  rcases hi with (rfl | rfl | rfl | rfl | rfl | rfl | rfl) | ⟨rfl, hle⟩
  · exact ⟨by decide, bind_stuck (State.memRead_bind_stuck fun _ _ _ => bind_stuck dict _) _⟩
  · exact ⟨by decide, bind_stuck dict _⟩
  · exact ⟨by decide, bind_stuck dict _⟩
  · exact ⟨by decide, bind_stuck dict _⟩
  · exact ⟨by decide, bind_stuck dict _⟩
  · exact ⟨by decide, bind_stuck dict _⟩
  · exact ⟨by decide, bind_stuck dict _⟩
  · exact ⟨by decide, (if_neg (Nat.not_lt.mpr hle)).trans (State.memRead_bind_stuck fun _ _ _ => bind_stuck dict _)⟩

end

/-! ## A frame header that is not all memory -/

section
variable {s : State} {t : Fdec}

theorem headerMagic_stuck (hlen : 4 ≤ t.len) (h : accessible s.cfg (s.frameRegion t) t.base 4 = false) :
    headerMagic s t = .error .stuck :=
  (if_neg (Nat.not_lt.mpr hlen)).trans (bind_stuck (State.memRead_stuck h useFrame) _)

/-- `FDEC_OPEN` reads the dictionary, then the header. -/
theorem fdecOpen_stuck {A : Args} (h : ∀ d, parseHeader s (Fdec.awaiting A d) = .error .stuck) :
    bodyOf .fdecOpen s A = .error .stuck :=
  State.memRead_bind_stuck fun d _ _ => bind_stuck (h d) _

/-- Past FLG and BD the parser reads the last byte of the header, and the descriptor before it. -/
theorem headerSum_stuck (hlen : headerLength t.flg ≤ t.len) (h4 : accessible s.cfg (s.frameRegion t) t.base 4 = true)
    (h : accessible s.cfg (s.frameRegion t) t.base (headerLength t.flg) = false) :
    (headerSumByte s t >>= fun sum => headerSum s t (sum.getD 0 0)) = .error .stuck := by
  have h7 : 7 ≤ headerLength t.flg := by
    unfold headerLength
    omega
  have hsum : headerSumByte s t = s.memRead useFrame (s.frameRegion t) (t.base + (headerLength t.flg - 1)) 1 :=
    if_neg (Nat.not_lt.mpr hlen)
  rw [hsum]
  refine State.memRead_bind_stuck fun sum hlast _ => State.memRead_bind_stuck fun desc hdesc _ => ?_
  rw [show headerLength t.flg - 1 = 4 + (headerLength t.flg - 5) by omega] at hlast
  have hall := accessible_append (accessible_append h4 hdesc) hlast
  rw [show 4 + (headerLength t.flg - 5) + 1 = headerLength t.flg by omega, h] at hall
  exact absurd hall (by simp)

variable (hs : s.Calm) (hp : s.Plain (s.frameRegion t)) (hm : Memory.bytes s.mem t.base 4 = [0x04, 0x22, 0x4D, 0x18])
include hs hp hm

/-- The header parser where the magic is right: it is stuck on the magic's bytes, or reads on. -/
theorem parseHeader_stuck_of_headerBytes (hlen : 4 ≤ t.len)
    (h : accessible s.cfg (s.frameRegion t) t.base 4 = true → (headerBytes s t >>= fun u =>
      headerSumByte s u >>= fun sum => headerSum s u (sum.getD 0 0)) = .error .stuck) : parseHeader s t = .error .stuck := by
  cases h4 : accessible s.cfg (s.frameRegion t) t.base 4 with
  | false => exact bind_stuck (headerMagic_stuck hlen h4) _
  | true =>
    have hmagic : headerMagic s t = .ok () := by
      have hread : s.readFrame useFrame t 0 4 = .ok (encode .magic) := (State.memRead_calm hs h4 hp useFrame).trans (congrArg _ hm)
      exact (if_neg (Nat.not_lt.mpr hlen)).trans (by rw [hread]; rfl)
    rw [parseHeader, hmagic]
    exact h h4

/-- FLG or BD is not memory. -/
theorem parseHeader_stuck_six (hlen : 6 ≤ t.len) (h : accessible s.cfg (s.frameRegion t) t.base 6 = false) :
    parseHeader s t = .error .stuck := by
  refine parseHeader_stuck_of_headerBytes hs hp hm (by omega) fun h4 => bind_stuck ?_ _
  refine (if_neg (Nat.not_lt.mpr hlen)).trans (State.memRead_bind_stuck fun fb h2 _ => ?_)
  exact absurd (accessible_append h4 h2) (by simp [h])

/-- A byte of the header after a legal FLG and BD is not memory. -/
theorem parseHeader_stuck_header {flg bd : Byte} (hb : Memory.bytes s.mem (t.base + 4) 2 = [flg, bd])
    (hok : HeaderBytesOk s.cfg flg bd) (hlen : headerLength flg ≤ t.len)
    (h : accessible s.cfg (s.frameRegion t) t.base (headerLength flg) = false) : parseHeader s t = .error .stuck := by
  have h7 : 7 ≤ headerLength flg := by
    unfold headerLength
    omega
  refine parseHeader_stuck_of_headerBytes hs hp hm (by omega) fun h4 => ?_
  cases h2 : accessible s.cfg (s.frameRegion t) (t.base + 4) 2 with
  | false => exact bind_stuck ((if_neg (by omega)).trans (bind_stuck (State.memRead_stuck h2 useFrame) _)) _
  | true =>
    have hbytes : headerBytes s t = .ok { t with flg := flg, bd := bd } := by
      have hread : s.readFrame useFrame t 4 2 = .ok [flg, bd] := (State.memRead_calm hs h2 hp useFrame).trans (congrArg _ hb)
      refine (if_neg (by omega)).trans ?_
      rw [hread]
      exact if_pos ((headerLegal_iff ..).mpr hok)
    rw [hbytes]
    exact headerSum_stuck (t := { t with flg := flg, bd := bd }) hlen h4 h

end

/-! ## A record that is not all memory -/

section
variable {s : State} {t : Fdec}

theorem nextRecord_stuck (hlen : t.pos + 4 ≤ t.len) (h : accessible s.cfg (s.frameRegion t) (t.base + t.pos) 4 = false) :
    nextRecord s t = .error .stuck :=
  bind_stuck ((if_neg (Nat.not_lt.mpr hlen)).trans (bind_stuck (State.memRead_stuck h useFrame) _)) _

theorem recordPayload_stuck {size : Nat} (hbs : size ≤ t.bs)
    (hlen : t.pos + 4 + size + (if t.flg.getLsbD 4 then 4 else 0) ≤ t.len)
    (h : accessible s.cfg (s.frameRegion t) (t.base + (t.pos + 4)) size = false ∨
      t.flg.getLsbD 4 = true ∧ accessible s.cfg (s.frameRegion t) (t.base + (t.pos + 4 + size)) 4 = false) :
    recordPayload s t size = .error .stuck := by
  refine (if_neg (Nat.not_lt.mpr hbs)).trans ((if_neg (Nat.not_lt.mpr hlen)).trans (State.memRead_bind_stuck fun payload hpay _ => ?_))
  rcases h with h | ⟨hc, h⟩
  · exact absurd hpay (by simp [h])
  · exact (if_pos hc).trans (bind_stuck (State.memRead_stuck h useFrame) _)

theorem endOfFrame_stuck (hc : t.flg.getLsbD 2 = true) (hlen : t.pos + 8 ≤ t.len)
    (h : accessible s.cfg (s.frameRegion t) (t.base + (t.pos + 4)) 4 = false) : endOfFrame s t = .error .stuck :=
  bind_stuck ((if_pos hc).trans ((if_neg (Nat.not_lt.mpr hlen)).trans (bind_stuck (State.memRead_stuck h useFrame) _))) _

/-- A delivery that fits the destination. -/
theorem Reader.deliver_fits {rd : Reader} (h : rd.out.length + rd.due ≤ rd.cap) : rd.deliver =
    .ok { rd with out := rd.out ++ rd.t.pend.take rd.due, t := { rd.t with pend := rd.t.pend.drop rd.due } } := by
  unfold Reader.deliver
  split
  · rename_i h0
    simp [h0]
  · exact if_neg (Nat.not_lt.mpr h)

/-- A read that wants more than the pending bytes, which fit, comes to the next record. -/
theorem fdecReadBody_stuck {A : Args} {toEnd : Bool} (hw : toEnd = true ∨ s.fdec.pend.length < A.readLen.toNat)
    (hst : s.fdec.st = .readingBlocks) (hroom : s.fdec.pend.length ≤ A.room) (hlen : s.fdec.pos + 4 ≤ s.fdec.len)
    (h : accessible s.cfg (s.frameRegion s.fdec) (s.fdec.base + s.fdec.pos) 4 = false) :
    fdecReadBody toEnd s A = .error .stuck := by
  have hdue : (Reader.start s A toEnd).due = s.fdec.pend.length := by
    cases toEnd with
    | true => rfl
    | false =>
      show min (A.readLen.toNat - 0) s.fdec.pend.length = _
      have := hw.resolve_left (by simp)
      omega
  have hdel := Reader.deliver_fits (rd := Reader.start s A toEnd) (by
    rw [hdue]
    simpa [Reader.start] using hroom)
  refine bind_stuck ?_ _
  show ((Reader.start s A toEnd).deliver >>= _) = _
  rw [hdel, hdue]
  have hnext : nextRecord s { s.fdec with pend := s.fdec.pend.drop s.fdec.pend.length } = .error .stuck := nextRecord_stuck hlen h
  refine (if_neg ?_).trans (bind_stuck hnext _)
  cases toEnd with
  | true => simp [Reader.enough, Reader.start, hst]
  | false =>
    have := hw.resolve_left (by simp)
    simp [Reader.enough, Reader.start, hst]
    omega

end

section
variable {s : State} {r : Run} {rd : Reader} (he : s.engine = .running r) (hp : r.progress = .record rd)
include he hp

theorem exec_blockword_sticks {size : BitVec 31} {i : Instr} (hi : i = .blockwordLz4 size ∨ i = .blockwordRaw size)
    (h : recordPayload s rd.t size.toNat = .error .stuck) : s.Sticks (exec i s) := by
  rcases hi with rfl | rfl
  · simp only [exec, execBlockwordLz4, State.inRecord_at he hp, h]
    exact s.finish_stuck _
  · simp only [exec, execBlockwordRaw, State.inRecord_at he hp, rawRecord, bind_stuck h]
    exact s.finish_stuck _

theorem exec_endMark_sticks (h : endOfFrame s rd.t = .error .stuck) : s.Sticks (exec .endMark s) := by
  simp only [exec, execEndMark, State.inRecord_at he hp, h]
  exact s.finish_stuck _

end

/-! ## An output that is not all memory -/

/-- A command that succeeds with output under another map is stuck where its output is not all memory. -/
theorem exec_sticks_of_output {i : Instr} {s t : State} {holes : List (Nat × Nat)} {base : Nat} (hi : i ∈ commands)
    (hw : writesDst i = true) (h : exec i (s.remap holes base) = .next t) (hp : s.OnPlain i) (ht : t.Succeeded) (hne : t.result ≠ 0)
    (hacc : accessible s.cfg s.snapshot.window s.snapshot.dstPoint t.result.toNat = false) : s.Sticks (exec i s) := by
  obtain ⟨hidle, hnone⟩ := ht
  rcases exec_ends_plain (s := s.remap holes base) hi hp h hidle with ⟨c, -, rfl⟩ | ⟨hu, d, hd, -, hspec, rfl⟩
  · exact absurd hnone (by simp)
  replace hu : usageError i s s.snapshot = none := hu
  replace hd : bodyOf i (s.remap holes base) s.snapshot = .ok d := hd
  rcases body_agree s holes base i s.snapshot with hb | hb | hb
  · exact exec_sticks hi hu hb
  · exact absurd (hd.symm.trans hb) (by simp)
  · rw [exec_command hi, State.command_body hu, hb, hd]
    rw [State.complete_result] at hne hacc
    rw [hspec.result_toNat hw] at hacc
    refine State.finish_untaken (fun htakes => ?_) i ▸ s.stick_sticks i
    rcases htakes with hnil | htaken
    · exact hne (by rw [hspec.result hw, hnil]; rfl)
    · exact absurd htaken (by simp [hacc])

/-- Settles O19: the first read of a byte that is not memory makes the body stuck, and so does an output that no memory takes, which a
body that is not stuck gives under every map. -/
theorem touchingNoMemoryIsStuck : Obligations.TouchingNoMemoryIsStuck := by
  refine ⟨fun t r g he => engineTurn_stuck he, ?_, ?_, ?_, ?_⟩
  · rintro s A i rfl hu
    refine ⟨fun h hi => ?_, fun h hi => ?_, ?_, ?_, ?_⟩
    · obtain ⟨hc, hb⟩ := body_stuck_of_src h hi
      exact exec_sticks hc hu hb
    · obtain ⟨hc, hb⟩ := body_stuck_of_dict h hi
      exact exec_sticks hc hu hb
    · rintro rfl hlen h
      exact exec_sticks (by decide) hu (fdecOpen_stuck fun d => bind_stuck (headerMagic_stuck hlen h) _)
    · rintro rfl hs hp hm
      refine ⟨fun hlen h => ?_, ?_⟩
      · exact exec_sticks (by decide) hu (fdecOpen_stuck fun d => parseHeader_stuck_six hs hp hm hlen h)
      · rintro flg bd hlen hb hok rfl hle h
        exact exec_sticks (by decide) hu (fdecOpen_stuck fun d => parseHeader_stuck_header hs hp hm hb hok hle h)
    · intro hi hst hroom hlen h
      rcases hi with rfl | ⟨rfl, hlt⟩
      · exact exec_sticks (by decide) hu (fdecReadBody_stuck (.inl rfl) hst hroom hlen h)
      · exact exec_sticks (by decide) hu (fdecReadBody_stuck (.inr hlt) hst hroom hlen h)
  · rintro s r rd size i q he hp hi rfl hbs hlen
    exact ⟨fun h => exec_blockword_sticks he hp hi (recordPayload_stuck hbs hlen (.inl h)),
      fun hc h => exec_blockword_sticks he hp hi (recordPayload_stuck hbs hlen (.inr ⟨hc, h⟩))⟩
  · intro s r rd he hp hc hlen h
    exact exec_endMark_sticks he hp (endOfFrame_stuck hc hlen h)
  · intro i s t holes base hm h hp ht hne hacc
    obtain ⟨hi, hw⟩ := (by decide : ∀ j ∈ [Instr.blkEncode, .blkDecode, .sesEnc, .sesDec, .fencOpen, .fencWrite, .fencClose,
      .fdecRead, .fdecReadToEnd], j ∈ commands ∧ writesDst j = true) i hm
    exact exec_sticks_of_output hi hw h hp ht hne hacc

end Sys2Proof.Machine
end

section
/-! PROOF. The encodings: decoding an encoding (O1), the command words (O2), the lengths (O3), the spec's words (O4), and the step that runs
the decoded command (O5). -/

namespace Sys2Proof

/-! ## Decoding the bytes of an instruction -/

theorem decode_command_le32 {w : Word} {i : Instr} (h : decodeCommand w = some i) (rest : Bytes) :
    decode .command (le32 w ++ rest) = .ok (i, rest) := by
  have hw : le32At (le32 w) 0 = w := le32At_le32 w []
  simp only [le32] at hw
  simp only [le32, List.cons_append, List.nil_append, decode, hw, h]

theorem decode_record_le32 (w : Word) (rest : Bytes) : decode .record (le32 w ++ rest) = .ok (decodeRecord w, rest) := by
  have hw : le32At (le32 w) 0 = w := le32At_le32 w []
  show Except.ok (decodeRecord (le32At (le32 w) 0), rest) = _
  rw [hw]

theorem extractLsb'_setWidth (size : BitVec 31) : (size.setWidth 32).extractLsb' 0 31 = size := by
  rw [← BitVec.setWidth_eq_extractLsb' (by decide), BitVec.setWidth_setWidth_of_le _ (by decide), BitVec.setWidth_eq]

/-- A record word with bit 31 clear and a size is a compressed block's (R95). -/
theorem decodeRecord_lz4 {size : BitVec 31} (h : size ≠ 0) : decodeRecord (size.setWidth 32) = .blockwordLz4 size := by
  have hne : size.setWidth 32 ≠ 0 := fun h0 => h ((extractLsb'_setWidth size).symm.trans (congrArg _ h0))
  have h31 : (size.setWidth 32).getLsbD 31 = false := by simp
  rw [decodeRecord, if_neg hne, h31, extractLsb'_setWidth]
  rfl

/-- A record word with bit 31 set is a stored block's (R95). -/
theorem decodeRecord_raw (size : BitVec 31) : decodeRecord (0x80000000 ||| size.setWidth 32) = .blockwordRaw size := by
  have h31 : (0x80000000 ||| size.setWidth 32 : Word).getLsbD 31 = true := by
    rw [BitVec.getLsbD_or]
    rfl
  have hne : (0x80000000 ||| size.setWidth 32 : Word) ≠ 0 := fun h0 => absurd (h0 ▸ h31) (by decide)
  have hsize : (0x80000000 ||| size.setWidth 32 : Word).extractLsb' 0 31 = size := by
    rw [BitVec.extractLsb'_or, extractLsb'_setWidth]
    exact BitVec.zero_or
  rw [decodeRecord, if_neg hne, h31, hsize]
  rfl

/-- The fields of a FLG byte (R92). -/
theorem flgByte_fields (bi bc cs cc di : Bool) :
    (flgByte bi bc cs cc di).extractLsb' 6 2 = 1 ∧ (flgByte bi bc cs cc di).getLsbD 5 = bi ∧
      (flgByte bi bc cs cc di).getLsbD 4 = bc ∧ (flgByte bi bc cs cc di).getLsbD 3 = cs ∧
      (flgByte bi bc cs cc di).getLsbD 2 = cc ∧ (flgByte bi bc cs cc di).getLsbD 1 = false ∧
      (flgByte bi bc cs cc di).getLsbD 0 = di := by
  revert bi bc cs cc di
  decide

theorem flgByte_reserved (bi bc cs cc di : Bool) : flgByte bi bc cs cc di &&& 0xC2 = 0x40 := by
  revert bi bc cs cc di
  decide

theorem decodeFlg_flgByte (bi bc cs cc di : Bool) : decodeFlg (flgByte bi bc cs cc di) = .ok (.flg bi bc cs cc di) := by
  obtain ⟨-, hbi, hbc, hcs, hcc, -, hdi⟩ := flgByte_fields bi bc cs cc di
  rw [decodeFlg, if_pos (flgByte_reserved bi bc cs cc di), hbi, hbc, hcs, hcc, hdi]

/-- The fields of a BD byte (R93). -/
theorem bdByte_fields (id : BitVec 3) : (id.setWidth 8 <<< 4 : Byte).extractLsb' 4 3 = id ∧
    (id.setWidth 8 <<< 4 : Byte).getLsbD 7 = false ∧ (id.setWidth 8 <<< 4 : Byte).extractLsb' 0 4 = 0 := by
  revert id
  decide

theorem bdByte_reserved (id : BitVec 3) : (id.setWidth 8 <<< 4 : Byte) &&& 0x8F = 0 := by
  revert id
  decide

theorem decodeBd_code {id : BitVec 3} (h : 4 ≤ id.toNat) : decodeBd (id.setWidth 8 <<< 4) = .ok (.bd id) := by
  obtain ⟨hcode, -, -⟩ := bdByte_fields id
  rw [decodeBd, hcode, if_pos ⟨bdByte_reserved id, h⟩]

/-- A length is read back from its nibble and its extension (R84). -/
theorem nibbleLength_lengthExt (n : Nat) (rest : Bytes) :
    nibbleLength (lengthNibble n) (lengthExt n ++ rest) = some (n, rest) := by
  by_cases h : n < 15
  · obtain ⟨hne, hn⟩ := lengthNibble_short h
    rw [nibbleLength, if_neg hne, hn, lengthExt_short h]
    rfl
  · obtain ⟨k, f, hscan, hval, -⟩ := scanExt_lengthExt (Nat.not_lt.mp h) rest
    rw [nibbleLength, if_pos ((lengthNibble_eq_15 n).mpr (Nat.not_lt.mp h)), hscan]
    exact congrArg (fun k => some (k, rest)) hval

/-- The sequence whose literals reach the end of the block is the last one (R87). -/
theorem decodeSequence_last (lit : Bytes) : decodeSequence (encode (.last lit)) = .ok (.last lit, []) := by
  have hlit : nibbleLength (lengthNibble lit.length) (lengthExt lit.length ++ lit) = some (lit.length, lit) :=
    nibbleLength_lengthExt _ _
  simp only [encode, decodeSequence, hiNibble_tokenByte, hlit, Nat.lt_irrefl, if_false, List.drop_length, List.take_length]

theorem decodeSequence_seq (lit : Bytes) (off : BitVec 16) {len : Nat} (h : Machine.minMatch ≤ len) (rest : Bytes) :
    decodeSequence (encode (.seq lit off len) ++ rest) = .ok (.seq lit off len, rest) := by
  have hlit := nibbleLength_lengthExt lit.length (lit ++ (le16 off ++ (lengthExt (len - Machine.minMatch) ++ rest)))
  have hlen := nibbleLength_lengthExt (len - Machine.minMatch) rest
  simp only [encode, decodeSequence, List.cons_append, List.append_assoc, hiNibble_tokenByte, loNibble_tokenByte, hlit,
    List.drop_left, List.take_left]
  rw [if_neg (by simp)]
  simp only [le16, List.cons_append, List.nil_append, hlen, le16At_le16, Nat.sub_add_cancel h]

/-- Settles O1: slot by slot, the decoder reads back the fields the encoder wrote. -/
theorem decodeOfEncodeIsTheInstruction : Obligations.DecodeOfEncodeIsTheInstruction := by
  intro i rest hwf hlast
  cases i with
  | token ll ml =>
    show Except.ok (Instr.token (hiNibble (tokenByte ll ml)) (loNibble (tokenByte ll ml)), rest) = _
    rw [hiNibble_tokenByte, loNibble_tokenByte]
  | lenext ffs final =>
    have hf : final ≠ 255 := by simpa [Instr.wf] using hwf
    simp only [Instr.slot, encode, decode, scanExt_extBytes ffs final hf]
  | offset off =>
    show Except.ok (Instr.offset (le16At (le16 off) 0), rest) = _
    rw [le16, le16At_le16]
  | seq lit off len => exact decodeSequence_seq lit off (of_decide_eq_true hwf) rest
  | last lit =>
    rw [hlast lit rfl, List.append_nil]
    exact decodeSequence_last lit
  | magic => rfl
  | flg bi bc cs cc di =>
    show (decodeFlg (flgByte bi bc cs cc di)).map _ = _
    rw [decodeFlg_flgByte]
    rfl
  | bd id =>
    show (decodeBd (id.setWidth 8 <<< 4)).map _ = _
    rw [decodeBd_code (by simpa [Instr.wf] using hwf)]
    rfl
  | hc sum => rfl
  | blockwordLz4 size => exact (decode_record_le32 _ rest).trans (by rw [decodeRecord_lz4 (by simpa [Instr.wf] using hwf)])
  | blockwordRaw size => exact (decode_record_le32 _ rest).trans (by rw [decodeRecord_raw])
  | endMark => exact decode_record_le32 0 rest
  | _ => exact decode_command_le32 (by decide) rest

/-! ## Lengths -/

/-- Settles O3: the reader's two cases, the writer's two cases, and that what was read is what would be written. -/
theorem lengthEncodingIsUnique : Obligations.LengthEncodingIsUnique := by
  refine ⟨fun v rest hv => ?_, fun ffs final rest hf => ?_, fun n hn => ⟨?_, lengthExt_short hn⟩,
    fun n hn => ⟨(lengthNibble_eq_15 n).mpr hn, if_neg (Nat.not_lt.mpr hn)⟩, fun v bs rest n h => nibbleLength_some h⟩
  · have hne : v ≠ 15 := fun h => by simp [h] at hv
    exact if_neg hne
  · have hne : final ≠ 255 := fun h => by simp [h] at hf
    have hscan := scanExt_extBytes ffs final hne rest
    rw [extBytes, List.append_assoc] at hscan
    rw [nibbleLength, if_pos rfl, show List.replicate ffs 255 ++ final :: rest = List.replicate ffs 255 ++ ([final] ++ rest) from rfl,
      hscan, Nat.add_assoc]
    rfl
  · rw [lengthNibble, Nat.min_eq_left hn.le]

/-! ## Command words -/

/-- The fields of a command word (R81): the reserved bits above, the flags, the reserved bits between and OP. -/
theorem commandWord_fields (w : Word) :
    w.extractLsb' 10 22 ++ (w.extractLsb' 8 2 ++ (w.extractLsb' 5 3 ++ w.extractLsb' 0 5)) = w := by
  rw [BitVec.extractLsb'_append_extractLsb'_eq_extractLsb' (by rfl), BitVec.extractLsb'_append_extractLsb'_eq_extractLsb' (by rfl),
    BitVec.extractLsb'_append_extractLsb'_eq_extractLsb' (by rfl)]
  exact BitVec.extractLsb'_eq_self

/-- Of the 128 words without a reserved bit, those that decode stand in the table with their command. -/
theorem decodeCommand_unreserved (flags : BitVec 2) (op : BitVec 5) :
    (decodeCommand ((0 : BitVec 22) ++ (flags ++ ((0 : BitVec 3) ++ op)))).all
      (fun i => ((0 : BitVec 22) ++ (flags ++ ((0 : BitVec 3) ++ op)), i) ∈ Machine.commandTable) = true := by
  revert flags op
  decide

theorem decodeCommand_iff (w : Word) (i : Instr) : decodeCommand w = some i ↔ (w, i) ∈ Machine.commandTable := by
  constructor
  · intro h
    have hres : w.extractLsb' 5 3 = 0 ∧ w.extractLsb' 10 22 = 0 := by
      by_contra hn
      rw [decodeCommand, if_neg hn] at h
      exact absurd h (by simp)
    have hall := decodeCommand_unreserved (w.extractLsb' 8 2) (w.extractLsb' 0 5)
    rw [← hres.1, ← hres.2, commandWord_fields, h] at hall
    exact of_decide_eq_true hall
  · intro h
    have htable : ∀ e ∈ Machine.commandTable, decodeCommand e.1 = some e.2 := by decide
    exact htable _ h

namespace Machine

/-- Settles O2: the decoder of command words is the table, and a word outside it is fetched as no instruction. -/
theorem commandWords : Obligations.CommandWords := by
  refine ⟨decodeCommand_iff, fun s r g he hp hn => ?_⟩
  have hnone : decodeCommand r.word = none :=
    Option.eq_none_iff_forall_ne_some.mpr fun i hi => hn i ((decodeCommand_iff _ _).mp hi)
  exact engineTurn_badOpcode he (by simp only [State.fetch, hp, hnone])

/-- Settles O4, by evaluating the decoder on the fourteen byte sequences. -/
theorem wordsOfTheSpecDecode : Obligations.WordsOfTheSpecDecode :=
  ⟨rfl, rfl, rfl, rfl, rfl, rfl, rfl, rfl, rfl, rfl, rfl, rfl, rfl, rfl⟩

/-! ## The step that runs the decoded command -/

/-- What is fetched of a command that has just started. -/
theorem State.fetch_start {s : State} {r : Run} {i : Instr} (hp : r.progress = .start) (hd : decodeCommand r.word = some i)
    (g : Grain) : s.fetch g r = if g = .command ∨ hasElements i = false then .instr i else .begin i := by
  simp only [State.fetch, hp, hd]

/-- Settles O5: the step is the engine's turn, and the turn runs or begins what is fetched. -/
theorem stepRunsTheDecodedCommand : Obligations.StepRunsTheDecodedCommand := by
  intro s r i he hp hd
  refine ⟨fun g ts ht hg => ?_, fun g ts ht hg hel => ?_, fun ht => ?_⟩
  · rw [step_engine ht]
    exact engineTurn_instr (s := { s with turns := ts }) he ((State.fetch_start hp hd g).trans (if_pos hg))
  · rw [step_engine ht]
    exact engineTurn_begin (s := { s with turns := ts }) he ((State.fetch_start hp hd g).trans (if_neg (by simp [hg, hel])))
  · rw [step_running ht he]
    exact engineTurn_instr he ((State.fetch_start hp hd .command).trans (if_pos (.inl rfl)))

end Machine

end Sys2Proof
end

section
/-! PROOF. The block commands (O31), the session blocks (O33) and the frame encoder's commands (O34, O35, O36) complete. -/

namespace Sys2Proof.Machine

/-! ## Steps of a body that succeed -/

theorem bind_of_ok {α β : Type} {x : Except Stop α} {a : α} (h : x = .ok a) (f : α → Except Stop β) : (x >>= f) = f a := by
  rw [h]
  rfl

theorem raised_of_ok {α : Type} {x : Except ErrCode α} {a : α} (h : x = .ok a) : raised x = .ok a := by
  rw [h]
  rfl

/-! ## Blocks -/

section
variable {s : State} (hs : s.Calm) {A : Args}
include hs

theorem blkEncodeBody_calm {x h : Bytes} (hle : A.srcLen.toNat ≤ maxInput) (hx : s.Source A x) (hh : s.Dictionary A h)
    (hsink : s.Sink A (encodeBlock s.cfg x h A.levelInt).length) :
    blkEncodeBody s A = .ok ⟨encodeBlock s.cfg x h A.levelInt, (encodeBlock s.cfg x h A.levelInt).length, id⟩ := by
  refine (if_neg (Nat.not_lt.mpr hle)).trans ((bind_of_ok (State.readSrc_calm hs hx) _).trans ?_)
  exact (bind_of_ok (State.readDict_calm hs hh) _).trans (State.Sink.fitOut hsink)

theorem blkDecodeBody_calm {x h c : Bytes} (hx : s.Source A x) (hh : s.Dictionary A h) (hc : decodeBlock x h A.room = .ok c) :
    blkDecodeBody s A = .ok (blkDecodeDone c) := by
  have hstart : blkDecodeStart s A = .ok (Parser.start x h A.room) :=
    (bind_of_ok (State.readSrc_calm hs hx) _).trans (bind_of_ok (State.readDict_calm hs hh) _)
  exact (bind_of_ok hstart _).trans (bind_of_ok (raised_of_ok hc) _)

theorem sesEncBody_calm {x : Bytes} (hle : A.srcLen.toNat ≤ maxInput) (hx : s.Source A x)
    (hsink : s.Sink A (encodeBlock s.cfg x s.eses.history A.levelInt).length) :
    sesEncBody s A = .ok ⟨encodeBlock s.cfg x s.eses.history A.levelInt, (encodeBlock s.cfg x s.eses.history A.levelInt).length,
      fun s => { s with eses := s.eses.advance x }⟩ := by
  exact (if_neg (Nat.not_lt.mpr hle)).trans ((bind_of_ok (State.readSrc_calm hs hx) _).trans (State.Sink.fitOut hsink))

theorem sesDecBody_calm {x c : Bytes} (hx : s.Source A x) (hc : decodeBlock x s.dses.history A.room = .ok c) :
    sesDecBody s A = .ok (sesDecDone c) := by
  have hstart : sesDecStart s A = .ok (Parser.start x s.dses.history A.room) := bind_of_ok (State.readSrc_calm hs hx) _
  exact (bind_of_ok hstart _).trans (bind_of_ok (raised_of_ok hc) _)

end

/-- Settles O31: past the usage checks each body reads its two regions and its output fits. -/
theorem blockCommandsComplete : Obligations.BlockCommandsComplete := by
  rintro s A x h c rfl hs hsrc hdict hdst hasrc hadict hx hh hsink
  have fit : ∀ r ∈ [s.snapshot.src, s.snapshot.dict], r.1 + r.2 ≤ 2 ^ 32 :=
    List.forall_mem_cons.mpr ⟨hsrc, List.forall_mem_singleton.mpr hdict⟩
  have apart : ∀ r ∈ [s.snapshot.src, s.snapshot.dict], s.snapshot.Apart r.1 r.2 :=
    List.forall_mem_cons.mpr ⟨hasrc, List.forall_mem_singleton.mpr hadict⟩
  have plain : ∀ r ∈ [s.snapshot.src, s.snapshot.dict], s.Plain r :=
    List.forall_mem_cons.mpr ⟨hx.2.1, List.forall_mem_singleton.mpr hh.2.1⟩
  refine ⟨fun hle hc => ?_, fun hc => ?_⟩
  · subst hc
    exact exec_ok (i := .blkEncode) (by decide) (usageError_none rfl rfl fit fun _ => ⟨hdst, apart⟩)
      (blkEncodeBody_calm hs hle hx hh hsink) hs hsink.takes ⟨plain, fun _ => hsink.2.1⟩
  · exact exec_ok (i := .blkDecode) (by decide) (usageError_none rfl rfl fit fun _ => ⟨hdst, apart⟩)
      (blkDecodeBody_calm hs hx hh hc) hs (State.Sink.takes (out := c) hsink) ⟨plain, fun _ => hsink.2.1⟩

/-- Settles O33: past the usage checks each body reads its source, its output fits, and its commit is the session's advance. -/
theorem sessionBlocksComplete : Obligations.SessionBlocksComplete := by
  rintro s A x c rfl hs hsrc hdst hasrc hx hsink
  have fit : ∀ r ∈ [s.snapshot.src], r.1 + r.2 ≤ 2 ^ 32 := List.forall_mem_singleton.mpr hsrc
  have apart : ∀ r ∈ [s.snapshot.src], s.snapshot.Apart r.1 r.2 := List.forall_mem_singleton.mpr hasrc
  have plain : ∀ r ∈ [s.snapshot.src], s.Plain r := List.forall_mem_singleton.mpr hx.2.1
  refine ⟨fun hst hle hc => ?_, fun hst hc => ?_⟩
  · subst hc
    exact exec_ok (by decide) (usageError_none (sesEnc_permitted hst) rfl fit fun _ => ⟨hdst, apart⟩)
      (sesEncBody_calm hs hle hx hsink) hs hsink.takes ⟨plain, fun _ => hsink.2.1⟩
  · exact exec_ok (by decide) (usageError_none (sesDec_permitted hst) rfl fit fun _ => ⟨hdst, apart⟩) (sesDecBody_calm hs hx hc) hs
      (State.Sink.takes (out := c) hsink) ⟨plain, fun _ => hsink.2.1⟩

/-! ## The frame encoder -/

/-- Before any byte of a buffer the window is the context's. -/
theorem windowAt_zero {f : Fenc} (hw : f.win.length ≤ winSize) (buf : Bytes) : windowAt f buf 0 = f.win := by
  rw [windowAt, List.take_zero, List.append_nil, show lastBytes 65536 f.win = f.win from lastBytes_short hw, ite_self]

section
variable {s : State} (hs : s.Calm) {A : Args}
include hs

theorem fencOpenBody_calm {d : Bytes} (hd : s.Dictionary A d)
    (hsink : s.Sink A (frameHeader A.flg A.bd A.csize A.dictId).length) :
    fencOpenBody s A = .ok ⟨frameHeader A.flg A.bd A.csize A.dictId, (frameHeader A.flg A.bd A.csize A.dictId).length,
      fun s => { s with fenc := Fenc.opened A d }⟩ := by
  exact (bind_of_ok (State.readDict_calm hs hd) _).trans (State.Sink.fitOut hsink)

/-- `FENC_WRITE`'s body with the records and the window in the words of R196 and R198. -/
theorem fencWriteBody_calm (hf : s.fenc.Ok s.cfg) (ho : s.fenc.isOpen) {x buf out : Bytes} {k : Nat} (hx : s.Source A x)
    (hbuf : buf = s.fenc.stage ++ x) (hk : k = buf.length / s.fenc.bs) (hout : out = recordsOf s.cfg s.fenc buf k)
    (hsink : s.Sink A out.length) :
    fencWriteBody s A = .ok ⟨out, out.length, fun s' => { s' with
      fenc := { s'.fenc with st := .writing, stage := buf.drop (k * s.fenc.bs), win := windowAt s.fenc buf (k * s.fenc.bs),
                             plain := s'.fenc.plain ++ x, total := s'.fenc.total + BitVec.ofNat 64 x.length } }⟩ := by
  subst hbuf hk hout
  refine (bind_of_ok (State.readSrc_calm hs hx) _).trans ?_
  simp only [emitBlocks_eq s.cfg s.fenc (hf.bs_pos ho).2 hf.win]
  exact State.Sink.fitOut hsink

end

/-- Settles O34: past the usage checks the header fits. -/
theorem fencOpenCompletes : Obligations.FencOpenCompletes := by
  rintro s A d desc hdr flg bd rfl hs rfl rfl hres hok hdict hdst hapart hd rfl rfl hsink
  exact exec_ok (by decide)
    (usageError_none rfl (fencOpen_permitted hres hok) (List.forall_mem_singleton.mpr hdict)
      fun _ => ⟨hdst, List.forall_mem_singleton.mpr hapart⟩)
    (fencOpenBody_calm hs hd hsink) hs (State.Sink.takes hsink) ⟨List.forall_mem_singleton.mpr hd.2.1, fun _ => hsink.2.1⟩

/-- Settles O35: past the usage checks the records fit, and a buffer shorter than a block has none. -/
theorem fencWriteCompletes : Obligations.FencWriteCompletes := by
  rintro s A x buf out k rfl hs hf hst hsrc hdst hapart hx hbuf hk hout hsink
  have ho : s.fenc.isOpen := hst.imp_right .inl
  refine ⟨exec_ok (by decide)
    (usageError_none (fencWrite_permitted hst) rfl (List.forall_mem_singleton.mpr hsrc)
      fun _ => ⟨hdst, List.forall_mem_singleton.mpr hapart⟩)
    (fencWriteBody_calm hs hf ho hx hbuf hk hout hsink) hs (State.Sink.takes (out := out) hsink)
    ⟨List.forall_mem_singleton.mpr hx.2.1, fun _ => hsink.2.1⟩, fun hlt => ?_⟩
  obtain rfl : k = 0 := hk.trans (Nat.div_eq_of_lt hlt)
  rw [Nat.zero_mul]
  exact ⟨hout, rfl, windowAt_zero hf.win buf⟩

/-- `FENC_CLOSE`'s body on an open frame, in the words of R199. -/
theorem fencCloseBody_open {s : State} {A : Args} (hf : s.fenc.Ok s.cfg) (hst : s.fenc.st = .opened ∨ s.fenc.st = .writing)
    (hsize : s.fenc.flg.getLsbD 3 = true → s.fenc.total = s.fenc.csize)
    (hsink : s.Sink A (closingOf s.cfg s.fenc).length) :
    fencCloseBody s A = .ok ⟨closingOf s.cfg s.fenc, (closingOf s.cfg s.fenc).length, fun s' => { s' with fenc := s'.fenc.close }⟩ := by
  have hopen : s.fenc.isOpen := hst.imp_right .inl
  have hne : s.fenc.st ≠ .closed := by rcases hst with h | h <;> simp [h]
  have hlen : s.fenc.stage.length < 2 ^ 31 := (hf.stage hopen).trans (hf.bs_pos hopen).2
  have hok : ¬(cSize s.fenc.flg = true ∧ s.fenc.total ≠ s.fenc.csize) := fun ⟨h, hn⟩ => hn (hsize h)
  rw [fencCloseBody, if_neg hne, if_neg hok, closing_eq s.cfg s.fenc hlen]
  exact State.Sink.fitOut hsink

theorem Fenc.close_eq (f : Fenc) : f.close = { f with
    st := .closed, stage := [],
    win := if f.stage = [] ∨ f.flg.getLsbD 5 = true then f.win else lastBytes 65536 (f.win ++ f.stage) } := by
  by_cases hstage : f.stage = []
  · simp [Fenc.close, hstage]
  · by_cases hindep : f.flg.getLsbD 5 = true
    · simp [Fenc.close, Fenc.slide, bIndep, hstage, hindep]
    · simp [Fenc.close, Fenc.slide, bIndep, winAppend, winSize, hstage]

/-- Settles O36: a closed frame's body is empty, and past the usage checks an open frame's closing fits. -/
theorem fencCloseCompletes : Obligations.FencCloseCompletes := by
  rintro s A out rfl hs hdst hplain
  have usage (hst : s.fenc.st = .opened ∨ s.fenc.st = .writing ∨ s.fenc.st = .closed) :
      usageError .fencClose s s.snapshot = none :=
    usageError_none (fencClose_permitted hst) rfl (by simp [regionsRead]) fun _ => ⟨hdst, by simp [regionsRead]⟩
  have onPlain : s.OnPlain .fencClose := ⟨by simp [regionsRead], fun _ => hplain⟩
  refine ⟨fun hst => ?_, fun hf hst hsize hout hsink => ?_⟩
  · have hbody : bodyOf .fencClose s s.snapshot = .ok ⟨[], 0, id⟩ := if_pos hst
    rw [exec_ok (by decide) (usage (.inr (.inr hst))) hbody hs (.inl rfl) onPlain]
    exact congrArg _ (s.okState_nil _ 0)
  · subst hout
    rw [← Fenc.close_eq]
    exact exec_ok (by decide) (usage (hst.imp_right .inl)) (fencCloseBody_open hf hst hsize hsink) hs (State.Sink.takes hsink) onPlain

end Sys2Proof.Machine
end

section
/-! PROOF. The elements of a block: what they do to the parser, and what follows a decoded block (O39, O40, O41, O42, O43). -/

namespace Sys2Proof.Machine

/-! ## What the elements do to the parser -/

/-- Literals that are there, fit and do not end the block. -/
theorem Parser.literals_more {p : Parser} {n : Nat} (hlen : n < p.rest.length) (hcap : p.out.length + n ≤ p.cap) :
    p.literals n = .more { p with out := p.out ++ p.rest.take n, rest := p.rest.drop n, phase := .offset } := by
  rw [Parser.literals, if_neg (by omega), if_neg (by omega)]
  exact if_neg (by omega)

/-- Literals that are all that is left of the block, and fit. -/
theorem Parser.literals_done {p : Parser} {n : Nat} (hlen : n = p.rest.length) (hcap : p.out.length + n ≤ p.cap) :
    p.literals n = .done (p.out ++ p.rest) := by
  subst hlen
  rw [Parser.literals, if_neg (by omega), if_neg (by omega)]
  exact (if_pos rfl).trans (by rw [List.take_length])

/-- A match whose offset stays within history and output, and that fits. -/
theorem Parser.copy_more {p : Parser} {m : Nat} (h0 : p.off ≠ 0) (hoff : p.off ≤ p.hist.length + p.out.length)
    (hcap : p.out.length + m ≤ p.cap) :
    p.copy m = .more { p with out := p.out ++ copyMatch (p.hist ++ p.out) p.off m, phase := .token } := by
  rw [Parser.copy, if_neg h0, if_neg (by omega), if_neg (by omega)]

/-! ## Deliveries -/

theorem Reader.due_toEnd {rd : Reader} (h : rd.want = none) : rd.due = rd.t.pend.length := by
  simp only [Reader.due, h]

theorem Reader.due_want {rd : Reader} {n : Nat} (h : rd.want = some n) : rd.due = min (n - rd.out.length) rd.t.pend.length := by
  simp only [Reader.due, h]

/-- Where the pending bytes are less than the read lacks, all of them are due. -/
theorem Reader.due_of_lacking {rd : Reader} (h : ∀ n, rd.want = some n → rd.out.length + rd.t.pend.length ≤ n) :
    rd.due = rd.t.pend.length := by
  cases hw : rd.want with
  | none => exact rd.due_toEnd hw
  | some n =>
    have := h n hw
    rw [rd.due_want hw]
    omega

theorem Reader.deliver_full {rd : Reader} (h0 : rd.due ≠ 0) (h : rd.cap < rd.out.length + rd.due) :
    rd.deliver = .error (.err .dstFull) := by
  rw [Reader.deliver, if_neg h0, if_pos h]

/-- A read that lacks bytes of an open frame goes on. -/
theorem Reader.not_enough {rd : Reader} (hst : rd.t.st = .readingBlocks) (h : ∀ n, rd.want = some n → rd.out.length < n) :
    rd.enough = false := by
  have hst' : (rd.t.st == .finished) = false := by
    rw [hst]
    decide
  rw [Reader.enough, hst', Bool.or_false, beq_eq_false_iff_ne]
  exact fun hw => Nat.lt_irrefl _ (h _ hw)

theorem Reader.enough_of_want {rd : Reader} (h : rd.want = some rd.out.length) : rd.enough = true := by
  simp [Reader.enough, h]

theorem Reader.enough_of_finished {rd : Reader} (h : rd.t.st = .finished) : rd.enough = true := by
  simp [Reader.enough, h]

section
variable {s : State} {r : Run} {rd rd' : Reader}

theorem State.afterRecord_goesOn (h : rd.deliver = .ok rd') (hen : rd'.enough = false) :
    s.afterRecord r rd = .next (s.goesOn r (.record rd')) := by
  simp only [State.afterRecord, h, hen]
  rfl

theorem State.afterRecord_completes (h : rd.deliver = .ok rd') (hen : rd'.enough = true) :
    s.afterRecord r rd = s.finish .fdecRead (.ok (fdecReadDone rd')) := by
  simp only [State.afterRecord, h, hen, if_true]

theorem State.afterRecord_fails {e : Stop} (h : rd.deliver = .error e) : s.afterRecord r rd = s.finish .fdecRead (.error e) := by
  simp only [State.afterRecord, h]

end

/-! ## What follows a decoded block -/

/-- The record reader that has taken a block. -/
def Reader.accept (rd : Reader) (blk : Bytes) (next : Nat) : Reader := { rd with t := rd.t.accept blk next }

theorem State.snapshot_of_running {s : State} {r : Run} (he : s.engine = .running r) : s.snapshot = r.args := by
  simp only [State.snapshot, State.run?, he]

/-- A command that ends with an error on plain memory. -/
theorem State.finish_fails {s : State} {i : Instr} (hp : s.OnPlain i) (c : ErrCode) : Fails (s.finish i (.error (.err c))) c :=
  ⟨_, State.finish_err hp, rfl, rfl⟩

section
variable {s : State} {r : Run} (he : s.engine = .running r) (hs : s.Calm)
include he hs

/-- A command that has come to its success on plain memory without a race. -/
theorem State.finish_running {i : Instr} {d : Done} (hk : (d.commit s).engine = s.engine) (hp : s.OnPlain i)
    (hsink : s.Sink r.args d.out.length) : s.finish i (.ok d) = .next ((d.commit s).okState r.args d.out d.result) := by
  have hsnap : s.snapshot = r.args := State.snapshot_of_running he
  have hsnap' : (d.commit s).snapshot = r.args := State.snapshot_of_running (hk.trans he)
  have hraced : (d.commit s).raced = s.raced := by simp only [State.raced, State.run?, hk]
  rw [State.finish_calm (hraced.trans hs) (State.Sink.takes (hsnap ▸ hsink)) hp, hsnap']

/-- What the frame's read does with a block (R222, R227). -/
theorem State.afterRecord_block (rd : Reader) (blk : Bytes) (next : Nat) :
    s.AfterBlock r rd blk next (s.afterRecord r (rd.accept blk next)) := by
  refine ⟨fun hwant hst hcap => ?_, fun n hwant hlt hle hcap hplain hsink => ?_, fun k hk h0 hplain hfull => ?_⟩
  · have hdue : (rd.accept blk next).due = blk.length := Reader.due_of_lacking fun n hn => (hwant n hn).le
    have hdel := Reader.deliver_fits (rd := rd.accept blk next) (hdue ▸ hcap)
    rw [hdue] at hdel
    rw [State.afterRecord_goesOn hdel (Reader.not_enough hst fun n hn => ?_)]
    · simp only [Reader.accept, Fdec.accept, List.take_length, List.drop_length]
      rfl
    · simpa [Reader.accept, Fdec.accept] using hwant n hn
  · have hdue : (rd.accept blk next).due = n - rd.out.length :=
      (Reader.due_want (rd := rd.accept blk next) hwant).trans (Nat.min_eq_left (show n - rd.out.length ≤ blk.length by omega))
    have hroom : rd.out.length + (n - rd.out.length) ≤ rd.cap := by omega
    have hdel := Reader.deliver_fits (rd := rd.accept blk next) (hdue ▸ hroom)
    rw [hdue] at hdel
    have hlen : (rd.out ++ blk.take (n - rd.out.length)).length = n := by
      rw [List.length_append, List.length_take]
      omega
    rw [State.afterRecord_completes hdel (Reader.enough_of_want (hwant.trans (congrArg some hlen.symm))),
      State.finish_running he hs rfl hplain (hlen.symm ▸ hsink)]
    simp only [fdecReadDone, Reader.accept, Fdec.accept, hlen]
    rfl
  · have hdue : (rd.accept blk next).due = k := by
      cases hw : rd.want with
      | none =>
        rw [hw] at hk
        exact (Reader.due_toEnd (rd := rd.accept blk next) hw).trans hk.symm
      | some n =>
        rw [hw] at hk
        exact (Reader.due_want (rd := rd.accept blk next) hw).trans hk.symm
    rw [State.afterRecord_fails (Reader.deliver_full (hdue ▸ h0) (hdue ▸ hfull))]
    exact State.finish_fails hplain .dstFull

/-- What follows a block that has decoded to `out` (R142, R176, R222). -/
theorem State.afterParse_done (use : BlockUse) (out : Bytes) : s.AfterDecode r out (s.afterParse r use (.done out)) use := by
  cases use with
  | block => exact fun hp hsink => State.finish_running he hs (d := blkDecodeDone out) rfl hp hsink
  | session => exact fun hp hsink => State.finish_running he hs (d := sesDecDone out) rfl hp hsink
  | frame rd next => exact State.afterRecord_block he hs rd out next

end

/-! ## The elements of a block -/

/-- Settles O39: a nibble below 15 is the whole literal length, and literals go on or end the block. -/
theorem tokenCompletes : Obligations.TokenCompletes := by
  intro s r use p ll ml he hp hph
  have hrun : exec (.token ll ml) s = s.afterParse r use (p.token ll ml) :=
    State.inBlock_at he hp (by simp [hph]) _
  refine ⟨fun hll => ?_, fun hll hlen hcap => ?_, fun hll hlen hcap hs => ?_⟩
  · rw [hrun, show p.token ll ml = .more _ from if_pos hll, State.afterParse_more]
    rfl
  · have hlit : p.token ll ml = .more _ :=
      (if_neg hll).trans (Parser.literals_more (by rw [List.length_drop]; omega) hcap)
    rw [hrun, hlit, State.afterParse_more, List.drop_drop]
    rfl
  · have hlit : p.token ll ml = .done (p.out ++ p.rest.drop 1) :=
      (if_neg hll).trans (Parser.literals_done (by rw [List.length_drop]; omega) hcap)
    rw [hrun, hlit]
    exact State.afterParse_done he hs use _

/-- Settles O40: the extension's sum is the length of the literals, or 4 less than the match's. -/
theorem lenextCompletes : Obligations.LenextCompletes := by
  intro s r use p ffs final n he hp hn
  have hval : 15 + extValue ffs final = n := by rw [hn, extValue, Nat.add_assoc]
  have hext : p.litExt ffs final = { p with rest := p.rest.drop (ffs + 1) }.literals n := congrArg (Parser.literals _) hval
  have hrun (hph : p.phase ∈ [ParserPhase.litExt, .matchExt]) : exec (.lenext ffs final) s =
      s.afterParse r use (if p.phase = .litExt then p.litExt ffs final else p.matchExt ffs final) :=
    State.inBlock_at he hp hph _
  refine ⟨fun hph hlen hcap => ?_, fun hph hlen hcap hs => ?_, fun hph h0 hoff hcap => ?_⟩
  · have hlit : p.litExt ffs final = .more _ := hext.trans (Parser.literals_more (by rw [List.length_drop]; omega) hcap)
    rw [hrun (by simp [hph]), if_pos hph, hlit, State.afterParse_more, List.drop_drop]
    rfl
  · have hlit : p.litExt ffs final = .done (p.out ++ p.rest.drop (ffs + 1)) :=
      hext.trans (Parser.literals_done (by rw [List.length_drop]; omega) hcap)
    rw [hrun (by simp [hph]), if_pos hph, hlit]
    exact State.afterParse_done he hs use _
  · have hcopy : p.matchExt ffs final = .more _ :=
      (congrArg (fun k => Parser.copy _ (k + minMatch)) hval).trans (Parser.copy_more h0 hoff hcap)
    rw [hrun (by simp [hph]), if_neg (by simp [hph]), hcopy, State.afterParse_more]
    rfl

theorem offset_toNat_ne_zero {off : BitVec 16} (h : off ≠ 0) : off.toNat ≠ 0 := fun h0 => h (BitVec.eq_of_toNat_eq h0)

/-- Settles O41: a nibble below 15 is the whole match length. -/
theorem offsetCompletes : Obligations.OffsetCompletes := by
  intro s r use p off he hp hph
  have hrun : exec (.offset off) s = s.afterParse r use (p.offset off) := State.inBlock_at he hp (by simp [hph]) _
  refine ⟨fun hml => ?_, fun hml h0 hoff hcap => ?_⟩
  · rw [hrun, show p.offset off = .more _ from if_pos hml, State.afterParse_more]
    rfl
  · have hcopy : p.offset off = .more _ := (if_neg hml).trans (Parser.copy_more (offset_toNat_ne_zero h0) hoff hcap)
    rw [hrun, hcopy, State.afterParse_more]
    rfl

/-- Settles O42: the literals fit, and the match is copied behind them. -/
theorem seqCompletes : Obligations.SeqCompletes := by
  intro s r use p lit off len he hp hph h0 hoff hcap
  have hrun : exec (.seq lit off len) s = s.afterParse r use (p.seq lit off len) := State.inBlock_at he hp (by simp [hph]) _
  have hcopy : p.seq lit off len = .more _ :=
    (if_neg (by omega)).trans (Parser.copy_more (offset_toNat_ne_zero h0)
      (by simp only [List.length_append]; omega) (by simp only [List.length_append]; omega))
  rw [hrun, hcopy, State.afterParse_more, ← List.append_assoc, ← hph]
  rfl

/-- Settles O43: the literals fit and are the last of the block's bytes. -/
theorem lastCompletes : Obligations.LastCompletes := by
  rintro s r use p lit out he hp hph rfl hcap hs
  have hrun : exec (.last lit) s = s.afterParse r use (p.last lit) := State.inBlock_at he hp (by simp [hph]) _
  rw [hrun, show p.last lit = .done (p.out ++ lit) from if_neg (by simpa using hcap)]
  exact State.afterParse_done he hs use _

end Sys2Proof.Machine
end

section
/-! PROOF. The elements of a frame header and of its records: how each completes (O44, O45, O46, O47, O48). -/

namespace Sys2Proof.Machine

/-! ## A header on plain memory -/

theorem headerLength_ge (flg : Byte) : 7 ≤ headerLength flg := by
  unfold headerLength
  omega

section
variable {s : State} (hs : s.Calm) {t : Fdec}
include hs

theorem headerMagic_calm {m : Bytes} (h : s.FrameBytes t 0 4 m) :
    headerMagic s t = if m = encode .magic then .ok () else .error (.err .badMagic) :=
  (if_neg (Nat.not_lt.mpr h.1)).trans (bind_of_ok (State.readFrame_calm hs h useFrame) _)

theorem headerBytes_calm {flg bd : Byte} (h : s.FrameBytes t 4 2 [flg, bd]) :
    headerBytes s t =
      if headerLegal s.cfg flg bd then .ok { t with flg := flg, bd := bd } else .error (.err .headerReserved) :=
  (if_neg (Nat.not_lt.mpr h.1)).trans (bind_of_ok (State.readFrame_calm hs h useFrame) _)

theorem headerSumByte_calm {sum : Bytes} (h : s.FrameBytes t (headerLength t.flg - 1) 1 sum) : headerSumByte s t = .ok sum := by
  have h7 := headerLength_ge t.flg
  have hlen := h.1
  exact (if_neg (by omega)).trans (State.readFrame_calm hs h useFrame)

/-- The checksum over the descriptor in memory, and the fields behind FLG and BD (R220, R221). -/
theorem headerSum_calm {desc : Bytes} (h : s.FrameBytes t 4 (headerLength t.flg - 5) desc) (sum : Byte) :
    headerSum s t sum = if sum = headerChecksum desc then .ok (t.openedWith (desc.drop 2)) else .error (.err .headerCsum) := by
  have h7 := headerLength_ge t.flg
  have hopt : s.FrameBytes t 6 (headerLength t.flg - 7) (desc.drop 2) := by
    have hsub := h.sub (j := 2) (k := headerLength t.flg - 7) (by omega)
    have hdesc : desc.length = headerLength t.flg - 5 := by rw [h.2.2.2, Memory.bytes_length]
    rwa [List.take_of_length_le (by rw [List.length_drop]; omega)] at hsub
  refine (bind_of_ok (State.readFrame_calm hs h useDescriptor) _).trans ?_
  congr 1
  exact bind_of_ok (State.readFrame_calm hs hopt useFields) _

end

/-- The `FDEC_HDR` register holds BD above FLG (R226). -/
theorem headerRegister (flg bd : Byte) : bd.setWidth 32 <<< 8 ||| flg.setWidth 32 = (0 : BitVec 16) ++ bd ++ flg := by
  apply BitVec.eq_of_toNat_eq
  have hbd := bd.isLt
  have hflg := flg.isLt
  have hshift : bd.toNat <<< 8 < 2 ^ 32 := by
    rw [Nat.shiftLeft_eq]
    omega
  have hbd' : bd.toNat % 2 ^ 32 = bd.toNat := Nat.mod_eq_of_lt (by omega)
  have hflg' : flg.toNat % 2 ^ 32 = flg.toNat := Nat.mod_eq_of_lt (by omega)
  simp only [BitVec.toNat_or, BitVec.toNat_shiftLeft, BitVec.toNat_append, BitVec.toNat_setWidth, hbd', hflg',
    Nat.mod_eq_of_lt hshift]
  simp

/-- The `FDEC_*` registers of an opened frame, field by field. -/
theorem Fdec.regs_eq (t : Fdec) : t.regs = ⟨(0 : BitVec 16) ++ t.bd ++ t.flg, t.csize.extractLsb' 0 32, t.csize.extractLsb' 32 32,
    t.dictid, BitVec.ofNat 32 t.pos⟩ := by
  rw [Fdec.regs, headerRegister]

theorem le64At_drop (bs : Bytes) (m : Nat) : le64At (bs.drop m) 0 = le64At bs m := rfl

theorem le32At_drop (bs : Bytes) (m i : Nat) : le32At (bs.drop m) i = le32At bs (m + i) := by
  rw [le32At, le32At, List.drop_drop]

/-! ## The elements of a header -/

/-- Settles O44: each element goes on with its byte latched, and the byte's fields are the element's operands. -/
theorem headerBytesComplete : Obligations.HeaderBytesComplete := by
  intro s r h he hp
  refine ⟨fun hph => ?_, fun hph bi bc cs cc di => ⟨flgByte bi bc cs cc di, ?_, flgByte_fields bi bc cs cc di⟩,
    fun hph id hid => ⟨id.setWidth 8 <<< 4, ?_, bdByte_fields id⟩⟩
  · simp only [exec, execMagic, State.inHeader_at he hp hph]
    rfl
  · simp only [exec, execFlg, State.inHeader_at he hp hph]
    rfl
  · simp only [exec, execBd, State.inHeader_at he hp hph, if_neg (Nat.not_lt.mpr hid)]
    rfl

/-- Settles O45: the checksum is the descriptor's, and the fields are read from it. -/
theorem hcCompletes : Obligations.HcCompletes := by
  rintro s r h desc sum hlen csize dictid he hp hph hs hplain rfl hdesc hsum rfl rfl
  have hopen : headerSum s h.t sum = .ok (h.t.openedWith (desc.drop 2)) :=
    (headerSum_calm hs hdesc sum).trans (if_pos hsum)
  simp only [exec, execHc, State.inHeader_at he hp hph, hopen]
  refine (State.finish_calm (d := fdecOpenDone (h.t.openedWith (desc.drop 2))) hs (.inl rfl) hplain).trans ?_
  show Host.Outcome.next (State.okState _ s.snapshot [] (headerLength h.t.flg)) = _
  rw [State.okState_nil, State.snapshot_of_running he]
  simp only [fdecOpenDone, Fdec.regs_eq, Fdec.openedWith, le64At_drop, le32At_drop]
  rfl

/-! ## Records on plain memory -/

section
variable {s : State} (hs : s.Calm) {t : Fdec} {size : Nat} {payload : Bytes}
include hs

/-- A record's payload with its checksum (R222). -/
theorem recordPayload_checked (hbs : size ≤ t.bs) (hc : t.flg.getLsbD 4 = true) (hpay : s.FrameBytes t (t.pos + 4) size payload)
    {sum : Bytes} (hsum : s.FrameBytes t (t.pos + 4 + size) 4 sum) : recordPayload s t size =
      if sum = le32 (xxh32 payload 0) then .ok (payload, t.pos + 4 + size + 4) else .error (.err .blockCsum) := by
  have hb : bCsum t.flg = true := hc
  have hlen : ¬t.len < t.pos + 4 + size + (if bCsum t.flg then 4 else 0) := by
    rw [hb]
    exact Nat.not_lt.mpr hsum.1
  refine (if_neg (Nat.not_lt.mpr hbs)).trans ((if_neg hlen).trans ((bind_of_ok (State.readFrame_calm hs hpay useFrame) _).trans ?_))
  exact (if_pos hb).trans (bind_of_ok (State.readFrame_calm hs hsum useFrame) _)

/-- A record's payload, right where it has a checksum. -/
theorem recordPayload_calm (hbs : size ≤ t.bs) (hpay : s.FrameBytes t (t.pos + 4) size payload)
    (hsum : t.flg.getLsbD 4 = true → s.FrameBytes t (t.pos + 4 + size) 4 (le32 (xxh32 payload 0))) :
    recordPayload s t size = .ok (payload, t.pos + 4 + size + (if t.flg.getLsbD 4 then 4 else 0)) := by
  cases hc : t.flg.getLsbD 4 with
  | true => exact (recordPayload_checked hs hbs hc hpay (hsum hc)).trans (if_pos rfl)
  | false =>
    have hb : bCsum t.flg = false := hc
    have hlen : ¬t.len < t.pos + 4 + size + (if bCsum t.flg then 4 else 0) := by
      rw [hb]
      exact Nat.not_lt.mpr hpay.1
    refine (if_neg (Nat.not_lt.mpr hbs)).trans ((if_neg hlen).trans ((bind_of_ok (State.readFrame_calm hs hpay useFrame) _).trans ?_))
    exact if_neg (by simp [hb])

theorem trailer_checked (hc : t.flg.getLsbD 2 = true) {sum : Bytes} (hsum : s.FrameBytes t (t.pos + 4) 4 sum) :
    trailer s t = if sum = le32 (xxh32 t.plain 0) then .ok (t.pos + 4 + 4) else .error (.err .contentCsum) :=
  (if_pos hc).trans ((if_neg (Nat.not_lt.mpr hsum.1)).trans (bind_of_ok (State.readFrame_calm hs hsum useFrame) _))

/-- The trailer, right where there is one (R223). -/
theorem trailer_calm (hsum : t.flg.getLsbD 2 = true → s.FrameBytes t (t.pos + 4) 4 (le32 (xxh32 t.plain 0))) :
    trailer s t = .ok (t.pos + 4 + (if t.flg.getLsbD 2 then 4 else 0)) := by
  cases hc : t.flg.getLsbD 2 with
  | true => exact (trailer_checked hs hc (hsum hc)).trans (if_pos rfl)
  | false => exact if_neg (show ¬cCsum t.flg = true by rw [cCsum, hc]; decide)

end

/-! ## The elements of a record -/

/-- Settles O46: the payload passes its checks, and the block's parser starts on it. -/
theorem blockwordLz4Completes : Obligations.BlockwordLz4Completes := by
  rintro s r rd size payload next he hp hs hbs hpay hsum rfl
  have hsize : size.toNat = payload.length := by rw [hpay.2.2.2, Memory.bytes_length]
  simp only [exec, execBlockwordLz4, State.inRecord_at he hp, recordPayload_calm hs hbs hpay hsum]
  rw [hsize]
  rfl

/-- Settles O47: the payload passes its checks and is the block. -/
theorem blockwordRawCompletes : Obligations.BlockwordRawCompletes := by
  rintro s r rd size payload next he hp hs hbs hpay hsum rfl
  have hraw : rawRecord s rd.t size.toNat = .ok (rd.t.accept payload _) :=
    bind_of_ok (recordPayload_calm hs hbs hpay hsum) _
  simp only [exec, execBlockwordRaw, State.inRecord_at he hp, hraw]
  exact State.afterRecord_block he hs rd payload _

theorem Reader.deliver_none {rd : Reader} (h : rd.t.pend = []) : rd.deliver = .ok rd := by
  refine if_pos ?_
  have := rd.due_le_pend
  rw [h] at this
  exact Nat.le_zero.mp this

/-- Settles O48: the trailer passes its checks, and the read has nothing left to deliver. -/
theorem endMarkCompletes : Obligations.EndMarkCompletes := by
  rintro s r rd next he hp hs hplain hpend hsum hsize rfl hsink
  have hend : endOfFrame s rd.t = .ok { rd.t with pos := _, st := .finished } :=
    (bind_of_ok (trailer_calm hs hsum) _).trans (if_neg fun ⟨h, hn⟩ => hn (hsize h))
  simp only [exec, execEndMark, State.inRecord_at he hp, hend]
  refine (State.afterRecord_completes (Reader.deliver_none (rd := { rd with t := { rd.t with pos := _, st := .finished } }) hpend)
    (Reader.enough_of_finished rfl)).trans ?_
  exact State.finish_running he hs (d := fdecReadDone _) rfl hplain hsink

end Sys2Proof.Machine
end

section
/-! PROOF. The format errors of a frame header (O25), and those of a record, of the end of a frame and of a full destination (O26). -/

namespace Sys2Proof.Machine

/-! ## Commands and bodies that fail -/

theorem bind_of_error {α β : Type} {x : Except Stop α} {e : Stop} (h : x = .error e) (f : α → Except Stop β) :
    (x >>= f) = .error e := by
  rw [h]
  rfl

/-- A command without a usage error whose body raises, on plain memory. -/
theorem exec_fails {i : Instr} {s : State} {c : ErrCode} (hi : i ∈ commands) (hu : usageError i s s.snapshot = none)
    (hp : s.OnPlain i) (hb : bodyOf i s s.snapshot = .error (.err c)) : Fails (exec i s) c := by
  rw [exec_command hi, State.command_body hu, hb]
  exact State.finish_fails hp c

/-! ## The header parser -/

/-- What the header parser does past the magic. -/
theorem parseHeader_of_magic {s : State} {t : Fdec} (h : headerMagic s t = .ok ()) : parseHeader s t =
    (headerBytes s t >>= fun u => headerSumByte s u >>= fun sum => headerSum s u (sum.getD 0 0)) := bind_of_ok h _

/-- The source of `FDEC_OPEN` as the working copy reads it. -/
theorem Fdec.awaiting_frameBytes {s : State} {A : Args} {d x : Bytes} {n : Nat} (hn : n ≤ A.srcLen.toNat)
    (hacc : accessible s.cfg A.src A.srcAddr.toNat n = true) (hp : s.Plain A.src) (hx : x = Memory.bytes s.mem A.srcAddr.toNat n) :
    s.FrameBytes (Fdec.awaiting A d) 0 n x :=
  ⟨(Nat.zero_add n).symm ▸ hn, hacc, hp, hx⟩

/-- The one byte at a place, and how the parser reads it. -/
theorem getD_drop_take_one {x : Bytes} {k : Nat} (h : k < x.length) : x[k]? = some (((x.drop k).take 1).getD 0 0) := by
  simp [List.getElem?_eq_getElem h]

section
variable {s : State} (hs : s.Calm) {t : Fdec} {n : Nat} {x : Bytes} (hx : s.FrameBytes t 0 n x)
include hs hx

theorem parseHeader_badMagic (hn : 4 ≤ n) (hm : x.take 4 ≠ [0x04, 0x22, 0x4D, 0x18]) :
    parseHeader s t = .error (.err .badMagic) := by
  have h4 : s.FrameBytes t 0 4 (x.take 4) := hx.sub (j := 0) hn
  exact bind_of_error ((headerMagic_calm hs h4).trans (if_neg hm)) _

theorem headerBytes_read (hn : 6 ≤ n) {flg bd : Byte} (hb : (x.drop 4).take 2 = [flg, bd]) : headerBytes s t =
    if headerLegal s.cfg flg bd then .ok { t with flg := flg, bd := bd } else .error (.err .headerReserved) := by
  have h6 : s.FrameBytes t 4 2 [flg, bd] := hb ▸ hx.sub (j := 4) hn
  exact headerBytes_calm hs h6

variable (hm : x.take 4 = [0x04, 0x22, 0x4D, 0x18])
include hm

theorem headerMagic_right (hn : 4 ≤ n) : headerMagic s t = .ok () := by
  have h4 : s.FrameBytes t 0 4 (x.take 4) := hx.sub (j := 0) hn
  exact (headerMagic_calm hs h4).trans (if_pos hm)

theorem parseHeader_short (hn : 4 ≤ n) (hlen : t.len < 6) : parseHeader s t = .error (.err .truncatedFrame) :=
  (parseHeader_of_magic (headerMagic_right hs hx hm hn)).trans (bind_of_error (if_pos hlen) _)

variable {flg bd : Byte} (hb : (x.drop 4).take 2 = [flg, bd])
include hb

theorem parseHeader_reserved (hn : 6 ≤ n) (hok : ¬HeaderBytesOk s.cfg flg bd) :
    parseHeader s t = .error (.err .headerReserved) :=
  (parseHeader_of_magic (headerMagic_right hs hx hm (by omega))).trans
    (bind_of_error ((headerBytes_read hs hx hn hb).trans (if_neg (mt (headerLegal_iff ..).mp hok))) _)

variable (hok : HeaderBytesOk s.cfg flg bd)
include hok

/-- What the header parser does past a legal FLG and BD. -/
theorem parseHeader_of_bytes (hn : 6 ≤ n) : parseHeader s t =
    (headerSumByte s { t with flg := flg, bd := bd } >>= fun sum => headerSum s { t with flg := flg, bd := bd } (sum.getD 0 0)) :=
  (parseHeader_of_magic (headerMagic_right hs hx hm (by omega))).trans
    (bind_of_ok ((headerBytes_read hs hx hn hb).trans (if_pos ((headerLegal_iff ..).mpr hok))) _)

theorem parseHeader_headerShort (hn : 6 ≤ n) (hlen : t.len < headerLength flg) :
    parseHeader s t = .error (.err .truncatedFrame) :=
  (parseHeader_of_bytes hs hx hm hb hok hn).trans (bind_of_error (if_pos hlen) _)

theorem parseHeader_badSum (hn : headerLength flg ≤ n)
    (hsum : x[headerLength flg - 1]? ≠ some (headerChecksum ((x.drop 4).take (headerLength flg - 5)))) :
    parseHeader s t = .error (.err .headerCsum) := by
  have h7 := headerLength_ge flg
  have hlast : s.FrameBytes { t with flg := flg, bd := bd } (headerLength flg - 1) 1 ((x.drop (headerLength flg - 1)).take 1) := by
    have hsub := hx.sub (j := headerLength flg - 1) (k := 1) (by omega)
    rwa [Nat.zero_add] at hsub
  have hdesc : s.FrameBytes { t with flg := flg, bd := bd } 4 (headerLength flg - 5) ((x.drop 4).take (headerLength flg - 5)) :=
    hx.sub (j := 4) (by omega)
  have hlen : x.length = n := by rw [hx.2.2.2, Memory.bytes_length]
  rw [parseHeader_of_bytes hs hx hm hb hok (by omega), bind_of_ok (headerSumByte_calm hs hlast), headerSum_calm hs hdesc]
  exact if_neg fun he => hsum (by rw [getD_drop_take_one (by omega), he])

end

/-! ## Records that raise before their bytes are read -/

theorem recordPayload_tooLarge {s : State} {t : Fdec} {size : Nat} (h : t.bs < size) :
    recordPayload s t size = .error (.err .blockTooLarge) := if_pos h

theorem recordPayload_truncated {s : State} {t : Fdec} {size : Nat} (hbs : size ≤ t.bs)
    (h : t.len < t.pos + 4 + size + (if t.flg.getLsbD 4 then 4 else 0)) :
    recordPayload s t size = .error (.err .truncatedFrame) := (if_neg (Nat.not_lt.mpr hbs)).trans (if_pos h)

theorem trailer_truncated {s : State} {t : Fdec} (hc : t.flg.getLsbD 2 = true) (h : t.len < t.pos + 8) :
    trailer s t = .error (.err .truncatedFrame) := (if_pos hc).trans (if_pos h)

section
variable {s : State} {r : Run} {rd : Reader} (he : s.engine = .running r) (hp : r.progress = .record rd) (hplain : s.OnPlain .fdecRead)
include he hp hplain

theorem engineTurn_recordTruncated (g : Grain) (h : rd.t.len < rd.t.pos + 4) : Fails (engineTurn g s) .truncatedFrame := by
  have hword : recordWord s rd.t = .error (.err .truncatedFrame) := if_pos h
  have hfetch : s.fetch g r = .stop .fdecRead (.err .truncatedFrame) := by simp only [State.fetch, hp, hword]
  rw [engineTurn_stop he hfetch]
  exact State.finish_fails hplain _

/-- A record word whose payload raises. -/
theorem exec_blockword_fails {i : Instr} {size : BitVec 31} {c : ErrCode} (hi : i = .blockwordLz4 size ∨ i = .blockwordRaw size)
    (h : recordPayload s rd.t size.toNat = .error (.err c)) : Fails (exec i s) c := by
  rcases hi with rfl | rfl
  · simp only [exec, execBlockwordLz4, State.inRecord_at he hp, h]
    exact State.finish_fails hplain c
  · have hraw : rawRecord s rd.t size.toNat = .error (.err c) := bind_of_error h _
    simp only [exec, execBlockwordRaw, State.inRecord_at he hp, hraw]
    exact State.finish_fails hplain c

theorem exec_endMark_fails {c : ErrCode} (h : endOfFrame s rd.t = .error (.err c)) : Fails (exec .endMark s) c := by
  simp only [exec, execEndMark, State.inRecord_at he hp, h]
  exact State.finish_fails hplain c

end

/-- A read whose pending bytes do not fit fails before its first record. -/
theorem fdecReadBody_full {s : State} {A : Args} {toEnd : Bool} (h0 : (Reader.start s A toEnd).due ≠ 0)
    (h : A.room < (Reader.start s A toEnd).due) : fdecReadBody toEnd s A = .error (.err .dstFull) :=
  bind_of_error (bind_of_error (Reader.deliver_full h0 ((Nat.zero_add _).symm ▸ h)) _) _

/-- Settles O26: the record reader's checks in their order, and the first delivery of a read. -/
theorem recordErrors : Obligations.RecordErrors := by
  refine ⟨fun s r rd he hp hplain => ⟨engineTurn_recordTruncated he hp hplain, fun i size hi => ⟨fun hbs => ?_, fun hbs hlen => ?_,
    fun payload sum hs hbs hc hpay hsum hne => ?_⟩, fun hc hlen => ?_, fun sum hs hc hsum hne => ?_, fun hs hsum hc hne => ?_⟩, ?_⟩
  · exact exec_blockword_fails he hp hplain hi (recordPayload_tooLarge hbs)
  · exact exec_blockword_fails he hp hplain hi (recordPayload_truncated hbs hlen)
  · exact exec_blockword_fails he hp hplain hi ((recordPayload_checked hs hbs hc hpay hsum).trans (if_neg hne))
  · exact exec_endMark_fails he hp hplain (bind_of_error (trailer_truncated hc hlen) _)
  · exact exec_endMark_fails he hp hplain (bind_of_error ((trailer_checked hs hc hsum).trans (if_neg hne)) _)
  · exact exec_endMark_fails he hp hplain ((bind_of_ok (trailer_calm hs hsum) _).trans (if_pos ⟨hc, hne⟩))
  · rintro s A rfl hplain
    refine ⟨fun hu hfull => ?_, fun hu hfull => ?_⟩
    · have hdue : (Reader.start s s.snapshot false).due = min s.snapshot.readLen.toNat s.fdec.pend.length := rfl
      exact exec_fails (by decide) hu hplain (fdecReadBody_full (by rw [hdue]; omega) (hdue ▸ hfull))
    · have hdue : (Reader.start s s.snapshot true).due = s.fdec.pend.length := rfl
      exact exec_fails (by decide) hu hplain (fdecReadBody_full (by rw [hdue]; omega) (hdue ▸ hfull))

end Sys2Proof.Machine

namespace Sys2Proof
open Machine

/-- Settles O25: the header parser's checks in their order. -/
theorem headerErrors : Obligations.HeaderErrors := by
  rintro s A d x n rfl hs hsrc hdict hd hplain hn hacc hx
  have fails {c : ErrCode} (h : parseHeader s (Fdec.awaiting s.snapshot d) = .error (.err c)) : Fails (exec .fdecOpen s) c := by
    have hu : usageError .fdecOpen s s.snapshot = none :=
      usageError_none rfl rfl (List.forall_mem_cons.mpr ⟨hsrc, List.forall_mem_singleton.mpr hdict⟩) fun hw => absurd hw (by decide)
    have hp : s.OnPlain .fdecOpen :=
      ⟨List.forall_mem_cons.mpr ⟨hplain, List.forall_mem_singleton.mpr hd.2.1⟩, fun hw => absurd hw (by decide)⟩
    exact exec_fails (by decide) hu hp ((bind_of_ok (State.readDict_calm hs hd) _).trans (bind_of_error h _))
  have hbytes : s.FrameBytes (Fdec.awaiting s.snapshot d) 0 n x := Fdec.awaiting_frameBytes hn hacc hplain hx
  refine ⟨fun hlen => fails (bind_of_error (if_pos hlen) _), fun h4 hm => fails (parseHeader_badMagic hs hbytes h4 hm),
    fun h4 hm hlen => fails (parseHeader_short hs hbytes hm h4 hlen), ?_⟩
  rintro h6 hm flg bd hlen hb rfl
  exact ⟨fun hok => fails (parseHeader_reserved hs hbytes hm hb h6 hok),
    fun hok hlen => fails (parseHeader_headerShort hs hbytes hm hb hok h6 hlen),
    fun hok hlen hsum => fails (parseHeader_badSum hs hbytes hm hb hok hlen hsum)⟩

end Sys2Proof
end

section
/-! PROOF. The lengths of the frame encoder's output (O57), and the encoder contract for every matcher (O53). -/

namespace Sys2Proof.Machine

/-! ## What the frame encoder emits is bounded -/

theorem le64_length (v : BitVec 64) : (le64 v).length = 8 := rfl

theorem frameHeader_length (flg bd : Byte) (csize : BitVec 64) (dictid : Word) :
    (frameHeader flg bd csize dictid).length = headerLength flg := by
  simp only [frameHeader, descriptor, headerLength, encode, List.length_append, List.length_cons, List.length_nil, apply_ite List.length,
    le64_length, Laws.EncodeLength.le32_length]
  omega

/-- A block's record: at most the block, its word and its checksum (R195). -/
theorem emitBlock_length_le (c : Config) (f : Fenc) (blk h : Bytes) : (emitBlock c f blk h).length ≤ 8 + blk.length := by
  have hsum : ∀ payload : Bytes, (if bCsum f.flg then le32 (xxh32 payload 0) else []).length ≤ 4 := fun payload => by
    split
    · exact le_rfl
    · exact Nat.zero_le 4
  by_cases hraw : blk.length ≤ (encodeBlock c blk h f.level).length
  · have := hsum blk
    simp only [emitBlock, hraw, decide_true, if_true, encode, List.length_append, Laws.EncodeLength.le32_length]
    omega
  · have := hsum (encodeBlock c blk h f.level)
    simp only [emitBlock, hraw, decide_false, Bool.false_eq_true, if_false, encode, List.length_append, Laws.EncodeLength.le32_length]
    omega

theorem emitBlocks_length_le (c : Config) (f : Fenc) (k : Nat) :
    ∀ buf w : Bytes, (emitBlocks c f k buf w).1.length ≤ k * (f.bs + 8) := by
  induction k with
  | zero => exact fun _ _ => Nat.zero_le _
  | succ k ih =>
    intro buf w
    have hrest := ih (buf.drop f.bs) (f.slide w (buf.take f.bs))
    have hblock := emitBlock_length_le c f (buf.take f.bs) (f.history w)
    have htake := List.length_take_le f.bs buf
    simp only [emitBlocks, List.length_append, Nat.succ_mul]
    omega

theorem closing_length_le (c : Config) {f : Fenc} (h : f.stage.length ≤ f.bs) : (closing c f).length ≤ f.bs + 16 := by
  have hblock : (if f.stage = [] then [] else emitBlock c f f.stage (f.history f.win)).length ≤ f.bs + 8 := by
    split
    · exact Nat.zero_le _
    · exact (emitBlock_length_le ..).trans (by omega)
  have hsum : (if cCsum f.flg then le32 (xxh32 f.plain 0) else []).length ≤ 4 := by
    split
    · exact le_rfl
    · exact Nat.zero_le 4
  simp only [closing, encode, List.length_append, Laws.EncodeLength.le32_length]
  omega

/-- Settles O57, by induction on the number of blocks. -/
theorem frameEncoderCapacity : Obligations.FrameEncoderCapacity :=
  ⟨frameHeader_length, emitBlock_length_le, emitBlocks_length_le, fun c _ h => closing_length_le c h⟩

/-! ## The length of an encoded list (R121, R131 (f)) -/

/-- A sequence spends at most 256 bytes of output on 255 of input. -/
theorem encode_seq_length_le (lit : Bytes) (off : BitVec 16) {len : Nat} (h : minMatch ≤ len) :
    255 * (encode (.seq lit off len)).length ≤ 256 * (lit.length + len) := by
  have hlit := lengthExt_length_le lit.length
  have hlen : 255 * (lengthExt (len - minMatch)).length ≤ 255 * (len - minMatch) := by
    by_cases hshort : len - minMatch < 15
    · rw [lengthExt_short hshort]
      exact Nat.zero_le _
    · have := lengthExt_length_le (len - minMatch)
      omega
  simp only [encode, le16, List.length_cons, List.length_append, List.length_nil]
  simp only [minMatch] at *
  omega

theorem encode_last_length_le (lit : Bytes) : 255 * (encode (.last lit)).length ≤ 256 * lit.length + 495 := by
  have hlit := lengthExt_length_le lit.length
  simp only [encode, List.length_cons, List.length_append]
  omega

theorem matchValid_iff {h x : Bytes} {p : Nat} {m : MatchSeq} : matchValid h x p m = true ↔
    (m.lit = (x.drop p).take m.lit.length ∧ minMatch ≤ m.len ∧ 1 ≤ m.off ∧ m.off ≤ maxOffset ∧
      m.off ≤ h.length + (p + m.lit.length) ∧ p + m.lit.length + mfLimit ≤ x.length ∧
      p + m.lit.length + m.len + lastLiterals ≤ x.length) ∧
    ∀ j < m.len, (h ++ x)[h.length + (p + m.lit.length) + j]? = (h ++ x)[h.length + (p + m.lit.length) + j - m.off]? := by
  simp only [matchValid, Bool.and_eq_true, decide_eq_true_iff, List.all_eq_true, List.mem_range, beq_iff_eq]

/-- A list that meets (b) to (e) of R131 has an encoding within the bound. -/
theorem tokenGen_length_le {h x last : Bytes} : ∀ {seqs : List MatchSeq} {p : Nat}, p ≤ x.length →
    seqsValid h x last p seqs = true →
    255 * (tokenGen ⟨seqs, last⟩).length ≤ 256 * (x.length - p) + 495 := by
  intro seqs
  induction seqs with
  | nil =>
    intro p hp hv
    obtain rfl : x.drop p = last := of_decide_eq_true hv
    simpa [tokenGen] using encode_last_length_le (x.drop p)
  | cons m seqs ih =>
    intro p hp hv
    obtain ⟨hm, hrest⟩ := Bool.and_eq_true_iff.mp hv
    obtain ⟨⟨-, hlen, -, -, -, -, hend⟩, -⟩ := matchValid_iff.mp hm
    have hseq := encode_seq_length_le m.lit (BitVec.ofNat 16 m.off) hlen
    have hrest := ih (by omega) hrest
    simp only [tokenGen, List.flatMap_cons, List.append_assoc, List.length_append] at hrest ⊢
    omega

/-- Conditions (b) to (e) of R131 are all of it: (a) is the type's, and (f) follows from them. -/
theorem streamValid_of_seqsValid {h x : Bytes} {t : TokenStream} (hx : x.length ≤ maxInput)
    (hv : seqsValid h x t.last 0 t.seqs = true) : streamValid h x t = true := by
  have hlen : 255 * (tokenGen t).length ≤ _ := tokenGen_length_le (Nat.zero_le _) hv
  rw [Nat.sub_zero] at hlen
  have hbound : (tokenGen t).length ≤ bound x.length := by
    rw [bound, if_pos hx]
    omega
  simp [streamValid, hv, hbound]

/-! ## The reference matcher (R133) -/

theorem agreement_le (a b : Bytes) (k : Nat) : agreement a b k ≤ k := by
  fun_induction agreement a b k with
  | case1 a as bs k ih => exact Nat.succ_le_succ ih
  | case2 => exact Nat.zero_le _
  | case3 => exact Nat.zero_le _

/-- As far as two sequences agree, their bytes are the same. -/
theorem agreement_get (a b : Bytes) (k : Nat) : ∀ j < agreement a b k, a[j]? = b[j]? := by
  fun_induction agreement a b k with
  | case1 a as bs k ih =>
    intro j hj
    cases j with
    | zero => rfl
    | succ j => exact ih j (Nat.lt_of_succ_lt_succ hj)
  | case2 => exact fun _ hj => absurd hj (Nat.not_lt_zero _)
  | case3 => exact fun _ hj => absurd hj (Nat.not_lt_zero _)

/-- A longest match that is not empty is an agreement, at a distance in reach. -/
theorem longestMatch_spec (y : Bytes) (q lim : Nat) : (longestMatch y q lim).1 = 0 ∨
    1 ≤ (longestMatch y q lim).2 ∧ (longestMatch y q lim).2 ≤ maxOffset ∧ (longestMatch y q lim).2 ≤ q ∧
      (longestMatch y q lim).1 = agreement (y.drop (q - (longestMatch y q lim).2)) (y.drop q) (lim - q) := by
  unfold longestMatch
  refine List.foldlRecOn (motive := fun best : Nat × Nat => best.1 = 0 ∨ 1 ≤ best.2 ∧ best.2 ≤ maxOffset ∧ best.2 ≤ q ∧
    best.1 = agreement (y.drop (q - best.2)) (y.drop q) (lim - q)) _ _ (.inl rfl) fun best hbest k hk => ?_
  have hk := List.mem_range.mp hk
  dsimp only
  split
  · exact .inr ⟨by omega, by omega, by omega, rfl⟩
  · exact hbest

/-- The longest match at a cursor of the input, as the loop of `REF_GREEDY` looks for it. -/
def bestMatch (h x : Bytes) (p : Nat) : Nat × Nat :=
  longestMatch (h ++ x) (h.length + p) (h.length + x.length - lastLiterals)

/-- The sequence the loop takes at a cursor: the literals since the anchor, and the longest match. -/
def matchAt (h x : Bytes) (anchor p : Nat) : MatchSeq :=
  ⟨(x.drop anchor).take (p - anchor), (bestMatch h x p).2, (bestMatch h x p).1⟩

/-- A turn of the loop. -/
theorem greedyFrom_succ (h x : Bytes) (fuel anchor p : Nat) : greedyFrom h x (fuel + 1) anchor p =
    if p + mfLimit ≤ x.length then
      if minMatch ≤ (bestMatch h x p).1 then
        (matchAt h x anchor p :: (greedyFrom h x fuel (p + (bestMatch h x p).1) (p + (bestMatch h x p).1)).1,
          (greedyFrom h x fuel (p + (bestMatch h x p).1) (p + (bestMatch h x p).1)).2)
      else greedyFrom h x fuel anchor (p + 1)
    else ([], anchor) := rfl

theorem matchAt_literals {h x : Bytes} {anchor p : Nat} (hp : p ≤ x.length) (ha : anchor ≤ p) :
    (matchAt h x anchor p).lit.length = p - anchor := by
  rw [matchAt, List.length_take, List.length_drop]
  omega

/-- What the loop takes is a valid sequence. -/
theorem matchAt_valid {h x : Bytes} {anchor p : Nat} (hp : p + mfLimit ≤ x.length) (ha : anchor ≤ p)
    (hlen : minMatch ≤ (bestMatch h x p).1) : matchValid h x anchor (matchAt h x anchor p) = true := by
  have hspec : (bestMatch h x p).1 = 0 ∨ _ := longestMatch_spec (h ++ x) (h.length + p) (h.length + x.length - lastLiterals)
  obtain ⟨h1, hmax, hq, hagree⟩ := hspec.resolve_left (by simp only [minMatch] at hlen; omega)
  have hfits : (bestMatch h x p).1 ≤ _ := hagree.le.trans (agreement_le ..)
  have hpos : anchor + (matchAt h x anchor p).lit.length = p := by
    rw [matchAt_literals (by omega) ha]
    omega
  rw [matchValid_iff, hpos, matchAt_literals (by omega) ha]
  refine ⟨⟨rfl, hlen, h1, hmax, hq, hp, ?_⟩, fun j hj => ?_⟩
  · simp only [lastLiterals, mfLimit, matchAt] at *
    omega
  · have hget := agreement_get _ _ _ j (hj.trans_eq hagree)
    rw [List.getElem?_drop, List.getElem?_drop] at hget
    refine hget.symm.trans (congrArg ((h ++ x)[·]?) ?_)
    simp only [matchAt, bestMatch] at *
    omega

/-- The loop's list is valid from its anchor on, and what it leaves are the last literals. -/
theorem greedyFrom_valid (h x : Bytes) (fuel : Nat) : ∀ {anchor p : Nat}, anchor ≤ p →
    seqsValid h x (x.drop (greedyFrom h x fuel anchor p).2) anchor (greedyFrom h x fuel anchor p).1 = true := by
  have stop (anchor : Nat) : seqsValid h x (x.drop anchor) anchor [] = true := by simp [seqsValid]
  induction fuel with
  | zero => exact fun _ => stop _
  | succ fuel ih =>
    intro anchor p ha
    rw [greedyFrom_succ]
    split
    · rename_i hp
      split
      · rename_i hlen
        rw [seqsValid, matchAt_valid hp ha hlen, matchAt_literals (by omega) ha, Nat.add_sub_cancel' ha]
        exact ih le_rfl
      · exact ih (by omega)
    · exact stop anchor

theorem refGreedy_valid (h x : Bytes) : seqsValid h x (refGreedy h x).last 0 (refGreedy h x).seqs = true := by
  unfold refGreedy
  split
  · exact greedyFrom_valid h x _ le_rfl
  · simp [seqsValid]

/-- Settles O53: the reference matcher's list meets R131, another's is used where it does, and the list of one literal run meets it. -/
theorem matcherGivesValidLists : Obligations.MatcherGivesValidLists := by
  intro c level h x hx
  unfold matchFinder
  split
  · exact streamValid_of_seqsValid hx (refGreedy_valid h x)
  · dsimp only
    split
    · assumption
    · exact streamValid_of_seqsValid hx (by simp [allLiterals, seqsValid])

end Sys2Proof.Machine
end

section
/-! PROOF. The match copyback (O52), the round trip of the block codec (O54), `BLK_BOUND` (O30), and the errors of the block decoder
and the encoders (O24). -/

namespace Sys2Proof.Machine

/-! ## The match copyback (R129) -/

/-- Settles O52, by induction on the length: the first byte is copied from before the match, and each further one is the first byte
of the match that follows it. -/
theorem matchCopyback : Obligations.MatchCopyback := by
  intro y off m h1 hoff
  refine ⟨copyMatch_length y off m, fun k hk => ?_⟩
  induction m generalizing y k with
  | zero => exact absurd hk (Nat.not_lt_zero k)
  | succ m ih =>
    simp only [copyMatch]
    cases k with
    | zero =>
      have hlt : y.length - off < y.length := by omega
      simp [List.getElem?_append_left hlt, hlt]
    | succ k =>
      have hrest := ih (y ++ [y.getD (y.length - off) 0]) (by rw [List.length_append]; omega) k (by omega)
      rwa [List.length_append, List.length_singleton, Nat.add_assoc, Nat.add_comm 1 k, List.append_assoc] at hrest

/-- Where the bytes of a sequence repeat those `off` before them, the match at a place gives the bytes that stand there. -/
theorem copyMatch_take {z : Bytes} {off : Nat} (h1 : 1 ≤ off) : ∀ {m n : Nat}, off ≤ n → n + m ≤ z.length →
    (∀ j < m, z[n + j]? = z[n + j - off]?) → copyMatch (z.take n) off m = (z.drop n).take m := by
  intro m
  induction m with
  | zero => exact fun _ _ _ => rfl
  | succ m ih =>
    intro n hoff hlen hrep
    have hn : n < z.length := by omega
    have hbyte : (z.take n).getD ((z.take n).length - off) 0 = z[n] := by
      have hsrc : z[n - off]? = some z[n] := (hrep 0 (Nat.succ_pos m)).symm.trans (List.getElem?_eq_getElem hn)
      rw [List.length_take, Nat.min_eq_left hn.le, List.getD_eq_getElem?_getD, List.getElem?_take_of_lt (by omega), hsrc]
      rfl
    have hrest := ih (n := n + 1) (by omega) (by omega) fun j hj => by
      have := hrep (j + 1) (by omega)
      rwa [Nat.add_comm j 1, ← Nat.add_assoc] at this
    simp only [copyMatch, hbyte, List.take_append_getElem hn, hrest, List.drop_eq_getElem_cons hn, List.take_succ_cons]

/-! ## The round trip (R144) -/

/-- A valid sequence, read where its literals start, appends its literals and its match to the output (R131 (c) to (e)). -/
theorem Parser.seq_valid {p : Parser} {x : Bytes} {n : Nat} {m : MatchSeq} (hout : p.out = x.take n) (hcap : x.length ≤ p.cap)
    (hv : matchValid p.hist x n m = true) :
    p.seq m.lit (BitVec.ofNat 16 m.off) m.len = .more { p with
      rest := p.rest.drop (encode (.seq m.lit (BitVec.ofNat 16 m.off) m.len)).length,
      out := x.take (n + m.lit.length + m.len), off := m.off, ml := lengthNibble (m.len - minMatch), phase := .token } := by
  obtain ⟨⟨hlit, hlen, h1, hmax, hoff, hend, hlast⟩, hrep⟩ := matchValid_iff.mp hv
  have hlits : p.out ++ m.lit = x.take (n + m.lit.length) := by rw [hout, List.take_add, ← hlit]
  have hlits_len : (x.take (n + m.lit.length)).length = n + m.lit.length := by rw [List.length_take]; omega
  have hfits : ¬p.cap < p.out.length + m.lit.length := by rw [← List.length_append, hlits, hlits_len]; omega
  have hroom : (x.take (n + m.lit.length)).length + m.len ≤ p.cap := by rw [hlits_len]; omega
  have hoff16 : (BitVec.ofNat 16 m.off).toNat = m.off := by
    rw [BitVec.toNat_ofNat]
    exact Nat.mod_eq_of_lt (Nat.lt_succ_of_le hmax)
  have hcopy : copyMatch (p.hist ++ x.take (n + m.lit.length)) m.off m.len = (x.drop (n + m.lit.length)).take m.len := by
    have := copyMatch_take h1 (z := p.hist ++ x) hoff (by rw [List.length_append]; omega) hrep
    rwa [List.take_length_add_append, List.drop_length_add_append] at this
  rw [Parser.seq, if_neg hfits, hlits, hoff16]
  refine (Parser.copy_more (Nat.one_le_iff_ne_zero.mp h1) (hlits_len.symm ▸ hoff) hroom).trans ?_
  rw [hcopy, ← List.take_add]

/-- The parser over an encoded valid list, with the input decoded up to where the list starts, gives the whole input. -/
theorem Parser.result_tokenGen {x last : Bytes} : ∀ {seqs : List MatchSeq} {p : Parser} {n : Nat}, p.phase = .token →
    p.rest = tokenGen ⟨seqs, last⟩ → p.out = x.take n → x.length ≤ p.cap → seqsValid p.hist x last n seqs = true →
    p.result = .ok x := by
  intro seqs
  induction seqs with
  | nil =>
    intro p n hph hrest hout hcap hv
    obtain rfl : x.drop n = last := of_decide_eq_true hv
    have hall : p.out ++ x.drop n = x := by rw [hout, List.take_append_drop]
    rw [(Parser.result_last hph hrest).1, Parser.last, ← List.length_append, hall, if_neg (Nat.not_lt.mpr hcap)]
    rfl
  | cons m seqs ih =>
    intro p n hph hrest hout hcap hv
    obtain ⟨hm, hv⟩ := Bool.and_eq_true_iff.mp hv
    obtain ⟨⟨-, hlen, -⟩, -⟩ := matchValid_iff.mp hm
    have hcons : p.rest = encode (.seq m.lit (BitVec.ofNat 16 m.off) m.len) ++ tokenGen ⟨seqs, last⟩ := by
      simp only [hrest, tokenGen, List.flatMap_cons, List.append_assoc]
    rw [(Parser.result_seq hph hlen hcons).1, Parser.seq_valid hout hcap hm]
    exact ih rfl (by rw [hcons, List.drop_left]) rfl hcap hv

/-- Settles O54: the matcher's list is valid (R131), and the parser over the encoding of a valid list gives the input. -/
theorem blockRoundTrip : Obligations.BlockRoundTrip := by
  intro c x h level cap hx hcap
  have hvalid := (Bool.and_eq_true_iff.mp (matcherGivesValidLists c (clampLevel c level) h x hx)).1
  exact Parser.result_tokenGen (p := Parser.start (encodeBlock c x h level) h cap) rfl rfl rfl hcap hvalid

/-! ## `BLK_BOUND` (R140) -/

/-- Settles O30: `BLK_BOUND` uses no region, so neither a race nor memory with read side effects reaches it. -/
theorem blkBoundCompletes : Obligations.BlkBoundCompletes := by
  intro s
  have hp : s.OnPlain .blkBound := ⟨fun _ hr => absurd hr List.not_mem_nil, fun hw => absurd hw (by decide)⟩
  have hbody : bodyOf .blkBound s s.snapshot = .ok ⟨[], bound s.snapshot.srcLen.toNat, id⟩ := rfl
  have hdone : s.complete .blkBound [] (bound s.snapshot.srcLen.toNat) = s.okState s.snapshot [] (bound s.snapshot.srcLen.toNat) := rfl
  rw [exec_command (by decide), State.command_body rfl, hbody, State.finish_ok (.inl rfl) hp]
  exact congrArg Host.Outcome.next (hdone.trans (s.okState_nil _ _))

/-! ## The errors of the block decoder (R122, R128) -/

/-! ### What raises in the parser -/

theorem Parser.copy_offsetZero {p : Parser} (m : Nat) (h : p.off = 0) : p.copy m = .fail .offsetZero := if_pos h

theorem Parser.copy_offsetRange {p : Parser} (m : Nat) (h0 : p.off ≠ 0) (h : p.hist.length + p.out.length < p.off) :
    p.copy m = .fail .offsetRange := (if_neg h0).trans (if_pos h)

theorem Parser.copy_full {p : Parser} {m : Nat} (h0 : p.off ≠ 0) (hoff : p.off ≤ p.hist.length + p.out.length)
    (h : p.cap < p.out.length + m) : p.copy m = .fail .dstFull :=
  (if_neg h0).trans ((if_neg (Nat.not_lt.mpr hoff)).trans (if_pos h))

/-- A whole sequence whose literals fit is its match, after them. -/
theorem Parser.seq_fits {p : Parser} {lit : Bytes} (off : BitVec 16) (len : Nat) (h : p.out.length + lit.length ≤ p.cap) :
    p.seq lit off len = { p with rest := p.rest.drop (encode (.seq lit off len)).length, out := p.out ++ lit, off := off.toNat,
                                 ml := lengthNibble (len - minMatch) }.copy len := if_neg (Nat.not_lt.mpr h)

theorem Parser.literals_truncated {p : Parser} {n : Nat} (h : p.rest.length < n) : p.literals n = .fail .truncated := if_pos h

/-- An extension ends with a byte that is not 255. -/
theorem scanExt_none {bs : Bytes} (h : ∀ b ∈ bs, b = 255) : scanExt bs = none := by
  cases hs : scanExt bs with
  | none => rfl
  | some x =>
    obtain ⟨hbs, hf⟩ := scanExt_some hs
    exact absurd (h x.2.1 (by simp [hbs, extBytes])) hf

theorem Parser.next_token_nil {p : Parser} (hph : p.phase = .token) (h : p.rest = []) : p.next = .fail .truncated := by
  simp only [Parser.next, hph, h]

theorem Parser.next_ext_truncated {p : Parser} (hph : p.phase = .litExt ∨ p.phase = .matchExt) (h : ∀ b ∈ p.rest, b = 255) :
    p.next = .fail .truncated := by
  rcases hph with hph | hph <;> simp only [Parser.next, hph, scanExt_none h]

theorem Parser.next_offset_truncated {p : Parser} (hph : p.phase = .offset) (h : p.rest.length < 2) :
    p.next = .fail .truncated := by
  match hr : p.rest with
  | [] => simp only [Parser.next, hph, hr]
  | [b] => simp only [Parser.next, hph, hr]
  | b0 :: b1 :: bs => simp [hr] at h

/-- Where no bytes are left the token parser reads a token at every grain. -/
theorem fetchBlock_nil {p : Parser} (g : Grain) (hph : p.phase = .token) (h : p.rest = []) :
    fetchBlock g p = elementIn p.phase.slot p.rest .truncated := by
  rw [fetchBlock, hph, h]
  exact ite_self _

/-! ### What raises in the engine -/

section
variable {s : State} {r : Run} {use : BlockUse} {p : Parser} (he : s.engine = .running r) (hp : r.progress = .block use p)
  (hplain : s.OnPlain use.command)
include he hp hplain

/-- An element that raises ends the command the block is decoded for. -/
theorem exec_inBlock_fails {i : Instr} {phases : List ParserPhase} {f : Parser → Parse} {c : ErrCode}
    (hx : exec i s = s.inBlock phases f) (hph : p.phase ∈ phases) (hf : f p = .fail c) : Fails (exec i s) (use.error c) := by
  rw [hx, State.inBlock_at he hp hph, hf, State.afterParse_fail]
  exact State.finish_fails hplain _

theorem exec_inBlock_truncated {i : Instr} {phases : List ParserPhase} {f : Parser → Parse}
    (hx : exec i s = s.inBlock phases f) (hph : p.phase ∈ phases) (hf : f p = .fail .truncated) : Fails (exec i s) .truncated :=
  use.error_truncated ▸ exec_inBlock_fails he hp hplain hx hph hf

/-- A block whose bytes end inside the element at the cursor. -/
theorem engineTurn_block_truncated {g : Grain} (hg : fetchBlock g p = elementIn p.phase.slot p.rest .truncated)
    (hn : p.next = .fail .truncated) : Fails (engineTurn g s) .truncated := by
  rw [engineTurn_element he hp hg, hn, State.afterParse_fail, use.error_truncated]
  exact State.finish_fails hplain _

end

/-! ## The errors of the encoders (R265) -/

/-- The bits of FCFG's FLG that add fields to the header (R92). -/
theorem Args.headerLength_flg (A : Args) : headerLength A.flg =
    7 + (if A.fcfg.getLsbD 3 then 8 else 0) + (if A.fcfg.getLsbD 0 then 4 else 0) := by
  have bit (k : Nat) (hk : k < 8) : A.flg.getLsbD k = A.fcfg.getLsbD k := by simp [Args.flg, hk]
  rw [headerLength, cSize, hasDictId, bit 3 (by decide), bit 0 (by decide)]

theorem fitOut_full {A : Args} {d : Done} (h : A.room < d.out.length) : fitOut A d = .error (.err .dstFull) := if_pos h

section
variable {s : State} (hs : s.Calm) {A : Args}
include hs

theorem blkEncodeBody_full {x h : Bytes} (hle : A.srcLen.toNat ≤ maxInput) (hx : s.Source A x) (hh : s.Dictionary A h)
    (hfull : A.room < (encodeBlock s.cfg x h A.levelInt).length) : blkEncodeBody s A = .error (.err .dstFull) := by
  refine (if_neg (Nat.not_lt.mpr hle)).trans ((bind_of_ok (State.readSrc_calm hs hx) _).trans ?_)
  exact (bind_of_ok (State.readDict_calm hs hh) _).trans (fitOut_full hfull)

theorem sesEncBody_full {x : Bytes} (hle : A.srcLen.toNat ≤ maxInput) (hx : s.Source A x)
    (hfull : A.room < (encodeBlock s.cfg x s.eses.history A.levelInt).length) : sesEncBody s A = .error (.err .dstFull) :=
  (if_neg (Nat.not_lt.mpr hle)).trans ((bind_of_ok (State.readSrc_calm hs hx) _).trans (fitOut_full hfull))

theorem fencOpenBody_full {d : Bytes} (hd : s.Dictionary A d) (hfull : A.room < (frameHeader A.flg A.bd A.csize A.dictId).length) :
    fencOpenBody s A = .error (.err .dstFull) := (bind_of_ok (State.readDict_calm hs hd) _).trans (fitOut_full hfull)

theorem fencWriteBody_full (hf : s.fenc.Ok s.cfg) (ho : s.fenc.isOpen) {x : Bytes} (hx : s.Source A x)
    (hfull : A.room < (recordsOf s.cfg s.fenc (s.fenc.stage ++ x) ((s.fenc.stage.length + x.length) / s.fenc.bs)).length) :
    fencWriteBody s A = .error (.err .dstFull) := by
  refine (bind_of_ok (State.readSrc_calm hs hx) _).trans ?_
  simp only [emitBlocks_eq s.cfg s.fenc (hf.bs_pos ho).2 hf.win, List.length_append]
  exact fitOut_full hfull

end

theorem fencCloseBody_contentSize {s : State} {A : Args} (hne : s.fenc.st ≠ .closed) (hc : s.fenc.flg.getLsbD 3 = true)
    (hsize : s.fenc.total ≠ s.fenc.csize) : fencCloseBody s A = .error (.err .contentSize) :=
  (if_neg hne).trans (if_pos ⟨hc, hsize⟩)

theorem fencCloseBody_full {s : State} {A : Args} (hf : s.fenc.Ok s.cfg) (ho : s.fenc.isOpen) (hne : s.fenc.st ≠ .closed)
    (hsize : s.fenc.flg.getLsbD 3 = true → s.fenc.total = s.fenc.csize)
    (hfull : A.room < (closingOf s.cfg s.fenc).length) : fencCloseBody s A = .error (.err .dstFull) := by
  have hlen : s.fenc.stage.length < 2 ^ 31 := (hf.stage ho).trans (hf.bs_pos ho).2
  have hok : ¬(cSize s.fenc.flg = true ∧ s.fenc.total ≠ s.fenc.csize) := fun ⟨h, hn⟩ => hn (hsize h)
  rw [fencCloseBody, if_neg hne, if_neg hok, closing_eq s.cfg s.fenc hlen]
  exact fitOut_full hfull

/-! ## The errors together -/

/-- Whole sequences: the literals first, then the offset, then the match (R122 steps (d), (h), (i) and (j)). -/
theorem exec_sequence_fails {s : State} {r : Run} {use : BlockUse} {p : Parser} (lit : Bytes) (off : BitVec 16) (len : Nat)
    (he : s.engine = .running r) (hp : r.progress = .block use p) (hph : p.phase = .token) (hplain : s.OnPlain use.command) :
    (p.cap < p.out.length + lit.length →
      Fails (exec (.last lit) s) (use.error .dstFull) ∧ Fails (exec (.seq lit off len) s) (use.error .dstFull)) ∧
    (p.out.length + lit.length ≤ p.cap → off = 0 → Fails (exec (.seq lit off len) s) (use.error .offsetZero)) ∧
    (p.out.length + lit.length ≤ p.cap → off ≠ 0 → p.hist.length + p.out.length + lit.length < off.toNat →
      Fails (exec (.seq lit off len) s) (use.error .offsetRange)) ∧
    (p.out.length + lit.length ≤ p.cap → off ≠ 0 → off.toNat ≤ p.hist.length + p.out.length + lit.length →
      p.cap < p.out.length + lit.length + len → Fails (exec (.seq lit off len) s) (use.error .dstFull)) := by
  have hmem : p.phase ∈ [ParserPhase.token] := List.mem_singleton.mpr hph
  have seqFails {c : ErrCode} (hseq : p.seq lit off len = .fail c) : Fails (exec (.seq lit off len) s) (use.error c) :=
    exec_inBlock_fails (f := fun p => p.seq lit off len) he hp hplain rfl hmem hseq
  refine ⟨fun hfull => ⟨?_, seqFails (if_pos hfull)⟩, fun hlit h0 => ?_, fun hlit h0 hoff => ?_, fun hlit h0 hoff hfull => ?_⟩
  · exact exec_inBlock_fails (f := fun p => p.last lit) he hp hplain rfl hmem (if_pos hfull)
  · exact seqFails ((Parser.seq_fits off len hlit).trans (Parser.copy_offsetZero len (congrArg BitVec.toNat h0)))
  · exact seqFails ((Parser.seq_fits off len hlit).trans (Parser.copy_offsetRange len (offset_toNat_ne_zero h0)
      (by simp only [List.length_append]; omega)))
  · exact seqFails ((Parser.seq_fits off len hlit).trans (Parser.copy_full (offset_toNat_ne_zero h0)
      (by simp only [List.length_append]; omega) (by simp only [List.length_append]; omega)))

/-- Settles O24: the token parser's checks in their order, and the encoders' before and after their reads. -/
theorem codecErrors : Obligations.CodecErrors := by
  refine ⟨?_, ?_, ?_, ?_⟩
  · rintro s r use p lit off len full he hp hph hplain rfl
    have hseq := exec_sequence_fails lit off len he hp hph hplain
    cases use <;> exact hseq
  · intro s r use p g he hp hplain
    refine ⟨fun hph hrest => ?_, fun hph hrest => ?_, fun hph ll ml hll _ hrest => ?_, fun hph ffs final hrest => ?_,
      fun hph hrest => ?_⟩
    · exact engineTurn_block_truncated he hp hplain (fetchBlock_nil g hph hrest) (Parser.next_token_nil hph hrest)
    · have hne : ¬(g = .sequence ∧ p.phase = .token) := by rcases hph with hph | hph <;> simp [hph]
      exact engineTurn_block_truncated he hp hplain (fetchBlock_element hne) (Parser.next_ext_truncated hph hrest)
    · exact exec_inBlock_truncated (f := fun p => p.token ll ml) he hp hplain rfl (by simp [hph])
        ((if_neg hll).trans (Parser.literals_truncated (by rw [List.length_drop]; omega)))
    · exact exec_inBlock_truncated (f := fun p => if p.phase = .litExt then p.litExt ffs final else p.matchExt ffs final)
        he hp hplain rfl (by simp [hph])
        ((if_pos hph).trans (Parser.literals_truncated (by rw [List.length_drop, extValue]; omega)))
    · exact engineTurn_block_truncated he hp hplain (fetchBlock_element (by simp [hph])) (Parser.next_offset_truncated hph hrest)
  · exact fun s hlen => ⟨fun hu hplain => exec_fails (by decide) hu hplain (if_pos hlen),
      fun hu hplain => exec_fails (by decide) hu hplain (if_pos hlen)⟩
  · rintro s A x h rfl hs hwin
    refine ⟨fun hu hle hx hh hfull => ?_, fun hu hle hx hh hfull => ?_, fun hu hh hfull => ?_, fun hf hu hx hfull => ?_,
      fun hf hu hne => ?_⟩
    · exact exec_fails (by decide) hu ⟨List.forall_mem_cons.mpr ⟨hx.2.1, List.forall_mem_singleton.mpr hh.2.1⟩, fun _ => hwin⟩
        (blkEncodeBody_full hs hle hx hh hfull)
    · subst hh
      exact exec_fails (by decide) hu ⟨List.forall_mem_singleton.mpr hx.2.1, fun _ => hwin⟩ (sesEncBody_full hs hle hx hfull)
    · rw [← s.snapshot.headerLength_flg] at hfull
      exact exec_fails (by decide) hu ⟨List.forall_mem_singleton.mpr hh.2.1, fun _ => hwin⟩
        (fencOpenBody_full hs hh ((frameHeader_length ..).symm ▸ hfull))
    · exact exec_fails (by decide) hu ⟨List.forall_mem_singleton.mpr hx.2.1, fun _ => hwin⟩
        (fencWriteBody_full hs hf (isOpen_of_fencWrite (usageError_none_iff.mp hu).1) hx hfull)
    · have hplain : s.OnPlain .fencClose := ⟨fun _ hr => absurd hr List.not_mem_nil, fun _ => hwin⟩
      have hopen := isOpen_of_fencClose (usageError_none_iff.mp hu).1
      exact ⟨fun hc hsize => exec_fails (by decide) hu hplain (fencCloseBody_contentSize hne hc hsize),
        fun hsize hfull => exec_fails (by decide) hu hplain (fencCloseBody_full hf hopen hne hsize hfull)⟩

end Sys2Proof.Machine
end

section
/-! PROOF. The streaming sessions: the window is the latest bytes (O55), the resets complete (O32), and every transition of the two
state machines (O27). -/

namespace Sys2Proof.Machine

/-! ## The window (R170, R171) -/

/-- A linked session takes plaintexts one by one as it would take them all at once. -/
theorem Session.foldl_advance_linked {c : Session} (hl : c.linked = true) (hw : c.win.length ≤ winSize) (xs : List Bytes) :
    (xs.foldl Session.advance c).win = lastBytes winSize (c.win ++ xs.flatten) := by
  induction xs generalizing c with
  | nil => rw [List.flatten_nil, List.append_nil, lastBytes_short hw, List.foldl_nil]
  | cons x xs ih =>
    have hwin : (c.advance x).win = lastBytes winSize (c.win ++ x) := if_pos hl
    rw [List.foldl_cons, ih (c := c.advance x) hl (hwin ▸ lastBytes_length_le _ _), hwin, lastBytes_append, List.append_assoc,
      List.flatten_cons]

theorem Session.foldl_advance_unlinked {c : Session} (hl : c.linked = false) (xs : List Bytes) :
    (xs.foldl Session.advance c).win = c.win := by
  induction xs generalizing c with
  | nil => rfl
  | cons x xs ih =>
    have hwin : (c.advance x).win = c.win := if_neg (Bool.eq_false_iff.mp hl)
    rw [List.foldl_cons, ih (c := c.advance x) hl, hwin]

/-- Settles O55, by induction on the plaintexts: appending to the latest bytes is appending to all of them. -/
theorem windowIsTheLatestBytes : Obligations.WindowIsTheLatestBytes :=
  ⟨fun w d => ⟨rfl, winAppend_length_le w d⟩, fun _ xs hd => Session.foldl_advance_linked rfl hd xs,
    fun _ xs => Session.foldl_advance_unlinked rfl xs⟩

/-! ## The resets (R173, R175) -/

/-- The four forms of a session reset. -/
def sessionResets : List Instr := [.sesEncReset, .sesEncResetLinked, .sesDecReset, .sesDecResetLinked]

/-- A session reset is a command that any session state permits, and uses the dictionary region alone. -/
theorem sessionReset_uses {i : Instr} (hi : i ∈ sessionResets) (s : State) (A : Args) :
    i ∈ commands ∧ stateForbids i s = false ∧ configForbids i s A = false ∧ regionsRead i s A = [A.dict] ∧
      writesDst i = false := by
  simp only [sessionResets, List.mem_cons, List.not_mem_nil, or_false] at hi
  rcases hi with rfl | rfl | rfl | rfl <;> exact ⟨by decide, rfl, rfl, rfl, rfl⟩

/-- A session reset whose body succeeds, without a race. -/
theorem exec_sessionReset {i : Instr} (hi : i ∈ sessionResets) {s : State} (hs : s.Calm) (hdict : s.snapshot.DictOk)
    (hplain : s.Plain s.snapshot.dict) {commit : State → State} (hb : bodyOf i s s.snapshot = .ok ⟨[], 0, commit⟩) :
    exec i s = .next ((commit s).okPlain s.snapshot 0) := by
  obtain ⟨hcmd, hst, hcf, hreads, hw⟩ := sessionReset_uses hi s s.snapshot
  have hu : usageError i s s.snapshot = none :=
    usageError_none hst hcf (hreads ▸ List.forall_mem_singleton.mpr hdict) fun h => absurd (hw.symm.trans h) Bool.false_ne_true
  have hp : s.OnPlain i :=
    ⟨hreads ▸ List.forall_mem_singleton.mpr hplain, fun h => absurd (hw.symm.trans h) Bool.false_ne_true⟩
  rw [exec_ok hcmd hu hb hs (.inl rfl) hp, State.okState_nil]

/-- Settles O32: past the usage checks a reset's body reads the dictionary, and its commit opens the session with it. -/
theorem sessionResetsComplete : Obligations.SessionResetsComplete := by
  rintro s _ d rfl hs hdict hd
  have enc (linked : Bool) : sesEncResetBody linked s s.snapshot =
      .ok ⟨[], 0, fun s => { s with eses := Session.opened linked d }⟩ := bind_of_ok (State.readDict_calm hs hd) _
  have dec (linked : Bool) : sesDecResetBody linked s s.snapshot =
      .ok ⟨[], 0, fun s => { s with dses := Session.opened linked d }⟩ := bind_of_ok (State.readDict_calm hs hd) _
  refine ⟨?_, ?_, ?_, ?_⟩
  · exact exec_sessionReset (i := .sesEncReset) (by decide) hs hdict hd.2.1 (enc false)
  · exact exec_sessionReset (i := .sesEncResetLinked) (by decide) hs hdict hd.2.1 (enc true)
  · exact exec_sessionReset (i := .sesDecReset) (by decide) hs hdict hd.2.1 (dec false)
  · exact exec_sessionReset (i := .sesDecResetLinked) (by decide) hs hdict hd.2.1 (dec true)

/-! ## How a command ended, by its error -/

section
variable {i : Instr} {s t : State} (hi : i ∈ commands) (hp : s.OnPlain i) (h : exec i s = .next t) (he : t.engine = .idle)
include hi hp h he

/-- On plain memory a command that ended with an error raised it, as a usage error or as one of its body's. -/
theorem exec_error_cases {c : ErrCode} (hc : t.lastError = some c) :
    t = s.raise i c ∧ (usageError i s s.snapshot = some c ∨ c ∈ bodyErrors i) := by
  rcases exec_ends_plain hi hp h he with ⟨c', hcause, rfl⟩ | ⟨-, d, -, -, -, rfl⟩
  · obtain rfl := Option.some.inj ((State.raise_lastError ..).symm.trans hc)
    exact ⟨rfl, hcause.imp_right And.right⟩
  · exact absurd hc (by simp)

/-- On plain memory a command that ended without an error completed as its body says. -/
theorem exec_noError (hc : t.lastError = none) :
    ∃ d, bodyOf i s s.snapshot = .ok d ∧ t = (d.commit s).complete i d.out d.result := by
  rcases exec_ends_plain hi hp h he with ⟨c, -, rfl⟩ | ⟨-, d, hd, -, -, ht⟩
  · exact absurd hc (by simp)
  · exact ⟨d, hd, ht⟩

end

/-- A command that its context's state forbids raises `ERR_BAD_STATE`, whatever memory its regions lie over. -/
theorem exec_forbidden {i : Instr} {s : State} (hi : i ∈ commands) (hst : stateForbids i s = true) :
    exec i s = .next (s.raise i .badState) := by
  rw [exec_command hi, State.command_usage (if_pos hst)]

theorem usageError_ne_badState {i : Instr} {s : State} {A : Args} (hst : stateForbids i s = false) :
    usageError i s A ≠ some .badState := by
  simp only [usageError, hst]
  cases configForbids i s A <;> cases rangeBad i s A <;> cases overlapBad i s A <;> decide

/-- No body raises a usage error. -/
theorem bodyErrors_not_usage {i : Instr} {c : ErrCode} (h : c ∈ bodyErrors i) : c.isUsage = false := by
  cases i with
  | token | lenext | offset | seq | last | magic | flg | bd | hc | blockwordLz4 | blockwordRaw | endMark =>
    exact absurd h List.not_mem_nil
  | _ =>
    revert c
    decide

/-! ## The state machine (R178)

Stated for a session `own` of the machine, ESES or DSES. -/

section
variable {i : Instr} {s t : State} {own : State → Session} (hi : i ∈ commands) (hp : s.OnPlain i) (h : exec i s = .next t)
  (he : t.engine = .idle)
include hi hp h he

/-- A command without errors of its body that leaves its session FRESH. -/
theorem sessionReset_ends (hbody : bodyErrors i = []) (hraise : ∀ c, c.isUsage = true → own (s.raise i c) = own s)
    (hok : ∀ d, bodyOf i s s.snapshot = .ok d → (own ((d.commit s).complete i d.out d.result)).st = .fresh) :
    (t.lastError = none → (own t).st = .fresh) ∧ ∀ c, t.lastError = some c → c.isUsage = true ∧ own t = own s := by
  refine ⟨fun hn => ?_, fun c hc => ?_⟩
  · obtain ⟨d, hd, rfl⟩ := exec_noError hi hp h he hn
    exact hok d hd
  · obtain ⟨rfl, hu | hb⟩ := exec_error_cases hi hp h he hc
    · exact ⟨usageError_isUsage hu, hraise c (usageError_isUsage hu)⟩
    · exact absurd (hbody ▸ hb) List.not_mem_nil

/-- A command that leaves its session PRIMED, or POISONED where its body raises. -/
theorem sessionBlock_ends (hst : stateForbids i s = false)
    (hraise : ∀ c, if c.isUsage then own (s.raise i c) = own s else own (s.raise i c) = { own s with st := .poisoned })
    (hok : ∀ d, bodyOf i s s.snapshot = .ok d → (own ((d.commit s).complete i d.out d.result)).st = .primed) :
    (t.lastError = none → (own t).st = .primed) ∧ ∀ c, t.lastError = some c →
      c ≠ .badState ∧ (if c.isUsage then own t = own s else own t = { own s with st := .poisoned }) := by
  refine ⟨fun hn => ?_, fun c hc => ?_⟩
  · obtain ⟨d, hd, rfl⟩ := exec_noError hi hp h he hn
    exact hok d hd
  · obtain ⟨rfl, hcause⟩ := exec_error_cases hi hp h he hc
    refine ⟨?_, hraise c⟩
    rintro rfl
    rcases hcause with hu | hb
    · exact usageError_ne_badState hst hu
    · exact absurd (bodyErrors_not_usage hb) (by decide)

end

/-! ### What each session's commands do to it -/

theorem State.raise_sessions_usage (s : State) (i : Instr) {c : ErrCode} (hc : c.isUsage = true) :
    (s.raise i c).eses = s.eses ∧ (s.raise i c).dses = s.dses := by
  obtain ⟨heses, hdses, -⟩ := s.raise_contexts i c
  rw [heses, hdses, State.spoil_usage hc]
  exact ⟨rfl, rfl⟩

theorem State.raise_sesEnc (s : State) (c : ErrCode) :
    if c.isUsage then (s.raise .sesEnc c).eses = s.eses else (s.raise .sesEnc c).eses = { s.eses with st := .poisoned } := by
  rw [(s.raise_contexts .sesEnc c).1, State.spoil]
  split <;> rfl

theorem State.raise_sesDec (s : State) (c : ErrCode) :
    if c.isUsage then (s.raise .sesDec c).dses = s.dses else (s.raise .sesDec c).dses = { s.dses with st := .poisoned } := by
  rw [(s.raise_contexts .sesDec c).2.1, State.spoil]
  split <;> rfl

section
variable {s : State} {A : Args} {d : Done}

theorem sesEncResetBody_fresh {linked : Bool} (h : sesEncResetBody linked s A = .ok d) : (d.commit s).eses.st = .fresh := by
  obtain ⟨x, -, h⟩ := bind_ok h
  obtain rfl := Except.ok.inj h
  rfl

theorem sesDecResetBody_fresh {linked : Bool} (h : sesDecResetBody linked s A = .ok d) : (d.commit s).dses.st = .fresh := by
  obtain ⟨x, -, h⟩ := bind_ok h
  obtain rfl := Except.ok.inj h
  rfl

theorem sesEncBody_primed (h : sesEncBody s A = .ok d) : (d.commit s).eses.st = .primed := by
  obtain ⟨-, h⟩ := guard_ok h
  obtain ⟨x, -, h⟩ := bind_ok h
  obtain ⟨rfl, -⟩ := fitOut_ok h
  rfl

theorem sesDecBody_primed (h : sesDecBody s A = .ok d) : (d.commit s).dses.st = .primed := by
  obtain ⟨p, -, h⟩ := bind_ok h
  obtain ⟨out, -, h⟩ := bind_ok h
  obtain rfl := Except.ok.inj h
  rfl

end

/-- Settles O27: each command's errors and success as they bear on its own session, and every other command's frame. -/
theorem sessionStateMachine : Obligations.SessionStateMachine := by
  refine ⟨fun i s t hi h he => ⟨?_, ?_, ?_, ?_, ?_, ?_, (exec_endFrame hi h).eses, (exec_endFrame hi h).dses⟩,
    fun s t h => ?_⟩
  · rintro (rfl | rfl) hp <;>
      exact sessionReset_ends (own := State.eses) hi hp h he rfl (fun c hc => (s.raise_sessions_usage _ hc).1) fun d hd =>
        (congrArg Session.st (State.complete_eses ..)).trans (sesEncResetBody_fresh hd)
  · rintro (rfl | rfl) hp <;>
      exact sessionReset_ends (own := State.dses) hi hp h he rfl (fun c hc => (s.raise_sessions_usage _ hc).2) fun d hd =>
        (congrArg Session.st (State.complete_dses ..)).trans (sesDecResetBody_fresh hd)
  · rintro rfl hst hp
    exact sessionBlock_ends (own := State.eses) hi hp h he (sesEnc_permitted hst) s.raise_sesEnc fun d hd =>
      (congrArg Session.st (State.complete_eses ..)).trans (sesEncBody_primed hd)
  · rintro rfl hst hp
    exact sessionBlock_ends (own := State.dses) hi hp h he (sesDec_permitted hst) s.raise_sesDec fun d hd =>
      (congrArg Session.st (State.complete_dses ..)).trans (sesDecBody_primed hd)
  · rintro rfl hst
    obtain rfl := Host.Outcome.next.inj ((exec_forbidden hi (beq_iff_eq.mpr hst)).symm.trans h)
    exact ⟨State.raise_lastError .., (s.raise_sessions_usage _ rfl).1⟩
  · rintro rfl hst
    obtain rfl := Host.Outcome.next.inj ((exec_forbidden hi (beq_iff_eq.mpr hst)).symm.trans h)
    exact ⟨State.raise_lastError .., (s.raise_sessions_usage _ rfl).2⟩
  · obtain rfl := Host.Outcome.next.inj h
    exact ⟨rfl, rfl⟩

end Sys2Proof.Machine
end

section
/-! PROOF. The frame encoder: the examples of its checksums (O58), chunks of a frame (O56), the commands that a context's state or a
configuration forbids (O20), and every transition of the state machine (O28). -/

namespace Sys2Proof.Machine

/-! ## The checksums (R192, R193) -/

/-- Settles O58, by evaluation. -/
theorem checksumExamples : Obligations.ChecksumExamples := by
  unfold Obligations.ChecksumExamples
  decide

/-! ## Chunks (R200) -/

/-- The blocks are cut off the front: what is left begins after them. -/
theorem emitBlocks_left (c : Config) (f : Fenc) (k : Nat) : ∀ buf w : Bytes, (emitBlocks c f k buf w).2.1 = buf.drop (k * f.bs) := by
  induction k with
  | zero => exact fun buf _ => by rw [emitBlocks, Nat.zero_mul, List.drop_zero]
  | succ k ih => exact fun buf w => (ih _ _).trans (by rw [List.drop_drop, Nat.succ_mul, Nat.add_comm])

/-- The bytes staged and the window of a context play no part beside the buffer and the window given. -/
theorem emitBlocks_setStage (c : Config) (f : Fenc) (stage win : Bytes) (k : Nat) : ∀ buf w : Bytes,
    emitBlocks c { f with stage := stage, win := win } k buf w = emitBlocks c f k buf w := by
  induction k with
  | zero => exact fun _ _ => rfl
  | succ k ih =>
    intro buf w
    simp only [emitBlocks, ih]
    rfl

/-- Cutting `k` blocks, then `m` more from what is left with `y` after it, is cutting `k + m` blocks with `y` there from the start. -/
theorem emitBlocks_add_append (c : Config) (f : Fenc) (m : Nat) (y : Bytes) (k : Nat) : ∀ buf w : Bytes, k * f.bs ≤ buf.length →
    ∀ one two : Bytes × Bytes × Bytes, one = emitBlocks c f k buf w → two = emitBlocks c f m (one.2.1 ++ y) one.2.2 →
      emitBlocks c f (k + m) (buf ++ y) w = (one.1 ++ two.1, two.2) := by
  induction k with
  | zero =>
    rintro buf w - one two rfl rfl
    rw [Nat.zero_add]
    rfl
  | succ k ih =>
    rintro buf w hk one two rfl rfl
    rw [Nat.succ_mul] at hk
    have hbs : f.bs ≤ buf.length := by omega
    have hrest : k * f.bs ≤ (buf.drop f.bs).length := by rw [List.length_drop]; omega
    rw [Nat.succ_add]
    simp only [emitBlocks, List.take_append_of_le_length hbs, List.drop_append_of_le_length hbs, ih _ _ hrest _ _ rfl rfl,
      List.append_assoc]

/-- Settles O56: the whole blocks of both chunks are those of the first, and those of what it leaves with the second. -/
theorem frameChunkingIsTransparent : Obligations.FrameChunkingIsTransparent := by
  rintro c f x y hbs one two both hone htwo rfl
  have hleft : one.2.1.length = (f.stage ++ x).length % f.bs := by
    rw [hone, emitBlocks_left, List.length_drop, ← Nat.mod_eq_sub_div_mul]
  have hcount : (f.stage ++ x ++ y).length / f.bs = (f.stage ++ x).length / f.bs + (one.2.1 ++ y).length / f.bs := by
    rw [List.length_append, List.length_append (as := one.2.1), hleft]
    conv_lhs => rw [← Nat.div_add_mod (f.stage ++ x).length f.bs, Nat.add_assoc, Nat.mul_add_div hbs]
  rw [hcount]
  exact emitBlocks_add_append c f _ y _ _ _ (Nat.div_mul_le_self _ _) one two hone (htwo.trans (emitBlocks_setStage ..))

/-! ## Commands that are forbidden (R262, R263) -/

theorem fencWrite_forbidden {s : State} (ho : s.fenc.st ≠ .opened) (hw : s.fenc.st ≠ .writing) : stateForbids .fencWrite s = true := by
  simp [stateForbids, ho, hw]

theorem fencClose_forbidden {s : State} (h : s.fenc.st = .idle ∨ s.fenc.st = .error) : stateForbids .fencClose s = true := by
  rcases h with h | h <;> simp [stateForbids, h]

theorem fdecRead_forbidden {s : State} (hr : s.fdec.st ≠ .readingBlocks) (hf : s.fdec.st ≠ .finished) :
    stateForbids .fdecRead s = true := by
  simp [stateForbids, hr, hf]

theorem usageError_badConfig {s : State} {A : Args} (h : fcfgLegal s.cfg A = false) :
    usageError .fencOpen s A = some .badConfig := by
  have hconfig : configForbids .fencOpen s A = true := by simp [configForbids, h]
  exact (if_neg Bool.false_ne_true).trans (if_pos hconfig)

/-- Settles O20: the state check comes first, then the configuration's, which `FENC_OPEN` alone has. -/
theorem stateAndConfigErrors : Obligations.StateAndConfigErrors := by
  intro s hr
  have forbidden {i : Instr} (hi : i ∈ commands) (hst : stateForbids i s = true) : exec i s = .next (s.errState .badState) :=
    exec_usage hi hr (if_pos hst)
  refine ⟨fun h => ?_, fun h => ?_, fun ho hw => ?_, fun h => ?_, fun hb hf => ⟨?_, ?_⟩, fun h => ?_⟩
  · exact forbidden (by decide) (beq_iff_eq.mpr h)
  · exact forbidden (by decide) (beq_iff_eq.mpr h)
  · exact forbidden (by decide) (fencWrite_forbidden ho hw)
  · exact forbidden (by decide) (fencClose_forbidden h)
  · exact forbidden (by decide) (fdecRead_forbidden hb hf)
  · exact forbidden (by decide) (fdecRead_forbidden hb hf)
  · have hillegal : fcfgLegal s.cfg s.snapshot = false := Bool.eq_false_iff.mpr fun hl => h ((fcfgLegal_iff ..).mp hl)
    exact exec_usage (by decide) hr (usageError_badConfig hillegal)

/-! ## The state machine (R202) -/

theorem State.raise_fenc_usage (s : State) (i : Instr) {c : ErrCode} (hc : c.isUsage = true) : (s.raise i c).fenc = s.fenc := by
  obtain ⟨-, -, hfenc, -⟩ := s.raise_contexts i c
  rw [hfenc, State.spoil_usage hc]

/-- An error of a frame encoder's command beyond the usage errors takes the frame to ERROR (R264). -/
theorem State.raise_fenc_error (s : State) {i : Instr} (hi : i ∈ [Instr.fencOpen, .fencWrite, .fencClose]) {c : ErrCode}
    (hc : c.isUsage = false) : (s.raise i c).fenc.st = .error := by
  obtain ⟨-, -, hfenc, -⟩ := s.raise_contexts i c
  have hspoil : s.spoil i c = failContext i (s.scramble s.snapshot.window) := if_neg (Bool.eq_false_iff.mp hc)
  rw [hfenc, hspoil]
  simp only [List.mem_cons, List.not_mem_nil, or_false] at hi
  rcases hi with rfl | rfl | rfl <;> rfl

section
variable {s : State} {A : Args} {d : Done}

theorem fencOpenBody_opened (h : fencOpenBody s A = .ok d) : (d.commit s).fenc.st = .opened := by
  obtain ⟨x, -, h⟩ := bind_ok h
  obtain ⟨rfl, -⟩ := fitOut_ok h
  rfl

theorem fencWriteBody_writing (h : fencWriteBody s A = .ok d) : (d.commit s).fenc.st = .writing := by
  obtain ⟨x, -, h⟩ := bind_ok h
  obtain ⟨rfl, -⟩ := fitOut_ok h
  rfl

theorem fencCloseBody_closes (hne : s.fenc.st ≠ .closed) (h : fencCloseBody s A = .ok d) : (d.commit s).fenc.st = .closed := by
  obtain ⟨-, h⟩ := guard_ok ((if_neg hne).symm.trans h)
  obtain ⟨rfl, -⟩ := fitOut_ok h
  rfl

end

section
variable {i : Instr} {s t : State} (hi : i ∈ commands) (h : exec i s = .next t)
include hi h

/-- A command that its context's state forbids leaves the frame encoder. -/
theorem fenc_of_forbidden (hst : stateForbids i s = true) : t.lastError = some .badState ∧ t.fenc = s.fenc := by
  obtain rfl := Host.Outcome.next.inj ((exec_forbidden hi hst).symm.trans h)
  exact ⟨State.raise_lastError .., s.raise_fenc_usage i rfl⟩

/-- A command of the frame encoder that success takes to the state `ok`, and an error of its body to ERROR. -/
theorem fenc_ends {ok : FencState} {P : ErrCode → Prop} (hfenc : i ∈ [Instr.fencOpen, .fencWrite, .fencClose])
    (hbody : ∀ c ∈ bodyErrors i, P c) (hok : ∀ d, bodyOf i s s.snapshot = .ok d → (d.commit s).fenc.st = ok)
    (hp : s.OnPlain i) (he : t.engine = .idle) : (t.lastError = none → t.fenc.st = ok) ∧
      ∀ c, t.lastError = some c → if c.isUsage then t.fenc = s.fenc else P c ∧ t.fenc.st = .error := by
  refine ⟨fun hn => ?_, fun c hc => ?_⟩
  · obtain ⟨d, hd, rfl⟩ := exec_noError hi hp h he hn
    rw [State.complete_fenc]
    exact hok d hd
  · obtain ⟨rfl, hcause⟩ := exec_error_cases hi hp h he hc
    split
    next hu => exact s.raise_fenc_usage i hu
    next hu =>
      have herr : c ∈ bodyErrors i := hcause.resolve_left fun hc => hu (usageError_isUsage hc)
      exact ⟨hbody c herr, s.raise_fenc_error hfenc (Bool.eq_false_iff.mpr hu)⟩

end

/-- `FENC_CLOSE` on a closed frame: its body cannot fail, and has no output (R199). -/
theorem exec_fencClose_closed {s t : State} (hst : s.fenc.st = .closed) (hp : s.OnPlain .fencClose)
    (h : exec .fencClose s = .next t) :
    (∃ c, c.isUsage = true ∧ t = s.raise .fencClose c) ∨ t = s.complete .fencClose [] 0 := by
  have hbody : bodyOf .fencClose s s.snapshot = .ok ⟨[], 0, id⟩ := if_pos hst
  rw [exec_command (by decide)] at h
  cases hu : usageError .fencClose s s.snapshot with
  | some c =>
    rw [State.command_usage hu] at h
    exact .inl ⟨c, usageError_isUsage hu, (Host.Outcome.next.inj h).symm⟩
  | none =>
    rw [State.command_body hu, hbody, State.finish_ok (.inl rfl) hp] at h
    exact .inr (Host.Outcome.next.inj h).symm

/-- Settles O28: each command's errors and success as they bear on the frame encoder, and every other command's frame. -/
theorem frameEncoderStateMachine : Obligations.FrameEncoderStateMachine := by
  refine ⟨fun i s t hi h he => ⟨?_, ?_, ?_, ?_, ?_, ?_, (exec_endFrame hi h).fenc⟩, fun s t h => ?_⟩
  · rintro rfl hp
    exact fenc_ends hi h (P := (· = .dstFull)) (by decide) (by decide) (fun _ hd => fencOpenBody_opened hd) hp he
  · rintro rfl - hp
    exact fenc_ends hi h (P := (· = .dstFull)) (by decide) (by decide) (fun _ hd => fencWriteBody_writing hd) hp he
  · rintro rfl hst
    exact fenc_of_forbidden hi h (by rcases hst with e | e | e <;> exact fencWrite_forbidden (by simp [e]) (by simp [e]))
  · rintro rfl hst hp
    have hne : s.fenc.st ≠ .closed := by rcases hst with e | e <;> simp [e]
    exact fenc_ends hi h (P := fun c => c = .contentSize ∨ c = .dstFull) (by decide) (by decide)
      (fun _ hd => fencCloseBody_closes hne hd) hp he
  · rintro rfl hst hp
    obtain ⟨c, hc, rfl⟩ | rfl := exec_fencClose_closed hst hp h
    · simp [s.raise_fenc_usage, hc]
    · simp
  · rintro rfl hst
    exact fenc_of_forbidden hi h (fencClose_forbidden hst)
  · obtain rfl := Host.Outcome.next.inj h
    rfl

end Sys2Proof.Machine
end

section
/-! PROOF. `FDEC_OPEN` of a frame header completes with its fields (O37). -/

namespace Sys2Proof.Machine

/-- A frame with the fields of a header, when its optional fields stand behind FLG and BD (R221, R226). -/
theorem Fdec.openedWith_descriptor (t : Fdec) (flg bd : Byte) (csize : BitVec 64) (dictid : Word) :
    ({ t with flg := flg, bd := bd } : Fdec).openedWith ((descriptor flg bd csize dictid).drop 2) =
      { t with st := .readingBlocks, pos := headerLength flg, flg := flg, bd := bd, bs := blockMax (bdCode bd),
               csize := if cSize flg then csize else 0, dictid := if hasDictId flg then dictid else 0 } := by
  have hskip (rest : Bytes) : le32At (le64 csize ++ rest) 8 = le32At rest 0 := by
    rw [← Nat.add_zero 8, ← le32At_drop, List.drop_left' (le64_length csize)]
  have hsize : le64At (le64 csize) 0 = csize := by simpa using le64At_le64 csize []
  have hid : le32At (le32 dictid) 0 = dictid := by simpa using le32At_le32 dictid []
  have hfields : (descriptor flg bd csize dictid).drop 2 =
      (if cSize flg then le64 csize else []) ++ (if hasDictId flg then le32 dictid else []) := by
    simp [descriptor]
  rw [hfields, Fdec.openedWith]
  cases cSize flg <;> cases hasDictId flg <;> simp [hskip, hid, hsize, le64At_le64]

/-- A header with its right checksum byte opens the frame with its fields (R220, R221). -/
theorem parseHeader_frameHeader {s : State} (hs : s.Calm) {t : Fdec} {flg bd : Byte} {csize : BitVec 64} {dictid : Word}
    (hx : s.FrameBytes t 0 (headerLength flg) (frameHeader flg bd csize dictid)) (hok : HeaderBytesOk s.cfg flg bd) :
    parseHeader s t = .ok { t with
      st := .readingBlocks, pos := headerLength flg, flg := flg, bd := bd, bs := blockMax (bdCode bd),
      csize := if cSize flg then csize else 0, dictid := if hasDictId flg then dictid else 0 } := by
  have h7 := headerLength_ge flg
  have hmagic : (encode .magic).length = 4 := rfl
  have hdesc : (descriptor flg bd csize dictid).length = headerLength flg - 5 := by
    have := frameHeader_length flg bd csize dictid
    simp only [frameHeader, List.length_append, List.length_singleton, hmagic] at this
    omega
  have hread : s.FrameBytes { t with flg := flg, bd := bd } 4 (headerLength flg - 5) (descriptor flg bd csize dictid) := by
    have hsub := hx.sub (j := 4) (k := headerLength flg - 5) (by omega)
    rwa [frameHeader, List.append_assoc, List.drop_left' hmagic, List.take_left' hdesc] at hsub
  have hsum : s.FrameBytes { t with flg := flg, bd := bd } (headerLength flg - 1) 1
      [headerChecksum (descriptor flg bd csize dictid)] := by
    have hsub := hx.sub (j := headerLength flg - 1) (k := 1) (by omega)
    have hlen : (encode .magic ++ descriptor flg bd csize dictid).length = headerLength flg - 1 := by
      rw [List.length_append, hdesc, hmagic]
      omega
    rwa [Nat.zero_add, frameHeader, List.drop_left' hlen] at hsub
  rw [parseHeader_of_bytes hs hx rfl rfl hok (by omega), bind_of_ok (headerSumByte_calm hs hsum), headerSum_calm hs hread]
  exact (if_pos rfl).trans (congrArg _ (Fdec.openedWith_descriptor ..))

/-- Settles O37: past the usage checks the body reads the dictionary and a header as the frame encoder emits it. -/
theorem fdecOpenCompletes : Obligations.FdecOpenCompletes := by
  rintro s _ d desc flg bd csize dictid hlen rfl hs hsrc hdict hd hok rfl rfl hn hacc hplain hx
  have hu : usageError .fdecOpen s s.snapshot = none :=
    usageError_none rfl rfl (List.forall_mem_cons.mpr ⟨hsrc, List.forall_mem_singleton.mpr hdict⟩) fun hw => absurd hw (by decide)
  have hp : s.OnPlain .fdecOpen :=
    ⟨List.forall_mem_cons.mpr ⟨hplain, List.forall_mem_singleton.mpr hd.2.1⟩, fun hw => absurd hw (by decide)⟩
  have hbytes : s.FrameBytes (Fdec.awaiting s.snapshot d) 0 (headerLength flg) (frameHeader flg bd csize dictid) :=
    Fdec.awaiting_frameBytes hn hacc hplain hx.symm
  have hbody : fdecOpenBody s s.snapshot = .ok (fdecOpenDone _) :=
    (bind_of_ok (State.readDict_calm hs hd) _).trans (bind_of_ok (parseHeader_frameHeader hs hbytes hok) _)
  rw [exec_ok (by decide) hu hbody hs (.inl rfl) hp]
  simp only [fdecOpenDone, State.okState_nil, Fdec.regs_eq, apply_ite (BitVec.extractLsb' _ _)]
  rfl

end Sys2Proof.Machine
end

section
/-! PROOF. `FDEC_READ` of pending bytes, in a finished frame, and of a frame at its End Mark completes (O38). -/

namespace Sys2Proof.Machine

/-! ## Steps of a read -/

section
variable {s : State} {rd rd' : Reader} (hdel : rd.deliver = .ok rd') (n : Nat)
include hdel

/-- A read that has enough after a delivery ends with it. -/
theorem readLoop_enough (h : rd'.enough = true) : readLoop s (n + 1) rd = .ok rd' :=
  (bind_of_ok hdel _).trans (if_pos h)

/-- A read that lacks bytes after a delivery goes on behind the next record. -/
theorem readLoop_record (h : rd'.enough = false) {t : Fdec} (ht : nextRecord s rd'.t = .ok t) :
    readLoop s (n + 1) rd = readLoop s n { rd' with t := t } :=
  (bind_of_ok hdel _).trans ((if_neg (Bool.eq_false_iff.mp h)).trans (bind_of_ok ht _))

end

/-- A read wants a number of bytes only where it is not a read to the end. -/
theorem Reader.start_want {s : State} {A : Args} {toEnd : Bool} {n : Nat} (h : (Reader.start s A toEnd).want = some n) :
    toEnd = false ∧ A.readLen.toNat = n := by
  cases toEnd with
  | true => exact absurd h (by simp [Reader.start])
  | false => exact ⟨rfl, Option.some.inj h⟩

/-- The bytes pending at the start of a read to the end, or of more than is pending, are all due. -/
theorem Reader.due_start {s : State} {A : Args} {toEnd : Bool} (h : toEnd = true ∨ s.fdec.pend.length ≤ A.readLen.toNat) :
    (Reader.start s A toEnd).due = s.fdec.pend.length := by
  refine Reader.due_of_lacking fun n hn => ?_
  obtain ⟨rfl, rfl⟩ := Reader.start_want hn
  exact (Nat.zero_add _).trans_le (h.resolve_left (by decide))

section
variable {s : State} {A : Args}

/-- A read of at most the pending bytes reads no record (R227). -/
theorem fdecReadBody_pending (hlen : A.readLen.toNat ≤ s.fdec.pend.length) (hroom : A.readLen.toNat ≤ A.room) :
    fdecReadBody false s A = .ok (fdecReadDone { Reader.start s A false with
      out := s.fdec.pend.take A.readLen.toNat, t := { s.fdec with pend := s.fdec.pend.drop A.readLen.toNat } }) := by
  have hdue : (Reader.start s A false).due = A.readLen.toNat := Nat.min_eq_left hlen
  have hdel := Reader.deliver_fits (rd := Reader.start s A false) (hdue ▸ (Nat.zero_add _).trans_le hroom)
  rw [hdue] at hdel
  refine bind_of_ok (readLoop_enough hdel _ (Reader.enough_of_want ?_)) _
  simp [Reader.start, hlen]

/-- A read of a finished frame with nothing pending gives nothing (R228). -/
theorem fdecReadBody_finished (hst : s.fdec.st = .finished) (hpend : s.fdec.pend = []) (toEnd : Bool) :
    fdecReadBody toEnd s A = .ok (fdecReadDone (Reader.start s A toEnd)) :=
  bind_of_ok (readLoop_enough (Reader.deliver_none hpend) _ (Reader.enough_of_finished hst)) _

end

section
variable {s : State} (hs : s.Calm) {t : Fdec}
include hs

/-- The end of a frame with a right trailer and the declared content size (R223). -/
theorem endOfFrame_calm (hsum : t.flg.getLsbD 2 = true → s.FrameBytes t (t.pos + 4) 4 (le32 (xxh32 t.plain 0)))
    (hsize : t.flg.getLsbD 3 = true → t.total = t.csize) :
    endOfFrame s t = .ok { t with pos := t.pos + 4 + (if t.flg.getLsbD 2 then 4 else 0), st := .finished } :=
  (bind_of_ok (trailer_calm hs hsum) _).trans (if_neg fun ⟨h, hn⟩ => hn (hsize h))

/-- At an End Mark the next record is the end of the frame (R222). -/
theorem nextRecord_endMark (hmark : s.FrameBytes t t.pos 4 [0x00, 0x00, 0x00, 0x00]) : nextRecord s t = endOfFrame s t := by
  have hword : recordWord s t = .ok 0 :=
    (if_neg (Nat.not_lt.mpr hmark.1)).trans (bind_of_ok (State.readFrame_calm hs hmark useFrame) _)
  exact (bind_of_ok hword _).trans (if_pos rfl)

/-- A read that the pending bytes leave short of its bytes, and that meets the End Mark, delivers them and ends the frame. -/
theorem fdecReadBody_endMark {A : Args} {toEnd : Bool} (hwant : toEnd = true ∨ s.fdec.pend.length < A.readLen.toNat)
    (hst : s.fdec.st = .readingBlocks) (hroom : s.fdec.pend.length ≤ A.room)
    (hmark : s.FrameBytes s.fdec s.fdec.pos 4 [0x00, 0x00, 0x00, 0x00])
    (hsum : s.fdec.flg.getLsbD 2 = true → s.FrameBytes s.fdec (s.fdec.pos + 4) 4 (le32 (xxh32 s.fdec.plain 0)))
    (hsize : s.fdec.flg.getLsbD 3 = true → s.fdec.total = s.fdec.csize) :
    fdecReadBody toEnd s A = .ok (fdecReadDone { Reader.start s A toEnd with
      out := s.fdec.pend,
      t := { s.fdec with pos := s.fdec.pos + 4 + (if s.fdec.flg.getLsbD 2 then 4 else 0), st := .finished, pend := [] } }) := by
  have hdue : (Reader.start s A toEnd).due = s.fdec.pend.length := Reader.due_start (hwant.imp_right Nat.le_of_lt)
  have hdel : (Reader.start s A toEnd).deliver =
      .ok { Reader.start s A toEnd with out := s.fdec.pend, t := { s.fdec with pend := [] } } := by
    have h := Reader.deliver_fits (rd := Reader.start s A toEnd) (hdue ▸ (Nat.zero_add _).trans_le hroom)
    rw [hdue] at h
    simpa [Reader.start] using h
  have hnext : nextRecord s { s.fdec with pend := [] } = .ok _ :=
    (nextRecord_endMark (t := { s.fdec with pend := [] }) hs hmark).trans
      (endOfFrame_calm (t := { s.fdec with pend := [] }) hs hsum hsize)
  refine bind_of_ok ((readLoop_record hdel _ (Reader.not_enough hst fun n hn => ?_) hnext).trans ?_) _
  · obtain ⟨rfl, rfl⟩ := Reader.start_want (s := s) hn
    exact hwant.resolve_left (by decide)
  · exact readLoop_enough (Reader.deliver_none rfl) _ (Reader.enough_of_finished rfl)

end

/-! ## A read that completes -/

section
variable {i : Instr} {s : State} (hi : i = .fdecRead ∨ i = .fdecReadToEnd) (hr : s.raced = [])
  (hst : s.fdec.st = .readingBlocks ∨ s.fdec.st = .finished)
  (hfit : s.fdec.base + s.fdec.pos + (s.fdec.len - s.fdec.pos) ≤ 2 ^ 32) (hdst : s.snapshot.DstOk)
  (hapart : s.snapshot.Apart (s.fdec.base + s.fdec.pos) (s.fdec.len - s.fdec.pos))
  (hsrc : s.Plain (s.fdec.base + s.fdec.pos, s.fdec.len - s.fdec.pos)) (hwindow : s.Plain s.snapshot.window)
include hi hr hst hfit hdst hapart hsrc hwindow

/-- A read that passes its usage checks, on plain memory without a race, completes with what its reader has. -/
theorem exec_read {rd : Reader} (hbody : bodyOf i s s.snapshot = .ok (fdecReadDone rd)) (htakes : s.takes rd.out) :
    exec i s = .next { s.okState s.snapshot rd.out rd.out.length with
      fdec := rd.t, fregs := { s.fregs with srcPos := BitVec.ofNat 32 rd.t.pos } } := by
  have hperm := fdecRead_permitted hst
  have hcheck : usageError .fdecRead s s.snapshot = none :=
    usageError_none hperm rfl (List.forall_mem_singleton.mpr hfit) fun _ => ⟨hdst, List.forall_mem_singleton.mpr hapart⟩
  have hplain : s.OnPlain .fdecRead := ⟨List.forall_mem_singleton.mpr hsrc, fun _ => hwindow⟩
  rcases hi with rfl | rfl
  · exact exec_ok (i := .fdecRead) (by decide) hcheck hbody hr htakes hplain
  · exact exec_ok (i := .fdecReadToEnd) (by decide) hcheck hbody hr htakes hplain

end

/-- Settles O38: past the usage checks the read's loop ends before its first record, or behind the End Mark. -/
theorem fdecReadCompletes : Obligations.FdecReadCompletes := by
  refine ⟨?_, ?_⟩
  · rintro s A rfl hr hst hfit hdst hapart hsrc hwindow
    refine ⟨fun hlen hsink => ?_, fun hfin hpend => ?_⟩
    · have hout : (s.fdec.pend.take s.snapshot.readLen.toNat).length = s.snapshot.readLen.toNat := by
        rw [List.length_take, Nat.min_eq_left hlen]
      have h := exec_read (.inl rfl) hr hst hfit hdst hapart hsrc hwindow (fdecReadBody_pending hlen hsink.1)
        (State.Sink.takes (hout.symm ▸ hsink))
      rwa [hout] at h
    · have finished {i : Instr} (hi : i = .fdecRead ∨ i = .fdecReadToEnd) (toEnd : Bool)
          (hbody : bodyOf i s s.snapshot = .ok (fdecReadDone (Reader.start s s.snapshot toEnd))) : exec i s = .next
            { s.okPlain s.snapshot 0 with fregs := { s.fregs with srcPos := BitVec.ofNat 32 s.fdec.pos } } := by
        rw [exec_read hi hr hst hfit hdst hapart hsrc hwindow hbody (.inl rfl), ← State.okState_nil]
        rfl
      exact ⟨finished (.inl rfl) false (fdecReadBody_finished hfin hpend false),
        finished (.inr rfl) true (fdecReadBody_finished hfin hpend true)⟩
  · rintro s A next rfl hs hst hfit hdst hapart hmark hsum hsize rfl hsink
    have hsrc : s.Plain (s.fdec.base + s.fdec.pos, s.fdec.len - s.fdec.pos) := by
      have := hmark.2.2.1
      rwa [State.frameRegion, if_neg (by simp [hst])] at this
    exact ⟨exec_read (.inr rfl) hs (.inl hst) hfit hdst hapart hsrc hsink.2.1
        (fdecReadBody_endMark hs (.inl rfl) hst hsink.1 hmark hsum hsize) hsink.takes,
      fun hlt => exec_read (.inl rfl) hs (.inl hst) hfit hdst hapart hsrc hsink.2.1
        (fdecReadBody_endMark hs (.inr hlt) hst hsink.1 hmark hsum hsize) hsink.takes⟩

end Sys2Proof.Machine
end

section
/-! PROOF. The reads of a frame deliver its plaintext in order (O59). -/

namespace Sys2Proof.Machine

/-- The bytes at a place that a write has filled are those written. -/
theorem Memory.bytes_write (m : Memory) (a : Nat) (v : Bytes) : Memory.bytes (Memory.write m a v) a v.length = v := by
  refine List.ext_getElem (Memory.bytes_length ..) fun k _ hk => ?_
  simp [Memory.bytes, Memory.read_write, hk]

/-! ## The reader's plaintext -/

/-- A record gives bytes that join the frame's plaintext and are pending behind it; an End Mark gives none. -/
theorem nextRecord_joins {s : State} {t u : Fdec} (h : nextRecord s t = .ok u) (hp : t.pend = []) :
    u.plain = t.plain ++ u.pend := by
  obtain ⟨w, -, h⟩ := bind_ok h
  split at h
  · obtain ⟨q, -, h⟩ := bind_ok h
    obtain ⟨-, h⟩ := guard_ok h
    obtain rfl := Except.ok.inj h
    simp [hp]
  split at h
  · obtain ⟨⟨payload, next⟩, -, h⟩ := bind_ok h
    obtain rfl := Except.ok.inj h
    rfl
  · obtain ⟨⟨payload, next⟩, -, h⟩ := bind_ok h
    obtain ⟨blk, -, h⟩ := bind_ok h
    obtain rfl := Except.ok.inj h
    rfl

/-- A record reader of a read of `s`, within its bounds: what it has delivered and has pending is what was pending at the start and,
behind it, the plaintext that has joined the frame since. -/
structure Reader.InOrder (s : State) (rd : Reader) : Prop where
  out : rd.out.length ≤ rd.cap
  want : ∀ n, rd.want = some n → rd.out.length ≤ n
  joined : ∃ new, rd.t.plain = s.fdec.plain ++ new ∧ rd.out ++ rd.t.pend = s.fdec.pend ++ new

theorem Reader.start_inOrder (s : State) (A : Args) (toEnd : Bool) : (Reader.start s A toEnd).InOrder s :=
  ⟨Nat.zero_le _, fun _ _ => Nat.zero_le _, [], (List.append_nil _).symm, (List.append_nil _).symm⟩

section
variable {s : State} {rd rd' : Reader} (hi : rd.InOrder s) (h : rd.deliver = .ok rd')
include hi h

theorem Reader.InOrder.deliver : rd'.InOrder s := by
  obtain ⟨hout, hwant, new, hplain, hpend⟩ := hi
  obtain ⟨rfl, hcap⟩ := Reader.deliver_ok h hout
  have hlen : (rd.out ++ rd.t.pend.take rd.due).length = rd.out.length + rd.due := by
    rw [List.length_append, List.length_take, Nat.min_eq_left rd.due_le_pend]
  refine ⟨hlen.trans_le hcap, fun n hn => hlen.trans_le ?_, new, hplain, ?_⟩
  · have := rd.due_le_want hn
    have := hwant n hn
    omega
  · rw [List.append_assoc, List.take_append_drop, hpend]

/-- A read that lacks bytes after a delivery has nothing pending. -/
theorem Reader.InOrder.pend_of_lacking (hn : rd'.enough = false) : rd'.t.pend = [] := by
  have hdeliv := hi.deliver h
  obtain ⟨rfl, -⟩ := Reader.deliver_ok h hi.out
  simp only [Reader.enough, Bool.or_eq_false_iff, beq_eq_false_iff_ne] at hn
  refine List.drop_eq_nil_of_le ?_
  cases hw : rd.want with
  | none => exact (Reader.due_toEnd hw).ge
  | some n =>
    have hle := hdeliv.want n hw
    have hne : n ≠ (rd.out ++ rd.t.pend.take rd.due).length := fun e => hn.1 (hw.trans (congrArg some e))
    simp only [List.length_append, List.length_take, Reader.due_want hw] at hle hne ⊢
    omega

end

theorem Reader.InOrder.record {s : State} {rd : Reader} (hi : rd.InOrder s) (hp : rd.t.pend = []) {u : Fdec}
    (hu : nextRecord s rd.t = .ok u) : ({ rd with t := u } : Reader).InOrder s := by
  obtain ⟨new, hplain, hpend⟩ := hi.joined
  rw [hp, List.append_nil] at hpend
  have hjoin := nextRecord_joins hu hp
  exact ⟨hi.out, hi.want, new ++ u.pend, by rw [hjoin, hplain, List.append_assoc], by rw [hpend, List.append_assoc]⟩

/-- The loop ends in order, and with all the bytes wanted or the frame finished. -/
theorem readLoop_inOrder (s : State) (n : Nat) : ∀ {rd rd' : Reader}, rd.InOrder s → readLoop s n rd = .ok rd' →
    rd'.InOrder s ∧ rd'.enough = true := by
  induction n with
  | zero => intro rd rd' _ h; exact absurd h (by simp [readLoop])
  | succ n ih =>
    intro rd rd' hi h
    obtain ⟨r1, h1, h⟩ := bind_ok h
    split at h
    · obtain rfl := Except.ok.inj h
      exact ⟨hi.deliver h1, ‹_›⟩
    · rename_i hne
      obtain ⟨t, ht, h⟩ := bind_ok h
      exact ih ((hi.deliver h1).record (hi.pend_of_lacking h1 (Bool.eq_false_iff.mpr hne)) ht) h

/-- What a read that succeeds completes with. -/
theorem fdecReadBody_ok {s : State} {A : Args} {toEnd : Bool} {d : Done} (h : fdecReadBody toEnd s A = .ok d) :
    ∃ rd, d = fdecReadDone rd ∧ rd.InOrder s ∧ rd.enough = true ∧ rd.want = (Reader.start s A toEnd).want := by
  obtain ⟨rd, hrd, h⟩ := bind_ok h
  obtain ⟨-, -, hwant⟩ := readLoop_within s _ (Nat.zero_le _) hrd
  obtain ⟨hi, hen⟩ := readLoop_inOrder s _ (Reader.start_inOrder s A toEnd) hrd
  exact ⟨rd, (Except.ok.inj h).symm, hi, hen, hwant⟩

/-- A read has enough with the number of bytes it wants, or where its frame is finished (R227). -/
theorem Reader.enough_iff {rd : Reader} : rd.enough = true ↔ rd.want = some rd.out.length ∨ rd.t.st = .finished := by
  simp [Reader.enough]

/-! ## A read that succeeds -/

/-- A command with output that succeeds on plain memory, not raced: RESULT is the output's length, and the output stands at the
append point. -/
theorem exec_output {i : Instr} {s t : State} (hi : i ∈ commands) (hw : writesDst i = true) (hr : s.raced = []) (hp : s.OnPlain i)
    (h : exec i s = .next t) (hs : t.Succeeded) :
    ∃ d, bodyOf i s s.snapshot = .ok d ∧ t.fdec = (d.commit s).fdec ∧ t.result.toNat = d.out.length ∧
      Memory.bytes t.mem s.snapshot.dstPoint d.out.length = d.out := by
  obtain ⟨d, hd, rfl⟩ := exec_noError hi hp h hs.1 hs.2
  have hspec := body_ok hd
  obtain ⟨hsnap, hraced⟩ := hspec.commit
  refine ⟨d, hd, State.complete_fdec .., ?_, ?_⟩
  · rw [State.complete_result, hspec.result_toNat hw]
  · rw [State.complete_calm (hraced.trans hr), hsnap]
    exact Memory.bytes_write ..

/-- A read that succeeds on plain memory, not raced, ends with a reader that is in order and has enough. -/
theorem exec_read_succeeds {i : Instr} {s t : State} (hi : i = .fdecRead ∨ i = .fdecReadToEnd) (hr : s.raced = [])
    (hp : s.OnPlain i) (h : exec i s = .next t) (hs : t.Succeeded) :
    ∃ rd : Reader, rd.InOrder s ∧ rd.enough = true ∧ (i = .fdecRead → rd.want = some s.snapshot.readLen.toNat) ∧
      (i = .fdecReadToEnd → rd.want = none) ∧ t.fdec = rd.t ∧ t.result.toNat = rd.out.length ∧
      Memory.bytes t.mem s.snapshot.dstPoint rd.out.length = rd.out := by
  rcases hi with rfl | rfl
  · obtain ⟨d, hd, hfdec, hres, hmem⟩ := exec_output (by decide) rfl hr hp h hs
    obtain ⟨rd, rfl, hord, hen, hwant⟩ := fdecReadBody_ok (toEnd := false) hd
    exact ⟨rd, hord, hen, fun _ => hwant, fun e => absurd e (by decide), hfdec, hres, hmem⟩
  · obtain ⟨d, hd, hfdec, hres, hmem⟩ := exec_output (by decide) rfl hr hp h hs
    obtain ⟨rd, rfl, hord, hen, hwant⟩ := fdecReadBody_ok (toEnd := true) hd
    exact ⟨rd, hord, hen, fun e => absurd e (by decide), fun _ => hwant, hfdec, hres, hmem⟩

/-- Settles O59, by induction over the read's loop: every delivery and every record keeps the plaintext in order. -/
theorem readsDeliverThePlaintextInOrder : Obligations.ReadsDeliverThePlaintextInOrder := by
  intro i s t hi hr hp h hs
  obtain ⟨rd, hord, hen, hread, hend, hfdec, hres, hmem⟩ := exec_read_succeeds hi hr hp h hs
  rw [Reader.enough_iff] at hen
  obtain ⟨new, hplain, hpend⟩ := hord.joined
  rw [hfdec, hres]
  refine ⟨⟨new, rd.out, hplain, hpend, rfl, hmem⟩, fun hi => ⟨hord.want _ (hread hi), fun hlt => ?_⟩, fun hi => ?_⟩
  · refine hen.resolve_left fun hw => ?_
    exact hlt.ne' (Option.some.inj ((hread hi).symm.trans hw))
  · exact hen.resolve_left fun hw => absurd ((hend hi).symm.trans hw) (by simp)

end Sys2Proof.Machine
end

section
/-! PROOF. Every transition of the frame decoder's state machine (O29). -/

namespace Sys2Proof.Machine

/-! ## What an error leaves in the frame decoder (R264) -/

theorem State.raise_fdec_usage (s : State) (i : Instr) {c : ErrCode} (hc : c.isUsage = true) : (s.raise i c).fdec = s.fdec := by
  obtain ⟨-, -, -, hfdec, -⟩ := s.raise_contexts i c
  rw [hfdec, State.spoil_usage hc]

/-- An error of a frame decoder's command beyond the usage errors takes the frame to ERROR. -/
theorem State.raise_fdec_error (s : State) {i : Instr} (hi : i ∈ [Instr.fdecOpen, .fdecRead, .fdecReadToEnd]) {c : ErrCode}
    (hc : c.isUsage = false) : (s.raise i c).fdec.st = .error := by
  obtain ⟨-, -, -, hfdec, -⟩ := s.raise_contexts i c
  have hspoil : s.spoil i c = failContext i (s.scramble s.snapshot.window) := if_neg (Bool.eq_false_iff.mp hc)
  rw [hfdec, hspoil]
  simp only [List.mem_cons, List.not_mem_nil, or_false] at hi
  rcases hi with rfl | rfl | rfl <;> rfl

/-! ## What a success leaves in it (R226, R227) -/

section
variable {s : State} {A : Args} {d : Done}

theorem fdecOpenBody_readingBlocks (h : fdecOpenBody s A = .ok d) : (d.commit s).fdec.st = .readingBlocks := by
  obtain ⟨x, -, h⟩ := bind_ok h
  obtain ⟨t, ht, h⟩ := bind_ok h
  obtain rfl := Except.ok.inj h
  obtain ⟨-, -, ht⟩ := bind_ok ht
  obtain ⟨t1, -, ht⟩ := bind_ok ht
  obtain ⟨sum, -, ht⟩ := bind_ok ht
  obtain ⟨opt, rfl⟩ := headerSum_ok ht
  rfl

theorem fdecReadBody_isOpen (hs : s.Inv) (ho : s.fdec.isOpen) {toEnd : Bool} (h : fdecReadBody toEnd s A = .ok d) :
    (d.commit s).fdec.isOpen := by
  obtain ⟨rd, hrd, h⟩ := bind_ok h
  obtain rfl := Except.ok.inj h
  exact (readLoop_serves s _ (Reader.start_serves hs ho A toEnd) hrd).st

end

/-! ## How each command ends -/

section
variable {i : Instr} {s t : State} (hi : i ∈ commands) (h : exec i s = .next t)
include hi h

/-- A command that its context's state forbids leaves the frame decoder. -/
theorem fdec_of_forbidden (hst : stateForbids i s = true) : t.lastError = some .badState ∧ t.fdec = s.fdec := by
  obtain rfl := Host.Outcome.next.inj ((exec_forbidden hi hst).symm.trans h)
  exact ⟨State.raise_lastError .., s.raise_fdec_usage i rfl⟩

variable (hp : s.OnPlain i) (he : t.engine = .idle)
include hp he

/-- A success of a command leaves the frame decoder as its body's commit does. -/
theorem fdec_of_success {Q : Fdec → Prop} (hok : ∀ d, bodyOf i s s.snapshot = .ok d → Q (d.commit s).fdec)
    (hn : t.lastError = none) : Q t.fdec := by
  obtain ⟨d, hd, rfl⟩ := exec_noError hi hp h he hn
  rw [State.complete_fdec]
  exact hok d hd

/-- A usage error leaves the frame decoder, and an error of the body takes it to ERROR. -/
theorem fdec_of_error (hfdec : i ∈ [Instr.fdecOpen, .fdecRead, .fdecReadToEnd]) {c : ErrCode} (hc : t.lastError = some c) :
    (c.isUsage = true → t.fdec = s.fdec) ∧ (¬c.isUsage = true → c ∈ bodyErrors i ∧ t.fdec.st = .error) := by
  obtain ⟨rfl, hcause⟩ := exec_error_cases hi hp h he hc
  refine ⟨s.raise_fdec_usage i, fun hu => ⟨?_, s.raise_fdec_error hfdec (Bool.eq_false_iff.mpr hu)⟩⟩
  exact hcause.resolve_left fun hc => hu (usageError_isUsage hc)

end

/-- A command whose body succeeds without output ends with a usage error or with that success. -/
theorem exec_silent {i : Instr} {s t : State} (hi : i ∈ commands) (hp : s.OnPlain i) (h : exec i s = .next t) {d : Done}
    (hbody : bodyOf i s s.snapshot = .ok d) (hout : d.out = []) :
    (∃ c, c.isUsage = true ∧ t = s.raise i c) ∨ t = (d.commit s).complete i d.out d.result := by
  rw [exec_command hi] at h
  cases hu : usageError i s s.snapshot with
  | some c =>
    rw [State.command_usage hu] at h
    exact .inl ⟨c, usageError_isUsage hu, (Host.Outcome.next.inj h).symm⟩
  | none =>
    rw [State.command_body hu, hbody, State.finish_ok (.inl hout) hp] at h
    exact .inr (Host.Outcome.next.inj h).symm

/-! ## The two forms of a read -/

section
variable {i : Instr} (hi : i = .fdecRead ∨ i = .fdecReadToEnd)
include hi

theorem bodyOf_read : ∃ toEnd, ∀ s A, bodyOf i s A = fdecReadBody toEnd s A := by
  rcases hi with rfl | rfl
  · exact ⟨false, fun _ _ => rfl⟩
  · exact ⟨true, fun _ _ => rfl⟩

theorem stateForbids_read (s : State) : stateForbids i s = stateForbids .fdecRead s := by
  rcases hi with rfl | rfl <;> rfl

theorem read_mem_fdec : i ∈ [Instr.fdecOpen, .fdecRead, .fdecReadToEnd] := List.mem_cons_of_mem _ (by simpa using hi)

variable {s t : State} (hp : s.OnPlain i) (h : exec i s = .next t)
include hp h

/-- A read of a finished frame leaves the frame decoder, with RESULT 0 or a usage error (R228). -/
theorem fdec_of_finished (hcmd : i ∈ commands) (hst : s.fdec.st = .finished) (hpend : s.fdec.pend = []) :
    t.fdec = s.fdec ∧ (t.lastError = none → t.result = 0) ∧ ∀ c, t.lastError = some c → c.isUsage = true := by
  obtain ⟨toEnd, hbody⟩ := bodyOf_read hi
  rcases exec_silent hcmd hp h ((hbody ..).trans (fdecReadBody_finished hst hpend toEnd)) rfl with ⟨c, hc, rfl⟩ | rfl
  · simp [s.raise_fdec_usage, hc]
  · simp [fdecReadDone, Reader.start]

end

/-- Settles O29: each command's errors and success as they bear on the frame decoder, and every other command's frame. -/
theorem frameDecoderStateMachine : Obligations.FrameDecoderStateMachine := by
  refine ⟨fun i s t hi hs h he => ⟨?_, ?_, ?_, ?_, fun hn => ((exec_endFrame hi h).fdec hn).1⟩, fun s t h => ?_⟩
  · rintro rfl hp
    exact ⟨fdec_of_success (Q := (·.st = .readingBlocks)) hi h hp he fun d hd => fdecOpenBody_readingBlocks hd,
      fun c hc => ite_prop_iff_and.mpr (fdec_of_error hi h hp he (by decide) hc)⟩
  · intro hread hst hp
    obtain ⟨toEnd, hbody⟩ := bodyOf_read hread
    exact ⟨fdec_of_success (Q := Fdec.isOpen) hi h hp he fun d hd => fdecReadBody_isOpen hs (.inl hst) ((hbody ..).symm.trans hd),
      fun c hc => ite_prop_iff_and.mpr ((fdec_of_error hi h hp he (read_mem_fdec hread) hc).imp_right fun herr hu => (herr hu).2)⟩
  · intro hread hst hp
    exact fdec_of_finished hread hp h hi hst ((hs.frame (.inr hst)).finished hst).1
  · intro hread hst
    refine fdec_of_forbidden hi h ((stateForbids_read hread s).trans ?_)
    rcases hst with e | e <;> exact fdecRead_forbidden (by simp [e]) (by simp [e])
  · obtain rfl := Host.Outcome.next.inj h
    rfl

end Sys2Proof.Machine
end

section
/-! PROOF. The errors as such: which codes each command can report (O22), and what an error completion leaves (O23). -/

namespace Sys2Proof.Machine

/-! ## The codes of a command (R262) -/

/-- A usage error names the check that found it (R263). -/
theorem usageError_check {i : Instr} {s : State} {A : Args} {c : ErrCode} (h : usageError i s A = some c) :
    (c = .badState ∧ stateForbids i s = true) ∨ (c = .badConfig ∧ configForbids i s A = true) ∨
      (c = .badRange ∧ rangeBad i s A = true) ∨ (c = .overlap ∧ overlapBad i s A = true) := by
  unfold usageError at h
  split at h
  · exact .inl ⟨(Option.some.inj h).symm, ‹_›⟩
  split at h
  · exact .inr (.inl ⟨(Option.some.inj h).symm, ‹_›⟩)
  split at h
  · exact .inr (.inr (.inl ⟨(Option.some.inj h).symm, ‹_›⟩))
  split at h
  · exact .inr (.inr (.inr ⟨(Option.some.inj h).symm, ‹_›⟩))
  · exact absurd h (by simp)

section
variable {i : Instr} {s : State} {A : Args}

/-- Only a command of a context that can forbid it has a state check. -/
theorem badState_mem_raisedBy (h : stateForbids i s = true) : ErrCode.badState ∈ raisedBy i := by
  cases i with
  | sesEnc | sesDec | fencWrite | fencClose | fdecRead | fdecReadToEnd => decide
  | _ => exact absurd h Bool.false_ne_true

/-- Only `FENC_OPEN` has a configuration check. -/
theorem badConfig_mem_raisedBy (h : configForbids i s A = true) : ErrCode.badConfig ∈ raisedBy i := by
  obtain ⟨hi, -⟩ := (Bool.and_eq_true ..).mp h
  obtain rfl := eq_of_beq hi
  decide

/-- Every command but `BLK_BOUND` uses a region. -/
theorem badRange_mem_raisedBy (h : rangeBad i s A = true) : ErrCode.badRange ∈ raisedBy i := by
  cases i with
  | blkBound | token | lenext | offset | seq | last | magic | flg | bd | hc | blockwordLz4 | blockwordRaw | endMark =>
    exact absurd h Bool.false_ne_true
  | _ => decide

/-- Only a command that writes its destination and reads a region has an overlap check; `FENC_CLOSE` reads none. -/
theorem overlap_mem_raisedBy (h : overlapBad i s A = true) : ErrCode.overlap ∈ raisedBy i := by
  obtain ⟨hw, hr⟩ := (Bool.and_eq_true ..).mp h
  cases i with
  | blkEncode | blkDecode | sesEnc | sesDec | fencOpen | fencWrite | fdecRead | fdecReadToEnd => decide
  | fencClose => exact absurd hr Bool.false_ne_true
  | _ => exact absurd hw Bool.false_ne_true

theorem usageError_mem_raisedBy {c : ErrCode} (h : usageError i s A = some c) : c ∈ raisedBy i := by
  rcases usageError_check h with ⟨rfl, hcheck⟩ | ⟨rfl, hcheck⟩ | ⟨rfl, hcheck⟩ | ⟨rfl, hcheck⟩
  · exact badState_mem_raisedBy hcheck
  · exact badConfig_mem_raisedBy hcheck
  · exact badRange_mem_raisedBy hcheck
  · exact overlap_mem_raisedBy hcheck

end

theorem bodyErrors_subset_raisedBy (i : Instr) : bodyErrors i ⊆ raisedBy i := by
  cases i with
  | token | lenext | offset | seq | last | magic | flg | bd | hc | blockwordLz4 | blockwordRaw | endMark =>
    exact List.nil_subset _
  | _ => decide

/-- Settles O22: an error of a command is its usage checks' or its body's, and both raise only what the table gives the command. -/
theorem errorCodes : Obligations.ErrorCodes := by
  refine ⟨rfl, fun i s t c hi hp h ⟨hidle, hc⟩ => ?_⟩
  obtain ⟨-, hu | hb⟩ := exec_error_cases hi hp h hidle hc
  · exact usageError_mem_raisedBy hu
  · exact bodyErrors_subset_raisedBy i hb

/-! ## What an error leaves (R264, R267) -/

section
variable (i : Instr) (s : State)

theorem failContext_eses :
    (failContext i s).eses = if i = .sesEnc then { s.eses with st := .poisoned } else s.eses := by
  cases i <;> rfl

theorem failContext_dses :
    (failContext i s).dses = if i = .sesDec then { s.dses with st := .poisoned } else s.dses := by
  cases i <;> rfl

theorem failContext_fenc_st :
    (failContext i s).fenc.st = if i = .fencOpen ∨ i = .fencWrite ∨ i = .fencClose then .error else s.fenc.st := by
  cases i <;> rfl

theorem failContext_fdec_st :
    (failContext i s).fdec.st = if i = .fdecOpen ∨ i = .fdecRead ∨ i = .fdecReadToEnd then .error else s.fdec.st := by
  cases i <;> rfl

theorem failContext_fregs : (failContext i s).fregs = if i = .fdecOpen then ⟨0, 0, 0, 0, 0⟩ else s.fregs := by
  cases i <;> rfl

end

/-- A codec or a format error leaves the contexts as the failure of the command's own does, whatever stands in the destination
window. -/
theorem State.raise_contexts_failed (s : State) (i : Instr) {c : ErrCode} (hc : c.isUsage = false) :
    (s.raise i c).eses = (failContext i s).eses ∧ (s.raise i c).dses = (failContext i s).dses ∧
      (s.raise i c).fenc = (failContext i s).fenc ∧ (s.raise i c).fdec = (failContext i s).fdec ∧
      (s.raise i c).fregs = (failContext i s).fregs := by
  have hspoil : s.spoil i c = failContext i (s.scramble s.snapshot.window) := if_neg (Bool.eq_false_iff.mp hc)
  obtain ⟨heses, hdses, hfenc, hfdec, hfregs⟩ := s.raise_contexts i c
  rw [heses, hdses, hfenc, hfdec, hfregs, hspoil]
  cases i <;> exact ⟨rfl, rfl, rfl, rfl, rfl⟩

/-- Settles O23: a usage error is the spec's error completion, and any other is that with the window open and the command's own
context failed. -/
theorem errorCompletion : Obligations.ErrorCompletion := by
  rintro i s t c hi hr hp h ⟨hidle, hc⟩
  have hframe := exec_endFrame hi h
  obtain ⟨rfl, -⟩ := exec_error_cases hi hp h hidle hc
  refine ⟨s.raise_result i c, s.raise_args i c, s.raise_done i c, s.raise_irqPending i c, hframe.host, fun hu => ?_, fun hn => ?_⟩
  · exact State.raise_usage hr i (decide_eq_true hu)
  · have hfailed : c.isUsage = false := decide_eq_false (Nat.not_le.mpr hn)
    obtain ⟨heses, hdses, hfenc, hfdec, hfregs⟩ := s.raise_contexts_failed i hfailed
    refine ⟨hframe.memory, heses.trans (failContext_eses i s), hdses.trans (failContext_dses i s), ?_, ?_, fun ho hw hcl => ?_,
      fun ho hrd hend => ?_, hfregs.trans (failContext_fregs i s)⟩
    · rw [hfenc, failContext_fenc_st]
    · rw [hfdec, failContext_fdec_st]
    · exact hframe.fenc (by simp [ho, hw, hcl])
    · exact (hframe.fdec (by simp [ho, hrd, hend])).1

end Sys2Proof.Machine
end

section
/-! PROOF. The writes LZ4CB ignores (O15), and reset (O11). -/

namespace Sys2Proof.Machine

/-! ## Ignored writes -/

/-- A write of any width where a register write changes nothing. -/
theorem State.hostOp_write_ignored {off : Nat} (h : off < 256) {v : Word} {s : State} (hw : s.csrWrite off v = s) (width : Nat) :
    s.hostOp (.write (s.cfg.csrBase + off) width v) = .next s := by
  by_cases hok : width = 4 ∧ off % 4 = 0
  · obtain ⟨rfl, h4⟩ := hok
    rw [State.hostOp_write h h4, hw]
  · exact (State.hostOp_unsupported h hok v s).1

/-- A write to an offset that is not CMD, IRQ_EN or IRQ_STATUS concerns the argument registers, and these only while idle. -/
theorem State.csrWrite_args {off : Nat} (h0 : off ≠ 0) (h54 : off ≠ 0x54) (h58 : off ≠ 0x58) (v : Word) (s : State) :
    s.csrWrite off v = if s.busy then s else { s with args := s.args.write off v } := by
  unfold State.csrWrite
  split
  · exact absurd rfl h0
  · exact absurd rfl h54
  · exact absurd rfl h58
  · rfl

/-- The argument registers stand at the offsets from 8 to 0x38 (spec/10_state.md R26 to R34). -/
theorem Args.write_elsewhere {off : Nat} (h : off < 0x08 ∨ 0x38 < off) (A : Args) (v : Word) : A.write off v = A := by
  unfold Args.write
  split <;> simp at h ⊢

/-- The read-only registers and the reserved offsets ignore a write, busy or idle. -/
theorem State.csrWrite_readOnly {off : Nat} (h : off = 0x04 ∨ 0x3C ≤ off ∧ off ≤ 0x50 ∨ 0x5C ≤ off) (v : Word) (s : State) :
    s.csrWrite off v = s := by
  rw [State.csrWrite_args (by omega) (by omega) (by omega), Args.write_elsewhere (by omega), ite_self]

/-- While BUSY every register but the two of the interrupt ignores a write (spec/70_reset_and_hazards.md R294, R295). -/
theorem State.csrWrite_busy {s : State} (hb : s.busy = true) {off : Nat} (h54 : off ≠ 0x54) (h58 : off ≠ 0x58) (v : Word) :
    s.csrWrite off v = s := by
  by_cases h0 : off = 0
  · subst h0
    exact if_pos hb
  · rw [State.csrWrite_args h0 h54 h58, if_pos hb]

/-- Reserved offsets read 0 (spec/10_state.md R42). -/
theorem State.csrRead_reserved {off : Nat} (h : 0x5C ≤ off) (s : State) : s.csrRead off = 0 := by
  unfold State.csrRead
  split <;> simp at h ⊢

/-- Settles O15: outside CMD, IRQ_EN and IRQ_STATUS a register write reaches the argument registers alone, and while BUSY only
IRQ_EN and IRQ_STATUS take one. -/
theorem ignoredWrites : Obligations.IgnoredWrites := by
  intro s off width v h
  refine ⟨fun hr => s.csrRead_reserved hr, rfl, fun hro => State.hostOp_write_ignored h (s.csrWrite_readOnly hro v) width,
    fun hb h54 h58 => State.hostOp_write_ignored h (State.csrWrite_busy hb h54 h58 v) width, fun _ => ⟨?_, ?_⟩⟩
  · exact State.hostOp_write (by decide) (by decide) v s
  · exact (State.hostOp_write (by decide) (by decide) v s).trans (congrArg _ (s.csrWrite_irqStatus v))

/-! ## Memory at a reset -/

theorem State.run?_eq_some_iff {s : State} {r : Run} : s.run? = some r ↔ s.engine = .running r ∨ s.engine = .stuck r := by
  unfold State.run?
  cases s.engine <;> simp

/-- The window that is open: that of a command under way, running or stuck, that opens one (log entry 23). -/
theorem State.openWindow?_eq_some_iff {s : State} {w : Region} : s.openWindow? = some w ↔
    ∃ r i, s.run? = some r ∧ decodeCommand r.word = some i ∧ opensDst i = true ∧ r.args.window = w := by
  unfold State.openWindow?
  cases s.run? with
  | none => simp
  | some r =>
    cases hd : decodeCommand r.word with
    | none => simp [hd]
    | some i => simp [hd]

/-- Where no window is open a reset changes no memory. -/
theorem State.hardReset_mem {s : State} (h : ∀ w, s.openWindow? ≠ some w) : s.hardReset.mem = s.mem := by
  have hnone : s.openWindow? = none := Option.eq_none_iff_forall_ne_some.mpr h
  simp only [State.hardReset, hnone]

/-- A reset changes no byte outside the open window. -/
theorem State.hardReset_read {s : State} {a : Nat} (h : ∀ w, s.openWindow? = some w → Region.holds w a = false) :
    Memory.read s.hardReset.mem a = Memory.read s.mem a := by
  cases hw : s.openWindow? with
  | none => rw [State.hardReset_mem (by simp [hw])]
  | some w =>
    simp only [State.hardReset, hw]
    exact s.scramble_mem w a (h w hw)

/-- `BLK_BOUND` and the session resets open no window. -/
theorem opensDst_of_silent : ∀ i ∈ [Instr.blkBound, .sesEncReset, .sesEncResetLinked, .sesDecReset, .sesDecResetLinked],
    opensDst i = false := by decide

/-! ## A stuck command -/

/-- No register write ends a command under way. -/
theorem State.csrWrite_busy_engine {s : State} (hb : s.busy = true) (off : Nat) (v : Word) :
    (s.csrWrite off v).engine = s.engine := by
  by_cases h54 : off = 0x54
  · subst h54
    rfl
  by_cases h58 : off = 0x58
  · subst h58
    rfl
  rw [State.csrWrite_busy hb h54 h58]

/-- The host's writes to memory go beside a stuck command and leave it stuck. -/
theorem State.noteRace_stuck {s : State} {r : Run} (he : s.engine = .stuck r) (a : Nat) (bs : Bytes) :
    ∃ r', (s.noteRace a bs).engine = .stuck r' := by
  simp only [State.noteRace, he]
  exact ⟨_, rfl⟩

/-- No access of the host ends a stuck command, only reset does (log entry 4). -/
theorem State.hostOp_stuck {s t : State} {r : Run} {op : HostOp} (he : s.engine = .stuck r) (hop : op ≠ .reset)
    (h : s.hostOp op = .next t) : ∃ r', t.engine = .stuck r' := by
  have hb : s.busy = true := by simp only [State.busy, he]
  unfold State.hostOp at h
  cases op with
  | write addr width v =>
    dsimp only at h
    split at h
    · cases h
      split
      · exact ⟨r, (State.csrWrite_busy_engine hb _ v).trans he⟩
      · exact ⟨r, he⟩
    · cases h
      exact ⟨r, he⟩
  | read addr width =>
    dsimp only at h
    split at h <;> cases h <;> exact ⟨r, he⟩
  | memWrite addr bs =>
    dsimp only at h
    split at h
    · cases h
      exact State.noteRace_stuck he addr bs
    · cases h
  | memRead addr =>
    dsimp only at h
    split at h
    · cases h
      exact ⟨r, he⟩
    · cases h
  | wait =>
    cases h
    simp only [hb, if_true]
    exact ⟨r, he⟩
  | reset => exact absurd rfl hop

/-- Settles O11: a reset scrambles the open window and nothing else of memory, and every other field of LZ4CB is the reset
state's. -/
theorem resetInput : Obligations.ResetInput := by
  refine ⟨fun s => ⟨s.hardReset, rfl, rfl, fun he => State.hardReset_mem ?_, fun r hr => ?_⟩, fun s t r op => State.hostOp_stuck⟩
  · simp [State.openWindow?_eq_some_iff, State.run?_eq_some_iff, he]
  · have hopen {w : Region} (hw : s.openWindow? = some w) :
        ∃ i, decodeCommand r.word = some i ∧ opensDst i = true ∧ r.args.window = w := by
      obtain ⟨q, i, hq, hi⟩ := State.openWindow?_eq_some_iff.mp hw
      obtain rfl : r = q := Option.some.inj ((State.run?_eq_some_iff.mpr hr).symm.trans hq)
      exact ⟨i, hi⟩
    refine ⟨fun a ha => State.hardReset_read fun w hw => ?_, fun hd => State.hardReset_mem fun w hw => ?_,
      fun i hd hi => State.hardReset_mem fun w hw => ?_⟩
    · obtain ⟨-, -, -, rfl⟩ := hopen hw
      exact ha
    · obtain ⟨i, hi, -⟩ := hopen hw
      exact absurd (hd.symm.trans hi) (by simp)
    · obtain ⟨j, hj, ho, -⟩ := hopen hw
      obtain rfl : i = j := Option.some.inj (hd.symm.trans hj)
      exact absurd ho (by simp [opensDst_of_silent i hi])

end Sys2Proof.Machine
end
